-- ==== Sys2Proof/Word.lean ====
section
/-! DEFINITION. The one word of this hardware is the unsigned byte of rule R11. -/

namespace Sys2Proof

/-- A byte, 0x00 to 0xFF, unsigned; wrapping and masking are those of rule R11. -/
abbrev Byte := BitVec 8

end Sys2Proof
end

