-- ==== Sys2Proof/Syntax.lean ====
section
/-! DEFINITION. The syntax: the chip registers, the closed enumerations of the spec, operand forms, and `Instr`, one constructor
per row of spec/opcode_table.json. An instruction is a transport frame, a PCD command, a frame to the card, a response of the
card, a host operation or a pseudo-operation. -/

namespace Sys2Proof

/-- The chip registers the controller uses, all of the table of rule R31. -/
inductive Reg where
  | command | comIrq | divIrq | error | status2 | fifoData | fifoLevel | control | bitFraming | coll
  | mode | txControl | txAsk | crcResultH | crcResultL | tMode | tPrescaler | tReloadH | tReloadL
  deriving DecidableEq, Repr

/-- The level of the reset output line (R23, R121). -/
inductive LineLevel where
  | low | high
  deriving DecidableEq, Repr

/-- The PCD commands of rule R92. -/
inductive PcdCommand where
  | idle | calcCrc | transceive | mfAuthent | softReset
  deriving DecidableEq, Repr

/-- The two PCD commands a PICC transaction may issue (R206). -/
inductive PiccCommand where
  | transceive | mfAuthent
  deriving DecidableEq, Repr

/-- The cascade levels CL1, CL2, CL3 (R28, R104). -/
inductive CascadeLevel where
  | cl1 | cl2 | cl3
  deriving DecidableEq, Repr

/-- The key-type tag of a MIFARE key (R47). -/
inductive KeyType where
  | a | b
  deriving DecidableEq, Repr

/-- A MIFARE key: a 6-byte secret and its tag (R47, R182). -/
structure Key where
  kind  : KeyType
  bytes : Vector Byte 6
  deriving DecidableEq, Repr

/-- The card types of rule R225's reference table. -/
inductive CardType where
  | mifareClassic1K | mifareMini | mifareClassic4K | mifareUltralight | iso14443_4 | iso18092
  deriving DecidableEq, Repr

/-- A name of a host program, as ASCII bytes (R109). -/
abbrev Name := List Byte

/-- An operand of a host operation: written out, or the name an earlier line bound to its result (R109; log entry 14). -/
inductive Arg (α : Type) where
  | lit (a : α)
  | name (n : Name)
  deriving DecidableEq, Repr

/-- The instructions: one constructor per row of spec/opcode_table.json, in the table's order. -/
inductive Instr where
  -- register transport frames and the reset line (40_transport.md)
  | regWrite (r : Reg) (v : Byte)
  | regWriteN (r : Reg) (bytes : List Byte)
  | regRead (r : Reg)
  | regReadN (r : Reg) (n : Nat) (rxAlign : BitVec 3)
  | resetLine (level : LineLevel)
  -- PCD commands (30_encoding.md R92)
  | pcdIdle
  | pcdCalcCrc
  | pcdTransceive
  | pcdMfAuthent
  | pcdSoftReset
  -- frames to the card (30_encoding.md R94 to R103); lo and hi are the frame's CRC_A trailer
  | reqa
  | wupa
  | hlta (lo hi : Byte)
  | anticollCL1 (nvb : Byte) (uidBits : List Byte)
  | selectCL1 (uid : Vector Byte 4) (lo hi : Byte)
  | anticollCL2 (nvb : Byte) (uidBits : List Byte)
  | selectCL2 (uid : Vector Byte 4) (lo hi : Byte)
  | anticollCL3 (nvb : Byte) (uidBits : List Byte)
  | selectCL3 (uid : Vector Byte 4) (lo hi : Byte)
  | mfAuthA (block : Byte) (key : Vector Byte 6) (uidLast4 : Vector Byte 4)
  | mfAuthB (block : Byte) (key : Vector Byte 6) (uidLast4 : Vector Byte 4)
  | mfRead (block lo hi : Byte)
  | mfWrite (block lo hi : Byte)
  | mfWriteData (data : Vector Byte 16) (lo hi : Byte)
  -- responses of the card (30_encoding.md R91, R98 to R103)
  | atqa (b0 b1 : Byte)
  | anticollResponse (bytes : List Byte) (validBits : BitVec 3)
  | sak (sak lo hi : Byte)
  | cascadeTag
  | mfReadResponse (data : Vector Byte 16) (lo hi : Byte)
  | mfAck (high : BitVec 4)
  -- host operations (30_encoding.md R108)
  | init
  | setAntennaState (on : Arg Bool)
  | isCardPresent
  | select
  | mifareAuth (key : Key) (block : Arg Byte)
  | mifareStopCrypto1
  | mifareRead (block : Arg Byte)
  | mifareWrite (block : Arg Byte) (data : Arg (List Byte))
  | calculateCrc (data : Arg (List Byte))
  | transceivePicc (cmd : PiccCommand) (tx : List Byte) (txLastBits rxAlign : BitVec 3) (want : Bool)
  | cardType (sak : Arg Byte)
  | getSak (type : Arg CardType)
  | makeStore
  | getCapacity (store : Name)
  | authenticate (store : Name) (block : Arg Byte)
  | readBlock (store : Name) (block : Arg Byte)
  | writeBlock (store : Name) (block : Arg Byte) (data : Arg (List Byte))
  | readBytes (store : Name)
  | writeBytes (store : Name) (data : Arg (List Byte))
  -- pseudo-operations (30_encoding.md R110)
  | antennaOn
  | antennaOff
  | endSession
  deriving DecidableEq, Repr

/-- The operations a host calls (R108), the `op` of a sequencer position (R29). -/
inductive HostOp where
  | init | setAntennaState | isCardPresent | select | mifareAuth | mifareStopCrypto1 | mifareRead | mifareWrite
  | calculateCrc | cardType | getSak | makeStore | getCapacity | authenticate | readBlock | writeBlock | readBytes | writeBytes
  deriving DecidableEq, Repr

/-- One line of a program: an optional name for the result, and the operation (R109). -/
structure Line where
  bind  : Option Name
  instr : Instr
  deriving DecidableEq, Repr

/-- Which response of the card a response row is, named by what it answers (the first column of rule R91's table). -/
inductive ResponseTo where
  | reqa | anticoll | select | read | write
  deriving DecidableEq, Repr

/-- The encoded spaces of rule R85 and of the opcode table's `format` column. Nothing in a byte says which space it is of: the
context of an exchange does. `hostOp` holds host operations and pseudo-operations, both written as lines of R109. `transaction` is the
space of `transceivePicc`, which the spec gives operands (R108) but, as the host cannot call it, no text (log entry 13). -/
inductive Format where
  | spiWrite | spiRead | resetLine | pcdCommand | piccShortFrame | piccFrame | uidFieldByte
  | piccResponse (answering : ResponseTo)
  | transaction
  | hostOp
  deriving DecidableEq, Repr

/-- An encoded instruction: its space, the bit framing that goes with its bytes, and the bytes in the order they are sent.
`framing` is the BitFraming byte of rule R87 for a frame to the card, and the valid-bit count of the last byte (R91) for a response. The spec
gives no bits to the operand `rxAlign` of a read frame (R120) nor to the bit counts of a transaction (R206): that they stand here too, where
BitFramingReg has them, is the model's (DESIGN CHOICE, log entry 13). `framing` is 0 elsewhere. -/
structure Encoded where
  format  : Format
  framing : Byte
  bytes   : List Byte
  deriving DecidableEq, Repr

end Sys2Proof
end

