-- ==== Sys2Proof/Config.lean ====
section
/-! DEFINITION. The configuration record of rule R9 (a machine takes one as an argument: it stands in State), the parameters the source
fixes, and the free values: what the environment answers where the state scripts no answer. -/

namespace Sys2Proof

/-! ### The configuration record (R9) -/

/-- `regIndex(r)`: the 6-bit index of each chip register of rule R31. -/
structure RegIndex where
  command    : BitVec 6
  comIrq     : BitVec 6
  divIrq     : BitVec 6
  error      : BitVec 6
  status2    : BitVec 6
  fifoData   : BitVec 6
  fifoLevel  : BitVec 6
  control    : BitVec 6
  bitFraming : BitVec 6
  coll       : BitVec 6
  mode       : BitVec 6
  txControl  : BitVec 6
  txAsk      : BitVec 6
  crcResultH : BitVec 6
  crcResultL : BitVec 6
  tMode      : BitVec 6
  tPrescaler : BitVec 6
  tReloadH   : BitVec 6
  tReloadL   : BitVec 6
  deriving DecidableEq, Repr

/-- The bit positions of the chip register fields used (R32 to R40): the bit of a one-bit field, the lowest bit of a longer one.
BitFramingReg's two fields are where the source's formula puts them (R87), and a command code stands in bits 3..0 of the byte that is
written (R32), so neither is a parameter. -/
structure FieldPos where
  powerDown       : BitVec 3   -- CommandReg (R32)
  set1            : BitVec 3   -- ComIrqReg (R33)
  set2            : BitVec 3   -- DivIrqReg (R34)
  rxIrq           : BitVec 3
  idleIrq         : BitVec 3
  timerIrq        : BitVec 3
  crcIrq          : BitVec 3   -- DivIrqReg (R34)
  bufferOvfl      : BitVec 3   -- ErrorReg (R35)
  collErr         : BitVec 3
  parityErr       : BitVec 3
  protocolErr     : BitVec 3
  mfCrypto1On     : BitVec 3   -- Status2Reg (R36)
  flushBuffer     : BitVec 3   -- FIFOLevelReg (R37)
  rxLastBits      : BitVec 3   -- ControlReg (R38), 3 bits
  startSend       : BitVec 3   -- BitFramingReg (R38)
  collPosNotValid : BitVec 3   -- CollReg (R39)
  collPos         : BitVec 3   -- CollReg (R39), 5 bits
  tx1RfEn         : BitVec 3   -- TxControlReg (R40)
  tx2RfEn         : BitVec 3
  deriving DecidableEq, Repr

/-- `PCD_CMD(c)`: the 4-bit code of each PCD command (R92). -/
structure PcdCodes where
  idle       : BitVec 4
  calcCrc    : BitVec 4
  transceive : BitVec 4
  mfAuthent  : BitVec 4
  softReset  : BitVec 4
  deriving DecidableEq, Repr

/-- `PICC_CMD(c)`: the byte of each PICC command (R93). The cascade tag is the source's own (`Config.cascadeTag`). -/
structure PiccBytes where
  reqa   : Byte
  wupa   : Byte
  hlta   : Byte
  selCl1 : Byte
  selCl2 : Byte
  selCl3 : Byte
  read   : Byte
  write  : Byte
  authA  : Byte
  authB  : Byte
  deriving DecidableEq, Repr

/-- `TMODE_VALUE`, `TPRESCALER_VALUE`, `TRELOAD_VALUE`, `TXASK_VALUE` and `MODE_VALUE` (R134 to R136). -/
structure InitValues where
  tMode      : Byte
  tPrescaler : Byte
  tReload    : BitVec 16
  txAsk      : Byte
  mode       : Byte
  deriving DecidableEq, Repr

/-- `SPI_MODE` (R69, R125, D37): clock polarity and phase, bit order and clock rate. That its form is this record is the model's choice
(log entry 5); no rule depends on it. -/
structure SpiMode where
  clockPolarity : Bool
  clockPhase    : Bool
  msbFirst      : Bool
  clockHz       : Nat
  deriving DecidableEq, Repr, Inhabited

/-- The parameters of rule R9 that the source does not fix. -/
structure Params where
  /-- `regIndex(r)`. -/
  regIndex       : RegIndex
  /-- `field positions`. -/
  fields         : FieldPos
  /-- `PCD_CMD(c)`. -/
  pcd            : PcdCodes
  /-- `PICC_CMD(c)`. -/
  picc           : PiccBytes
  /-- `FORBIDDEN`: the blocks the store never touches. -/
  forbidden      : List Byte
  /-- `RESET_POLL_LIMIT`: power-down polls before init gives up. -/
  resetPollLimit : Nat
  /-- `FIFO_LEVEL_MASK`: the bits of FIFOLevelReg holding the count. -/
  fifoLevelMask  : Byte
  /-- `FIFO_SIZE`: the longest data a host `calculateCrc` may pass. -/
  fifoSize       : Nat
  /-- The values init writes. -/
  initValues     : InitValues
  /-- `CARD_TYPES`: the SAK to card-type table. -/
  cardTypes      : List (Byte × CardType)
  /-- `SPI_MODE`. -/
  spiMode        : SpiMode
  deriving DecidableEq, Repr

/-- The indices in the order of rule R31's table. -/
def RegIndex.list (x : RegIndex) : List (BitVec 6) :=
  [x.command, x.comIrq, x.divIrq, x.error, x.status2, x.fifoData, x.fifoLevel, x.control, x.bitFraming, x.coll,
   x.mode, x.txControl, x.txAsk, x.crcResultH, x.crcResultL, x.tMode, x.tPrescaler, x.tReloadH, x.tReloadL]

/-- The codes in the order of rule R92's table. -/
def PcdCodes.list (x : PcdCodes) : List (BitVec 4) := [x.idle, x.calcCrc, x.transceive, x.mfAuthent, x.softReset]

/-- The bytes in the order of rule R93's table. -/
def PiccBytes.list (x : PiccBytes) : List Byte :=
  [x.reqa, x.wupa, x.hlta, x.selCl1, x.selCl2, x.selCl3, x.read, x.write, x.authA, x.authB]

/-- The fields of one register lie inside it and do not overlap (R32 to R40). -/
def FieldPos.legal (f : FieldPos) : Bool :=
  decide ([f.set1, f.rxIrq, f.idleIrq, f.timerIrq].Nodup ∧ [f.bufferOvfl, f.collErr, f.parityErr, f.protocolErr].Nodup ∧
    f.tx1RfEn ≠ f.tx2RfEn ∧ f.set2 ≠ f.crcIrq ∧ f.startSend ∈ [3#3, 7#3] ∧ f.rxLastBits.toNat ≤ 5 ∧ f.collPos.toNat ≤ 3 ∧
    (f.collPosNotValid.toNat < f.collPos.toNat ∨ f.collPos.toNat + 5 ≤ f.collPosNotValid.toNat))

/-- What every configuration satisfies: registers, PCD commands and PICC commands are told apart by their numbers (R31, R92, R93, closed
enumerations), the fields of a register do not overlap, CARD_TYPES is one to one and holds 0x08 ↔ MIFARE_CLASSIC_1K (R225, D33),
RESET_POLL_LIMIT is at least 1 (D12), and a response is at most 127 bytes long (R21). That a configuration keeps its numbers and its
fields apart is DEDUCED (log entry 15). -/
def Params.legal (p : Params) : Bool :=
  decide (p.regIndex.list.Nodup ∧ p.pcd.list.Nodup ∧ p.picc.list.Nodup ∧ p.fields.legal = true ∧
    (p.cardTypes.map Prod.fst).Nodup ∧ (p.cardTypes.map Prod.snd).Nodup ∧ (0x08#8, CardType.mifareClassic1K) ∈ p.cardTypes ∧
    1 ≤ p.resetPollLimit ∧ p.fifoLevelMask.toNat ≤ 127)

/-- A configuration (R9). -/
structure Cfg extends Params where
  legal : toParams.legal = true
  deriving DecidableEq, Repr

end Sys2Proof

/-! ### The transaction abstraction (R218) -/

namespace Sys2Proof.Machine

/-- The reply of the card to one transaction (R218); `coll` is the position of the first collision. -/
inductive Reply where
  | silent
  | garbled (e : Byte)
  | reply (bytes : List Byte) (validBits : BitVec 3) (coll : Option Nat)
  deriving DecidableEq, Repr, Inhabited

/-- How a PICC transaction is run: by its register accesses, as the strict model does, or as one step from the card's reply (R218). -/
inductive Grain where
  | registers | transactions
  deriving DecidableEq, Repr

end Sys2Proof.Machine

namespace Sys2Proof.Config

/-! ### Free values: the oracles of rules R42 and R43, the draw of rule R275 (log entries 1, 2, 3) -/

/-- The byte the chip answers when a register value is read and the state scripts no answer (R42): under no law. -/
opaque freeRead : Nat → Byte

/-- The MISO byte of a position no rule reads (R122): every byte of a write frame and the first byte of a read frame. -/
opaque freeIgnored : Nat → Byte

/-- How many deadline queries of one poll loop answer false before one answers true (R43). Every fair sequence of answers is of
this form, so the number is the whole draw. -/
opaque freeBudget : Nat → Nat

/-- The card's reply to a transaction of the abstraction, where the state scripts none (R218). -/
opaque freeReply : Nat → Machine.Reply

/-- Whether the reset line is high at construction (R275, D31): a draw. -/
opaque resetLineHigh : Bool

/-! ### The OPEN parameters (log entries 4 and 5) -/

/-- One less than the `RESET_POLL_LIMIT` of the reference configuration (R9, R132, D12): OPEN. -/
opaque resetPollExtra : Nat

/-- The `SPI_MODE` of the reference configuration (R9, R125, D37): OPEN. -/
opaque spiMode : SpiMode

/-! ### The parameters the source fixes (R9, marked *src*) -/

/-- `NVB_SELECT` (R9, R88). -/
def nvbSelect : Byte := 0x70
/-- `CT`, the cascade tag (R9, R93). -/
def cascadeTag : Byte := 0x88
/-- `MF_ACK`, the accept nibble (R9, R188). -/
def mfAck : BitVec 4 := 0xA
/-- `CRC_PRESET` (R9, R200). -/
def crcPreset : BitVec 16 := 0x6363
/-- `MAX_SUBITER`, the transactions allowed per cascade level (R9, R149). -/
def maxSubIter : Nat := 32
/-- `BLOCK_LEN` (R9). -/
def blockLen : Nat := 16
/-- `BLOCKS` (R9). -/
def blocks : Nat := 64
/-- `CAPACITY` of the store in bytes (R9, R227). -/
def capacity : Nat := 704
/-- `STORE_KEY`: key B, six 0xFF bytes (R9, R230). -/
def storeKey : Key := ⟨.b, Vector.replicate 6 0xFF⟩

end Sys2Proof.Config
end

