-- ==== Sys2Proof/WellFormed.lean ====
section
/-! DEFINITION. Well-formed instructions: the conditions the spec puts on operands that the types do not already carry, and the
names a program may use. -/

namespace Sys2Proof

/-- The ASCII bytes of a text. -/
def ascii (t : String) : List Byte := t.toList.map fun c => BitVec.ofNat 8 c.toNat

/-- The name of a card type as rule R225's table writes it. -/
def CardType.word : CardType → List Byte
  | .mifareClassic1K  => ascii "MIFARE_CLASSIC_1K"
  | .mifareMini       => ascii "MIFARE_MINI"
  | .mifareClassic4K  => ascii "MIFARE_CLASSIC_4K"
  | .mifareUltralight => ascii "MIFARE_ULTRALIGHT"
  | .iso14443_4       => ascii "ISO_14443_4"
  | .iso18092         => ascii "ISO_18092"

/-- The six card types, in the order of rule R225's table. -/
def CardType.all : List CardType :=
  [.mifareClassic1K, .mifareMini, .mifareClassic4K, .mifareUltralight, .iso14443_4, .iso18092]

/-- A letter of a name. -/
def isLetter (c : Byte) : Bool := (0x41#8 ≤ c && c ≤ 0x5A#8) || (0x61#8 ≤ c && c ≤ 0x7A#8)

/-- A byte that may stand inside a word of a program line: a letter, a digit or an underscore. -/
def isWordByte (c : Byte) : Bool := isLetter c || (0x30#8 ≤ c && c ≤ 0x39#8) || c == 0x5F#8

/-- The words that are operands themselves, so that no name may be spelled like them (R109, R225). -/
def reservedWords : List (List Byte) := [ascii "on", ascii "off"] ++ CardType.all.map CardType.word

/-- A name a program may bind: a letter, then letters, digits and underscores, and no reserved word (log entry 14). -/
def validName (n : Name) : Bool :=
  match n with
  | []     => false
  | c :: _ => isLetter c && n.all isWordByte && !reservedWords.contains n

/-- An operand is well formed when its name, if it is one, is valid. -/
def Arg.wf {α : Type} : Arg α → Bool
  | .lit _  => true
  | .name n => validName n

/-- How many whole bytes an NVB byte counts, SEL and NVB among them (R88). -/
def nvbFull (nvb : Byte) : Nat := nvb.toNat / 16

/-- How many bits of a trailing partial byte an NVB byte counts (R88). -/
def nvbExtra (nvb : Byte) : Nat := nvb.toNat % 16

/-- An NVB value of an anti-collision frame with 0 to 31 known bits: 0x20 to 0x57 (R88, R106 (d)). -/
def legalNvb (nvb : Byte) : Bool := 2 ≤ nvbFull nvb && nvbFull nvb ≤ 5 && nvbExtra nvb ≤ 7

/-- An anti-collision frame carries `ceil(k/8)` bytes of the UID field behind SEL and NVB (R96). -/
def wfAnticoll (nvb : Byte) (uidBits : List Byte) : Bool :=
  legalNvb nvb && uidBits.length == nvbFull nvb - 2 + (if nvbExtra nvb = 0 then 0 else 1)

/-- The well-formed instructions: those of the forms the spec names, on which the decoder gives back what the encoder wrote. It is no
condition for running (R106, R123): the decoder reads other frames too, and a step runs what it reads (log entry 23). -/
def Instr.wf : Instr → Bool
  | .regWriteN _ bytes           => 1 ≤ bytes.length                       -- R118
  | .regReadN _ n _              => 1 ≤ n                                  -- R120
  | .anticollCL1 nvb bits        => wfAnticoll nvb bits
  | .anticollCL2 nvb bits        => wfAnticoll nvb bits
  | .anticollCL3 nvb bits        => wfAnticoll nvb bits
  | .anticollResponse bytes _    => bytes.length ≤ 127                     -- R21, R91
  | .setAntennaState on          => on.wf
  | .mifareAuth _ block          => block.wf
  | .mifareRead block            => block.wf
  | .mifareWrite block data      => block.wf && data.wf
  | .calculateCrc data           => data.wf
  | .cardType b                  => b.wf
  | .getSak t                    => t.wf
  | .getCapacity st              => validName st
  | .authenticate st block       => validName st && block.wf
  | .readBlock st block          => validName st && block.wf
  | .writeBlock st block data    => validName st && block.wf && data.wf
  | .readBytes st                => validName st
  | .writeBytes st data          => validName st && data.wf
  | .regWrite _ _ | .regRead _ | .resetLine _ | .transceivePicc _ _ _ _ _ => true
  | .pcdIdle | .pcdCalcCrc | .pcdTransceive | .pcdMfAuthent | .pcdSoftReset => true
  | .reqa | .wupa | .hlta _ _ | .selectCL1 _ _ _ | .selectCL2 _ _ _ | .selectCL3 _ _ _ => true
  | .mfAuthA _ _ _ | .mfAuthB _ _ _ | .mfRead _ _ _ | .mfWrite _ _ _ | .mfWriteData _ _ _ => true
  | .atqa _ _ | .sak _ _ _ | .cascadeTag | .mfReadResponse _ _ _ | .mfAck _ => true
  | .init | .isCardPresent | .select | .mifareStopCrypto1 | .makeStore => true
  | .antennaOn | .antennaOff | .endSession => true

/-- A line is well formed when its instruction is, and the name it binds, if any, is valid. -/
def Line.wf (l : Line) : Bool :=
  l.instr.wf && (match l.bind with | none => true | some n => validName n)

end Sys2Proof
end

