-- ==== Sys2Proof/Decode.lean ====
section
/-! DEFINITION. The encodings of 30_encoding.md: register addresses, BitFraming, NVB, BCC, command codes, frames and responses, and
the program lines of rule R109; a decoder total on every encoded instruction, and after it the encoder. -/

namespace Sys2Proof

/-! ### The reference configuration (R9) -/

/-- The register indices of rule R31's table. -/
def Reference.regIndex : RegIndex where
  command := 0x01
  comIrq := 0x04
  divIrq := 0x05
  error := 0x06
  status2 := 0x08
  fifoData := 0x09
  fifoLevel := 0x0A
  control := 0x0C
  bitFraming := 0x0D
  coll := 0x0E
  mode := 0x11
  txControl := 0x14
  txAsk := 0x15
  crcResultH := 0x21
  crcResultL := 0x22
  tMode := 0x2A
  tPrescaler := 0x2B
  tReloadH := 0x2C
  tReloadL := 0x2D

/-- The field positions of rules R32 to R40. -/
def Reference.fields : FieldPos where
  powerDown := 4
  set1 := 7
  set2 := 7
  rxIrq := 5
  idleIrq := 4
  timerIrq := 0
  crcIrq := 2
  bufferOvfl := 4
  collErr := 3
  parityErr := 1
  protocolErr := 0
  mfCrypto1On := 3
  flushBuffer := 7
  rxLastBits := 0
  startSend := 7
  collPosNotValid := 5
  collPos := 0
  tx1RfEn := 0
  tx2RfEn := 1

/-- The command codes of rule R92's table. -/
def Reference.pcd : PcdCodes where
  idle := 0x0
  calcCrc := 0x3
  transceive := 0xC
  mfAuthent := 0xE
  softReset := 0xF

/-- The command bytes of rule R93's table. -/
def Reference.picc : PiccBytes where
  reqa := 0x26
  wupa := 0x52
  hlta := 0x50
  selCl1 := 0x93
  selCl2 := 0x95
  selCl3 := 0x97
  read := 0x30
  write := 0xA0
  authA := 0x60
  authB := 0x61

/-- The values of rules R134 to R136. -/
def Reference.initValues : InitValues where
  tMode := 0x90
  tPrescaler := 0xA9
  tReload := 0x03E8
  txAsk := 0x40
  mode := 0x3D

/-- The parameters of the reference configuration (R9); the two OPEN ones are free. -/
def Reference.params : Params where
  regIndex := Reference.regIndex
  fields := Reference.fields
  pcd := Reference.pcd
  picc := Reference.picc
  forbidden := [0, 3, 7, 11, 15, 19, 23, 27, 31, 35, 39, 43, 47, 51, 55, 59, 63]
  resetPollLimit := Config.resetPollExtra + 1
  fifoLevelMask := 0x7F
  fifoSize := 64
  initValues := Reference.initValues
  cardTypes := [(0x08, .mifareClassic1K), (0x09, .mifareMini), (0x18, .mifareClassic4K), (0x00, .mifareUltralight),
    (0x20, .iso14443_4), (0x40, .iso18092)]
  spiMode := Config.spiMode

/-- The reference configuration is one, whatever the OPEN parameters are. -/
theorem Reference.legal : Reference.params.legal = true :=
  decide_eq_true ⟨by decide, by decide, by decide, by decide, by decide, by decide, by decide, Nat.le_add_left 1 _, by decide⟩

/-- The reference configuration (R9). -/
def Cfg.reference : Cfg := { Reference.params with legal := Reference.legal }

/-! ### Register addresses (R31, R86) -/

/-- The 6-bit index of a register (R31). -/
def Cfg.index (cfg : Cfg) : Reg → BitVec 6
  | .command => cfg.regIndex.command | .comIrq => cfg.regIndex.comIrq | .divIrq => cfg.regIndex.divIrq
  | .error => cfg.regIndex.error | .status2 => cfg.regIndex.status2 | .fifoData => cfg.regIndex.fifoData
  | .fifoLevel => cfg.regIndex.fifoLevel | .control => cfg.regIndex.control | .bitFraming => cfg.regIndex.bitFraming
  | .coll => cfg.regIndex.coll | .mode => cfg.regIndex.mode | .txControl => cfg.regIndex.txControl
  | .txAsk => cfg.regIndex.txAsk | .crcResultH => cfg.regIndex.crcResultH | .crcResultL => cfg.regIndex.crcResultL
  | .tMode => cfg.regIndex.tMode | .tPrescaler => cfg.regIndex.tPrescaler | .tReloadH => cfg.regIndex.tReloadH
  | .tReloadL => cfg.regIndex.tReloadL

/-- Every register of rule R31, in the table's order. -/
def Reg.all : List Reg :=
  [.command, .comIrq, .divIrq, .error, .status2, .fifoData, .fifoLevel, .control, .bitFraming, .coll,
   .mode, .txControl, .txAsk, .crcResultH, .crcResultL, .tMode, .tPrescaler, .tReloadH, .tReloadL]

/-- The write address byte `(index << 1) & 0x7E` (R86, R116). -/
def Cfg.wa (cfg : Cfg) (r : Reg) : Byte := ((cfg.index r).setWidth 8 <<< 1) &&& 0x7E#8

/-- The read address byte `write | 0x80` (R86, R116). -/
def Cfg.ra (cfg : Cfg) (r : Reg) : Byte := cfg.wa r ||| 0x80#8

/-- The register a write address names, if it is one of rule R31. -/
def Reg.ofWriteAddr (cfg : Cfg) (a : Byte) : Option Reg := Reg.all.find? fun r => cfg.wa r == a

/-- The register a read address names, if it is one of rule R31. -/
def Reg.ofReadAddr (cfg : Cfg) (a : Byte) : Option Reg := Reg.all.find? fun r => cfg.ra r == a

/-! ### Framing bytes (R87, R88, R89) -/

/-- `BitFraming(rxAlign, txLastBits) = (rxAlign << 4) | txLastBits` (R87). -/
def bitFraming (rxAlign txLastBits : BitVec 3) : Byte := (rxAlign.setWidth 8 <<< 4) ||| txLastBits.setWidth 8

/-- `NVB(fullBytes, extraBits) = (fullBytes << 4) | extraBits` (R88). -/
def nvb (fullBytes extraBits : Nat) : Byte := (BitVec.ofNat 8 fullBytes <<< 4) ||| BitVec.ofNat 8 extraBits

/-- The Block Check Character: the XOR of the four bytes of a level's UID field (R89). -/
def bcc (u0 u1 u2 u3 : Byte) : Byte := u0 ^^^ u1 ^^^ u2 ^^^ u3

/-- `bcc` of a UID field held as a vector. -/
def bccOf (uid : Vector Byte 4) : Byte := bcc uid[0] uid[1] uid[2] uid[3]

/-! ### Command codes and bytes (R92, R93, R104) -/

/-- The code of a PCD command, CommandReg[3:0] (R92). -/
def Cfg.code (cfg : Cfg) : PcdCommand → BitVec 4
  | .idle => cfg.pcd.idle | .calcCrc => cfg.pcd.calcCrc | .transceive => cfg.pcd.transceive
  | .mfAuthent => cfg.pcd.mfAuthent | .softReset => cfg.pcd.softReset

/-- The byte written to CommandReg for a command: `zext_8(code)` (R32, R92). -/
def Cfg.byte (cfg : Cfg) (c : PcdCommand) : Byte := (cfg.code c).setWidth 8

/-- The PCD command a transaction issues (R206). -/
def PiccCommand.pcd : PiccCommand → PcdCommand
  | .transceive => .transceive
  | .mfAuthent  => .mfAuthent

/-- MFAuthKeyA and MFAuthKeyB (R93, R101). -/
def Cfg.authCmd (cfg : Cfg) : KeyType → Byte
  | .a => cfg.picc.authA
  | .b => cfg.picc.authB

/-- The SEL byte of a cascade level (R93, R104). -/
def Cfg.sel (cfg : Cfg) : CascadeLevel → Byte
  | .cl1 => cfg.picc.selCl1 | .cl2 => cfg.picc.selCl2 | .cl3 => cfg.picc.selCl3

/-- The SAK of a card type, if the table has the type (R225). -/
def Cfg.sakOf (cfg : Cfg) (t : CardType) : Option Byte := (cfg.cardTypes.find? fun row => row.2 == t).map Prod.fst

/-- The card type whose SAK is exactly this one, if the table has the SAK (R225). -/
def Cfg.typeOf (cfg : Cfg) (b : Byte) : Option CardType := (cfg.cardTypes.find? fun row => row.1 == b).map Prod.snd

/-! ### Frames (R94 to R103) -/

/-- The anti-collision frame of a level: SEL, NVB and the known bytes of the UID field (R96). -/
def anticollBytes (cfg : Cfg) (l : CascadeLevel) (nvb : Byte) (uidBits : List Byte) : List Byte := [cfg.sel l, nvb] ++ uidBits

/-- The bits of an anti-collision frame's partial byte, its `txLastBits` and `rxAlign` (R96). -/
def nvbTail (nvb : Byte) : BitVec 3 := BitVec.ofNat 3 (nvbExtra nvb)

/-- The SELECT frame of a level: SEL, 0x70, the UID field, BCC and CRC_A (R97). -/
def selectBytes (cfg : Cfg) (l : CascadeLevel) (uid : Vector Byte 4) (lo hi : Byte) : List Byte :=
  [cfg.sel l, Config.nvbSelect] ++ uid.toList ++ [bccOf uid, lo, hi]

/-- The 12-byte authentication frame (R101). -/
def authBytes (cfg : Cfg) (k : KeyType) (block : Byte) (key : List Byte) (uidLast4 : List Byte) : List Byte :=
  [cfg.authCmd k, block] ++ key ++ uidLast4

/-! ### Program lines (R109, R110; log entries 13 and 14) -/

/-- The operation words of a program line: the host operations of R108 and the pseudo-operations of R110. `transceivePicc` is not
callable by the host (R108), so it is no word. -/
inductive Operation where
  | init | setAntennaState | isCardPresent | select | mifareAuth | mifareStopCrypto1 | mifareRead | mifareWrite
  | calculateCrc | cardType | getSak | makeStore | getCapacity | authenticate | readBlock | writeBlock
  | readBytes | writeBytes | antennaOn | antennaOff | endSession
  deriving DecidableEq, Repr

/-- Every operation word. -/
def Operation.all : List Operation :=
  [.init, .setAntennaState, .isCardPresent, .select, .mifareAuth, .mifareStopCrypto1, .mifareRead, .mifareWrite,
   .calculateCrc, .cardType, .getSak, .makeStore, .getCapacity, .authenticate, .readBlock, .writeBlock,
   .readBytes, .writeBytes, .antennaOn, .antennaOff, .endSession]

/-- How an operation is spelled (R108, R110). -/
def Operation.word : Operation → List Byte
  | .init => ascii "init" | .setAntennaState => ascii "setAntennaState" | .isCardPresent => ascii "isCardPresent"
  | .select => ascii "select" | .mifareAuth => ascii "mifareAuth" | .mifareStopCrypto1 => ascii "mifareStopCrypto1"
  | .mifareRead => ascii "mifareRead" | .mifareWrite => ascii "mifareWrite" | .calculateCrc => ascii "calculateCrc"
  | .cardType => ascii "cardType" | .getSak => ascii "getSak"
  | .makeStore => ascii "makeStore" | .getCapacity => ascii "getCapacity" | .authenticate => ascii "authenticate"
  | .readBlock => ascii "readBlock" | .writeBlock => ascii "writeBlock" | .readBytes => ascii "readBytes"
  | .writeBytes => ascii "writeBytes" | .antennaOn => ascii "antennaOn" | .antennaOff => ascii "antennaOff"
  | .endSession => ascii "endSession"

/-- The operation a word names. -/
def Operation.ofWord (w : List Byte) : Option Operation := Operation.all.find? fun o => o.word == w

/-- A token of a program line. -/
inductive Token where
  | word (w : List Byte)
  | open_ | close_ | comma | equals
  deriving DecidableEq, Repr

/-- An operand as it is written (R109): a word, a byte list in brackets, or a byte list behind a word (a key). -/
inductive Operand where
  | word (w : List Byte)
  | bytes (bs : List Byte)
  | tagged (tag : List Byte) (bs : List Byte)
  deriving DecidableEq, Repr

/-- The hexadecimal digit of a value below 16, in capitals. -/
def hexDigit (n : Nat) : Byte := if n < 10 then BitVec.ofNat 8 (0x30 + n) else BitVec.ofNat 8 (0x37 + n)

/-- The value of a hexadecimal digit, capital or small. -/
def hexValue (c : Byte) : Option Nat :=
  if 0x30#8 ≤ c && c ≤ 0x39#8 then some (c.toNat - 0x30)
  else if 0x41#8 ≤ c && c ≤ 0x46#8 then some (c.toNat - 0x37)
  else if 0x61#8 ≤ c && c ≤ 0x66#8 then some (c.toNat - 0x57)
  else none

/-- Two hexadecimal digits of a byte. -/
def hexByte (b : Byte) : List Byte := [hexDigit (b.toNat / 16), hexDigit (b.toNat % 16)]

/-- The byte two hexadecimal digits write. -/
def readHexByte : List Byte → Option Byte
  | [h, l] => match hexValue h, hexValue l with
    | some x, some y => some (BitVec.ofNat 8 (16 * x + y))
    | _, _ => none
  | _ => none

/-- A single byte is written `0xNN` (R109). -/
def byteWord (b : Byte) : List Byte := [0x30, 0x78] ++ hexByte b

/-- The byte a word `0xNN` writes. -/
def readByteWord : List Byte → Option Byte
  | z :: x :: ds => if z == 0x30#8 && x == 0x78#8 then readHexByte ds else none
  | _ => none

/-- A finished word as a token, if there is one. -/
def flushWord (w : List Byte) (ts : List Token) : List Token := if w.isEmpty then ts else .word w :: ts

/-- The punctuation of a line. -/
def punctuation (c : Byte) : Option Token :=
  if c == 0x5B#8 then some .open_ else if c == 0x5D#8 then some .close_
  else if c == 0x2C#8 then some .comma else if c == 0x3D#8 then some .equals else none

/-- The tokens of a line, `w` being the word read so far: spaces and tabs separate, a semicolon opens a comment (R109). -/
def lexFrom (w : List Byte) : List Byte → Option (List Token)
  | []      => some (flushWord w [])
  | c :: cs =>
    if isWordByte c then lexFrom (w ++ [c]) cs
    else if c == 0x3B#8 then some (flushWord w [])
    else if c == 0x20#8 || c == 0x09#8 then (lexFrom [] cs).map (flushWord w)
    else match punctuation c with
      | some t => (lexFrom [] cs).map fun ts => flushWord w (t :: ts)
      | none   => none

/-- Where the reading of an operand list stands. -/
inductive OperandState where
  | want
  | gotWord (w : List Byte)
  | inList (tag : Option (List Byte)) (bs : List Byte)
  | closed
  deriving DecidableEq, Repr

/-- A byte list as an operand, behind its tag if it has one. -/
def listOperand (tag : Option (List Byte)) (bs : List Byte) : Operand :=
  match tag with
  | none   => .bytes bs
  | some t => .tagged t bs

/-- The operands of a token list, separated by commas (R109). -/
def readOperands : OperandState → List Token → Option (List Operand)
  | .want, .word w :: ts            => readOperands (.gotWord w) ts
  | .want, .open_ :: ts             => readOperands (.inList none []) ts
  | .gotWord w, []                  => some [.word w]
  | .gotWord w, .comma :: ts        => (readOperands .want ts).map fun os => .word w :: os
  | .gotWord w, .open_ :: ts        => readOperands (.inList (some w) []) ts
  | .inList tag bs, .word h :: ts   => match readHexByte h with
    | some b => readOperands (.inList tag (bs ++ [b])) ts
    | none   => none
  | .inList tag bs, .close_ :: ts   => (readOperands .closed ts).map fun os => listOperand tag bs :: os
  | .closed, []                     => some []
  | .closed, .comma :: ts           => readOperands .want ts
  | _, _                            => none

/-- The operands of what stands behind the operation word. -/
def operandsOf (ts : List Token) : Option (List Operand) := if ts.isEmpty then some [] else readOperands .want ts

/-- A name operand. -/
def nameOf : Operand → Option Name
  | .word w => if validName w then some w else none
  | _       => none

/-- A byte operand: `0xNN` or a name. -/
def byteArg : Operand → Option (Arg Byte)
  | .word w => match readByteWord w with
    | some b => some (.lit b)
    | none   => if validName w then some (.name w) else none
  | _ => none

/-- A byte-list operand: `[..]` or a name. -/
def bytesArg : Operand → Option (Arg (List Byte))
  | .bytes bs => some (.lit bs)
  | .word w   => if validName w then some (.name w) else none
  | _         => none

/-- A Boolean operand: `on`, `off` or a name. -/
def boolArg : Operand → Option (Arg Bool)
  | .word w => if w == ascii "on" then some (.lit true) else if w == ascii "off" then some (.lit false)
    else if validName w then some (.name w) else none
  | _ => none

/-- The card type a word names. -/
def CardType.ofWord (w : List Byte) : Option CardType := CardType.all.find? fun t => t.word == w

/-- A card-type operand: a type's name or a bound name. -/
def typeArg : Operand → Option (Arg CardType)
  | .word w => match CardType.ofWord w with
    | some t => some (.lit t)
    | none   => if validName w then some (.name w) else none
  | _ => none

/-- The spelling of a key's tag (R109). -/
def KeyType.word : KeyType → List Byte
  | .a => ascii "keyA"
  | .b => ascii "keyB"

/-- Six bytes as a vector. -/
def sixBytes : List Byte → Option (Vector Byte 6)
  | [a, b, c, d, e, f] => some #v[a, b, c, d, e, f]
  | _ => none

/-- A key operand `keyA[..6 bytes..]` or `keyB[..]` (R109, R182). -/
def keyArg : Operand → Option Key
  | .tagged t bs =>
    if t == KeyType.a.word then (sixBytes bs).map fun v => ⟨.a, v⟩
    else if t == KeyType.b.word then (sixBytes bs).map fun v => ⟨.b, v⟩ else none
  | _ => none

/-- The instruction an operation and its operands are (R108, R110). -/
def instrOf : Operation → List Operand → Option Instr
  | .init, []                => some .init
  | .setAntennaState, [x]    => (boolArg x).map .setAntennaState
  | .isCardPresent, []       => some .isCardPresent
  | .select, []              => some .select
  | .mifareAuth, [k, b]      => match keyArg k, byteArg b with
    | some k, some b => some (.mifareAuth k b)
    | _, _ => none
  | .mifareStopCrypto1, []   => some .mifareStopCrypto1
  | .mifareRead, [b]         => (byteArg b).map .mifareRead
  | .mifareWrite, [b, d]     => match byteArg b, bytesArg d with
    | some b, some d => some (.mifareWrite b d)
    | _, _ => none
  | .calculateCrc, [d]       => (bytesArg d).map .calculateCrc
  | .cardType, [b]           => (byteArg b).map .cardType
  | .getSak, [t]             => (typeArg t).map .getSak
  | .makeStore, []           => some .makeStore
  | .getCapacity, [n]        => (nameOf n).map .getCapacity
  | .authenticate, [n, b]    => match nameOf n, byteArg b with
    | some n, some b => some (.authenticate n b)
    | _, _ => none
  | .readBlock, [n, b]       => match nameOf n, byteArg b with
    | some n, some b => some (.readBlock n b)
    | _, _ => none
  | .writeBlock, [n, b, d]   => match nameOf n, byteArg b, bytesArg d with
    | some n, some b, some d => some (.writeBlock n b d)
    | _, _, _ => none
  | .readBytes, [n]          => (nameOf n).map .readBytes
  | .writeBytes, [n, d]      => match nameOf n, bytesArg d with
    | some n, some d => some (.writeBytes n d)
    | _, _ => none
  | .antennaOn, []           => some .antennaOn
  | .antennaOff, []          => some .antennaOff
  | .endSession, []          => some .endSession
  | _, _                     => none

/-! ### The decoder -/

/-- Why an encoded instruction is rejected. -/
inductive DecodeError where
  /-- A byte of a program line that no line may hold. -/
  | badCharacter
  /-- A line without an operation, or with a word that names none. -/
  | unknownOperation
  /-- Operands that are not those of the operation. -/
  | badOperands
  /-- A bound name that is no valid name. -/
  | badName
  /-- A transport address outside the table of rule R31 (R61, R106 (c)). -/
  | unknownRegister
  /-- A transport frame without the bytes its kind needs, or a read frame without its trailer (R117 to R120). -/
  | badTransportFrame
  /-- A reset level that is neither 0 nor 1. -/
  | badLevel
  /-- A CommandReg byte outside the table of rule R92 (R106 (a)). -/
  | reservedCommand
  /-- A frame whose first byte or length is no frame of rule R93 (R106 (b)). -/
  | reservedFrame
  /-- A SELECT frame whose BCC is not the XOR of its UID field (R89). -/
  | badBcc
  /-- A bit framing that is not the frame's (R87). -/
  | badFraming
  /-- A response outside the shapes of rule R91. -/
  | badResponse
  /-- A transaction without its command and its `want` (log entry 13). -/
  | badTransaction
  deriving DecidableEq, Repr

/-- A write frame: the address byte, then at least one byte (R117, R118). With one byte it is `RegWrite`. -/
def decodeSpiWrite (cfg : Cfg) : List Byte → Except DecodeError Instr
  | a :: v :: vs => match Reg.ofWriteAddr cfg a with
    | some r => .ok (if vs.isEmpty then .regWrite r v else .regWriteN r (v :: vs))
    | none   => .error .unknownRegister
  | _ => .error .badTransportFrame

/-- A read frame: the read address `n` times, then the trailer 0x00 (R119, R120). With `n = 1` and no alignment it is `RegRead`. -/
def decodeSpiRead (cfg : Cfg) (rxAlign : BitVec 3) (bytes : List Byte) : Except DecodeError Instr :=
  match bytes.dropLast with
  | []      => .error .badTransportFrame
  | a :: as =>
    if bytes.getLast? == some 0x00#8 && as.all (· == a) then
      match Reg.ofReadAddr cfg a with
      | some r => .ok (if as.isEmpty && rxAlign == 0#3 then .regRead r else .regReadN r (as.length + 1) rxAlign)
      | none   => .error .unknownRegister
    else .error .badTransportFrame

/-- A byte written to CommandReg (R92). -/
def decodePcd (cfg : Cfg) (b : Byte) : Except DecodeError Instr :=
  if b == cfg.byte .idle then .ok .pcdIdle
  else if b == cfg.byte .calcCrc then .ok .pcdCalcCrc
  else if b == cfg.byte .transceive then .ok .pcdTransceive
  else if b == cfg.byte .mfAuthent then .ok .pcdMfAuthent
  else if b == cfg.byte .softReset then .ok .pcdSoftReset
  else .error .reservedCommand

/-- The anti-collision instruction of a level. -/
def anticollInstr : CascadeLevel → Byte → List Byte → Instr
  | .cl1 => .anticollCL1 | .cl2 => .anticollCL2 | .cl3 => .anticollCL3

/-- The SELECT instruction of a level. -/
def selectInstr : CascadeLevel → Vector Byte 4 → Byte → Byte → Instr
  | .cl1 => .selectCL1 | .cl2 => .selectCL2 | .cl3 => .selectCL3

/-- A frame whose first byte is a SEL byte: SELECT when its NVB is 0x70, anti-collision otherwise (R105). -/
def decodeSel (l : CascadeLevel) (framing : Byte) : List Byte → Except DecodeError Instr
  | n :: rest =>
    if n == Config.nvbSelect then
      match rest with
      | [u0, u1, u2, u3, b, lo, hi] =>
        if framing != 0x00#8 then .error .badFraming
        else if b == bcc u0 u1 u2 u3 then .ok (selectInstr l #v[u0, u1, u2, u3] lo hi) else .error .badBcc
      | _ => .error .reservedFrame
    else if framing == bitFraming (nvbTail n) (nvbTail n) then .ok (anticollInstr l n rest) else .error .badFraming
  | [] => .error .reservedFrame

/-- The cascade level a SEL byte names. -/
def CascadeLevel.ofSel (cfg : Cfg) (b : Byte) : Option CascadeLevel := [CascadeLevel.cl1, .cl2, .cl3].find? fun l => cfg.sel l == b

/-- A frame of whole bytes that starts with a command byte (R95, R101, R102, R103). -/
def decodeCommandFrame (cfg : Cfg) : List Byte → Except DecodeError Instr
  | [c, x, lo, hi] =>
    if c == cfg.picc.hlta && x == 0x00#8 then .ok (.hlta lo hi)
    else if c == cfg.picc.read then .ok (.mfRead x lo hi)
    else if c == cfg.picc.write then .ok (.mfWrite x lo hi) else .error .reservedFrame
  | [c, x, k0, k1, k2, k3, k4, k5, u0, u1, u2, u3] =>
    if c == cfg.authCmd .a then .ok (.mfAuthA x #v[k0, k1, k2, k3, k4, k5] #v[u0, u1, u2, u3])
    else if c == cfg.authCmd .b then .ok (.mfAuthB x #v[k0, k1, k2, k3, k4, k5] #v[u0, u1, u2, u3]) else .error .reservedFrame
  | _ => .error .reservedFrame

/-- Sixteen data bytes and a CRC_A trailer, taken apart. -/
def sixteenAndCrc : List Byte → Option (Vector Byte 16 × Byte × Byte)
  | [a, b, c, d, e, f, g, h, i, j, k, l, m, n, o, p, lo, hi] => some (#v[a, b, c, d, e, f, g, h, i, j, k, l, m, n, o, p], lo, hi)
  | _ => none

/-- A frame to the card (R96 to R103): the 18-byte one is the data of a write, a SEL byte opens the frames of a level, and the
others go by their command byte. -/
def decodeFrame (cfg : Cfg) (framing : Byte) (bytes : List Byte) : Except DecodeError Instr :=
  match sixteenAndCrc bytes with
  | some (d, lo, hi) => if framing == 0x00#8 then .ok (.mfWriteData d lo hi) else .error .badFraming
  | none => match bytes with
    | [] => .error .reservedFrame
    | b :: rest => match CascadeLevel.ofSel cfg b with
      | some l => decodeSel l framing rest
      | none   => if framing == 0x00#8 then decodeCommandFrame cfg bytes else .error .badFraming

/-- A response of the card (R91), read as the answer to what was sent; no response is longer than 127 bytes (R21). -/
def decodeResponse (answering : ResponseTo) (validBits : Byte) (bytes : List Byte) : Except DecodeError Instr :=
  match answering with
  | .reqa => match bytes with
    | [b0, b1] => if validBits == 0x00#8 then .ok (.atqa b0 b1) else .error .badResponse
    | _ => .error .badResponse
  | .anticoll =>
    if validBits.toNat ≤ 7 && bytes.length ≤ 127 then .ok (.anticollResponse bytes (validBits.setWidth 3)) else .error .badResponse
  | .select => match bytes with
    | [s, lo, hi] => if validBits == 0x00#8 then .ok (.sak s lo hi) else .error .badResponse
    | _ => .error .badResponse
  | .read => match sixteenAndCrc bytes with
    | some (d, lo, hi) => if validBits == 0x00#8 then .ok (.mfReadResponse d lo hi) else .error .badResponse
    | none => .error .badResponse
  | .write => match bytes with
    | [b] => if validBits == 0x04#8 && b.setWidth 4 == Config.mfAck then .ok (.mfAck ((b >>> 4).setWidth 4)) else .error .badResponse
    | _ => .error .badResponse

/-- A transaction as it is encoded (log entry 13): the command, `want` as 0 or 1, then the bytes to send; its bit counts are in the
framing byte, as BitFramingReg holds them (R87). -/
def decodeTransaction (cfg : Cfg) (framing : Byte) (bytes : List Byte) : Except DecodeError Instr :=
  let rxAlign := (framing >>> 4).setWidth 3
  let txLastBits := framing.setWidth 3
  if framing != bitFraming rxAlign txLastBits then .error .badFraming
  else match bytes with
    | c :: w :: tx =>
      if w.toNat ≤ 1 then
        if c == cfg.byte .transceive then .ok (.transceivePicc .transceive tx txLastBits rxAlign (w == 1#8))
        else if c == cfg.byte .mfAuthent then .ok (.transceivePicc .mfAuthent tx txLastBits rxAlign (w == 1#8))
        else .error .reservedCommand
      else .error .badTransaction
    | _ => .error .badTransaction

/-- A program line's tokens: the name it binds, if it binds one, and the rest. -/
def splitBind : List Token → Option Name × List Token
  | .word n :: .equals :: rest => (some n, rest)
  | ts => (none, ts)

/-- A program line (R109). -/
def decodeLine (bytes : List Byte) : Except DecodeError Line :=
  match lexFrom [] bytes with
  | none    => .error .badCharacter
  | some ts => match splitBind ts with
    | (bind, .word w :: rest) => match Operation.ofWord w with
      | none   => .error .unknownOperation
      | some o => match (operandsOf rest).bind (instrOf o) with
        | none   => .error .badOperands
        | some i => if (match bind with | none => true | some n => validName n) then .ok ⟨bind, i⟩ else .error .badName
    | _ => .error .unknownOperation

/-- The instruction of an encoding in a space of its own (every space but the program lines). Where the operand `rxAlign` of a read frame
stands is the model's (DESIGN CHOICE, log entry 13). -/
def decodeBytes (cfg : Cfg) (format : Format) (framing : Byte) (bytes : List Byte) : Except DecodeError Instr :=
  match format with
  | .spiWrite => if framing == 0x00#8 then decodeSpiWrite cfg bytes else .error .badFraming
  | .spiRead =>
    let rxAlign := (framing >>> 4).setWidth 3
    if framing == bitFraming rxAlign 0 then decodeSpiRead cfg rxAlign bytes else .error .badFraming
  | .resetLine =>
    if bytes == [0x00] then .ok (.resetLine .low) else if bytes == [0x01] then .ok (.resetLine .high) else .error .badLevel
  | .pcdCommand => match bytes with
    | [b] => decodePcd cfg b
    | _   => .error .reservedCommand
  | .piccShortFrame =>
    if framing != bitFraming 0 7 then .error .badFraming
    else if bytes == [cfg.picc.reqa] then .ok .reqa else if bytes == [cfg.picc.wupa] then .ok .wupa else .error .reservedFrame
  | .piccFrame => decodeFrame cfg framing bytes
  | .uidFieldByte => if bytes == [Config.cascadeTag] then .ok .cascadeTag else .error .badResponse
  | .piccResponse r => decodeResponse r framing bytes
  | .transaction => decodeTransaction cfg framing bytes
  | .hostOp => match decodeLine bytes with
    | .ok l    => .ok l.instr
    | .error e => .error e

/-- The decoder: total on every encoded instruction, rejecting by name. -/
def decode (cfg : Cfg) (e : Encoded) : Except DecodeError Line :=
  match e.format with
  | .hostOp => decodeLine e.bytes
  | f => match decodeBytes cfg f e.framing e.bytes with
    | .ok i      => .ok ⟨none, i⟩
    | .error err => .error err

/-! ### The encoder -/

/-- Texts joined by a separator. -/
def joinWith (sep : List Byte) : List (List Byte) → List Byte
  | []      => []
  | [x]     => x
  | x :: xs => x ++ sep ++ joinWith sep xs

/-- A byte list in brackets (R109). -/
def bracketed (bs : List Byte) : List Byte := [0x5B] ++ joinWith [0x20] (bs.map hexByte) ++ [0x5D]

/-- An operand as text. -/
def Operand.text : Operand → List Byte
  | .word w      => w
  | .bytes bs    => bracketed bs
  | .tagged t bs => t ++ bracketed bs

/-- The operand of an argument. -/
def Arg.operand {α : Type} (write : α → Operand) : Arg α → Operand
  | .lit a  => write a
  | .name n => .word n

/-- `on` or `off` (R109). -/
def boolWord (b : Bool) : List Byte := if b then ascii "on" else ascii "off"

/-- The operation and operands of an instruction that is written as a program line. -/
def Instr.call : Instr → Option (Operation × List Operand)
  | .init                  => some (.init, [])
  | .setAntennaState on    => some (.setAntennaState, [on.operand fun b => .word (boolWord b)])
  | .isCardPresent         => some (.isCardPresent, [])
  | .select                => some (.select, [])
  | .mifareAuth k b        => some (.mifareAuth, [.tagged k.kind.word k.bytes.toList, b.operand fun x => .word (byteWord x)])
  | .mifareStopCrypto1     => some (.mifareStopCrypto1, [])
  | .mifareRead b          => some (.mifareRead, [b.operand fun x => .word (byteWord x)])
  | .mifareWrite b d       => some (.mifareWrite, [b.operand fun x => .word (byteWord x), d.operand .bytes])
  | .calculateCrc d        => some (.calculateCrc, [d.operand .bytes])
  | .cardType b            => some (.cardType, [b.operand fun x => .word (byteWord x)])
  | .getSak t              => some (.getSak, [t.operand fun x => .word x.word])
  | .makeStore             => some (.makeStore, [])
  | .getCapacity n         => some (.getCapacity, [.word n])
  | .authenticate n b      => some (.authenticate, [.word n, b.operand fun x => .word (byteWord x)])
  | .readBlock n b         => some (.readBlock, [.word n, b.operand fun x => .word (byteWord x)])
  | .writeBlock n b d      => some (.writeBlock, [.word n, b.operand fun x => .word (byteWord x), d.operand .bytes])
  | .readBytes n           => some (.readBytes, [.word n])
  | .writeBytes n d        => some (.writeBytes, [.word n, d.operand .bytes])
  | .antennaOn             => some (.antennaOn, [])
  | .antennaOff            => some (.antennaOff, [])
  | .endSession            => some (.endSession, [])
  | .regWrite _ _ | .regWriteN _ _ | .regRead _ | .regReadN _ _ _ | .resetLine _ => none
  | .pcdIdle | .pcdCalcCrc | .pcdTransceive | .pcdMfAuthent | .pcdSoftReset => none
  | .reqa | .wupa | .hlta _ _ | .anticollCL1 _ _ | .selectCL1 _ _ _ | .anticollCL2 _ _ | .selectCL2 _ _ _ => none
  | .anticollCL3 _ _ | .selectCL3 _ _ _ | .mfAuthA _ _ _ | .mfAuthB _ _ _ | .mfRead _ _ _ | .mfWrite _ _ _ => none
  | .mfWriteData _ _ _ | .transceivePicc _ _ _ _ _ => none
  | .atqa _ _ | .anticollResponse _ _ | .sak _ _ _ | .cascadeTag | .mfReadResponse _ _ _ | .mfAck _ => none

/-- A program line as text. -/
def lineText (bind : Option Name) (op : Operation) (operands : List Operand) : List Byte :=
  (match bind with | none => [] | some n => n ++ ascii " = ") ++ op.word ++
  (if operands.isEmpty then [] else [0x20] ++ joinWith (ascii ", ") (operands.map Operand.text))

/-- The encoding of an anti-collision frame. -/
def encodeAnticoll (cfg : Cfg) (l : CascadeLevel) (n : Byte) (bits : List Byte) : Encoded :=
  ⟨.piccFrame, bitFraming (nvbTail n) (nvbTail n), anticollBytes cfg l n bits⟩

/-- The encoder, from the tables of 30_encoding.md. -/
def encode (cfg : Cfg) (l : Line) : Encoded :=
  match l.instr with
  | .regWrite r v          => ⟨.spiWrite, 0, [cfg.wa r, v]⟩                                             -- R117
  | .regWriteN r bs        => ⟨.spiWrite, 0, [cfg.wa r] ++ bs⟩                                          -- R118
  | .regRead r             => ⟨.spiRead, 0, [cfg.ra r, 0x00]⟩                                           -- R119
  | .regReadN r n a        => ⟨.spiRead, bitFraming a 0, List.replicate n (cfg.ra r) ++ [0x00]⟩         -- R120; `rxAlign`: log entry 13
  | .resetLine .low        => ⟨.resetLine, 0, [0x00]⟩                                                   -- log entry 12
  | .resetLine .high       => ⟨.resetLine, 0, [0x01]⟩
  | .pcdIdle               => ⟨.pcdCommand, 0, [cfg.byte .idle]⟩                                        -- R92
  | .pcdCalcCrc            => ⟨.pcdCommand, 0, [cfg.byte .calcCrc]⟩
  | .pcdTransceive         => ⟨.pcdCommand, 0, [cfg.byte .transceive]⟩
  | .pcdMfAuthent          => ⟨.pcdCommand, 0, [cfg.byte .mfAuthent]⟩
  | .pcdSoftReset          => ⟨.pcdCommand, 0, [cfg.byte .softReset]⟩
  | .reqa                  => ⟨.piccShortFrame, bitFraming 0 7, [cfg.picc.reqa]⟩                        -- R94
  | .wupa                  => ⟨.piccShortFrame, bitFraming 0 7, [cfg.picc.wupa]⟩                        -- R95
  | .hlta lo hi            => ⟨.piccFrame, 0, [cfg.picc.hlta, 0x00, lo, hi]⟩
  | .anticollCL1 n bits    => encodeAnticoll cfg .cl1 n bits                                            -- R96
  | .selectCL1 u lo hi     => ⟨.piccFrame, 0, selectBytes cfg .cl1 u lo hi⟩                             -- R97
  | .anticollCL2 n bits    => encodeAnticoll cfg .cl2 n bits
  | .selectCL2 u lo hi     => ⟨.piccFrame, 0, selectBytes cfg .cl2 u lo hi⟩
  | .anticollCL3 n bits    => encodeAnticoll cfg .cl3 n bits
  | .selectCL3 u lo hi     => ⟨.piccFrame, 0, selectBytes cfg .cl3 u lo hi⟩
  | .mfAuthA b k u         => ⟨.piccFrame, 0, authBytes cfg .a b k.toList u.toList⟩                     -- R101
  | .mfAuthB b k u         => ⟨.piccFrame, 0, authBytes cfg .b b k.toList u.toList⟩
  | .mfRead b lo hi        => ⟨.piccFrame, 0, [cfg.picc.read, b, lo, hi]⟩                               -- R102
  | .mfWrite b lo hi       => ⟨.piccFrame, 0, [cfg.picc.write, b, lo, hi]⟩                              -- R103
  | .mfWriteData d lo hi   => ⟨.piccFrame, 0, d.toList ++ [lo, hi]⟩
  | .atqa b0 b1            => ⟨.piccResponse .reqa, 0, [b0, b1]⟩                                        -- R91, R100
  | .anticollResponse bs v => ⟨.piccResponse .anticoll, v.setWidth 8, bs⟩                               -- R98
  | .sak s lo hi           => ⟨.piccResponse .select, 0, [s, lo, hi]⟩                                   -- R99
  | .cascadeTag            => ⟨.uidFieldByte, 0, [Config.cascadeTag]⟩                                   -- R93
  | .mfReadResponse d lo hi => ⟨.piccResponse .read, 0, d.toList ++ [lo, hi]⟩                           -- R102
  | .mfAck h               => ⟨.piccResponse .write, 4, [h ++ Config.mfAck]⟩                            -- R103, R188
  | .transceivePicc c tx t a w =>
    ⟨.transaction, bitFraming a t, [cfg.byte c.pcd, if w then 0x01 else 0x00] ++ tx⟩                    -- log entry 13
  | i                      => match i.call with
    | some (op, operands)  => ⟨.hostOp, 0, lineText l.bind op operands⟩                                 -- R109
    | none                 => ⟨.hostOp, 0, []⟩

/-- Two rows that the spec gives one frame: `RegWriteN` of one byte is `RegWrite`'s frame (R117, R118), and an unaligned
`RegReadN` of one byte is `RegRead`'s (R119, R120). The decoder reads the shorter name. -/
def Instr.canonical : Instr → Instr
  | .regWriteN r [v] => .regWrite r v
  | .regReadN r n a  => if n = 1 ∧ a = 0#3 then .regRead r else .regReadN r n a
  | i                => i

/-- Which lines bind a name: only those of a program (R109). -/
def Line.bindable (l : Line) : Bool := l.bind.isNone || l.instr.call.isSome

/-! ### Words of the opcode table -/

/-- The bytes of a table word, most significant first, as the table writes a frame's first byte in the high bits (log entry 11). -/
def wordBytes (nbits w : Nat) : List Byte :=
  (List.range ((nbits + 7) / 8)).reverse.map fun i => BitVec.ofNat 8 (w / 256 ^ i)

/-- How many bytes a frame to the card has, told from its first two bytes (R105). -/
def frameLength (cfg : Cfg) (b0 b1 : Byte) : Nat :=
  if (CascadeLevel.ofSel cfg b0).isSome then
    if b1 == Config.nvbSelect then 9 else max 2 (nvbFull b1 + (if nvbExtra b1 = 0 then 0 else 1))
  else if b0 == cfg.authCmd .a || b0 == cfg.authCmd .b then 12
  else 4

/-- The bit framing of a frame told from its first two bytes (R87, R96). -/
def frameFraming (cfg : Cfg) (b0 b1 : Byte) : Byte :=
  if (CascadeLevel.ofSel cfg b0).isSome && b1 != Config.nvbSelect then bitFraming (nvbTail b1) (nvbTail b1) else 0

/-- The encodings a table word may be of, the spaces whose rows fix more bits first: a table word names no space (log entry 11). -/
def tableCandidates (cfg : Cfg) (bs : List Byte) : List Encoded :=
  let b0 := bs.getD 0 0
  let b1 := bs.getD 1 0
  [⟨.piccShortFrame, bitFraming 0 7, [b0]⟩,
   ⟨.piccFrame, frameFraming cfg b0 b1, (bs ++ List.replicate 18 0).take (frameLength cfg b0 b1)⟩,
   ⟨.uidFieldByte, 0, [b0]⟩,
   ⟨.pcdCommand, 0, [b0]⟩,
   ⟨.piccResponse .write, 4, [b0]⟩,
   ⟨.spiWrite, 0, [b0, b1]⟩,
   ⟨.spiRead, 0, [b0, b1]⟩]

/-- Whether an encoding decodes. -/
def decodes (cfg : Cfg) (e : Encoded) : Bool := match decode cfg e with | .ok _ => true | .error _ => false

/-- The encoded instruction a table word stands for: the first candidate that decodes, and the first of all where none does. -/
def tableWord (cfg : Cfg) (nbits w : Nat) : Encoded :=
  let cs := tableCandidates cfg (wordBytes nbits w)
  (cs.find? (decodes cfg)).getD (cs.headD ⟨.hostOp, 0, []⟩)

/-- The instruction the decoder reads from a table word (log entry 11). -/
def decodeTableWord (nbits w : Nat) : Option Instr :=
  match decode .reference (tableWord .reference nbits w) with
  | .ok l    => some l.instr
  | .error _ => none

end Sys2Proof
end

