-- ==== Sys2Proof/Machine/State.lean ====
section
/-! DEFINITION. The state of rule R21 as plain data, what the host holds, what the environment will answer, the trace of rule R44,
the error and refusal kinds of 60_exceptions.md, and the state at construction (R275). -/

namespace Sys2Proof.Machine

/-! ### Responses, waits and trace events -/

/-- A PiccResponse: the bytes and the valid-bit count of the last one, 0 meaning all eight (R30). Its length `n` is the byte count
(R91), so it is not stored a second time. -/
structure PiccResponse where
  bytes     : List Byte
  validBits : BitVec 3
  deriving DecidableEq, Repr

/-- The exact length of a response (R30, R91). -/
def PiccResponse.n (r : PiccResponse) : Nat := r.bytes.length

/-- The three waits: the kinds of a deadline query (R43) and of a Timeout error (R250). -/
inductive WaitKind where
  | picc | crc | reset
  deriving DecidableEq, Repr

/-- A trace event (R44, R218). -/
inductive Event where
  /-- One framed exchange; MISO has the length of MOSI. -/
  | spi (mosi miso : List Byte)
  /-- A write of the reset output. -/
  | reset (level : LineLevel)
  /-- A deadline query and its answer. -/
  | ask (kind : WaitKind) (answer : Bool)
  /-- A PICC transaction of the abstraction, which stands for its SPI events (R218). -/
  | xact (cmd : PiccCommand) (tx : List Byte) (txLastBits rxAlign : BitVec 3) (reply : Reply)
  deriving DecidableEq, Repr

/-- The outcome of a PICC transaction (R206). -/
inductive XactOutcome where
  | ok
  | timeout
  | comm (e : Byte)
  | coll
  deriving DecidableEq, Repr

/-! ### Errors, refusals and faults (60_exceptions.md) -/

/-- What a Communication error records (R250). -/
inductive CommInfo where
  | errorReg (e : Byte)
  | sakShape | readShape | responseTooLong
  deriving DecidableEq, Repr

/-- What a Checksum error records (R250). -/
inductive ChecksumInfo where
  | sak | read
  deriving DecidableEq, Repr

/-- What a ProtocolFailure records (R250). -/
inductive ProtocolInfo where
  | noProgress | collisionPositionNotValid | noCompletion | cascadeBitAtCL3
  deriving DecidableEq, Repr

/-- What a CapacityExceeded error records (R250). -/
inductive CapacityInfo where
  | length (n : Nat)
  | defensive
  deriving DecidableEq, Repr

/-- The error kinds of rule R250. An error is the result of a host operation, not a stop of the machine (R251, R272). -/
inductive Err where
  | timeout (kind : WaitKind)
  | collision
  | communication (info : CommInfo)
  | checksum (info : ChecksumInfo)
  | protocolFailure (info : ProtocolInfo)
  | unsupportedCard (sak : Byte)
  | writeRejected (response : PiccResponse)
  | capacityExceeded (info : CapacityInfo)
  | serializationFailure
  deriving DecidableEq, Repr

/-- The reasons of rule R263. A refusal changes `refuseMark` and nothing else of the controller; the machine goes on. -/
inductive RefuseReason where
  | notReady | busy | noSession | staleSession | forbiddenBlock | payloadTooLong | tooLong
  deriving DecidableEq, Repr

/-- The reasons of `Unmodelled` (R262). -/
inductive UnmodelledReason where
  /-- A read of a field nothing has written (R46). The spec's procedures never do it, and every register of the model holds a
  value (log entry 6), so nothing in the model sets it. -/
  | unwrittenField
  /-- The cascade tag and the SAK's cascade bit disagree (R164). -/
  | cascadeTagMismatch
  deriving DecidableEq, Repr

/-- The reasons a step stops the machine. -/
inductive Fault where
  /-- Raised by every instruction and by `step` in a state whose `faultMark` is set: the model is stuck (R262). Safe. -/
  | stuck (reason : UnmodelledReason)
  deriving DecidableEq, Repr

/-- The reasons there is no meaning for what was fetched. -/
inductive Refusal where
  /-- An instruction without a meaning yet. Safe. -/
  | notModelled (mnemonic : String)
  /-- Raised by `step`: the bytes are no instruction of the spec. Safe. -/
  | undecodable (e : DecodeError)
  /-- Raised by a host operation whose operand names no value of the kind it takes: the call cannot be made (log entry 14). Safe. -/
  | badOperand
  deriving DecidableEq, Repr

/-! ### What the host holds -/

/-- A Sector Store object, held by the host (R50, R226). -/
structure Store where
  gen      : Nat
  uid      : List Byte
  uidSize  : Nat
  capacity : Nat
  deriving DecidableEq, Repr

/-- The value of an operation (R108). -/
inductive Value where
  | unit
  | bool (b : Bool)
  | byte (b : Byte)
  | bytes (bs : List Byte)
  /-- The result of select: the UID bytes and the SAK. -/
  | selected (uid : List Byte) (sak : Byte)
  | cardType (t : CardType)
  | store (st : Store)
  | capacity (n : Nat)
  /-- The outcome of a transaction, for `transceivePicc` and for a frame sent by itself. -/
  | outcome (o : XactOutcome)
  deriving DecidableEq, Repr

/-- What an operation gives back: a value, an error (R251) or a refusal (R263). -/
inductive CallResult where
  | value (v : Value)
  | error (e : Err)
  | refused (r : RefuseReason)
  deriving DecidableEq, Repr

/-! ### What the environment will answer -/

/-- An answer of the environment: the value of a register read (R42), how many deadline queries of a poll loop are answered false
before one is answered true (R43), or the card's reply to a transaction of the abstraction (R218). -/
inductive Answer where
  | value (b : Byte)
  | deadline (falses : Nat)
  | reply (r : Reply)
  deriving DecidableEq, Repr

/-! ### The sequencer position -/

/-- The sequencer position (R29): idle, or in an operation at a step. -/
inductive Pos where
  | idle
  | running (op : HostOp) (step : Nat)
  deriving DecidableEq, Repr

/-- Each primitive advances the step by one (R29). -/
def Pos.advance : Pos → Pos
  | .idle => .idle
  | .running op step => .running op (step + 1)

/-! ### The state -/

/-- The state. `cfg` is the configuration of rule R9; then comes rule R21's record, field by field; `trace` is rule R44's; the last block
is what the spec leaves to the host (R109, R267) and to the environment (R42, R43). -/
structure State where
  /-- The configuration, which no step changes (R9). -/
  cfg            : Cfg
  /-- The last `init` completed without error (R22). -/
  ready          : Bool
  /-- The level the controller drives on the chip's reset input (R23). -/
  resetLine      : LineLevel
  /-- A host operation is in progress (R29). -/
  busy           : Bool
  /-- The UID register holds the UID of the current session (R24). -/
  uidValid       : Bool
  /-- The assembled UID bytes (R24). -/
  uid            : Vector Byte 10
  /-- How many bytes of `uid` the UID has: 4, 7 or 10 (R24). -/
  uidSize        : Nat
  /-- The SAK of the selection (R24). -/
  sak            : Byte
  /-- The session generation (R25). -/
  gen            : Nat
  /-- The authentication cache (R26). -/
  lastAuthSector : Option (Fin 16)
  /-- The select scratch buffer (R27). -/
  selBuf         : Vector Byte 9
  /-- The current cascade level (R28). -/
  level          : CascadeLevel
  /-- Known leading bits of the level's UID field (R28). -/
  k              : Nat
  /-- Transactions taken at the level (R28). -/
  iter           : Nat
  /-- The response register (R30). -/
  rsp            : PiccResponse
  /-- The low and the high byte of the last CRC result (R21, R204). -/
  crcOut         : Byte × Byte
  /-- Set once a fault has happened (R262). -/
  faultMark      : Option UnmodelledReason
  /-- The reason of the last refusal (R263). -/
  refuseMark     : Option RefuseReason
  /-- The sequencer position (R29). -/
  pos            : Pos
  /-- The event trace, oldest first (R44). -/
  trace          : List Event
  /-- The host's calls not yet made (R109, R267). -/
  pending        : List Encoded
  /-- The names the host's program has bound, newest first (R109). -/
  bindings       : List (Name × Value)
  /-- What the last call gave back (R44, R251). -/
  result         : Option CallResult
  /-- What the environment will answer, in the order it is asked; an answer that is not scripted is free (R42, R43). -/
  answers        : List Answer
  /-- How many free values have been drawn. -/
  draws          : Nat
  deriving DecidableEq, Repr

/-- The state at construction (R275). The fields that table leaves unwritten hold the values of log entry 6; its
configuration is the reference one (log entry 15). -/
def State.reset : State where
  cfg            := Cfg.reference
  ready          := false
  resetLine      := if Config.resetLineHigh then .high else .low
  busy           := false
  uidValid       := false
  uid            := Vector.replicate 10 0
  uidSize        := 4
  sak            := 0
  gen            := 0
  lastAuthSector := none
  selBuf         := Vector.replicate 9 0
  level          := .cl1
  k              := 0
  iter           := 0
  rsp            := ⟨[], 0⟩
  crcOut         := (0, 0)
  faultMark      := none
  refuseMark     := none
  pos            := .idle
  trace          := []
  pending        := []
  bindings       := []
  result         := none
  answers        := []
  draws          := 0

end Sys2Proof.Machine
end

