-- ==== Sys2Proof/Machine/Flags.lean ====
section
/-! DEFINITION. The status bits the controller reads out of chip registers (R45) and the masks it writes, from the field positions of a
configuration (R32 to R40). -/

namespace Sys2Proof.Machine

/-- Whether any bit of a mask is set. -/
def anyBit (v mask : Byte) : Bool := v &&& mask != 0#8

/-- The mask of one bit. -/
def bit (n : BitVec 3) : Byte := 1#8 <<< n.toNat

/-! ### Bits read -/

/-- CommandReg PowerDown (R32, R132). -/
def powerDown (cfg : Cfg) (v : Byte) : Bool := anyBit v (bit cfg.fields.powerDown)

/-- The done mask of a transaction: IdleIRq or RxIRq for Transceive, IdleIRq for MFAuthent (R33, R211). -/
def doneMask (cfg : Cfg) : PiccCommand → Byte
  | .transceive => bit cfg.fields.idleIrq ||| bit cfg.fields.rxIrq
  | .mfAuthent  => bit cfg.fields.idleIrq

/-- A done bit of ComIrqReg is set (R211). -/
def commandDone (cfg : Cfg) (cmd : PiccCommand) (v : Byte) : Bool := anyBit v (doneMask cfg cmd)

/-- ComIrqReg TimerIRq (R33, R211). -/
def timerIrq (cfg : Cfg) (v : Byte) : Bool := anyBit v (bit cfg.fields.timerIrq)

/-- DivIrqReg CRCIRq (R34, R203). -/
def crcIrq (cfg : Cfg) (v : Byte) : Bool := anyBit v (bit cfg.fields.crcIrq)

/-- `EARLY_ERR`: ErrorReg BufferOvfl, ParityErr and ProtocolErr (R35, R214). -/
def earlyMask (cfg : Cfg) : Byte := bit cfg.fields.bufferOvfl ||| bit cfg.fields.parityErr ||| bit cfg.fields.protocolErr

/-- An early error is flagged (R35, R214). -/
def earlyError (cfg : Cfg) (e : Byte) : Bool := anyBit e (earlyMask cfg)

/-- ErrorReg CollErr (R35, R216). -/
def collError (cfg : Cfg) (e : Byte) : Bool := anyBit e (bit cfg.fields.collErr)

/-- FIFOLevelReg FIFOLevel, the bits of `FIFO_LEVEL_MASK` (R37, R215). -/
def fifoCount (cfg : Cfg) (v : Byte) : Nat := (v &&& cfg.fifoLevelMask).toNat

/-- ControlReg RxLastBits, three bits (R38, R215). -/
def rxLastBits (cfg : Cfg) (v : Byte) : BitVec 3 := (v >>> cfg.fields.rxLastBits.toNat).setWidth 3

/-- CollReg CollPosNotValid (R39, R154). -/
def collPosNotValid (cfg : Cfg) (c : Byte) : Bool := anyBit c (bit cfg.fields.collPosNotValid)

/-- The collision position: CollReg CollPos, five bits, with 0 read as 32 (R39, R153). -/
def collPos (cfg : Cfg) (c : Byte) : Nat :=
  let p := ((c >>> cfg.fields.collPos.toNat).setWidth 5).toNat
  if p = 0 then 32 else p

/-- The SAK's cascade bit, bit 2 (R99, R165). -/
def cascadeBit (sak : Byte) : Bool := anyBit sak 0x04#8

/-! ### Masks written -/

/-- ComIrqReg with Set1 = 0 and every flag marked: clears them all (R33, R207). -/
def comIrqClear (cfg : Cfg) : Byte := ~~~bit cfg.fields.set1
/-- DivIrqReg with Set2 = 0 and CRCIRq marked: clears it (R34, R202). -/
def crcIrqClear (cfg : Cfg) : Byte := bit cfg.fields.crcIrq
/-- FIFOLevelReg FlushBuffer (R37, R209). -/
def flushBuffer (cfg : Cfg) : Byte := bit cfg.fields.flushBuffer
/-- BitFramingReg StartSend (R38, R210). -/
def startSend (cfg : Cfg) : Byte := bit cfg.fields.startSend
/-- Status2Reg MFCrypto1On (R36, R183). -/
def crypto1On (cfg : Cfg) : Byte := bit cfg.fields.mfCrypto1On
/-- TxControlReg Tx1RFEn and Tx2RFEn (R40, R139). -/
def txDrivers (cfg : Cfg) : Byte := bit cfg.fields.tx1RfEn ||| bit cfg.fields.tx2RfEn

end Sys2Proof.Machine
end

