-- ==== Sys2Proof/Machine/Ops.lean ====
section
/-! DEFINITION. The shared operations: procedures, the transport primitives of rule R12, the oracles, poll loops, the end of a
call by a value, an error, a refusal or a fault (60_exceptions.md), and a host call. -/

namespace Sys2Proof.Machine

/-! ### Procedures -/

/-- What ends a procedure before it returns: `raise E(info)` or `fault Unmodelled(reason)` (R12). -/
inductive Stop where
  | raise (e : Err)
  | unmodelled (r : UnmodelledReason)
  deriving DecidableEq, Repr

/-- A procedure of the sequencer (R13): it runs on a state and ends with a value or a stop. The state it leaves holds everything
the completed primitives did, in both cases (R251, R252). Beside that it notes the state after each primitive: the machine stands there
between two atomic steps. -/
abbrev Proc (α : Type) := ExceptT Stop (StateT State (WriterT (FreeMonoid State) Id)) α

/-- A procedure given as what it does to a state and which states it notes. -/
def Proc.ofRun {α : Type} (f : State → (Except Stop α × State) × FreeMonoid State) : Proc α := f

/-- Run a procedure. -/
def Proc.exec {α : Type} (p : Proc α) (s : State) : Except Stop α × State := (p s).1

/-- The states a procedure passes through, one after each of its primitives (R13). -/
def Proc.between {α : Type} (p : Proc α) (s : State) : List State := FreeMonoid.toList (p s).2

/-- An internal computation, between two primitives (R13). -/
def Proc.internal {α : Type} (f : State → α × State) : Proc α := Proc.ofRun fun s => ((.ok (f s).1, (f s).2), 1)

/-- A primitive: one atomic step, the state behind it noted (R13). -/
def Proc.primitive {α : Type} (f : State → α × State) : Proc α :=
  Proc.ofRun fun s => ((.ok (f s).1, (f s).2), FreeMonoid.of (f s).2)

/-- Read the state (`s.f`, R12). -/
def Proc.look {α : Type} (f : State → α) : Proc α := Proc.internal fun s => (f s, s)

/-- Write the state (`s.f <- v`, R12). -/
def Proc.update (f : State → State) : Proc Unit := Proc.internal fun s => ((), f s)

/-- `raise E(info)` (R12, R251). -/
def Proc.raise {α : Type} (e : Err) : Proc α := throw (.raise e)

/-- `fault Unmodelled(reason)` (R12, R262). -/
def Proc.unmodelled {α : Type} (r : UnmodelledReason) : Proc α := throw (.unmodelled r)

/-! ### The oracles (R42, R43) -/

/-- `n` MISO bytes no rule reads, drawn from number `i` on (R122). -/
def ignoredBytes (i n : Nat) : List Byte := (List.range n).map fun j => Config.freeIgnored (i + j)

/-- The values a script begins with, at most `n`, and what stands behind them. -/
def takeValues : Nat → List Answer → List Byte × List Answer
  | n + 1, .value b :: as => (b :: (takeValues n as).1, (takeValues n as).2)
  | _, as                 => ([], as)

/-- The next `n` register values: the scripted ones, then free ones (R42). -/
def State.nextReads (s : State) (n : Nat) : List Byte :=
  let told := (takeValues n s.answers).1
  told ++ (List.range (n - told.length)).map fun j => Config.freeRead (s.draws + 1 + j)

/-- The card's next reply: the scripted one, or a free one (R218). -/
def State.nextReply (s : State) : Reply :=
  match s.answers with
  | .reply r :: _ => r
  | _             => Config.freeReply s.draws

/-- Append an event to the trace and advance the position: what every primitive does (R13, R29, R44). -/
def State.emit (s : State) (e : Event) : State := { s with trace := s.trace ++ [e], pos := s.pos.advance }

/-- A write frame: every MISO byte is ignored (R117, R118, R122). -/
def State.writeFrame (s : State) (mosi : List Byte) : State :=
  { s.emit (.spi mosi (ignoredBytes s.draws mosi.length)) with draws := s.draws + mosi.length }

/-- A read frame of `n` values: the first MISO byte is ignored, the others are the values (R119, R120, R126). -/
def State.readFrame (s : State) (mosi : List Byte) (n : Nat) : State :=
  { s.emit (.spi mosi (ignoredBytes s.draws 1 ++ s.nextReads n)) with
    answers := (takeValues n s.answers).2, draws := s.draws + 1 + (n - (takeValues n s.answers).1.length) }

/-- The budget of a poll loop: how many of its deadline queries answer false (R43). -/
def State.nextBudget (s : State) : Nat × State :=
  match s.answers with
  | .deadline n :: as => (n, { s with answers := as })
  | _                 => (Config.freeBudget s.draws, { s with draws := s.draws + 1 })

/-- Draw the budget of a poll loop (R43). -/
def drawBudget : Proc Nat := Proc.internal State.nextBudget

/-! ### The transport primitives (40_transport.md) -/

/-- `RegWrite(r, v)` (R117). -/
def regWrite (cfg : Cfg) (r : Reg) (v : Byte) : Proc Unit := Proc.primitive fun s => ((), s.writeFrame [cfg.wa r, v])

/-- `RegWriteN(r, bytes)`: one frame, none for an empty list (R118, R123). -/
def regWriteN (cfg : Cfg) (r : Reg) (bytes : List Byte) : Proc Unit :=
  if bytes.isEmpty then pure () else Proc.primitive fun s => ((), s.writeFrame ([cfg.wa r] ++ bytes))

/-- `RegRead(r)` (R119). -/
def regRead (cfg : Cfg) (r : Reg) : Proc Byte :=
  Proc.primitive fun s => ((s.nextReads 1).getD 0 0, s.readFrame [cfg.ra r, 0x00] 1)

/-- The first received byte keeps only the bits from `rxAlign` up (R120). -/
def alignFirst (rxAlign : BitVec 3) : List Byte → List Byte
  | []      => []
  | b :: bs => (b &&& (0xFF#8 <<< rxAlign.toNat)) :: bs

/-- `RegReadN(r, n, rxAlign)`: one frame, none for `n = 0` (R120, R123). -/
def regReadN (cfg : Cfg) (r : Reg) (n : Nat) (rxAlign : BitVec 3) : Proc (List Byte) :=
  if n = 0 then pure []
  else Proc.primitive fun s => (alignFirst rxAlign (s.nextReads n), s.readFrame (List.replicate n (cfg.ra r) ++ [0x00]) n)

/-- `ResetLine(level)` (R121). -/
def resetLine (level : LineLevel) : Proc Unit := Proc.primitive fun s => ((), { s.emit (.reset level) with resetLine := level })

/-- `SetBits(r, m)`: a read frame and a write frame (R12). -/
def setBits (cfg : Cfg) (r : Reg) (m : Byte) : Proc Unit := do
  let v ← regRead cfg r
  regWrite cfg r (v ||| m)

/-- `ClearBits(r, m)`: a read frame and a write frame, the write made whatever was read (R12). -/
def clearBits (cfg : Cfg) (r : Reg) (m : Byte) : Proc Unit := do
  let v ← regRead cfg r
  regWrite cfg r (v &&& ~~~m)

/-- One deadline query and its answer (R43, R44). -/
def askDeadline (kind : WaitKind) (answer : Bool) : Proc Unit := Proc.primitive fun s => ((), s.emit (.ask kind answer))

/-- A loop sets the step back to the loop head (R29). -/
def jump (head : Pos) : Proc Unit := Proc.update fun s => { s with pos := head }

/-! ### Poll loops -/

/-- The iterations of a poll loop after its first: iteration `i` follows a query answered false. With budget 0 the query is answered
true and the deadline ends the loop. -/
def pollAgain {β : Type} (kind : WaitKind) (head : Pos) (check : Nat → Proc (Option β)) (onDeadline : Proc β) :
    (budget i : Nat) → Proc β
  | 0, _ => do
    askDeadline kind true
    onDeadline
  | budget + 1, i => do
    askDeadline kind false
    jump head
    match ← check i with
    | some b => pure b
    | none   => pollAgain kind head check onDeadline budget (i + 1)

/-- A poll loop: test the polled bits, and only where they do not end the loop ask the deadline, once per iteration (R43).
`check i` is the test of iteration `i`. -/
def poll {β : Type} (kind : WaitKind) (check : Nat → Proc (Option β)) (onDeadline : Proc β) : Proc β := do
  let head ← Proc.look State.pos
  match ← check 0 with
  | some b => pure b
  | none   => do
    let budget ← drawBudget
    pollAgain kind head check onDeadline budget 1

/-! ### The end of a call (R251, R252, R257, R262, R263) -/

/-- Control returns to the host with a result: the sequencer is idle (R29, R252, R257). -/
def State.giveBack (s : State) (r : CallResult) : State := { s with busy := false, pos := .idle, result := some r }

/-- An error ends the operation at once and is its result; nothing is rolled back (R251, R252). -/
def State.raiseError (s : State) (e : Err) : State := s.giveBack (.error e)

/-- A fault marks the state; the position stays where it happened and the host sees no result (R262). -/
def State.markFault (s : State) (r : UnmodelledReason) : State := { s with faultMark := some r }

/-- A refused call changes no field of the controller but the refusal's mark; the host gets the refusal (R263). -/
def State.refuse (s : State) (r : RefuseReason) : State := { s with refuseMark := some r, result := some (.refused r) }

/-- The start of a host call: `busy <- true`, `pos <- (op, 0)` (R29). -/
def State.startCall (s : State) (op : HostOp) : State := { s with busy := true, pos := .running op 0, result := none }

/-- The end of a host operation. -/
def finishCall : Except Stop Value × State → State
  | (.ok v, s)                 => s.giveBack (.value v)
  | (.error (.raise e), s)     => s.raiseError e
  | (.error (.unmodelled r), s) => s.markFault r

/-- The end of an internal row run by itself: its value is the result, the sequencer stays where it is; an error ends the
operation it stands in (R251; log entry 10). -/
def finishRow : Except Stop Value × State → State
  | (.ok v, s)                 => { s with result := some (.value v) }
  | (.error (.raise e), s)     => s.raiseError e
  | (.error (.unmodelled r), s) => s.markFault r

/-- What a step answers. -/
abbrev StepResult := Host.Outcome State Fault Refusal

/-- A faulted model takes no further step and accepts no call (R262). -/
def unlessStuck (s : State) (go : StepResult) : StepResult :=
  match s.faultMark with
  | some r => .fault (.stuck r)
  | none   => go

/-- Why a host call is refused, if it is: `Busy` while another is in progress (R264), `NotReady` before init where the operation
needs it (R22), then the operation's own reason (R263; log entry 8). -/
def refusalOf (s : State) (needsReady : Bool) (own : Option RefuseReason) : Option RefuseReason :=
  if s.busy then some .busy else if needsReady && !s.ready then some .notReady else own

/-- A host call: refused before its first primitive, or run to its result (R263, R267). -/
def hostCall (op : HostOp) (needsReady : Bool) (own : Option RefuseReason) (p : Proc Value) (s : State) : StepResult :=
  unlessStuck s <| .next <|
    match refusalOf s needsReady own with
    | some r => s.refuse r
    | none   => finishCall (p.exec (s.startCall op))

/-- An internal row run by itself (log entry 10). -/
def runRow (p : Proc Value) (s : State) : StepResult := unlessStuck s <| .next <| finishRow (p.exec s)

/-! ### After a line of a program (R109) -/

/-- The line's name is bound to the value it gave. -/
def State.bindResult (s : State) (bind : Option Name) : State :=
  match bind, s.result with
  | some n, some (.value v) => { s with bindings := (n, v) :: s.bindings }
  | _, _ => s

/-- A line whose operation raises an error ends the program: the calls behind it are not made (R109). -/
def State.endOnError (s : State) : State :=
  match s.result with
  | some (.error _) => { s with pending := [] }
  | _ => s

/-- What the host does with a line's result (R109). -/
def State.afterLine (s : State) (bind : Option Name) : State := (s.bindResult bind).endOnError

end Sys2Proof.Machine
end

