-- ==== Sys2Proof/Machine/Operands.lean ====
section
/-! DEFINITION. Operand forms: the names of a host program resolved (R109), the cascade table (R104), byte positions inside the
scratch buffer and the UID register, block addresses (R63, R228), padding and the CRC and UID trailers of frames. -/

namespace Sys2Proof.Machine

/-! ### Names of a host program (R109; log entry 14) -/

/-- The value a name is bound to. -/
def State.lookup (s : State) (n : Name) : Option Value := s.bindings.lookup n

/-- The value of an operand, `read` taking a bound value of the operand's kind. -/
def Arg.get {α : Type} (read : Value → Option α) (s : State) : Arg α → Option α
  | .lit a  => some a
  | .name n => (s.lookup n).bind read

/-- A bound Boolean. -/
def Value.asBool : Value → Option Bool
  | .bool b => some b
  | _       => none

/-- A bound byte. -/
def Value.asByte : Value → Option Byte
  | .byte b => some b
  | _       => none

/-- A bound byte list. -/
def Value.asBytes : Value → Option (List Byte)
  | .bytes bs => some bs
  | _         => none

/-- A bound card type. -/
def Value.asCardType : Value → Option CardType
  | .cardType t => some t
  | _           => none

/-- A bound store. -/
def Value.asStore : Value → Option Store
  | .store st => some st
  | _         => none

/-- Go on with an operand's value; a call whose operand has none cannot be made. -/
def withArg {α : Type} (s : State) (a : Option α) (go : α → StepResult) : StepResult :=
  unlessStuck s <|
    match a with
    | some x => go x
    | none   => .refused .badOperand

/-- A Boolean operand. -/
def boolOf (s : State) (a : Arg Bool) : Option Bool := Arg.get Value.asBool s a
/-- A byte operand. -/
def byteOf (s : State) (a : Arg Byte) : Option Byte := Arg.get Value.asByte s a
/-- A byte-list operand. -/
def bytesOf (s : State) (a : Arg (List Byte)) : Option (List Byte) := Arg.get Value.asBytes s a
/-- A card-type operand. -/
def typeOf (s : State) (a : Arg CardType) : Option CardType := Arg.get Value.asCardType s a
/-- The SAK of a card-type operand whose type the configuration's table has (R225; log entry 14). -/
def typeSakOf (s : State) (a : Arg CardType) : Option Byte := (typeOf s a).bind s.cfg.sakOf
/-- A store operand. -/
def storeOf (s : State) (n : Name) : Option Store := (s.lookup n).bind Value.asStore

/-! ### The cascade table (R104, R147) -/

end Sys2Proof.Machine

namespace Sys2Proof

/-- Where a level's bytes go in the assembled UID (R104). -/
def CascadeLevel.offset : CascadeLevel → Nat
  | .cl1 => 0 | .cl2 => 3 | .cl3 => 6

/-- The number of a level, 1 to 3 (R28). -/
def CascadeLevel.number : CascadeLevel → Nat
  | .cl1 => 1 | .cl2 => 2 | .cl3 => 3

/-- The promotion threshold: the UID size above which the level's field starts with a cascade tag (R104, R147). -/
def CascadeLevel.threshold : CascadeLevel → Option Nat
  | .cl1 => some 4 | .cl2 => some 7 | .cl3 => none

/-- The UID size when the level is the last: `3 · level + 1` (R166). -/
def CascadeLevel.uidSize (l : CascadeLevel) : Nat := 3 * l.number + 1

end Sys2Proof

namespace Sys2Proof.Machine

/-! ### Positions in a buffer -/

/-- The bytes `from .. from + len - 1` of a buffer. -/
def slice {n : Nat} (v : Vector Byte n) (start len : Nat) : List Byte := (v.toList.drop start).take len

/-- Byte `i` of a buffer, for `i` inside it. -/
def byteAt {n : Nat} (v : Vector Byte n) (i : Nat) : Byte := v.toList.getD i 0

/-- A buffer with bytes written from a position on; what would fall outside it is not written. -/
def writeAt {n : Nat} (v : Vector Byte n) (start : Nat) : List Byte → Vector Byte n
  | []      => v
  | b :: bs => writeAt (v.setIfInBounds start b) (start + 1) bs

/-- The buffer index of bit `p` of a level's UID field, `p` from 1 (R66, R156). -/
def bitByte (p : Nat) : Nat := 2 + (p - 1) / 8

/-- The place of bit `p` inside its byte, least significant first (R66, R156). -/
def bitPlace (p : Nat) : Nat := (p - 1) % 8

/-- Bit `p` of a level's UID field set to 1 (R156). -/
def setFieldBit (buf : Vector Byte 9) (p : Nat) : Vector Byte 9 :=
  buf.setIfInBounds (bitByte p) (byteAt buf (bitByte p) ||| (1#8 <<< bitPlace p))

/-- A response put into the scratch buffer from `idx` on, the `tb` known low bits of its first byte kept (R151). -/
def mergeBytes (buf : Vector Byte 9) (idx : Nat) (tb : BitVec 3) : List Byte → Vector Byte 9
  | []      => buf
  | r :: rs =>
    let mask := 0xFF#8 <<< tb.toNat
    writeAt buf idx (((byteAt buf idx &&& ~~~mask) ||| (r &&& mask)) :: rs)

/-- The index of the first byte of the UID field not fully known (R150). -/
def fieldIndex (k : Nat) : Nat := 2 + k / 8

/-- The count of known bits in that byte, `txLastBits` and `rxAlign` of the frame (R150). -/
def tailBits (k : Nat) : BitVec 3 := BitVec.ofNat 3 (k % 8)

/-- How many bytes an anti-collision frame sends (R88, R150). -/
def usedBytes (k : Nat) : Nat := fieldIndex k + (if k % 8 = 0 then 0 else 1)

/-! ### UID bytes, padding -/

/-- The UID: the first `uidSize` bytes of the UID register (R24). -/
def State.uidBytes (s : State) : List Byte := slice s.uid 0 s.uidSize

/-- The last four UID bytes (R67, R181). -/
def State.uidLast4 (s : State) : List Byte := slice s.uid (s.uidSize - 4) 4

/-- A payload zero-padded to a block (R71, R186). -/
def padBlock (data : List Byte) : List Byte := data ++ List.replicate (Config.blockLen - data.length) 0

/-! ### Card blocks (R63, R228, R229) -/

/-- The sector of a block address below 64 (R63). -/
def sectorOf (a : Byte) : Fin 16 := Fin.ofNat 16 (a.toNat / 4)

/-- The forbidden blocks: the manufacturer block and every sector's trailer in the reference configuration (R9, R228). -/
def forbidden (cfg : Cfg) (a : Byte) : Bool := cfg.forbidden.contains a

/-- The addresses every store operation refuses: forbidden, or above 63 (R228, R230). -/
def offLimits (cfg : Cfg) (a : Byte) : Bool := 64 ≤ a.toNat || forbidden cfg a

/-- The card's blocks in address order (R233). -/
def allBlocks : List Byte := (List.range Config.blocks).map (BitVec.ofNat 8)

/-- The usable sequence `U` (R229). -/
def usableBlocks (cfg : Cfg) : List Byte := allBlocks.filter fun b => !forbidden cfg b

/-- The chunks a write is split into: 16 bytes each, the last one zero-padded (R234). -/
def chunksOf (data : List Byte) : List (List Byte) :=
  (List.range ((data.length + Config.blockLen - 1) / Config.blockLen)).map fun i =>
    padBlock ((data.drop (Config.blockLen * i)).take Config.blockLen)

/-! ### Errors' numbers (R250) -/

/-- The numeric code of an error kind (R250, D29). -/
def Err.code : Err → Nat
  | .timeout _ => 1 | .collision => 2 | .communication _ => 3 | .checksum _ => 4 | .protocolFailure _ => 5
  | .unsupportedCard _ => 6 | .writeRejected _ => 7 | .capacityExceeded _ => 8 | .serializationFailure => 9

end Sys2Proof.Machine
end

