-- ==== Sys2Proof/Machine/Transport.lean ====
section
/-! DEFINITION. The rows of the register transport (40_transport.md) and of the PCD commands (R92), each run by itself. -/

namespace Sys2Proof.Machine

/-- `RegWrite(r, v)` (R117). -/
def execRegWrite (r : Reg) (v : Byte) (s : State) : StepResult := runRow (do regWrite s.cfg r v; pure .unit) s

/-- `RegWriteN(r, bytes)` (R118, R123). -/
def execRegWriteN (r : Reg) (bytes : List Byte) (s : State) : StepResult := runRow (do regWriteN s.cfg r bytes; pure .unit) s

/-- `RegRead(r) -> byte` (R119). -/
def execRegRead (r : Reg) (s : State) : StepResult := runRow (do let v ← regRead s.cfg r; pure (.byte v)) s

/-- `RegReadN(r, n, rxAlign) -> bytes` (R120, R123). -/
def execRegReadN (r : Reg) (n : Nat) (rxAlign : BitVec 3) (s : State) : StepResult :=
  runRow (do let bs ← regReadN s.cfg r n rxAlign; pure (.bytes bs)) s

/-- `ResetLine(level)` (R121). -/
def execResetLine (level : LineLevel) (s : State) : StepResult := runRow (do resetLine level; pure .unit) s

/-- Issue a PICC command: write its code, and for Transceive set StartSend (R210). -/
def issueCommand (cfg : Cfg) (cmd : PiccCommand) : Proc Unit := do
  regWrite cfg .command (cfg.byte cmd.pcd)
  match cmd with
  | .transceive => setBits cfg .bitFraming (startSend cfg)
  | .mfAuthent  => pure ()

/-- The PCD command Idle, written to CommandReg (R92, R207). -/
def execPcdIdle (s : State) : StepResult := runRow (do regWrite s.cfg .command (s.cfg.byte .idle); pure .unit) s

/-- The PCD command Transceive: the command write and StartSend (R92, R210). -/
def execPcdTransceive (s : State) : StepResult := runRow (do issueCommand s.cfg .transceive; pure .unit) s

/-- The PCD command MFAuthent: the command write alone (R92, R210). -/
def execPcdMfAuthent (s : State) : StepResult := runRow (do issueCommand s.cfg .mfAuthent; pure .unit) s

/-- The PCD command SoftReset (R92, R131). -/
def execPcdSoftReset (s : State) : StepResult := runRow (do regWrite s.cfg .command (s.cfg.byte .softReset); pure .unit) s

end Sys2Proof.Machine
end

