-- ==== Sys2Proof/Machine/Bringup.lean ====
section
/-! DEFINITION. Chip bring-up, antenna control and the end of the crypto session (41_bringup.md, 43_mifare.md R183). -/

namespace Sys2Proof.Machine

/-- `antennaSet(on)`: written only where the two driver bits differ from what is wanted (R139). -/
def antennaSet (cfg : Cfg) (on : Bool) : Proc Unit := do
  let v ← regRead cfg .txControl
  if on then
    if v &&& (txDrivers cfg) != (txDrivers cfg) then regWrite cfg .txControl (v ||| (txDrivers cfg)) else pure ()
  else
    if v &&& (txDrivers cfg) != 0#8 then regWrite cfg .txControl (v &&& ~~~(txDrivers cfg)) else pure ()

/-- `setAntennaState(on)` (R139). -/
def execSetAntennaState (on : Arg Bool) (s : State) : StepResult :=
  withArg s (boolOf s on) fun b => hostCall .setAntennaState true none (do antennaSet s.cfg b; pure .unit) s

/-- `antennaOn` is `setAntennaState on` (R110). -/
def execAntennaOn (s : State) : StepResult := hostCall .setAntennaState true none (do antennaSet s.cfg true; pure .unit) s

/-- `antennaOff` is `setAntennaState off` (R110). -/
def execAntennaOff (s : State) : StepResult := hostCall .setAntennaState true none (do antennaSet s.cfg false; pure .unit) s

/-- `mifareStopCrypto1()`: MFCrypto1On cleared by a read-modify-write (R183). -/
def stopCrypto1 (cfg : Cfg) : Proc Unit := clearBits cfg .status2 (crypto1On cfg)

/-- `mifareStopCrypto1` (R183). -/
def execMifareStopCrypto1 (s : State) : StepResult := hostCall .mifareStopCrypto1 true none (do stopCrypto1 s.cfg; pure .unit) s

/-- `endSession` is `mifareStopCrypto1` (R110). -/
def execEndSession (s : State) : StepResult := hostCall .mifareStopCrypto1 true none (do stopCrypto1 s.cfg; pure .unit) s

/-- A reset ends the session: not ready, no UID, no cached sector, the next generation (R137). -/
def State.endSessionForInit (s : State) : State :=
  { s with ready := false, uidValid := false, gen := s.gen + 1, lastAuthSector := none }

/-- The reset: a low line is raised, else SoftReset is issued (R131). -/
def chipReset (cfg : Cfg) : Proc Unit := do
  let level ← Proc.look State.resetLine
  match level with
  | .low  => resetLine .high
  | .high => regWrite cfg .command (cfg.byte .softReset)

/-- One power-down poll, number `i` from 0: done when PowerDown reads 0, an error at the limit (R132). -/
def powerDownCheck (cfg : Cfg) (i : Nat) : Proc (Option Unit) := do
  let v ← regRead cfg .command
  if powerDown cfg v then
    if cfg.resetPollLimit ≤ i + 1 then Proc.raise (.timeout .reset) else pure none
  else pure (some ())

/-- The power-down poll (R132). -/
def pollPowerDown (cfg : Cfg) : Proc Unit := poll .reset (powerDownCheck cfg) (Proc.raise (.timeout .reset))

/-- `init()`: reset, poll, crypto clear, timer, modulation, mode, antenna, in that order (R130 to R137, R142). -/
def bringUp (cfg : Cfg) : Proc Unit := do
  Proc.update State.endSessionForInit
  chipReset cfg
  pollPowerDown cfg
  stopCrypto1 cfg
  regWrite cfg .tMode cfg.initValues.tMode
  regWrite cfg .tPrescaler cfg.initValues.tPrescaler
  regWrite cfg .tReloadH ((cfg.initValues.tReload >>> 8).setWidth 8)
  regWrite cfg .tReloadL (cfg.initValues.tReload.setWidth 8)
  regWrite cfg .txAsk cfg.initValues.txAsk
  regWrite cfg .mode cfg.initValues.mode
  antennaSet cfg true
  Proc.update fun s => { s with ready := true }

/-- `init()` (R130); it needs no earlier init (R22). -/
def execInit (s : State) : StepResult := hostCall .init false none (do bringUp s.cfg; pure .unit) s

end Sys2Proof.Machine
end

