-- ==== Sys2Proof/Machine/Crc.lean ====
section
/-! DEFINITION. The CRC_A function of rule R200, and the CRC transaction of rules R202 to R205. -/

namespace Sys2Proof.Machine

/-! ### CRC_A (R200) -/

/-- One shift of the CRC register, with the reflected constant 0x8408 (R200). -/
def crcShift (c : BitVec 16) : BitVec 16 := if c &&& 1#16 != 0#16 then (c >>> 1) ^^^ 0x8408#16 else c >>> 1

/-- One byte into the CRC register: eight shifts (R200). -/
def crcByte (c : BitVec 16) (b : Byte) : BitVec 16 :=
  crcShift (crcShift (crcShift (crcShift (crcShift (crcShift (crcShift (crcShift (c ^^^ b.setWidth 16))))))))

/-- `CRC_A` (R200). -/
def crcA (d : List Byte) : BitVec 16 := d.foldl crcByte Config.crcPreset

/-- The low byte of a CRC, sent first (R65, R200). -/
def crcLow (d : List Byte) : Byte := (crcA d).setWidth 8
/-- The high byte of a CRC (R65, R200). -/
def crcHigh (d : List Byte) : Byte := (crcA d >>> 8).setWidth 8
/-- `CRC_A_bytes` (R200). -/
def crcBytes (d : List Byte) : List Byte := [crcLow d, crcHigh d]

/-! ### The CRC transaction (R202 to R205) -/

/-- `crcStart(d)`: idle, clear CRCIRq, flush, load, CalcCRC (R202). -/
def crcStart (cfg : Cfg) (d : List Byte) : Proc Unit := do
  regWrite cfg .command (cfg.byte .idle)
  regWrite cfg .divIrq (crcIrqClear cfg)
  regWrite cfg .fifoLevel (flushBuffer cfg)
  regWriteN cfg .fifoData d
  regWrite cfg .command (cfg.byte .calcCrc)

/-- One test of CRCIRq (R203). -/
def crcCheck (cfg : Cfg) : Proc (Option Unit) := do
  let v ← regRead cfg .divIrq
  pure (if crcIrq cfg v then some () else none)

/-- `pollCrc()` (R203). -/
def pollCrc (cfg : Cfg) : Proc Unit := poll .crc (fun _ => crcCheck cfg) (Proc.raise (.timeout .crc))

/-- `calculateCrc(d)`: the low and the high byte of the coprocessor's result (R204, R205). -/
def crcTransaction (cfg : Cfg) (d : List Byte) : Proc (Byte × Byte) := do
  crcStart cfg d
  pollCrc cfg
  let lo ← regRead cfg .crcResultL
  let hi ← regRead cfg .crcResultH
  Proc.update fun s => { s with crcOut := (lo, hi) }
  pure (lo, hi)

/-- The PCD command CalcCRC, written to CommandReg (R92, R202). -/
def execPcdCalcCrc (s : State) : StepResult :=
  runRow (do regWrite s.cfg .command (s.cfg.byte .calcCrc); pure .unit) s

/-- `calculateCrc(data)` (R205): refused over `FIFO_SIZE` bytes (D46). -/
def execCalculateCrc (data : Arg (List Byte)) (s : State) : StepResult :=
  withArg s (bytesOf s data) fun d =>
    hostCall .calculateCrc true (if s.cfg.fifoSize < d.length then some .tooLong else none)
      (do let (lo, hi) ← crcTransaction s.cfg d; pure (.bytes [lo, hi])) s

end Sys2Proof.Machine
end

