-- ==== Sys2Proof/Machine/Transceive.lean ====
section
/-! DEFINITION. The PICC transaction primitive (R206 to R221), the frames of 30_encoding.md sent through it, and isCardPresent. -/

namespace Sys2Proof.Machine

/-! ### transceivePicc (R206) -/

/-- One test of ComIrqReg: done first, then the chip's timer; `some true` is a timeout (R211). -/
def piccCheck (cfg : Cfg) (cmd : PiccCommand) : Proc (Option Bool) := do
  let v ← regRead cfg .comIrq
  pure (if commandDone cfg cmd v then some false else if timerIrq cfg v then some true else none)

/-- The transaction poll; true when it ended by TimerIRq or by the deadline (R211, R213). -/
def pollPicc (cfg : Cfg) (cmd : PiccCommand) : Proc Bool := poll .picc (fun _ => piccCheck cfg cmd) (pure true)

/-- The response read: the count, the FIFO bytes, the valid-bit count (R215). -/
def readResponse (cfg : Cfg) (rxAlign : BitVec 3) : Proc Unit := do
  let level ← regRead cfg .fifoLevel
  let bs ← regReadN cfg .fifoData (fifoCount cfg level) rxAlign
  let control ← regRead cfg .control
  Proc.update fun s => { s with rsp := ⟨bs, rxLastBits cfg control⟩ }

/-- `transceivePicc(cmd, tx, txLastBits, rxAlign, want)` by its register accesses (R206): prologue (R207), framing (R208), FIFO (R209),
command (R210), poll (R211), StartSend cleared (R212), timeout (R213), early errors (R214), response (R215), collision last (R216). -/
def transceiveRegisters (cfg : Cfg) (cmd : PiccCommand) (tx : List Byte) (txLastBits rxAlign : BitVec 3) (want : Bool) :
    Proc XactOutcome := do
  regWrite cfg .command (cfg.byte .idle)
  regWrite cfg .comIrq (comIrqClear cfg)
  regWrite cfg .bitFraming (bitFraming rxAlign txLastBits)
  regWrite cfg .fifoLevel (flushBuffer cfg)
  regWriteN cfg .fifoData tx
  issueCommand cfg cmd
  let timedOut ← pollPicc cfg cmd
  clearBits cfg .bitFraming (startSend cfg)
  if timedOut then pure .timeout
  else do
    let e ← regRead cfg .error
    if earlyError cfg e then pure (.comm e)
    else do
      if want then readResponse cfg rxAlign else pure ()
      pure (if collError cfg e then .coll else .ok)

/-! ### The transaction abstraction (R218) -/

/-- The outcome the abstraction gives a reply (R218's table). -/
def Reply.outcome : Reply → XactOutcome
  | .silent             => .timeout
  | .garbled e          => .comm e
  | .reply _ _ none     => .ok
  | .reply _ _ (some _) => .coll

/-- `rsp` after a transaction with a reply, `old` before it (R218's table). The first byte holds no bit below `rxAlign` (R120). -/
def Reply.rspAfter (want : Bool) (rxAlign : BitVec 3) (old : PiccResponse) : Reply → PiccResponse
  | .reply bytes validBits _ => if want then ⟨alignFirst rxAlign bytes, validBits⟩ else old
  | .silent | .garbled _     => old

/-- The state after a transaction taken as one step: the one event, the reply's response (R218). A reply that is none of the rule's, a
`Garbled(e)` without an early error or a `Reply` of more than 127 bytes, is taken as written (DESIGN CHOICE, log entry 24). -/
def State.xact (s : State) (cmd : PiccCommand) (tx : List Byte) (txLastBits rxAlign : BitVec 3) (want : Bool) : State :=
  let reply := s.nextReply
  { s.emit (.xact cmd tx txLastBits rxAlign reply) with
    answers := (match s.answers with | .reply _ :: as => as | as => as)
    draws := s.draws + 1
    rsp := reply.rspAfter want rxAlign s.rsp }

/-- `transceivePicc` as one step from the card's reply (R218). -/
def transceiveReply (cmd : PiccCommand) (tx : List Byte) (txLastBits rxAlign : BitVec 3) (want : Bool) : Proc XactOutcome :=
  Proc.primitive fun s => (s.nextReply.outcome, s.xact cmd tx txLastBits rxAlign want)

/-- `transceivePicc(cmd, tx, txLastBits, rxAlign, want)` (R206, R218). -/
def transceive (cfg : Cfg) (g : Grain) (cmd : PiccCommand) (tx : List Byte) (txLastBits rxAlign : BitVec 3) (want : Bool) :
    Proc XactOutcome :=
  match g with
  | .registers    => transceiveRegisters cfg cmd tx txLastBits rxAlign want
  | .transactions => transceiveReply cmd tx txLastBits rxAlign want

/-- The CollReg bits that R218's table gives: CollPos and CollPosNotValid (R39). -/
def collFields (cfg : Cfg) : Byte := (0x1F#8 <<< cfg.fields.collPos.toNat) ||| bit cfg.fields.collPosNotValid

/-- A CollReg value for a collision at position `p`: `p mod 32` in CollPos, CollPosNotValid 0 (R218's table), and the other bits those of
`chip`. R39 leaves them (ValuesAfterColl and the reserved bit 6) to the chip, and R218 says nothing of them: they are the chip's free answer
(DESIGN CHOICE, log entry 1). -/
def collRegOf (cfg : Cfg) (chip : Byte) (p : Nat) : Byte :=
  (chip &&& ~~~collFields cfg) ||| (BitVec.ofNat 8 (p % 32) <<< cfg.fields.collPos.toNat)

/-- What a read of CollReg gives after the transaction a trace ends with (R218's table): the chip's answer, scripted or free (R42), but for
the two fields where the transaction ended with a collision. -/
def State.collReg (s : State) (cfg : Cfg) : Byte :=
  match s.trace.getLast? with
  | some (.xact _ _ _ _ (.reply _ _ (some p))) => collRegOf cfg ((s.nextReads 1).getD 0 0) p
  | _ => (s.nextReads 1).getD 0 0

/-- The read of CollReg after a collision (R153): of the chip, or of what the abstraction says the chip holds (R218). It is the read `select`
makes; a register row run by itself makes its own (`rowProc`, log entry 10). -/
def readColl (cfg : Cfg) (g : Grain) : Proc Byte :=
  match g with
  | .registers    => regRead cfg .coll
  | .transactions => Proc.primitive fun s =>
    (s.collReg cfg, { s.readFrame [cfg.ra .coll, 0x00] 1 with
      trace := s.trace ++ [.spi [cfg.ra .coll, 0x00] (ignoredBytes s.draws 1 ++ [s.collReg cfg])] })

/-- `transceivePicc`, run by itself: internal, not among the host's operations (R108, R206; log entries 10 and 13). -/
def execTransceivePicc (cmd : PiccCommand) (tx : List Byte) (txLastBits rxAlign : BitVec 3) (want : Bool) (s : State) : StepResult :=
  runRow (do let o ← transceive s.cfg .registers cmd tx txLastBits rxAlign want; pure (.outcome o)) s

/-! ### Frames to the card (R94 to R103) -/

/-- REQA: a 7-bit short frame, its answer read (R94). -/
def sendReqa (cfg : Cfg) (g : Grain) : Proc XactOutcome := transceive cfg g .transceive [cfg.picc.reqa] 7 0 true

/-- WUPA: a 7-bit short frame (R95; log entry 9). -/
def sendWupa (cfg : Cfg) (g : Grain) : Proc XactOutcome := transceive cfg g .transceive [cfg.picc.wupa] 7 0 true

/-- An anti-collision frame, `txLastBits = rxAlign` = its NVB's extra bits (R87, R96). -/
def sendAnticoll (cfg : Cfg) (g : Grain) (l : CascadeLevel) (nvb : Byte) (uidBits : List Byte) : Proc XactOutcome :=
  transceive cfg g .transceive (anticollBytes cfg l nvb uidBits) (nvbTail nvb) (nvbTail nvb) true

/-- A SELECT frame (R97). -/
def sendSelect (cfg : Cfg) (g : Grain) (l : CascadeLevel) (uid : Vector Byte 4) (lo hi : Byte) : Proc XactOutcome :=
  transceive cfg g .transceive (selectBytes cfg l uid lo hi) 0 0 true

/-- An authentication frame, issued with MFAuthent, no response read (R101, R180). -/
def sendAuth (cfg : Cfg) (g : Grain) (k : KeyType) (block : Byte) (key uidLast4 : List Byte) : Proc XactOutcome :=
  transceive cfg g .mfAuthent (authBytes cfg k block key uidLast4) 0 0 false

/-- A frame of whole bytes whose answer is read (R102, R103). -/
def sendFrame (cfg : Cfg) (g : Grain) (bytes : List Byte) : Proc XactOutcome := transceive cfg g .transceive bytes 0 0 true

/-- A frame row's value: the transaction's outcome. -/
def frameRow (p : Proc XactOutcome) (s : State) : StepResult := runRow (do let o ← p; pure (.outcome o)) s

/-- REQA (R94). -/
def execReqa (s : State) : StepResult := frameRow (sendReqa s.cfg .registers) s

/-- WUPA (R95; log entry 9). -/
def execWupa (s : State) : StepResult := frameRow (sendWupa s.cfg .registers) s

/-- HLTA: four whole bytes; no answer is read (R95; log entry 9). -/
def execHlta (lo hi : Byte) (s : State) : StepResult :=
  frameRow (transceive s.cfg .registers .transceive [s.cfg.picc.hlta, 0x00, lo, hi] 0 0 false) s

/-- Anti-collision at CL1 (R96). -/
def execAnticollCL1 (nvb : Byte) (uidBits : List Byte) (s : State) : StepResult := frameRow (sendAnticoll s.cfg .registers .cl1 nvb uidBits) s

/-- Anti-collision at CL2 (R96). -/
def execAnticollCL2 (nvb : Byte) (uidBits : List Byte) (s : State) : StepResult := frameRow (sendAnticoll s.cfg .registers .cl2 nvb uidBits) s

/-- Anti-collision at CL3 (R96). -/
def execAnticollCL3 (nvb : Byte) (uidBits : List Byte) (s : State) : StepResult := frameRow (sendAnticoll s.cfg .registers .cl3 nvb uidBits) s

/-- SELECT at CL1 (R97). -/
def execSelectCL1 (uid : Vector Byte 4) (lo hi : Byte) (s : State) : StepResult := frameRow (sendSelect s.cfg .registers .cl1 uid lo hi) s

/-- SELECT at CL2 (R97). -/
def execSelectCL2 (uid : Vector Byte 4) (lo hi : Byte) (s : State) : StepResult := frameRow (sendSelect s.cfg .registers .cl2 uid lo hi) s

/-- SELECT at CL3 (R97). -/
def execSelectCL3 (uid : Vector Byte 4) (lo hi : Byte) (s : State) : StepResult := frameRow (sendSelect s.cfg .registers .cl3 uid lo hi) s

/-- MIFARE AUTH with key A (R101, R180). -/
def execMfAuthA (block : Byte) (key : Vector Byte 6) (uidLast4 : Vector Byte 4) (s : State) : StepResult :=
  frameRow (sendAuth s.cfg .registers .a block key.toList uidLast4.toList) s

/-- MIFARE AUTH with key B (R101, R180). -/
def execMfAuthB (block : Byte) (key : Vector Byte 6) (uidLast4 : Vector Byte 4) (s : State) : StepResult :=
  frameRow (sendAuth s.cfg .registers .b block key.toList uidLast4.toList) s

/-- MIFARE READ (R102, R184). -/
def execMfRead (block lo hi : Byte) (s : State) : StepResult := frameRow (sendFrame s.cfg .registers [s.cfg.picc.read, block, lo, hi]) s

/-- MIFARE WRITE, phase 1 (R103, R186). -/
def execMfWrite (block lo hi : Byte) (s : State) : StepResult := frameRow (sendFrame s.cfg .registers [s.cfg.picc.write, block, lo, hi]) s

/-- MIFARE WRITE, phase 2: the padded payload and its CRC (R103, R187). -/
def execMfWriteData (data : Vector Byte 16) (lo hi : Byte) (s : State) : StepResult :=
  frameRow (sendFrame s.cfg .registers (data.toList ++ [lo, hi])) s

/-! ### Responses run by themselves (log entry 10) -/

/-- The response a row stands for is received: it is what `rsp` then holds (R215). -/
def receive (bytes : List Byte) (validBits : BitVec 3) : Proc Unit :=
  Proc.update fun s => { s with rsp := ⟨bytes, validBits⟩ }

/-! ### isCardPresent (R145) -/

/-- A clean ATQA: 2 bytes, 0 trailing bits, the content not inspected (R100, R145). -/
def cleanAtqa (r : PiccResponse) : Bool := r.n == 2 && r.validBits == 0#3

/-- The ATQA response: whether it is clean (R100, R145). -/
def execAtqa (b0 b1 : Byte) (s : State) : StepResult :=
  runRow (do receive [b0, b1] 0; let r ← Proc.look State.rsp; pure (.bool (cleanAtqa r))) s

/-- `isCardPresent() -> Bool` (R145): a clean ATQA or a collision is a card; every other outcome is false. -/
def cardPresent (cfg : Cfg) (g : Grain) : Proc Bool := do
  let o ← sendReqa cfg g
  match o with
  | .ok   => do let r ← Proc.look State.rsp; pure (cleanAtqa r)
  | .coll => pure true
  | .timeout | .comm _ => pure false

/-- `isCardPresent` (R145). -/
def execIsCardPresent (s : State) : StepResult :=
  hostCall .isCardPresent true none (do let b ← cardPresent s.cfg .registers; pure (.bool b)) s

end Sys2Proof.Machine
end

