-- ==== Sys2Proof/Machine/Select.lean ====
section
/-! DEFINITION. Anti-collision, selection and UID assembly (42_select.md), and the response rows select parses. -/

namespace Sys2Proof.Machine

/-! ### Level entry (R147, R148) -/

/-- The working registers at the entry of a level: a zero-filled buffer that starts with SEL, no known bit, no pass taken (R148). -/
def State.enterLevel (s : State) (cfg : Cfg) (l : CascadeLevel) : State :=
  { s with level := l, selBuf := (Vector.replicate 9 (0 : Byte)).setIfInBounds 0 (cfg.sel l), k := 0, iter := 0 }

/-! ### Anti-collision (R150 to R152) -/

/-- `merge(idx, tb)`: the response put into the buffer behind the known bits, with its room check (R151). -/
def merge (idx : Nat) (tb : BitVec 3) : Proc Unit := do
  let r ← Proc.look State.rsp
  if 9 - idx < r.n then Proc.raise (.communication .responseTooLong)
  else Proc.update fun s => { s with selBuf := mergeBytes s.selBuf idx tb r.bytes }

/-- A clean anti-collision response makes all 32 bits of the level known (R152). -/
def allBitsKnown : Proc Unit := Proc.update fun s => { s with k := 32 }

/-- The anti-collision frame sent from the buffer: NVB written, then the bytes in use (R96, R150). -/
def sendKnownBits (cfg : Cfg) (g : Grain) (k : Nat) : Proc XactOutcome := do
  Proc.update fun s => { s with selBuf := s.selBuf.setIfInBounds 1 (nvb (fieldIndex k) (k % 8)) }
  let frame ← Proc.look fun s => slice s.selBuf 0 (usedBytes k)
  transceive cfg g .transceive frame (tailBits k) (tailBits k) true

/-! ### Collisions (R153 to R156) -/

/-- Bit `p` becomes known, set to 1 (R156). -/
def State.resolveBit (s : State) (p : Nat) : State := { s with k := p, selBuf := setFieldBit s.selBuf p }

/-- What a collision does: the position is read, checked and, where it goes past the known bits, its bit set (R153 to R156). -/
def resolveCollision (cfg : Cfg) (g : Grain) : Proc Unit := do
  let c ← readColl cfg g
  if collPosNotValid cfg c then Proc.raise (.protocolFailure .collisionPositionNotValid)
  else do
    let k ← Proc.look State.k
    if collPos cfg c ≤ k then Proc.raise (.protocolFailure .noProgress)
    else Proc.update fun s => s.resolveBit (collPos cfg c)

/-- What a pass does with an outcome other than `OK` (R153, R159). -/
def afterFailedPass (cfg : Cfg) (g : Grain) : XactOutcome → Proc Unit
  | .timeout => Proc.raise (.timeout .picc)
  | .comm e  => Proc.raise (.communication (.errorReg e))
  | .coll    => resolveCollision cfg g
  | .ok      => pure ()

/-- An anti-collision pass (R150 to R156). -/
def anticollPass (cfg : Cfg) (g : Grain) (k : Nat) : Proc Unit := do
  let o ← sendKnownBits cfg g k
  match o with
  | .ok => do
    merge (fieldIndex k) (tailBits k)
    allBitsKnown
  | .coll => do
    merge (fieldIndex k) (tailBits k)
    afterFailedPass cfg g .coll
  | o => afterFailedPass cfg g o

/-! ### SELECT (R157, R158) -/

/-- NVB 0x70 and the BCC of the UID field (R157). -/
def State.writeSelectHead (s : State) : State :=
  let check := bcc (byteAt s.selBuf 2) (byteAt s.selBuf 3) (byteAt s.selBuf 4) (byteAt s.selBuf 5)
  { s with selBuf := (s.selBuf.setIfInBounds 1 Config.nvbSelect).setIfInBounds 6 check }

/-- The SELECT frame built in the buffer and sent whole (R157). -/
def sendSelectFromBuffer (cfg : Cfg) (g : Grain) : Proc XactOutcome := do
  Proc.update State.writeSelectHead
  let body ← Proc.look fun s => slice s.selBuf 0 7
  let (lo, hi) ← crcTransaction cfg body
  Proc.update fun s => { s with selBuf := writeAt s.selBuf 7 [lo, hi] }
  let frame ← Proc.look fun s => slice s.selBuf 0 9
  transceive cfg g .transceive frame 0 0 true

/-- A SAK response is 3 bytes with 0 trailing bits (R99, R158). -/
def sakShape (r : PiccResponse) : Bool := r.n == 3 && r.validBits == 0#3

/-- The shape check of a SELECT response (R158). -/
def checkSakShape : Proc Unit := do
  let r ← Proc.look State.rsp
  if sakShape r then pure () else Proc.raise (.communication .sakShape)

/-- A SELECT pass; true when the level is complete (R157, R158). -/
def selectPass (cfg : Cfg) (g : Grain) : Proc Bool := do
  let o ← sendSelectFromBuffer cfg g
  match o with
  | .ok => do checkSakShape; pure true
  | o   => do afterFailedPass cfg g o; pure false

/-! ### The sub-loop of a level (R149, R160) -/

/-- One pass: counted, then SELECT once all 32 bits are known, anti-collision before (R149). -/
def pass (cfg : Cfg) (g : Grain) : Proc Bool := do
  Proc.update fun s => { s with iter := s.iter + 1 }
  let k ← Proc.look State.k
  if 32 ≤ k then selectPass cfg g
  else do anticollPass cfg g k; pure false

/-- The passes of a level that are still allowed, `32 − iter` of them: none left is a failure (R149, R160). -/
def levelLoop (cfg : Cfg) (g : Grain) (head : Pos) : Nat → Proc Unit
  | 0     => Proc.raise (.protocolFailure .noCompletion)
  | n + 1 => do
    jump head
    let complete ← pass cfg g
    if complete then pure () else levelLoop cfg g head n

/-! ### The end of a level (R161 to R167) -/

/-- The SAK of the response that completed the level (R161). -/
def sakOf (r : PiccResponse) : Byte := r.bytes.getD 0 0

/-- The SAK's CRC_A against a fresh checksum of it, low byte first (R162). -/
def checkSakCrc (cfg : Cfg) : Proc Byte := do
  let r ← Proc.look State.rsp
  let (lo, hi) ← crcTransaction cfg [sakOf r]
  if lo = r.bytes.getD 1 0 ∧ hi = r.bytes.getD 2 0 then pure (sakOf r) else Proc.raise (.checksum .sak)

/-- Whether the level's UID field starts with a cascade tag; never asked at CL3 (R163). -/
def State.hasCascadeTag (s : State) : Bool := s.level != .cl3 && byteAt s.selBuf 2 == Config.cascadeTag

/-- The level's contribution to the UID: 3 bytes behind a cascade tag, else 4 (R163). -/
def State.takeUidBytes (s : State) : State :=
  { s with uid := writeAt s.uid s.level.offset (if s.hasCascadeTag then slice s.selBuf 3 3 else slice s.selBuf 2 4) }

/-- The end of a level: SAK CRC, UID bytes, then the cascade bit at CL3, then the tag's agreement with it. The value is the cascade
bit (R161 to R164, R167; the order is R254's). -/
def finishLevel (cfg : Cfg) : Proc Byte := do
  let sak ← checkSakCrc cfg
  let ct ← Proc.look State.hasCascadeTag
  Proc.update State.takeUidBytes
  let l ← Proc.look State.level
  if cascadeBit sak && l == .cl3 then Proc.raise (.protocolFailure .cascadeBitAtCL3)
  else if ct != cascadeBit sak then Proc.unmodelled .cascadeTagMismatch
  else pure sak

/-- One level: entered, its passes run, its end (R148, R149, R161). -/
def runLevel (cfg : Cfg) (g : Grain) (l : CascadeLevel) : Proc Byte := do
  Proc.update fun s => s.enterLevel cfg l
  let head ← Proc.look State.pos
  levelLoop cfg g head Config.maxSubIter
  finishLevel cfg

/-- Completion: the UID register is valid (R166). -/
def State.completeSelect (s : State) (sak : Byte) : State :=
  { s with uidSize := s.level.uidSize, sak := sak, uidValid := true }

/-- The levels from the first of a list on: a set cascade bit goes to the next, a clear one completes (R165, R166). There is no
fourth level (R167). -/
def runLevels (cfg : Cfg) (g : Grain) (head : Pos) : List CascadeLevel → Proc Unit
  | []      => Proc.raise (.protocolFailure .cascadeBitAtCL3)
  | l :: ls => do
    jump head
    let sak ← runLevel cfg g l
    if cascadeBit sak then runLevels cfg g head ls
    else Proc.update fun s => s.completeSelect sak

/-- The session ends as select begins (R146, R291). -/
def State.endSessionForSelect (s : State) : State := { s with uidValid := false, gen := s.gen + 1, lastAuthSector := none }

/-- `select() -> (uid, sak)` (R146, R168). -/
def selectCard (cfg : Cfg) (g : Grain) : Proc Value := do
  Proc.update State.endSessionForSelect
  let head ← Proc.look State.pos
  runLevels cfg g head [.cl1, .cl2, .cl3]
  Proc.look fun s => .selected s.uidBytes s.sak

/-- `select` (R146). -/
def execSelect (s : State) : StepResult := hostCall .select true none (selectCard s.cfg .registers) s

/-! ### Response rows (log entry 10) -/

/-- A clean anti-collision response: merged behind the known bits, all bits then known (R98, R151, R152). R149 and R150 have this step at
`k ≤ 31` only. Run by itself at a greater `k` (32, as select leaves it) the row does the same: merged at `selBuf[2 + k div 8]`, at 32 behind
the UID field with room for 3 bytes (DESIGN CHOICE, log entry 10). -/
def execAnticollResponse (bytes : List Byte) (validBits : BitVec 3) (s : State) : StepResult :=
  runRow (do
    receive bytes validBits
    let k ← Proc.look State.k
    merge (fieldIndex k) (tailBits k)
    allBitsKnown
    pure .unit) s

/-- The SAK response: its shape, then its CRC; the value is the SAK (R99, R158, R161, R162). -/
def execSak (sak lo hi : Byte) (s : State) : StepResult :=
  runRow (do
    receive [sak, lo, hi] 0
    checkSakShape
    let v ← checkSakCrc s.cfg
    pure (.byte v)) s

/-- The cascade tag as first byte of the level's UID field: the level contributes the bytes behind it. The value is whether the tag
counts, as it does at CL1 and CL2 (R163). -/
def execCascadeTag (s : State) : StepResult :=
  runRow (do
    Proc.update fun s => { s with selBuf := s.selBuf.setIfInBounds 2 Config.cascadeTag }
    let ct ← Proc.look State.hasCascadeTag
    Proc.update State.takeUidBytes
    pure (.bool ct)) s

end Sys2Proof.Machine
end

