-- ==== Sys2Proof/Machine/Mifare.lean ====
section
/-! DEFINITION. MIFARE authentication and raw block I/O (43_mifare.md). -/

namespace Sys2Proof.Machine

/-- `raiseOn(o)` (43_mifare.md, R255). -/
def raiseOn : XactOutcome → Proc Unit
  | .timeout => Proc.raise (.timeout .picc)
  | .comm e  => Proc.raise (.communication (.errorReg e))
  | .coll    => Proc.raise .collision
  | .ok      => pure ()

/-! ### Authentication (R180 to R182) -/

/-- `mifareAuth(keyType, key, blockAddr)` (R180): success is an `OK` outcome (D43). -/
def authBlock (cfg : Cfg) (g : Grain) (key : Key) (block : Byte) : Proc Unit := do
  let u ← Proc.look State.uidLast4
  let o ← sendAuth cfg g key.kind block key.bytes.toList u
  raiseOn o

/-- `mifareAuth` (R180): refused without a session (D45). -/
def execMifareAuth (key : Key) (block : Arg Byte) (s : State) : StepResult :=
  withArg s (byteOf s block) fun a =>
    hostCall .mifareAuth true (if s.uidValid then none else some .noSession) (do authBlock s.cfg .registers key a; pure .unit) s

/-! ### Block read (R184, R185) -/

/-- A READ response is 18 bytes with 0 trailing bits (R102, R184). -/
def readShape (r : PiccResponse) : Bool := r.n == 18 && r.validBits == 0#3

/-- The checks of a READ response: shape, then CRC; the value is the 16 data bytes (R184, R192). -/
def checkRead (cfg : Cfg) : Proc (List Byte) := do
  let r ← Proc.look State.rsp
  if readShape r then do
    let (lo, hi) ← crcTransaction cfg (r.bytes.take 16)
    if lo = r.bytes.getD 16 0 ∧ hi = r.bytes.getD 17 0 then pure (r.bytes.take 16) else Proc.raise (.checksum .read)
  else Proc.raise (.communication .readShape)

/-- `mifareRead(blockAddr)` (R184). -/
def readCardBlock (cfg : Cfg) (g : Grain) (a : Byte) : Proc (List Byte) := do
  let (lo, hi) ← crcTransaction cfg [cfg.picc.read, a]
  let o ← sendFrame cfg g [cfg.picc.read, a, lo, hi]
  raiseOn o
  checkRead cfg

/-- `mifareRead` (R184): no session needed, no address checked (R185). -/
def execMifareRead (block : Arg Byte) (s : State) : StepResult :=
  withArg s (byteOf s block) fun a => hostCall .mifareRead true none (do let d ← readCardBlock s.cfg .registers a; pure (.bytes d)) s

/-- The READ response: its CRC against a fresh checksum of the data; the value is the data (R102, R184). -/
def execMfReadResponse (data : Vector Byte 16) (lo hi : Byte) (s : State) : StepResult :=
  runRow (do receive (data.toList ++ [lo, hi]) 0; let d ← checkRead s.cfg; pure (.bytes d)) s

/-! ### Block write (R186 to R190) -/

/-- An accepting ACK: 1 byte, 4 valid bits, the low nibble 0xA (R188). -/
def acked (r : PiccResponse) : Bool := r.n == 1 && r.validBits == 4#3 && (r.bytes.getD 0 0).setWidth 4 == Config.mfAck

/-- `ackCheck()` (R188). -/
def ackCheck : Proc Unit := do
  let r ← Proc.look State.rsp
  if acked r then pure () else Proc.raise (.writeRejected r)

/-- A frame sent, its outcome mapped, its ACK checked: one phase of a write (R186). -/
def writePhase (cfg : Cfg) (g : Grain) (frame : List Byte) : Proc Unit := do
  let o ← sendFrame cfg g frame
  raiseOn o
  ackCheck

/-- `mifareWrite(blockAddr, data)`: the command phase, then the padded data (R186, R187). -/
def writeCardBlock (cfg : Cfg) (g : Grain) (a : Byte) (data : List Byte) : Proc Unit := do
  let (lo1, hi1) ← crcTransaction cfg [cfg.picc.write, a]
  writePhase cfg g [cfg.picc.write, a, lo1, hi1]
  let (lo2, hi2) ← crcTransaction cfg (padBlock data)
  writePhase cfg g (padBlock data ++ [lo2, hi2])

/-- The refusal of a payload over a block (R186, R232). -/
def payloadRefusal (data : List Byte) : Option RefuseReason := if Config.blockLen < data.length then some .payloadTooLong else none

/-- `mifareWrite` (R186): refused over 16 bytes (D25); no address is guarded (R190). -/
def execMifareWrite (block : Arg Byte) (data : Arg (List Byte)) (s : State) : StepResult :=
  withArg s (byteOf s block) fun a => withArg s (bytesOf s data) fun d =>
    hostCall .mifareWrite true (payloadRefusal d) (do writeCardBlock s.cfg .registers a d; pure .unit) s

/-- The ACK response: 1 byte with 4 valid bits whose low nibble is 0xA; the high bits carry nothing (R103, R188). -/
def execMfAck (high : BitVec 4) (s : State) : StepResult :=
  runRow (do receive [high ++ Config.mfAck] 4; ackCheck; pure .unit) s

end Sys2Proof.Machine
end

