-- ==== Sys2Proof/Machine/Store.lean ====
section
/-! DEFINITION. The card-type table and the sector store (45_sector_store.md). -/

namespace Sys2Proof.Machine

/-! ### Card types (R225) -/

/-- `cardType(sak)` (R225). -/
def typeOfSak (cfg : Cfg) (b : Byte) : Proc CardType :=
  match cfg.typeOf b with
  | some t => pure t
  | none   => Proc.raise (.unsupportedCard b)

/-- `cardType` (R225): allowed before init (R22). -/
def execCardType (sak : Arg Byte) (s : State) : StepResult :=
  withArg s (byteOf s sak) fun b => hostCall .cardType false none (do let t ← typeOfSak s.cfg b; pure (.cardType t)) s

/-- `getSak` (R225): allowed before init (R22). A type the configuration's table has not is no operand (log entry 14). -/
def execGetSak (type : Arg CardType) (s : State) : StepResult :=
  withArg s (typeSakOf s type) fun b => hostCall .getSak false none (pure (.byte b)) s

/-! ### The store object (R226, R227, R238) -/

/-- `makeStore()`: a store of the current session, for a MIFARE Classic 1K only (R226). -/
def newStore (cfg : Cfg) : Proc Store := do
  let b ← Proc.look State.sak
  let t ← typeOfSak cfg b
  if t = .mifareClassic1K then
    Proc.look fun s => { gen := s.gen, uid := s.uidBytes, uidSize := s.uidSize, capacity := Config.capacity }
  else Proc.raise (.unsupportedCard b)

/-- `makeStore` (R226): refused without a session. -/
def execMakeStore (s : State) : StepResult :=
  hostCall .makeStore true (if s.uidValid then none else some .noSession) (do let st ← newStore s.cfg; pure (.store st)) s

/-- `getCapacity(store)` (R227): no I/O, allowed before init and on a stale store. -/
def execGetCapacity (store : Name) (s : State) : StepResult :=
  withArg s (storeOf s store) fun st => hostCall .getCapacity false none (pure (.capacity st.capacity)) s

/-- `checkStore(store)`: a store drives the chip only in the session it was made for (R238). -/
def staleRefusal (s : State) (st : Store) : Option RefuseReason :=
  if s.uidValid && st.gen == s.gen then none else some .staleSession

/-- The refusal of an address the store never touches (R228, R230). -/
def blockRefusal (cfg : Cfg) (a : Byte) : Option RefuseReason := if offLimits cfg a then some .forbiddenBlock else none

/-! ### authenticate (R230) -/

/-- `authenticate(store, blockAddr)` past its checks: nothing where the sector is cached, else key B and, on success only, the
cache (R230, R237). -/
def authSector (cfg : Cfg) (g : Grain) (a : Byte) : Proc Unit := do
  let cached ← Proc.look State.lastAuthSector
  if cached = some (sectorOf a) then pure ()
  else do
    authBlock cfg g Config.storeKey a
    Proc.update fun s => { s with lastAuthSector := some (sectorOf a) }

/-- `authenticate` (R230). -/
def execAuthenticate (store : Name) (block : Arg Byte) (s : State) : StepResult :=
  withArg s (storeOf s store) fun st => withArg s (byteOf s block) fun a =>
    hostCall .authenticate true ((staleRefusal s st).or (blockRefusal s.cfg a)) (do authSector s.cfg .registers a; pure .unit) s

/-! ### Blocks (R231, R232) -/

/-- A block read through the cache (R231). -/
def readThrough (cfg : Cfg) (g : Grain) (a : Byte) : Proc (List Byte) := do
  authSector cfg g a
  readCardBlock cfg g a

/-- A block written through the cache (R232). -/
def writeThrough (cfg : Cfg) (g : Grain) (a : Byte) (data : List Byte) : Proc Unit := do
  authSector cfg g a
  writeCardBlock cfg g a data

/-- `readBlock` (R231). -/
def execReadBlock (store : Name) (block : Arg Byte) (s : State) : StepResult :=
  withArg s (storeOf s store) fun st => withArg s (byteOf s block) fun a =>
    hostCall .readBlock true ((staleRefusal s st).or (blockRefusal s.cfg a)) (do let d ← readThrough s.cfg .registers a; pure (.bytes d)) s

/-- `writeBlock` (R232): the length is checked before the block. -/
def execWriteBlock (store : Name) (block : Arg Byte) (data : Arg (List Byte)) (s : State) : StepResult :=
  withArg s (storeOf s store) fun st => withArg s (byteOf s block) fun a => withArg s (bytesOf s data) fun d =>
    hostCall .writeBlock true (((staleRefusal s st).or (payloadRefusal d)).or (blockRefusal s.cfg a))
      (do writeThrough s.cfg .registers a d; pure .unit) s

/-! ### Bytes (R233, R234) -/

/-- The rounds of the loop over the blocks of a list, in order: each sets the step back to the loop head (R29), passes a forbidden block
over, and reads any other; their contents are joined (R233). -/
def readAll (cfg : Cfg) (g : Grain) (head : Pos) : List Byte → Proc (List Byte)
  | []      => pure []
  | b :: bs => do
    jump head
    if forbidden cfg b then readAll cfg g head bs
    else do
      let d ← readThrough cfg g b
      let rest ← readAll cfg g head bs
      pure (d ++ rest)

/-- `readBytes` past its check: all 64 blocks (R233). -/
def readStore (cfg : Cfg) (g : Grain) : Proc (List Byte) := do
  let head ← Proc.look State.pos
  readAll cfg g head allBlocks

/-- `readBytes` (R233). -/
def execReadBytes (store : Name) (s : State) : StepResult :=
  withArg s (storeOf s store) fun st =>
    hostCall .readBytes true (staleRefusal s st) (do let d ← readStore s.cfg .registers; pure (.bytes d)) s

/-- The rounds of the loop over the blocks of a list, in order, until the chunks are used up: each sets the step back to the loop head
(R29), passes a forbidden block over, and writes the next chunk into any other; chunks left at the end are an error (R234). -/
def writeAll (cfg : Cfg) (g : Grain) (head : Pos) : List Byte → List (List Byte) → Proc Unit
  | _, []            => pure ()
  | [], _ :: _       => Proc.raise (.capacityExceeded .defensive)
  | b :: bs, c :: cs => do
    jump head
    if forbidden cfg b then writeAll cfg g head bs (c :: cs)
    else do
      writeThrough cfg g b c
      writeAll cfg g head bs cs

/-- `writeBytes` past its check: over the capacity is an error before any I/O (R234). -/
def writeStore (cfg : Cfg) (g : Grain) (data : List Byte) : Proc Unit :=
  if Config.capacity < data.length then Proc.raise (.capacityExceeded (.length data.length))
  else do
    let head ← Proc.look State.pos
    writeAll cfg g head allBlocks (chunksOf data)

/-- `writeBytes` (R234). -/
def execWriteBytes (store : Name) (data : Arg (List Byte)) (s : State) : StepResult :=
  withArg s (storeOf s store) fun st => withArg s (bytesOf s data) fun d =>
    hostCall .writeBytes true (staleRefusal s st) (do writeStore s.cfg .registers d; pure .unit) s

end Sys2Proof.Machine
end

