-- ==== Sys2Proof/Machine/Dispatch.lean ====
section
/-! DEFINITION. The dispatch: one arm per constructor of Instr, each one direct call of the instruction's meaning. -/

namespace Sys2Proof.Machine

/-- The meaning of an instruction. -/
def exec (i : Instr) (s : State) : Host.Outcome State Fault Refusal :=
  match i with
  | .regWrite r v => Sys2Proof.Machine.execRegWrite r v s
  | .regWriteN r bytes => Sys2Proof.Machine.execRegWriteN r bytes s
  | .regRead r => Sys2Proof.Machine.execRegRead r s
  | .regReadN r n rxAlign => Sys2Proof.Machine.execRegReadN r n rxAlign s
  | .resetLine level => Sys2Proof.Machine.execResetLine level s
  | .pcdIdle => Sys2Proof.Machine.execPcdIdle s
  | .pcdCalcCrc => Sys2Proof.Machine.execPcdCalcCrc s
  | .pcdTransceive => Sys2Proof.Machine.execPcdTransceive s
  | .pcdMfAuthent => Sys2Proof.Machine.execPcdMfAuthent s
  | .pcdSoftReset => Sys2Proof.Machine.execPcdSoftReset s
  | .reqa => Sys2Proof.Machine.execReqa s
  | .wupa => Sys2Proof.Machine.execWupa s
  | .hlta lo hi => Sys2Proof.Machine.execHlta lo hi s
  | .anticollCL1 nvb uidBits => Sys2Proof.Machine.execAnticollCL1 nvb uidBits s
  | .selectCL1 uid lo hi => Sys2Proof.Machine.execSelectCL1 uid lo hi s
  | .anticollCL2 nvb uidBits => Sys2Proof.Machine.execAnticollCL2 nvb uidBits s
  | .selectCL2 uid lo hi => Sys2Proof.Machine.execSelectCL2 uid lo hi s
  | .anticollCL3 nvb uidBits => Sys2Proof.Machine.execAnticollCL3 nvb uidBits s
  | .selectCL3 uid lo hi => Sys2Proof.Machine.execSelectCL3 uid lo hi s
  | .mfAuthA block key uidLast4 => Sys2Proof.Machine.execMfAuthA block key uidLast4 s
  | .mfAuthB block key uidLast4 => Sys2Proof.Machine.execMfAuthB block key uidLast4 s
  | .mfRead block lo hi => Sys2Proof.Machine.execMfRead block lo hi s
  | .mfWrite block lo hi => Sys2Proof.Machine.execMfWrite block lo hi s
  | .mfWriteData data lo hi => Sys2Proof.Machine.execMfWriteData data lo hi s
  | .atqa b0 b1 => Sys2Proof.Machine.execAtqa b0 b1 s
  | .anticollResponse bytes validBits => Sys2Proof.Machine.execAnticollResponse bytes validBits s
  | .sak sakByte lo hi => Sys2Proof.Machine.execSak sakByte lo hi s
  | .cascadeTag => Sys2Proof.Machine.execCascadeTag s
  | .mfReadResponse data lo hi => Sys2Proof.Machine.execMfReadResponse data lo hi s
  | .mfAck high => Sys2Proof.Machine.execMfAck high s
  | .init => Sys2Proof.Machine.execInit s
  | .setAntennaState on => Sys2Proof.Machine.execSetAntennaState on s
  | .isCardPresent => Sys2Proof.Machine.execIsCardPresent s
  | .select => Sys2Proof.Machine.execSelect s
  | .mifareAuth key block => Sys2Proof.Machine.execMifareAuth key block s
  | .mifareStopCrypto1 => Sys2Proof.Machine.execMifareStopCrypto1 s
  | .mifareRead block => Sys2Proof.Machine.execMifareRead block s
  | .mifareWrite block data => Sys2Proof.Machine.execMifareWrite block data s
  | .calculateCrc data => Sys2Proof.Machine.execCalculateCrc data s
  | .transceivePicc cmd tx txLastBits rxAlign want => Sys2Proof.Machine.execTransceivePicc cmd tx txLastBits rxAlign want s
  | .cardType sakByte => Sys2Proof.Machine.execCardType sakByte s
  | .getSak type => Sys2Proof.Machine.execGetSak type s
  | .makeStore => Sys2Proof.Machine.execMakeStore s
  | .getCapacity store => Sys2Proof.Machine.execGetCapacity store s
  | .authenticate store block => Sys2Proof.Machine.execAuthenticate store block s
  | .readBlock store block => Sys2Proof.Machine.execReadBlock store block s
  | .writeBlock store block data => Sys2Proof.Machine.execWriteBlock store block data s
  | .readBytes store => Sys2Proof.Machine.execReadBytes store s
  | .writeBytes store data => Sys2Proof.Machine.execWriteBytes store data s
  | .antennaOn => Sys2Proof.Machine.execAntennaOn s
  | .antennaOff => Sys2Proof.Machine.execAntennaOff s
  | .endSession => Sys2Proof.Machine.execEndSession s

end Sys2Proof.Machine
end

