-- ==== Sys2Proof/Machine/Step.lean ====
section
/-! DEFINITION. One step of the machine: the host's next call, fetched, decoded and run (R109, R267); and where the host places an
instruction for it. -/

namespace Sys2Proof.Machine

/-- A fetched line: rejected by name where its bytes are no instruction of the spec (log entry 23), else run, its result handed to the
host. -/
def runFetched (e : Encoded) (s : State) : Host.Outcome State Fault Refusal :=
  match decode s.cfg e with
  | .error err => .refused (.undecodable err)
  | .ok line =>
    match exec line.instr s with
    | .next t    => .next (t.afterLine line.bind)
    | .fault r   => .fault r
    | .refused r => .refused r

/-- One step. A faulted machine is stuck (R262). Without a call to make the machine stays as it is: the block starts nothing on its
own (R267). Else the first pending call is taken off the host's list and run. -/
def step (s : State) : Host.Outcome State Fault Refusal :=
  match s.faultMark with
  | some r => .fault (.stuck r)
  | none =>
    match s.pending with
    | []        => .next s
    | e :: rest => runFetched e { s with pending := rest }

/-- A table word made the host's next call (log entry 11). -/
def State.withFetchWord (s : State) (nbits w : Nat) : State := { s with pending := tableWord s.cfg nbits w :: s.pending }

end Sys2Proof.Machine
end

