-- ==== Sys2Proof/Machine/Procedures.lean ====
section
/-! DEFINITION. The procedure of every instruction as a table, at either grain: the states a call passes through between its atomic steps
(R13, R29), and the machine that takes each transaction as one step (R218). That `exec` runs the procedures of this table is proved in
Sys2Proof/Laws/Exec.lean. -/

namespace Sys2Proof

/-- The operations that are refused before init (R22). -/
def Instr.needsReady : Instr → Bool
  | .init | .cardType _ | .getSak _ | .getCapacity _ => false
  | _ => true

end Sys2Proof

namespace Sys2Proof.Machine

/-- The operation and the procedure of a host call, its operands taken from the state (R108, R110). -/
def callProc (cfg : Cfg) (g : Grain) (s : State) : Instr → Option (HostOp × Proc Value)
  | .init                 => some (.init, do bringUp cfg; pure .unit)
  | .setAntennaState on   => (boolOf s on).map fun b => (.setAntennaState, do antennaSet cfg b; pure .unit)
  | .antennaOn            => some (.setAntennaState, do antennaSet cfg true; pure .unit)
  | .antennaOff           => some (.setAntennaState, do antennaSet cfg false; pure .unit)
  | .isCardPresent        => some (.isCardPresent, do let b ← cardPresent cfg g; pure (.bool b))
  | .select               => some (.select, selectCard cfg g)
  | .mifareAuth key b     => (byteOf s b).map fun a => (.mifareAuth, do authBlock cfg g key a; pure .unit)
  | .mifareStopCrypto1    => some (.mifareStopCrypto1, do stopCrypto1 cfg; pure .unit)
  | .endSession           => some (.mifareStopCrypto1, do stopCrypto1 cfg; pure .unit)
  | .mifareRead b         => (byteOf s b).map fun a => (.mifareRead, do let d ← readCardBlock cfg g a; pure (.bytes d))
  | .mifareWrite b d      => (byteOf s b).bind fun a => (bytesOf s d).map fun bs =>
      (.mifareWrite, do writeCardBlock cfg g a bs; pure .unit)
  | .calculateCrc d       => (bytesOf s d).map fun bs =>
      (.calculateCrc, do let (lo, hi) ← crcTransaction cfg bs; pure (.bytes [lo, hi]))
  | .cardType b           => (byteOf s b).map fun a => (.cardType, do let t ← typeOfSak cfg a; pure (.cardType t))
  | .getSak t             => (typeSakOf s t).map fun b => (.getSak, pure (.byte b))
  | .makeStore            => some (.makeStore, do let st ← newStore cfg; pure (.store st))
  | .getCapacity st       => (storeOf s st).map fun o => (.getCapacity, pure (.capacity o.capacity))
  | .authenticate st b    => (storeOf s st).bind fun _ => (byteOf s b).map fun a =>
      (.authenticate, do authSector cfg g a; pure .unit)
  | .readBlock st b       => (storeOf s st).bind fun _ => (byteOf s b).map fun a =>
      (.readBlock, do let d ← readThrough cfg g a; pure (.bytes d))
  | .writeBlock st b d    => (storeOf s st).bind fun _ => (byteOf s b).bind fun a => (bytesOf s d).map fun bs =>
      (.writeBlock, do writeThrough cfg g a bs; pure .unit)
  | .readBytes st         => (storeOf s st).map fun _ => (.readBytes, do let d ← readStore cfg g; pure (.bytes d))
  | .writeBytes st d      => (storeOf s st).bind fun _ => (bytesOf s d).map fun bs =>
      (.writeBytes, do writeStore cfg g bs; pure .unit)
  | _ => none

/-- The procedure of an internal row (log entry 10). R218 gives the CollReg read behind a transaction for the abstraction of a procedure, and
does not say what a RegRead or RegReadN row of CollReg run by itself gives at that grain: it is a read of the chip like any other, its
values scripted or free, whatever the transaction before it (DESIGN CHOICE, log entry 10). -/
def rowProc (cfg : Cfg) (g : Grain) : Instr → Option (Proc Value)
  | .regWrite r v                => some (do regWrite cfg r v; pure .unit)
  | .regWriteN r bytes           => some (do regWriteN cfg r bytes; pure .unit)
  | .regRead r                   => some (do let v ← regRead cfg r; pure (.byte v))
  | .regReadN r n a              => some (do let bs ← regReadN cfg r n a; pure (.bytes bs))
  | .resetLine l                 => some (do resetLine l; pure .unit)
  | .pcdIdle                     => some (do regWrite cfg .command (cfg.byte .idle); pure .unit)
  | .pcdCalcCrc                  => some (do regWrite cfg .command (cfg.byte .calcCrc); pure .unit)
  | .pcdTransceive               => some (do issueCommand cfg .transceive; pure .unit)
  | .pcdMfAuthent                => some (do issueCommand cfg .mfAuthent; pure .unit)
  | .pcdSoftReset                => some (do regWrite cfg .command (cfg.byte .softReset); pure .unit)
  | .reqa                        => some (do let o ← sendReqa cfg g; pure (.outcome o))
  | .wupa                        => some (do let o ← sendWupa cfg g; pure (.outcome o))
  | .hlta lo hi                  => some (do
      let o ← transceive cfg g .transceive [cfg.picc.hlta, 0x00, lo, hi] 0 0 false; pure (.outcome o))
  | .anticollCL1 n bits          => some (do let o ← sendAnticoll cfg g .cl1 n bits; pure (.outcome o))
  | .anticollCL2 n bits          => some (do let o ← sendAnticoll cfg g .cl2 n bits; pure (.outcome o))
  | .anticollCL3 n bits          => some (do let o ← sendAnticoll cfg g .cl3 n bits; pure (.outcome o))
  | .selectCL1 u lo hi           => some (do let o ← sendSelect cfg g .cl1 u lo hi; pure (.outcome o))
  | .selectCL2 u lo hi           => some (do let o ← sendSelect cfg g .cl2 u lo hi; pure (.outcome o))
  | .selectCL3 u lo hi           => some (do let o ← sendSelect cfg g .cl3 u lo hi; pure (.outcome o))
  | .mfAuthA b k u               => some (do let o ← sendAuth cfg g .a b k.toList u.toList; pure (.outcome o))
  | .mfAuthB b k u               => some (do let o ← sendAuth cfg g .b b k.toList u.toList; pure (.outcome o))
  | .mfRead b lo hi              => some (do let o ← sendFrame cfg g [cfg.picc.read, b, lo, hi]; pure (.outcome o))
  | .mfWrite b lo hi             => some (do let o ← sendFrame cfg g [cfg.picc.write, b, lo, hi]; pure (.outcome o))
  | .mfWriteData d lo hi         => some (do let o ← sendFrame cfg g (d.toList ++ [lo, hi]); pure (.outcome o))
  | .transceivePicc c tx t a w   => some (do let o ← transceive cfg g c tx t a w; pure (.outcome o))
  | .atqa b0 b1                  => some (do receive [b0, b1] 0; let r ← Proc.look State.rsp; pure (.bool (cleanAtqa r)))
  | .anticollResponse bytes v    => some (do
      receive bytes v
      let k ← Proc.look State.k
      merge (fieldIndex k) (tailBits k)
      allBitsKnown
      pure .unit)
  | .sak b lo hi                 => some (do receive [b, lo, hi] 0; checkSakShape; let v ← checkSakCrc cfg; pure (.byte v))
  | .cascadeTag                  => some (do
      Proc.update fun s => { s with selBuf := s.selBuf.setIfInBounds 2 Config.cascadeTag }
      let ct ← Proc.look State.hasCascadeTag
      Proc.update State.takeUidBytes
      pure (.bool ct))
  | .mfReadResponse d lo hi      => some (do receive (d.toList ++ [lo, hi]) 0; let x ← checkRead cfg; pure (.bytes x))
  | .mfAck high                  => some (do receive [high ++ Config.mfAck] 4; ackCheck; pure .unit)
  | _ => none

/-- The refusal reason a host call gives of itself, past `Busy` and `NotReady` (R263). -/
def ownReason (s : State) : Instr → Option RefuseReason
  | .mifareAuth _ _      => if s.uidValid then none else some .noSession
  | .makeStore           => if s.uidValid then none else some .noSession
  | .mifareWrite _ d     => (bytesOf s d).bind payloadRefusal
  | .calculateCrc d      => (bytesOf s d).bind fun bs => if s.cfg.fifoSize < bs.length then some .tooLong else none
  | .authenticate st b   => ((storeOf s st).bind (staleRefusal s)).or ((byteOf s b).bind (blockRefusal s.cfg))
  | .readBlock st b      => ((storeOf s st).bind (staleRefusal s)).or ((byteOf s b).bind (blockRefusal s.cfg))
  | .writeBlock st b d   =>
    (((storeOf s st).bind (staleRefusal s)).or ((bytesOf s d).bind payloadRefusal)).or ((byteOf s b).bind (blockRefusal s.cfg))
  | .readBytes st        => (storeOf s st).bind (staleRefusal s)
  | .writeBytes st _     => (storeOf s st).bind (staleRefusal s)
  | _ => none

/-- The states the machine stands in between the atomic steps of an instruction, one after each primitive, in order (R13, R29): a call
in progress shows there with `busy` set and the position of the next primitive. A refused call takes no step (R263). -/
def passes (i : Instr) (s : State) : List State :=
  match s.faultMark, rowProc s.cfg .registers i, callProc s.cfg .registers s i with
  | none, some p, _           => p.between s
  | none, none, some (op, p)  => if (refusalOf s i.needsReady (ownReason s i)).isSome then [] else p.between (s.startCall op)
  | _, _, _                   => []

/-- The transaction abstraction (R218): the same procedures, every PICC transaction one step from the card's reply. -/
def execXact (i : Instr) (s : State) : StepResult :=
  match rowProc s.cfg .transactions i, callProc s.cfg .transactions s i with
  | some p, _          => runRow p s
  | none, some (op, p) => hostCall op i.needsReady (ownReason s i) p s
  | none, none         => unlessStuck s (.refused .badOperand)

end Sys2Proof.Machine
end

