-- ==== Sys2Proof/Machine/Conforming.lean ====
section
/-! DEFINITION. The conforming-environment premise (R49): an environment that answers from the whole trace before it (R42, R43), what a
working chip and cards answer, and the same for one chip transaction as a script of answers. Named premises: nothing of the strict
model uses them. -/

namespace Sys2Proof.Machine

/-! ### What an event does to the chip -/

/-- A write frame, its MISO bytes left out (R117, R118, R122). -/
def wrote (cfg : Cfg) (r : Reg) (bytes : List Byte) : Event := .spi (cfg.wa r :: bytes) []

/-- A read frame and the values it gave, the first MISO byte left out (R119, R120, R122). -/
def gave (cfg : Cfg) (r : Reg) (bytes : List Byte) : Event := .spi (List.replicate bytes.length (cfg.ra r) ++ [0x00]) bytes

/-- What a trace event shows apart from the MISO bytes no rule reads (R122): of a write frame the MOSI bytes, of a read frame also
the values. -/
def Event.seen : Event → Event
  | .spi mosi miso => .spi mosi (if anyBit (mosi.headD 0) 0x80#8 then miso.drop 1 else [])
  | e => e

/-- The bytes an event writes to a register, all of them to the one address (R117, R118). -/
def Event.bytesTo (cfg : Cfg) (r : Reg) : Event → List Byte
  | .spi (a :: bytes) _ => if a = cfg.wa r then bytes else []
  | _ => []

/-- The command an event issues to the chip, if it does (R92). -/
def Event.issues (cfg : Cfg) (c : PcdCommand) : Event → Bool
  | .spi [a, b] _ => a == cfg.wa .command && b == cfg.byte c
  | _ => false

/-- Whether an event reads a register. -/
def Event.reads (cfg : Cfg) (r : Reg) : Event → Bool
  | .spi (a :: _) _ => a == cfg.ra r
  | _ => false

/-- Whether an event writes a register. -/
def Event.writes (cfg : Cfg) (r : Reg) : Event → Bool
  | .spi (a :: _) _ => a == cfg.wa r
  | _ => false

/-- The byte an event writes to a register, if it writes just one (R117). -/
def Event.sets (cfg : Cfg) (r : Reg) : Event → Option Byte
  | .spi [a, v] _ => if a = cfg.wa r then some v else none
  | _ => none

/-- Whether an event is a deadline query. -/
def Event.isAsk : Event → Bool
  | .ask _ _ => true
  | _ => false

/-- Whether an event flushes the FIFO: FIFOLevelReg written with FlushBuffer set (R37, R73). -/
def Event.flushes (cfg : Cfg) (e : Event) : Bool := (e.bytesTo cfg .fifoLevel).any fun v => anyBit v (flushBuffer cfg)

/-- The bytes an event pushes into the FIFO: those written to FIFODataReg (R62, R73). -/
def Event.pushes (cfg : Cfg) (e : Event) : List Byte := e.bytesTo cfg .fifoData

/-- What the FIFO holds behind an event, but for what is popped and what a command puts there (R73). -/
def Event.fifo (cfg : Cfg) (held : List Byte) (e : Event) : List Byte := if e.flushes cfg then [] else held ++ e.pushes cfg

/-- Whether an event sets StartSend: BitFramingReg written with that bit (R38, R73). -/
def Event.startsSend (cfg : Cfg) (e : Event) : Bool := (e.bytesTo cfg .bitFraming).any fun v => anyBit v (startSend cfg)

/-- An event behind which a command and the FIFO stay as they are, but for bytes pushed or popped: it writes no CommandReg, flushes nothing,
starts no transmission and resets nothing (R73). -/
def Event.leavesCommand (cfg : Cfg) : Event → Bool
  | .reset _ | .xact _ _ _ _ _ => false
  | e => !e.writes cfg .command && !e.flushes cfg && !e.startsSend cfg

/-- An event behind which a command's results stay as they are: it does not push into the FIFO either. -/
def Event.leavesResults (cfg : Cfg) (e : Event) : Bool := e.leavesCommand cfg && !e.writes cfg .fifoData

/-- How many bytes an event pops from the FIFO (R62, R73). -/
def Event.pops (cfg : Cfg) (e : Event) : Nat :=
  match e with
  | .spi mosi _ => if e.reads cfg .fifoData then mosi.length - 1 else 0
  | _ => 0

/-- A reset of the chip: the line raised, or SoftReset (R131). -/
def Event.resetsChip (cfg : Cfg) : Event → Bool
  | .reset level => level == .high
  | e => e.issues cfg .softReset

/-! ### UID fields of cards (R49 (d), R66) -/

/-- Bit `p` of a UID field, `p` from 1, least significant bit of the first byte first (R66). -/
def fieldBitOf (u : Vector Byte 4) (p : Nat) : Bool := (u.toList.getD ((p - 1) / 8) 0).getLsbD ((p - 1) % 8)

/-- The first bit at which cards differ that answer together. -/
def FirstDifference (cards : List (Vector Byte 4)) (p : Nat) : Prop :=
  1 ≤ p ∧ p ≤ 32 ∧ (∃ u ∈ cards, ∃ w ∈ cards, fieldBitOf u p ≠ fieldBitOf w p) ∧
    ∀ q, 1 ≤ q → q < p → ∀ u ∈ cards, ∀ w ∈ cards, fieldBitOf u q = fieldBitOf w q

/-- Whether a card answers an anti-collision frame: its UID field begins with the `k` known bits the frame carries. -/
def matchesBits (bits : List Byte) (k : Nat) (u : Vector Byte 4) : Bool :=
  (List.range k).all fun i => fieldBitOf u (i + 1) == (bits.getD (i / 8) 0).getLsbD (i % 8)

/-- The anti-collision frame with `k` known bits: SEL, NVB and the bytes that hold those bits (R96, R150). -/
def IsAnticoll (cfg : Cfg) (l : CascadeLevel) (k : Nat) (bits tx : List Byte) : Prop :=
  k ≤ 31 ∧ bits.length = (k + 7) / 8 ∧ tx = [cfg.sel l, BitVec.ofNat 8 (16 * (2 + k / 8) + k % 8)] ++ bits

/-! ### What conforming cards reply (R49) -/

/-- A 4-bit NAK of a card that refuses a READ or a WRITE (93_implementation_defined.md I38). -/
def IsNak (bytes : List Byte) (validBits : BitVec 3) : Prop :=
  validBits = 4 ∧ ∃ b, bytes = [b] ∧ b &&& 0x0F ∈ [0x00#8, 0x01, 0x04, 0x05]

/-- An accepting 4-bit ACK (R103). -/
def IsAck (bytes : List Byte) (validBits : BitVec 3) : Prop := ∃ high : BitVec 4, bytes = [high ++ Config.mfAck] ∧ validBits = 4

/-- What conforming cards with these UID fields at the level then run may reply to a frame (R49; which words of
93_implementation_defined.md it takes is log entry 24's choice). Of a reply that came without an error or a collision it says the whole
answer; a refusal, a wrong key and a card that is gone are `Silent` or `Garbled`. -/
structure CardReply (cfg : Cfg) (cards : List (Vector Byte 4)) (cmd : PiccCommand) (tx : List Byte) (reply : Reply) : Prop where
  /-- R49 (d): cards that answer an anti-collision frame together collide at the first bit, from bit 1 of the level's UID field, in
  which they differ. -/
  collision : ∀ bytes vb p l k bits, reply = .reply bytes vb (some p) → cmd = .transceive → IsAnticoll cfg l k bits tx →
    FirstDifference (cards.filter (matchesBits bits k)) p
  /-- R98, R152: no anti-collision answer is longer than the rest of the field and its BCC, `5 − k div 8` bytes; a clean one is just
  that, of a card whose UID field begins with the known bits. -/
  anticoll : ∀ bytes vb coll l k bits, reply = .reply bytes vb coll → cmd = .transceive → IsAnticoll cfg l k bits tx →
    bytes.length ≤ 5 - k / 8 ∧ (coll = none → bytes.length = 5 - k / 8 ∧ vb = 0 ∧
      ∃ u ∈ cards, matchesBits bits k u = true ∧
        alignFirst (tailBits k) bytes = alignFirst (tailBits k) ((u.toList ++ [bccOf u]).drop (k / 8)))
  /-- R99, R164 (I43): a clean answer to SELECT is a SAK with its CRC_A, its cascade bit set exactly where the card sent a cascade tag. -/
  sak : ∀ bytes vb l u lo hi, reply = .reply bytes vb none → cmd = .transceive → tx = selectBytes cfg l u lo hi →
    ∃ sak, bytes = [sak] ++ crcBytes [sak] ∧ vb = 0 ∧ (l ≠ .cl3 → (u[0] = Config.cascadeTag ↔ cascadeBit sak = true))
  /-- I35: a right key ends MFAuthent with no data. -/
  auth : ∀ bytes vb, reply = .reply bytes vb none → cmd = .mfAuthent → bytes = [] ∧ vb = 0
  /-- I41: an authentication outside the card's blocks is not answered. -/
  authAddress : ∀ k block key u, cmd = .mfAuthent → tx = authBytes cfg k block key u → 64 ≤ block.toNat → reply = .silent
  /-- R102 (I38): a clean answer to READ is 16 bytes with their CRC_A, or a NAK. -/
  read : ∀ bytes vb block, reply = .reply bytes vb none → cmd = .transceive → tx = [cfg.picc.read, block] ++ crcBytes [cfg.picc.read, block] →
    (∃ data : Vector Byte 16, bytes = data.toList ++ crcBytes data.toList ∧ vb = 0) ∨ IsNak bytes vb
  /-- R103 (I38): a clean answer to either phase of WRITE is an ACK or a NAK. -/
  write : ∀ bytes vb body, reply = .reply bytes vb none → cmd = .transceive → tx = body ++ crcBytes body →
    (∃ block, body = [cfg.picc.write, block]) ∨ body.length = 16 → IsAck bytes vb ∨ IsNak bytes vb

/-! ### The environment (R42, R43) -/

/-- What answers the controller, from the whole trace before: the values of a read frame, a deadline query, and behind them the reply of
the cards to the frame whose transmission a trace ends with (R218) and the UID fields, at the level then run, of the cards in the field. -/
structure Env where
  values : List Event → Reg → Nat → List Byte
  passed : List Event → WaitKind → Bool
  reply  : List Event → Reply
  cards  : List Event → List (Vector Byte 4)

/-- The value of a single read. -/
def Env.value (env : Env) (past : List Event) (r : Reg) : Byte := (env.values past r 1).headD 0

/-- Whether an event behind a trace has the answer the environment gives there. -/
def Env.gives (env : Env) (cfg : Cfg) (past : List Event) : Event → Bool
  | .spi mosi miso =>
    match Reg.ofReadAddr cfg (mosi.headD 0) with
    | some r => miso.drop 1 == env.values past r (mosi.length - 1)
    | none   => true
  | .ask kind answer => answer == env.passed past kind
  | .reset _ => true
  | .xact _ _ _ _ reply => reply == env.reply past

/-- Whether all events behind a trace have the answers of the environment. -/
def Env.answered (env : Env) (cfg : Cfg) : List Event → List Event → Bool
  | _, []         => true
  | past, e :: es => env.gives cfg past e && env.answered cfg (past ++ [e]) es

/-- What stands between the write of a command and its start: nothing, but that Transceive starts at the write that sets StartSend (R73,
R210; I35 for MFAuthent). -/
def Started (cfg : Cfg) (c : PcdCommand) (upTo : List Event) : Prop :=
  if c = .transceive then ∃ between send, upTo = between ++ [send] ∧ (∀ e ∈ between, e.leavesResults cfg = true ∧ e.pops cfg = 0) ∧
    send.startsSend cfg = true
  else upTo = []

/-- A trace `start` that ends with the start of a command on these FIFO contents, those pushed since a flush, and a trace behind it that
leaves the command's results as they are. -/
def Commanded (cfg : Cfg) (c : PcdCommand) (contents : List Byte) (start since : List Event) : Prop :=
  (∃ pre flush loads issue upTo, start = pre ++ flush :: (loads ++ issue :: upTo) ∧ flush.flushes cfg = true ∧
    (∀ e ∈ loads, e.leavesCommand cfg = true ∧ e.pops cfg = 0) ∧ contents = loads.flatMap (Event.pushes cfg) ∧
    issue.issues cfg c = true ∧ Started cfg c upTo) ∧
  ∀ e ∈ since, e.leavesResults cfg = true

/-- A transaction that has ended: its command was started at the end of `start`, and a read of ComIrqReg behind `since` shows a done bit. -/
def XactDone (cfg : Cfg) (env : Env) (cmd : PiccCommand) (tx : List Byte) (start since more : List Event) : Prop :=
  Commanded cfg cmd.pcd tx start (since ++ more) ∧ commandDone cfg cmd (env.value (start ++ since) .comIrq) = true

/-- The conforming environment (R49). How its clauses read the source's words is the model's choice (log entry 24). -/
structure ConformingEnv (cfg : Cfg) (env : Env) : Prop where
  /-- (a): with CRCIRq set, the result is the CRC_A of the bytes loaded. -/
  crc : ∀ d start since more, Commanded cfg .calcCrc d start (since ++ more) → crcIrq cfg (env.value (start ++ since) .divIrq) = true →
    env.value (start ++ since ++ more) .crcResultL = crcLow d ∧ env.value (start ++ since ++ more) .crcResultH = crcHigh d
  /-- R218, `Silent`: a command to which no card replies is never done. -/
  silent : ∀ cmd tx start since, Commanded cfg cmd.pcd tx start since → env.reply start = .silent →
    commandDone cfg cmd (env.value (start ++ since) .comIrq) = false
  /-- R218, a reply: it comes before the chip's timer and before the deadline. -/
  inTime : ∀ cmd tx start since, Commanded cfg cmd.pcd tx start since → env.reply start ≠ .silent →
    (commandDone cfg cmd (env.value (start ++ since) .comIrq) = false → timerIrq cfg (env.value (start ++ since) .comIrq) = false) ∧
      env.passed (start ++ since) .picc = false
  /-- (c), `Garbled`: ErrorReg holds the error. -/
  garbled : ∀ cmd tx start since more e, XactDone cfg env cmd tx start since more → env.reply start = .garbled e →
    earlyError cfg e = true ∧ env.value (start ++ since ++ more) .error = e
  /-- (c), a reply: ErrorReg holds no early error, and CollErr where cards collided. -/
  error : ∀ cmd tx start since more bytes vb coll, XactDone cfg env cmd tx start since more → env.reply start = .reply bytes vb coll →
    earlyError cfg (env.value (start ++ since ++ more) .error) = false ∧
      collError cfg (env.value (start ++ since ++ more) .error) = coll.isSome
  /-- (b): FIFOLevel counts the bytes received and not yet popped, the FIFO pops them in order, RxLastBits is the valid-bit count. -/
  fifo : ∀ cmd tx start since more bytes vb coll, XactDone cfg env cmd tx start since more → env.reply start = .reply bytes vb coll →
    let left := bytes.drop (((since ++ more).map (Event.pops cfg)).sum)
    fifoCount cfg (env.value (start ++ since ++ more) .fifoLevel) = left.length ∧
      (∀ n, 1 ≤ n → n ≤ left.length → env.values (start ++ since ++ more) .fifoData n = left.take n) ∧
      rxLastBits cfg (env.value (start ++ since ++ more) .control) = vb
  /-- (d): CollReg holds the position of the first collision. -/
  coll : ∀ cmd tx start since more bytes vb p, XactDone cfg env cmd tx start since more → env.reply start = .reply bytes vb (some p) →
    collPosNotValid cfg (env.value (start ++ since ++ more) .coll) = false ∧ collPos cfg (env.value (start ++ since ++ more) .coll) = p
  /-- (d), R98, R99, R102, R103: a reply is one that the cards in the field can give to the frame. -/
  card : ∀ (cmd : PiccCommand) tx start, Commanded cfg cmd.pcd tx start [] → CardReply cfg (env.cards start) cmd tx (env.reply start)
  /-- (e): the read of a register other than FIFODataReg changes no answer behind it. -/
  reads : ∀ pre e post r, r ≠ .fifoData → e.reads cfg r = true → env.values (pre ++ e :: post) = env.values (pre ++ post) ∧
    env.reply (pre ++ e :: post) = env.reply (pre ++ post) ∧ env.cards (pre ++ e :: post) = env.cards (pre ++ post)
  /-- (f): after a reset PowerDown reads 0 before the limit's polls have passed. -/
  powerUp : ∀ pre e since, e.resetsChip cfg = true → (∀ x ∈ since, x.isAsk = true ∨ x.reads cfg .command = true) →
    cfg.resetPollLimit ≤ since.countP Event.isAsk + 1 → powerDown cfg (env.value (pre ++ e :: since) .command) = false
  /-- R73 (I29): a write of ComIrqReg with Set1 clear, or of DivIrqReg with Set2 clear, clears the flags written 1. -/
  flags : ∀ pre e v,
    (e.sets cfg .comIrq = some v → anyBit v (bit cfg.fields.set1) = false → env.value (pre ++ [e]) .comIrq &&& v = 0) ∧
    (e.sets cfg .divIrq = some v → anyBit v (bit cfg.fields.set2) = false → env.value (pre ++ [e]) .divIrq &&& v = 0)
  /-- R36, R73: a write of Status2Reg with MFCrypto1On clear turns crypto off. -/
  crypto : ∀ pre e v, e.sets cfg .status2 = some v → v &&& crypto1On cfg = 0 → env.value (pre ++ [e]) .status2 &&& crypto1On cfg = 0
  /-- R40, R73, R288 (I44, I45): the driver bits of TxControlReg are those last written to a chip that is not starting up. -/
  drivers : ∀ pre e, e.resetsChip cfg = false → (∀ level, e ≠ .reset level) →
    (e.writes cfg .txControl = false →
      env.value (pre ++ [e]) .txControl &&& txDrivers cfg = env.value pre .txControl &&& txDrivers cfg) ∧
    ∀ v, e.sets cfg .txControl = some v → powerDown cfg (env.value pre .command) = false →
      env.value (pre ++ [e]) .txControl &&& txDrivers cfg = v &&& txDrivers cfg
  /-- R140 (I42): with both driver bits clear no card is powered, and none replies. -/
  unpowered : ∀ (cmd : PiccCommand) tx start, Commanded cfg cmd.pcd tx start [] → env.value start .txControl &&& txDrivers cfg = 0 →
    env.reply start = .silent

/-! ### Scripts: what a conforming chip answers to one chip transaction -/

/-- The answers to failed polls, in order; behind the first stands how many deadline queries of the loop are answered false (R43). -/
def polled (budget : Nat) : List Byte → List Answer
  | []      => []
  | x :: xs => .value x :: .deadline budget :: xs.map .value

/-- The answers to a poll loop: any number of readings that do not end it, then one that does (`some v`) or the deadline (`none`). -/
def PollAnswers (ends : Byte → Bool) (last : Option Byte) (answers : List Answer) : Prop :=
  ∃ fails budget, (∀ x ∈ fails, ends x = false) ∧
    match last with
    | some v => ends v = true ∧ fails.length ≤ budget ∧ answers = polled budget fails ++ [.value v]
    | none   => fails.length = budget + 1 ∧ answers = polled budget fails

/-- What a conforming chip answers to the register reads of one response (R49 (b)): the count, the bytes, the valid-bit count. -/
def ResponseAnswers (cfg : Cfg) (bytes : List Byte) (validBits : BitVec 3) (answers : List Answer) : Prop :=
  ∃ level control, fifoCount cfg level = bytes.length ∧ rxLastBits cfg control = validBits ∧
    answers = (level :: bytes ++ [control]).map .value

/-- The read of BitFramingReg for StartSend: Transceive makes it, MFAuthent does not (R210). -/
def startAnswer (cmd : PiccCommand) (start : Byte) : List Answer :=
  match cmd with
  | .transceive => [.value start]
  | .mfAuthent  => []

/-- A reading of ComIrqReg that ends the poll of a transaction: a done bit or TimerIRq (R211). -/
def pollEnds (cfg : Cfg) (cmd : PiccCommand) (v : Byte) : Bool := commandDone cfg cmd v || timerIrq cfg v

/-- What a conforming chip answers to the reads of a transaction behind its poll, by the card's reply and the poll's last reading, none
where the deadline ended it (R49 (b), (c), R218). -/
def TailAnswers (cfg : Cfg) (cmd : PiccCommand) (want : Bool) (last : Option Byte) (tail : List Answer) : Reply → Prop
  | .silent    => (∀ v, last = some v → commandDone cfg cmd v = false) ∧ tail = []
  | .garbled e => (∃ v, last = some v ∧ commandDone cfg cmd v = true) ∧ earlyError cfg e = true ∧ tail = [.value e]
  | .reply bytes validBits coll => (∃ v, last = some v ∧ commandDone cfg cmd v = true) ∧
      ∃ e rest, earlyError cfg e = false ∧ collError cfg e = coll.isSome ∧ tail = .value e :: rest ∧
        if want then ResponseAnswers cfg bytes validBits rest else rest = []

/-- What a conforming chip answers to the reads of a transaction, after however many polls it is done (R49 (b), (c), R218): `Silent` ends
by the timer or by the deadline, a reply by a done bit. The two reads of BitFramingReg may give anything. -/
def XactAnswers (cfg : Cfg) (cmd : PiccCommand) (want : Bool) (reply : Reply) (answers : List Answer) : Prop :=
  ∃ start last polls framing tail, PollAnswers (pollEnds cfg cmd) last polls ∧
    answers = startAnswer cmd start ++ polls ++ .value framing :: tail ∧ TailAnswers cfg cmd want last tail reply

/-- What a conforming chip answers to the reads of a CRC transaction, after however many polls CRCIRq is set: then the low and the high
byte of CRC_A (R49 (a)). -/
def CrcAnswers (cfg : Cfg) (d : List Byte) (answers : List Answer) : Prop :=
  ∃ v polls, PollAnswers (crcIrq cfg) (some v) polls ∧ answers = polls ++ [.value (crcLow d), .value (crcHigh d)]

/-- What a conforming chip answers to the reads of an init whose reset is over before the limit (R49 (f)): CommandReg with PowerDown
clear after fewer failed polls than that, then Status2Reg and TxControlReg, which may read anything. -/
def InitAnswers (cfg : Cfg) (fails : List Byte) (v status tx : Byte) (answers : List Answer) : Prop :=
  (∀ x ∈ fails, powerDown cfg x = true) ∧ powerDown cfg v = false ∧ fails.length < cfg.resetPollLimit ∧
    ∃ budget, fails.length ≤ budget ∧ answers = polled budget fails ++ [.value v, .value status, .value tx]

/-- The CollReg value a conforming chip gives for a collision at position `p`: the first bit, from bit 1 of the level's UID field, in
which the cards differ that match the `k` known bits (R49 (d), R218). -/
def CollAnswer (cfg : Cfg) (cards : List (Vector Byte 4)) (known : List Byte) (k p : Nat) (c : Byte) : Prop :=
  collPosNotValid cfg c = false ∧ collPos cfg c = p ∧ FirstDifference (cards.filter (matchesBits known k)) p

/-- A READ reply of a conforming card: the 16 bytes and their CRC_A (R49, R102). -/
def readReply (data : List Byte) : Reply := .reply (data ++ crcBytes data) 0 none

/-- An accepting ACK of a conforming card (R103). -/
def ackReply (high : BitVec 4) : Reply := .reply [high ++ Config.mfAck] 4 none

/-- The answers to a raw block read: the request's CRC, the transaction, the check's CRC (R184). -/
def ReadAnswers (cfg : Cfg) (a : Byte) (data : List Byte) (answers : List Answer) : Prop :=
  ∃ c1 x c2, CrcAnswers cfg [cfg.picc.read, a] c1 ∧ XactAnswers cfg .transceive true (readReply data) x ∧ CrcAnswers cfg data c2 ∧
    answers = c1 ++ x ++ c2

/-- The answers to a raw block write that the card accepts in both phases (R186). -/
def WriteAnswers (cfg : Cfg) (a : Byte) (data : List Byte) (answers : List Answer) : Prop :=
  ∃ c1 x1 c2 x2 h1 h2, CrcAnswers cfg [cfg.picc.write, a] c1 ∧ XactAnswers cfg .transceive true (ackReply h1) x1 ∧
    CrcAnswers cfg (padBlock data) c2 ∧ XactAnswers cfg .transceive true (ackReply h2) x2 ∧ answers = c1 ++ x1 ++ c2 ++ x2

/-- The answers to an authentication with the right key (R180, R218). -/
def AuthAnswers (cfg : Cfg) (answers : List Answer) : Prop := XactAnswers cfg .mfAuthent false (.reply [] 0 none) answers

/-- The answers to a store's authentication before a block access: none where the sector is the cached one (R230). -/
def SectorAnswers (cfg : Cfg) (cached : Option (Fin 16)) (a : Byte) (answers : List Answer) : Prop :=
  if cached = some (sectorOf a) then answers = [] else AuthAnswers cfg answers

/-- The answers to a read of the blocks of a list through the cache, `content` being what the card holds (R233). -/
def ReadAllAnswers (cfg : Cfg) (content : Byte → Vector Byte 16) : Option (Fin 16) → List Byte → List Answer → Prop
  | _, [], answers => answers = []
  | cached, b :: bs, answers =>
    if forbidden cfg b then ReadAllAnswers cfg content cached bs answers
    else ∃ x y z, SectorAnswers cfg cached b x ∧ ReadAnswers cfg b (content b).toList y ∧
      ReadAllAnswers cfg content (some (sectorOf b)) bs z ∧ answers = x ++ y ++ z

/-- The answers to a write of chunks into the blocks of a list through the cache, every write accepted (R234). -/
def WriteAllAnswers (cfg : Cfg) : Option (Fin 16) → List Byte → List (List Byte) → List Answer → Prop
  | _, _, [], answers => answers = []
  | _, [], _ :: _, _ => False
  | cached, b :: bs, c :: cs, answers =>
    if forbidden cfg b then WriteAllAnswers cfg cached bs (c :: cs) answers
    else ∃ x y z, SectorAnswers cfg cached b x ∧ WriteAnswers cfg b c y ∧ WriteAllAnswers cfg (some (sectorOf b)) bs cs z ∧
      answers = x ++ y ++ z

/-- The answers to one cascade level of a single card: a clean anti-collision answer `field` and its BCC, the SELECT's CRC, the SAK
answer and its CRC (R96 to R99, R146). -/
def LevelAnswers (cfg : Cfg) (l : CascadeLevel) (field : Vector Byte 4) (sak : Byte) (answers : List Answer) : Prop :=
  ∃ x c1 y c2, XactAnswers cfg .transceive true (.reply (field.toList ++ [bccOf field]) 0 none) x ∧
    CrcAnswers cfg ([cfg.sel l, Config.nvbSelect] ++ field.toList ++ [bccOf field]) c1 ∧
    XactAnswers cfg .transceive true (.reply ([sak] ++ crcBytes [sak]) 0 none) y ∧ CrcAnswers cfg [sak] c2 ∧
    answers = x ++ c1 ++ y ++ c2

/-- The answers to the anti-collision passes of a level from `k` known bits on that leave the bits of `field` known, with the known bits
of each pass: a clean answer of the one card left, or a collision of `cards` at a bit that is set in `field`, its response giving the
field's bits before it, and the passes behind it (R150 to R156). -/
inductive AnticollAnswers (cfg : Cfg) (cards : List (Vector Byte 4)) (field : Vector Byte 4) : (k : Nat) → (passes : List Nat) →
    List Answer → Prop where
  | known : AnticollAnswers cfg cards field 32 [] []
  | clean (k : Nat) (bytes : List Byte) (x : List Answer) : k ≤ 31 →
      alignFirst (tailBits k) bytes = alignFirst (tailBits k) ((field.toList ++ [bccOf field]).drop (k / 8)) →
      XactAnswers cfg .transceive true (.reply bytes 0 none) x → AnticollAnswers cfg cards field k [k] x
  | collided (k p : Nat) (ks : List Nat) (bytes : List Byte) (vb : BitVec 3) (c : Byte) (x more : List Answer) : k ≤ 31 →
      bytes.length ≤ 7 - k / 8 → (p - 1) / 8 < k / 8 + bytes.length →
      (∀ q, k < q → q < p → (bytes.getD ((q - 1) / 8 - k / 8) 0).getLsbD ((q - 1) % 8) = fieldBitOf field q) →
      fieldBitOf field p = true → XactAnswers cfg .transceive true (.reply bytes vb (some p)) x →
      CollAnswer cfg cards field.toList k p c → AnticollAnswers cfg cards field p ks more →
      AnticollAnswers cfg cards field k (k :: ks) (x ++ .value c :: more)

/-- The answers to one cascade level in which collisions are resolved to the card with this UID field (R146 to R164). -/
def ResolvedAnswers (cfg : Cfg) (l : CascadeLevel) (cards : List (Vector Byte 4)) (field : Vector Byte 4) (sak : Byte) (passes : List Nat)
    (answers : List Answer) : Prop :=
  ∃ x c1 y c2, AnticollAnswers cfg cards field 0 passes x ∧ passes.length ≤ 31 ∧
    CrcAnswers cfg ([cfg.sel l, Config.nvbSelect] ++ field.toList ++ [bccOf field]) c1 ∧
    XactAnswers cfg .transceive true (.reply ([sak] ++ crcBytes [sak]) 0 none) y ∧ CrcAnswers cfg [sak] c2 ∧
    answers = x ++ c1 ++ y ++ c2

/-- The frame, with its BitFraming byte, of a pass with `k` known bits of a UID field: both bit counts are `k mod 8` (R87, R96, R150). -/
def KnownFrame (cfg : Cfg) (l : CascadeLevel) (field : Vector Byte 4) (k : Nat) (frame : Byte × List Byte) : Prop :=
  frame.1 = BitVec.ofNat 8 (17 * (k % 8)) ∧ ∃ bits, matchesBits bits k field = true ∧ IsAnticoll cfg l k bits frame.2

end Sys2Proof.Machine
end

