-- ==== Sys2Proof/Safety.lean ====
section
/-! DEFINITION. What the claims about the machine are said in: the invariant of the state, well-formed trace events, the frames a
trace sends to the card, the calls a host can make and the reasons of rule R263, and the reachable transport events of a host
operation. -/

namespace Sys2Proof.Machine

/-! ### Events -/

/-- A well-formed event: an SPI frame addresses a register of rule R31 for writing or for reading, and MISO has the length of MOSI
(R44, R61). -/
def Event.wf (cfg : Cfg) : Event → Prop
  | .spi mosi miso => miso.length = mosi.length ∧ ∃ r : Reg, mosi.head? = some (cfg.wa r) ∨ mosi.head? = some (cfg.ra r)
  | .reset _ | .ask _ _ | .xact _ _ _ _ _ => True

/-- Whether an event starts a transmission to the card: StartSend set (R73, R210), CommandReg ← MFAuthent, which starts without it (R210),
or a whole transaction (R218). -/
def Event.starts (cfg : Cfg) : Event → Bool
  | .xact _ _ _ _ _ => true
  | e => e.startsSend cfg || e.issues cfg .mfAuthent

/-- What the controller has set up for the next transmission: the last byte written to BitFramingReg with StartSend clear (R87, R208) and
what it has pushed into the FIFO since the last flush (R209). -/
structure TxSetup where
  framing  : Byte
  contents : List Byte

/-- The setup behind an event. -/
def TxSetup.next (cfg : Cfg) (u : TxSetup) (e : Event) : TxSetup :=
  ⟨((e.bytesTo cfg .bitFraming).filter fun v => !anyBit v (startSend cfg)).getLast?.getD u.framing, e.fifo cfg u.contents⟩

/-- The frame an event sends to the card, if it does, with its BitFraming byte: what is set up, where the event starts a transmission
(R73, R210), or that of a whole transaction (R218). -/
def Event.sends (cfg : Cfg) (u : TxSetup) : Event → List (Byte × List Byte)
  | .xact _ tx txLastBits rxAlign _ => [(bitFraming rxAlign txLastBits, tx)]
  | e => if e.starts cfg then [(u.framing, u.contents)] else []

/-- The frames a trace sends to the card, from a setup on. -/
def sentFrom (cfg : Cfg) : TxSetup → List Event → List (Byte × List Byte)
  | _, []      => []
  | u, e :: es => e.sends cfg u ++ sentFrom cfg (u.next cfg e) es

/-- The frames a trace sends to the card, each with its BitFraming byte. -/
def framesSent (cfg : Cfg) (evs : List Event) : List (Byte × List Byte) := sentFrom cfg ⟨0x00, []⟩ evs

/-- The register writes the host operations make, by the rules that make them: command codes as whole bytes (R32, R92), flag clears
(R33, R34), flushes (R37), FIFO loads, bit framing (R38), MFCrypto1On cleared (R36), the antenna drivers (R139), and
init's fixed values (R134 to R136). -/
def hostWrite (cfg : Cfg) (r : Reg) (bytes : List Byte) : Prop :=
  match r with
  | .command    => ∃ c : PcdCommand, bytes = [cfg.byte c]
  | .comIrq     => bytes = [comIrqClear cfg]
  | .divIrq     => bytes = [crcIrqClear cfg]
  | .fifoLevel  => bytes = [flushBuffer cfg]
  | .fifoData   => bytes ≠ []
  | .bitFraming => ∃ v, bytes = [v]
  | .status2    => ∃ v : Byte, v &&& crypto1On cfg = 0 ∧ bytes = [v]
  | .txControl  => ∃ v : Byte, (v &&& txDrivers cfg = txDrivers cfg ∨ v &&& txDrivers cfg = 0) ∧ bytes = [v]
  | .tMode      => bytes = [cfg.initValues.tMode]
  | .tPrescaler => bytes = [cfg.initValues.tPrescaler]
  | .tReloadH   => bytes = [(cfg.initValues.tReload >>> 8).setWidth 8]
  | .tReloadL   => bytes = [cfg.initValues.tReload.setWidth 8]
  | .txAsk      => bytes = [cfg.initValues.txAsk]
  | .mode       => bytes = [cfg.initValues.mode]
  | .error | .control | .coll | .crcResultH | .crcResultL => False

/-- The registers the host operations read: the last column of rule R31's table, with the status bits of rule R45. -/
def hostRead (r : Reg) : Prop :=
  r ∈ [.command, .comIrq, .divIrq, .error, .status2, .fifoData, .fifoLevel, .control, .bitFraming, .coll, .txControl,
       .crcResultH, .crcResultL]

/-- The events of host operations: the writes and reads above, the line only ever raised (R131), deadline queries. -/
def hostEvent (cfg : Cfg) : Event → Prop
  | .spi mosi _ => (∃ r bytes, mosi = cfg.wa r :: bytes ∧ hostWrite cfg r bytes) ∨
      ∃ r n, hostRead r ∧ 1 ≤ n ∧ mosi = List.replicate n (cfg.ra r) ++ [0x00]
  | .reset level => level = .high
  | .ask _ _ => True
  | .xact _ _ _ _ _ => False

/-! ### The invariant -/

/-- A store object as makeStore gives it: never newer than the session counter, capacity 704, a UID of its size (R50, R226). -/
def Store.ok (gen : Nat) (st : Store) : Prop :=
  st.gen ≤ gen ∧ st.capacity = 704 ∧ st.uid.length = st.uidSize ∧ st.uidSize ∈ [4, 7, 10]

/-- A value the host holds is as the operation that gave it makes it. -/
def Value.ok (gen : Nat) : Value → Prop
  | .store st => st.ok gen
  | _ => True

/-- What holds of every state that runs reach: the legal values of rule R21, the sequencer idle with no call in progress unless a
fault stopped it (R29, R262), a session only where the controller is ready and with a UID that is complete (R22, R24, R166), a cached
sector only in a session (R26, R237), well-formed events, and what the host holds. -/
structure State.Inv (s : State) : Prop where
  uidSize  : s.uidSize ∈ [4, 7, 10]
  k        : s.k ≤ 32
  iter     : s.iter ≤ 32
  rsp      : s.rsp.n ≤ 127
  idle     : s.faultMark = none → s.busy = false ∧ s.pos = .idle
  session  : s.uidValid = true → s.ready = true ∧ s.uidSize = s.level.uidSize ∧ cascadeBit s.sak = false
  cache    : s.lastAuthSector.isSome = true → s.uidValid = true
  trace    : ∀ e ∈ s.trace, e.wf s.cfg
  bindings : ∀ b ∈ s.bindings, b.2.ok s.gen
  result   : ∀ v, s.result = some (.value v) → v.ok s.gen

/-! ### How runs are said -/

/-- The state after some run: the events it left, the answers still scripted, the draws, the position and the result; all else as
in `s`. -/
def State.after (s : State) (evs : List Event) (rest : List Answer) (d : Nat) (q : Pos) (r : CallResult) : State :=
  { s with trace := s.trace ++ evs, answers := rest, draws := d, pos := q, result := some r }

/-- What the events of a poll loop show, whatever the chip answers (R43): readings of one register, a deadline query behind each one
that does not end the loop, until a reading ends it (`some v`) or a query answers true (`none`). -/
inductive PollRun (cfg : Cfg) (kind : WaitKind) (g : Reg) (ends : Byte → Prop) : List Event → Option Byte → Prop where
  | done (v : Byte) : ends v → PollRun cfg kind g ends [gave cfg g [v]] (some v)
  | deadline (v : Byte) : ¬ ends v → PollRun cfg kind g ends [gave cfg g [v], .ask kind true] none
  | again {es : List Event} {last : Option Byte} (v : Byte) :
      ¬ ends v → PollRun cfg kind g ends es last → PollRun cfg kind g ends (gave cfg g [v] :: .ask kind false :: es) last

/-- Bit `p` of a level's UID field, `p` from 1 to 32: bit `(p − 1) mod 8` of buffer byte `2 + (p − 1) div 8` (R66). -/
def fieldBit (buf : Vector Byte 9) (p : Nat) : Bool := (buf.toList.getD (2 + (p - 1) / 8) 0).getLsbD ((p - 1) % 8)

/-- What block `b` of a card holds behind the frames sent to it, `held` before them: the payload of the last write of it (R103). -/
def holds (cfg : Cfg) (b : Byte) : List (Byte × List Byte) → List Byte → List Byte
  | [], held => held
  | (_, frame) :: rest, held =>
    holds cfg b rest (if frame.length = 4 ∧ frame.take 2 = [cfg.picc.write, b] then (rest.headD (0x00, [])).2.take 16 else held)

/-- The controller accepts a call of an operation that needs init (R22, R29, R262). -/
def State.accepts (s : State) : Prop := s.faultMark = none ∧ s.busy = false ∧ s.ready = true

end Sys2Proof.Machine

namespace Sys2Proof

open Machine

/-! ### Host calls -/

/-- The host operations and pseudo-operations: what a host can call (R108, R110). -/
def Instr.hostCall : Instr → Bool
  | .transceivePicc _ _ _ _ _ => false
  | i => i.call.isSome

/-- The calls that read a block of the card, or all of them (R184, R231, R233). -/
def Instr.reads (i : Instr) : Prop := (∃ b, i = .mifareRead b) ∨ (∃ st b, i = .readBlock st b) ∨ ∃ st, i = .readBytes st

/-- The calls that write a block of the card, or several (R186, R232, R234). -/
def Instr.writes (i : Instr) : Prop := (∃ b d, i = .mifareWrite b d) ∨ (∃ st b d, i = .writeBlock st b d) ∨ ∃ st d, i = .writeBytes st d

/-- A call can be made: each operand is a value of its kind (R109; log entry 14). -/
def Instr.callable (s : State) : Instr → Prop
  | .setAntennaState on     => (boolOf s on).isSome
  | .mifareAuth _ b         => (byteOf s b).isSome
  | .mifareRead b           => (byteOf s b).isSome
  | .mifareWrite b d        => (byteOf s b).isSome ∧ (bytesOf s d).isSome
  | .calculateCrc d         => (bytesOf s d).isSome
  | .cardType b             => (byteOf s b).isSome
  | .getSak t               => (typeSakOf s t).isSome
  | .getCapacity st         => (storeOf s st).isSome
  | .authenticate st b      => (storeOf s st).isSome ∧ (byteOf s b).isSome
  | .readBlock st b         => (storeOf s st).isSome ∧ (byteOf s b).isSome
  | .writeBlock st b d      => (storeOf s st).isSome ∧ (byteOf s b).isSome ∧ (bytesOf s d).isSome
  | .readBytes st           => (storeOf s st).isSome
  | .writeBytes st d        => (storeOf s st).isSome ∧ (bytesOf s d).isSome
  | _ => True

/-- A store operand of the current session (R238). -/
def inSession (s : State) (st : Name) : Prop := ∃ o, storeOf s st = some o ∧ o.gen = s.gen ∧ s.uidValid = true

/-- The authentication frame of a store access: key B, six 0xFF, the block's own address, the last four UID bytes (R230). -/
def storeAuthFrame (s : State) (a : Byte) : Byte × List Byte :=
  (0x00, [s.cfg.picc.authB, a, 0xFF, 0xFF, 0xFF, 0xFF, 0xFF, 0xFF] ++ s.uidLast4)

/-- Calls of readBlock, block by block, until one gives no bytes or all are read; then all the bytes are the value (R233, R253). -/
def readEach (st : Name) : (blocks got : List Byte) → State → StepResult
  | [], got, s => .next (s.giveBack (.value (.bytes got)))
  | b :: bs, got, s =>
    match exec (.readBlock st (.lit b)) s with
    | .next t =>
      match t.result with
      | some (.value (.bytes d)) => readEach st bs (got ++ d) t
      | _ => .next t
    | stop => stop

/-- Calls of writeBlock, a chunk to a block, until one gives an error or all chunks are written; chunks without a block are an error
(R234, R253). -/
def writeEach (st : Name) : (blocks : List Byte) → (chunks : List (List Byte)) → State → StepResult
  | _, [], s => .next (s.giveBack (.value .unit))
  | [], _ :: _, s => .next (s.giveBack (.error (.capacityExceeded .defensive)))
  | b :: bs, c :: cs, s =>
    match exec (.writeBlock st (.lit b) (.lit c)) s with
    | .next t => if t.result = some (.value .unit) then writeEach st bs cs t else .next t
    | stop => stop

/-- A store bound to a name is not of the current session (R238). -/
def stale (s : State) (st : Name) : Prop := ∃ o, storeOf s st = some o ∧ ¬ (s.uidValid = true ∧ o.gen = s.gen)

/-- A byte operand is a block the store never touches: forbidden, or above 63 (R228). -/
def forbiddenOperand (s : State) (b : Arg Byte) : Prop := ∃ a, byteOf s b = some a ∧ (a ∈ s.cfg.forbidden ∨ 63 < a.toNat)

/-- A byte-list operand is longer than so many bytes. -/
def longerThan (n : Nat) (s : State) (d : Arg (List Byte)) : Prop := ∃ bs, bytesOf s d = some bs ∧ n < bs.length

/-- The reasons of rule R263's table that an operation gives of itself, past `Busy` and `NotReady`. -/
inductive Instr.OwnRefusal (s : State) : Instr → RefuseReason → Prop where
  | noSessionAuth (k b) : s.uidValid = false → OwnRefusal s (.mifareAuth k b) .noSession
  | noSessionStore : s.uidValid = false → OwnRefusal s .makeStore .noSession
  | staleAuthenticate (st b) : stale s st → OwnRefusal s (.authenticate st b) .staleSession
  | staleReadBlock (st b) : stale s st → OwnRefusal s (.readBlock st b) .staleSession
  | staleWriteBlock (st b d) : stale s st → OwnRefusal s (.writeBlock st b d) .staleSession
  | staleReadBytes (st) : stale s st → OwnRefusal s (.readBytes st) .staleSession
  | staleWriteBytes (st d) : stale s st → OwnRefusal s (.writeBytes st d) .staleSession
  | forbiddenAuthenticate (st b) : ¬ stale s st → forbiddenOperand s b → OwnRefusal s (.authenticate st b) .forbiddenBlock
  | forbiddenReadBlock (st b) : ¬ stale s st → forbiddenOperand s b → OwnRefusal s (.readBlock st b) .forbiddenBlock
  | forbiddenWriteBlock (st b d) : ¬ stale s st → ¬ longerThan 16 s d → forbiddenOperand s b →
      OwnRefusal s (.writeBlock st b d) .forbiddenBlock
  | longMifareWrite (b d) : longerThan 16 s d → OwnRefusal s (.mifareWrite b d) .payloadTooLong
  | longWriteBlock (st b d) : ¬ stale s st → longerThan 16 s d → OwnRefusal s (.writeBlock st b d) .payloadTooLong
  | longCalculateCrc (d) : longerThan s.cfg.fifoSize s d → OwnRefusal s (.calculateCrc d) .tooLong

/-- Why a host call is refused (R263): `Busy`, then `NotReady`, then the operation's own reason. -/
inductive Instr.Refusal (s : State) (i : Instr) : RefuseReason → Prop where
  | busy : i.hostCall = true → s.busy = true → Refusal s i .busy
  | notReady : i.hostCall = true → s.busy = false → i.needsReady = true → s.ready = false → Refusal s i .notReady
  | own (r) : s.busy = false → (i.needsReady = true → s.ready = true) → i.OwnRefusal s r → Refusal s i r

/-! ### Frames of the internal rows -/

/-- What a frame row sends and how: the command, the bytes, `txLastBits`, `rxAlign`, and whether an answer is read (R94 to R103). -/
def Instr.frame (cfg : Cfg) : Instr → Option (PiccCommand × List Byte × BitVec 3 × BitVec 3 × Bool)
  | .reqa                  => some (.transceive, [cfg.picc.reqa], 7, 0, true)
  | .wupa                  => some (.transceive, [cfg.picc.wupa], 7, 0, true)
  | .hlta lo hi            => some (.transceive, [cfg.picc.hlta, 0x00, lo, hi], 0, 0, false)
  | .anticollCL1 n bits    => some (.transceive, [cfg.picc.selCl1, n] ++ bits, n.setWidth 3, n.setWidth 3, true)
  | .anticollCL2 n bits    => some (.transceive, [cfg.picc.selCl2, n] ++ bits, n.setWidth 3, n.setWidth 3, true)
  | .anticollCL3 n bits    => some (.transceive, [cfg.picc.selCl3, n] ++ bits, n.setWidth 3, n.setWidth 3, true)
  | .selectCL1 u lo hi     =>
    some (.transceive, [cfg.picc.selCl1, 0x70] ++ u.toList ++ [u[0] ^^^ u[1] ^^^ u[2] ^^^ u[3], lo, hi], 0, 0, true)
  | .selectCL2 u lo hi     =>
    some (.transceive, [cfg.picc.selCl2, 0x70] ++ u.toList ++ [u[0] ^^^ u[1] ^^^ u[2] ^^^ u[3], lo, hi], 0, 0, true)
  | .selectCL3 u lo hi     =>
    some (.transceive, [cfg.picc.selCl3, 0x70] ++ u.toList ++ [u[0] ^^^ u[1] ^^^ u[2] ^^^ u[3], lo, hi], 0, 0, true)
  | .mfAuthA b k u         => some (.mfAuthent, [cfg.picc.authA, b] ++ k.toList ++ u.toList, 0, 0, false)
  | .mfAuthB b k u         => some (.mfAuthent, [cfg.picc.authB, b] ++ k.toList ++ u.toList, 0, 0, false)
  | .mfRead b lo hi        => some (.transceive, [cfg.picc.read, b, lo, hi], 0, 0, true)
  | .mfWrite b lo hi       => some (.transceive, [cfg.picc.write, b, lo, hi], 0, 0, true)
  | .mfWriteData d lo hi   => some (.transceive, d.toList ++ [lo, hi], 0, 0, true)
  | .transceivePicc c tx t r w => some (c, tx, t, r, w)
  | _ => none

end Sys2Proof
end

