-- ==== Sys2Proof/Certificates/Slice0/Obligations.lean ====
section
/-! DEFINITION. The statements for the provers, from the numbered rules of spec/. -/

open Sys2Proof Sys2Proof.Machine Host

/-! ### The configuration -/

/-- The reference configuration is what the spec's tables say (R31 to R40, R92, R93, R134 to R136, R225, R228 and R9): indices, masks,
codes, command bytes, init's values, card types, forbidden blocks; and it is the machine's at construction (log entry 15). The two OPEN
parameters have no value here (log entries 4 and 5). -/
def Obligations.ReferenceConfiguration : Prop :=
  State.reset.cfg = Cfg.reference ∧
  Reg.all.map Cfg.reference.index = [0x01, 0x04, 0x05, 0x06, 0x08, 0x09, 0x0A, 0x0C, 0x0D, 0x0E, 0x11, 0x14, 0x15, 0x21, 0x22, 0x2A, 0x2B,
    0x2C, 0x2D] ∧
  [PcdCommand.idle, .calcCrc, .transceive, .mfAuthent, .softReset].map Cfg.reference.byte = [0x00, 0x03, 0x0C, 0x0E, 0x0F] ∧
  Cfg.reference.picc.list = [0x26, 0x52, 0x50, 0x93, 0x95, 0x97, 0x30, 0xA0, 0x60, 0x61] ∧
  doneMask Cfg.reference .transceive = 0x30 ∧ doneMask Cfg.reference .mfAuthent = 0x10 ∧ earlyMask Cfg.reference = 0x13 ∧
  comIrqClear Cfg.reference = 0x7F ∧ crcIrqClear Cfg.reference = 0x04 ∧ flushBuffer Cfg.reference = 0x80 ∧
  startSend Cfg.reference = 0x80 ∧ crypto1On Cfg.reference = 0x08 ∧ txDrivers Cfg.reference = 0x03 ∧
  (∀ v : Byte, powerDown Cfg.reference v = v.getLsbD 4 ∧ timerIrq Cfg.reference v = v.getLsbD 0 ∧ crcIrq Cfg.reference v = v.getLsbD 2 ∧
    collError Cfg.reference v = v.getLsbD 3 ∧ collPosNotValid Cfg.reference v = v.getLsbD 5 ∧
    fifoCount Cfg.reference v = (v &&& 0x7F).toNat ∧ (rxLastBits Cfg.reference v).toNat = (v &&& 0x07).toNat ∧
    collPos Cfg.reference v = if v &&& 0x1F = 0 then 32 else (v &&& 0x1F).toNat) ∧
  Cfg.reference.initValues.tMode = 0x90 ∧ Cfg.reference.initValues.tPrescaler = 0xA9 ∧ Cfg.reference.initValues.tReload = 0x03E8 ∧
  Cfg.reference.initValues.txAsk = 0x40 ∧ Cfg.reference.initValues.mode = 0x3D ∧
  CardType.all.map Cfg.reference.sakOf = [some 0x08, some 0x09, some 0x18, some 0x00, some 0x20, some 0x40] ∧
  Cfg.reference.forbidden = [0, 3, 7, 11, 15, 19, 23, 27, 31, 35, 39, 43, 47, 51, 55, 59, 63] ∧ Cfg.reference.fifoSize = 64 ∧
  1 ≤ Cfg.reference.resetPollLimit

/-! ### Encoding and the step -/

/-- R86: every address byte is `R i5 i4 i3 i2 i1 i0 0`, R = 1 for a read. -/
def Obligations.RegisterAddressBits : Prop :=
  ∀ (cfg : Cfg) (r : Reg), cfg.wa r = ((cfg.index r).setWidth 8 <<< 1) &&& 0x7E ∧ cfg.ra r = cfg.wa r ||| 0x80 ∧
    (cfg.wa r).getLsbD 7 = false ∧ (cfg.ra r).getLsbD 7 = true ∧ (cfg.wa r).getLsbD 0 = false ∧ (cfg.ra r).getLsbD 0 = false ∧
    ∀ i < 6, (cfg.wa r).getLsbD (i + 1) = (cfg.index r).getLsbD i ∧ (cfg.ra r).getLsbD (i + 1) = (cfg.index r).getLsbD i

/-- The worked examples of R86, R96, R97, R101, R102, R103, R117, R119 and R110 decode to what they stand for. -/
def Obligations.WorkedExamplesDecode : Prop :=
  decode Cfg.reference ⟨.spiWrite, 0x00, [0x02, 0x0F]⟩ = .ok ⟨none, .regWrite .command 0x0F⟩ ∧
  decode Cfg.reference ⟨.spiRead, 0x00, [0x88, 0x00]⟩ = .ok ⟨none, .regRead .comIrq⟩ ∧
  decode Cfg.reference ⟨.pcdCommand, 0x00, [0x0E]⟩ = .ok ⟨none, .pcdMfAuthent⟩ ∧
  decode Cfg.reference ⟨.piccFrame, 0x11, [0x93, 0x41, 0x11, 0x22, 0x01]⟩ = .ok ⟨none, .anticollCL1 0x41 [0x11, 0x22, 0x01]⟩ ∧
  decode Cfg.reference ⟨.piccFrame, 0x00, [0x93, 0x70, 0x11, 0x22, 0x33, 0x44, 0x44, 0x51, 0x9C]⟩ =
    .ok ⟨none, .selectCL1 #v[0x11, 0x22, 0x33, 0x44] 0x51 0x9C⟩ ∧
  decode Cfg.reference ⟨.piccFrame, 0x00, [0x61, 0x04, 0xFF, 0xFF, 0xFF, 0xFF, 0xFF, 0xFF, 0x11, 0x22, 0x33, 0x44]⟩ =
    .ok ⟨none, .mfAuthB 0x04 #v[0xFF, 0xFF, 0xFF, 0xFF, 0xFF, 0xFF] #v[0x11, 0x22, 0x33, 0x44]⟩ ∧
  decode Cfg.reference ⟨.piccFrame, 0x00, [0x30, 0x04, 0x26, 0xEE]⟩ = .ok ⟨none, .mfRead 0x04 0x26 0xEE⟩ ∧
  decode Cfg.reference ⟨.piccFrame, 0x00, [0xA0, 0x01, 0xD6, 0xA0]⟩ = .ok ⟨none, .mfWrite 0x01 0xD6 0xA0⟩ ∧
  decode Cfg.reference ⟨.hostOp, 0x00, ascii "antennaOn ; comment"⟩ = .ok ⟨none, .antennaOn⟩

/-- In every configuration, decoding an encoded line gives it back: no operand of any instruction loses a bit. Where the spec gives two
rows one frame (`Instr.canonical`), it gives the shorter name. The grammar of names, the reset line's byte and `transceivePicc`'s
encoding are the model's (log entries 14, 12, 13). -/
def Obligations.DecodeOfEncode : Prop :=
  ∀ (cfg : Cfg) (l : Line), l.wf = true → l.bindable = true → decode cfg (encode cfg l) = .ok ⟨l.bind, l.instr.canonical⟩

/-- A step runs the line it fetched: `exec` on the state with the call taken off the host's list; then a value is bound to the line's
name, and an error ends the program (R109). The other steps: a stuck machine faults (R262), and a machine without a call stays as it is
(log entries 17, 18 for the idle step and for the end of a program on an error). The two stops are the model's own and no refusal of
R263: a line the decoder rejects (log entry 23), and an operand that names no value of its kind (`badOperand`, log entry 14). -/
def Obligations.StepRunsTheDecodedLine : Prop :=
  ∀ s : State,
    (∀ m, s.faultMark = some m → step s = .fault (.stuck m)) ∧
    (s.faultMark = none → s.pending = [] → step s = .next s) ∧
    ∀ e rest, s.faultMark = none → s.pending = e :: rest →
      (∀ err, decode s.cfg e = .error err → step s = .refused (.undecodable err)) ∧
      ∀ l, decode s.cfg e = .ok l →
        (∀ m, exec l.instr { s with pending := rest } = .refused m → m = .badOperand ∧ step s = .refused m) ∧
        ∀ t, exec l.instr { s with pending := rest } = .next t →
          (∀ v n, t.result = some (.value v) → l.bind = some n → step s = .next { t with bindings := (n, v) :: t.bindings }) ∧
          (∀ v, t.result = some (.value v) → l.bind = none → step s = .next t) ∧
          (∀ x, t.result = some (.error x) → step s = .next { t with pending := [] }) ∧
          (∀ m, t.result = some (.refused m) → step s = .next t) ∧
          (t.result = none → step s = .next t)

/-- R13 and R29: an instruction runs by atomic steps, each of which appends one event to the trace; the states between them are `passes`.
While a host call is in progress they are busy, without a result, at a position of the call, and no fault is marked. That a step of the
machine is a whole call is the model's choice (log entry 7). -/
def Obligations.PrimitivesAreAtomicSteps : Prop :=
  ∀ (i : Instr) (s t : State), exec i s = .next t →
    (∃ evs, t.trace = s.trace ++ evs ∧
      (passes i s).map State.trace = (List.range evs.length).map fun j => s.trace ++ evs.take (j + 1)) ∧
    ∀ op p, callProc s.cfg .registers s i = some (op, p) → ∀ u ∈ passes i s,
      u.busy = true ∧ u.faultMark = none ∧ u.result = none ∧ ∃ n, u.pos = .running op (n + 1)

/-! ### CRC_A -/

/-- R200: the CRC_A function, byte by byte and bit by bit, its byte order, and the rule's vectors. -/
def Obligations.CrcAFunction : Prop :=
  crcA [] = 0x6363 ∧
  (∀ d b, crcA (d ++ [b]) = (fun c : BitVec 16 => if c.getLsbD 0 then (c >>> 1) ^^^ 0x8408 else c >>> 1)^[8] (crcA d ^^^ b.setWidth 16)) ∧
  (∀ d, crcBytes d = [(crcA d).setWidth 8, (crcA d >>> 8).setWidth 8]) ∧
  crcA [0x00] = 0x51FE ∧ crcA [0x12, 0x34] = 0xCF26 ∧ crcA (ascii "123456789") = 0xBF05 ∧ crcBytes [0x08] = [0xB6, 0xDD]

/-- A body followed by its CRC_A trailer has CRC 0, whatever the body (R90, R200): what makes the trailer a check. -/
def Obligations.CrcResidueIsZero : Prop := ∀ d : List Byte, crcA (d ++ crcBytes d) = 0

/-- R202 to R205, whatever the chip answers: the events of calculateCrc, its poll, and its two endings. -/
def Obligations.CalculateCrcProtocol : Prop :=
  ∀ (s : State) (d : Arg (List Byte)) (bs : List Byte), s.accepts → bytesOf s d = some bs → bs.length ≤ s.cfg.fifoSize →
    ∃ evs rest dr polls last tail crc r,
      exec (.calculateCrc d) s = .next ({ s with crcOut := crc }.after evs rest dr .idle r) ∧
      evs.map Event.seen =
        [wrote s.cfg .command [s.cfg.byte .idle], wrote s.cfg .divIrq [crcIrqClear s.cfg], wrote s.cfg .fifoLevel [flushBuffer s.cfg]] ++
        (if bs = [] then [] else [wrote s.cfg .fifoData bs]) ++ [wrote s.cfg .command [s.cfg.byte .calcCrc]] ++ polls ++ tail ∧
      PollRun s.cfg .crc .divIrq (fun v => crcIrq s.cfg v = true) polls last ∧
      (last = none → tail = [] ∧ crc = s.crcOut ∧ r = .error (.timeout .crc)) ∧
      (last ≠ none → ∃ lo hi, tail = [gave s.cfg .crcResultL [lo], gave s.cfg .crcResultH [hi]] ∧ crc = (lo, hi) ∧
        r = .value (.bytes [lo, hi]))

/-- R205 with a conforming chip (R49 (a)), after however many polls: calculateCrc gives CRC_A of the data, low byte first. In every
conforming environment it gives that or, where the deadline passes first, a Timeout. How the environment reads R49's words is log entry
24's choice. -/
def Obligations.CalculateCrcGivesCrcA : Prop :=
  ∀ (s : State) (d : Arg (List Byte)) (bs : List Byte), s.accepts → bytesOf s d = some bs → bs.length ≤ s.cfg.fifoSize →
    (∀ answers rest, CrcAnswers s.cfg bs answers → s.answers = answers ++ rest →
      ∃ evs dr, exec (.calculateCrc d) s =
          .next ({ s with crcOut := (crcLow bs, crcHigh bs) }.after evs rest dr .idle (.value (.bytes (crcBytes bs)))) ∧
        framesSent s.cfg evs = []) ∧
    ∀ env, ConformingEnv s.cfg env → ∃ t evs, exec (.calculateCrc d) s = .next t ∧ t.trace = s.trace ++ evs ∧
      (env.answered s.cfg s.trace evs = true → t.result = some (.value (.bytes (crcBytes bs))) ∨
        (t.result = some (.error (.timeout .crc)) ∧ evs.getLast? = some (.ask .crc true)))

/-! ### Transport rows and PCD commands -/

/-- The register rows run by themselves (log entry 10) make the one frame R117 to R121 give them, or none where there is nothing to
move (R123), and change nothing else. In a conforming environment a write of RegWrite that clears flags, turns crypto off or
switches the antenna drivers has the effect R73 gives it (log entry 24 reads the premise); of R73's other effects it says nothing. -/
def Obligations.TransportRowsRun : Prop :=
  ∀ s : State, s.faultMark = none →
    (∀ r v, ∃ miso d, miso.length = 2 ∧
      exec (.regWrite r v) s = .next (s.after [.spi [s.cfg.wa r, v] miso] s.answers d s.pos.advance (.value .unit))) ∧
    (∀ r bytes, bytes ≠ [] → ∃ miso d, miso.length = bytes.length + 1 ∧
      exec (.regWriteN r bytes) s = .next (s.after [.spi (s.cfg.wa r :: bytes) miso] s.answers d s.pos.advance (.value .unit))) ∧
    (∀ r, exec (.regWriteN r []) s = .next (s.after [] s.answers s.draws s.pos (.value .unit))) ∧
    (∀ r, ∃ m0 b rest d,
      exec (.regRead r) s = .next (s.after [.spi [s.cfg.ra r, 0x00] [m0, b]] rest d s.pos.advance (.value (.byte b))) ∧
      ∀ x xs, s.answers = .value x :: xs → b = x ∧ rest = xs) ∧
    (∀ r n a, 1 ≤ n → ∃ m0 ms rest d, ms.length = n ∧
      exec (.regReadN r n a) s = .next (s.after [.spi (List.replicate n (s.cfg.ra r) ++ [0x00]) (m0 :: ms)] rest d s.pos.advance
        (.value (.bytes (ms.modifyHead fun b => b &&& (0xFF#8 <<< a.toNat))))) ∧
      ∀ (xs : List Byte) ys, s.answers = xs.map .value ++ ys → xs.length = n → ms = xs ∧ rest = ys) ∧
    (∀ r a, exec (.regReadN r 0 a) s = .next (s.after [] s.answers s.draws s.pos (.value (.bytes [])))) ∧
    (∀ r v env t, ConformingEnv s.cfg env → exec (.regWrite r v) s = .next t →
      (r = .comIrq → anyBit v (bit s.cfg.fields.set1) = false → env.value t.trace .comIrq &&& v = 0) ∧
      (r = .divIrq → anyBit v (bit s.cfg.fields.set2) = false → env.value t.trace .divIrq &&& v = 0) ∧
      (r = .status2 → v &&& crypto1On s.cfg = 0 → env.value t.trace .status2 &&& crypto1On s.cfg = 0) ∧
      (r = .txControl → powerDown s.cfg (env.value s.trace .command) = false →
        env.value t.trace .txControl &&& txDrivers s.cfg = v &&& txDrivers s.cfg)) ∧
    ∀ l, exec (.resetLine l) s = .next ({ s with resetLine := l }.after [.reset l] s.answers s.draws s.pos.advance (.value .unit))

/-- The PCD command rows (R92) write their code to CommandReg; Transceive then sets StartSend by a read and a write of BitFramingReg
(R210), `b` being what it reads. They run by themselves by log entry 10. -/
def Obligations.PcdCommandRowsRun : Prop :=
  ∀ s : State, s.faultMark = none →
    (∀ i c, (i, c) ∈ [(Instr.pcdIdle, PcdCommand.idle), (.pcdCalcCrc, .calcCrc), (.pcdMfAuthent, .mfAuthent), (.pcdSoftReset, .softReset)] →
      ∃ evs d q, exec i s = .next (s.after evs s.answers d q (.value .unit)) ∧
        evs.map Event.seen = [wrote s.cfg .command [(s.cfg.code c).setWidth 8]]) ∧
    ∀ b rest, s.answers = .value b :: rest → ∃ evs d q, exec .pcdTransceive s = .next (s.after evs rest d q (.value .unit)) ∧
      evs.map Event.seen = [wrote s.cfg .command [(s.cfg.code .transceive).setWidth 8], gave s.cfg .bitFraming [b],
        wrote s.cfg .bitFraming [b ||| startSend s.cfg]]

/-! ### The PICC transaction -/

/-- R206 to R217, whatever the chip answers: every transaction ends, its register accesses come in this order, StartSend is cleared on
every exit, a poll ends by its done mask before the timer before the deadline, a timeout reads neither ErrorReg nor the FIFO, an early
error no FIFO byte, and a collision comes with its response. A transaction of no bytes makes no FIFO frame (R123); that one of no bytes or
of more than 18 runs at all is log entry 13's choice. -/
def Obligations.TransactionProtocol : Prop :=
  ∀ (cmd : PiccCommand) (tx : List Byte) (txLastBits rxAlign : BitVec 3) (want : Bool) (s : State),
    ∃ evs rest dr q o rsp start polls last f tail,
      (transceive s.cfg .registers cmd tx txLastBits rxAlign want).exec s =
        (.ok o, { s with trace := s.trace ++ evs, answers := rest, draws := dr, pos := q, rsp := rsp }) ∧
      evs.map Event.seen =
        [wrote s.cfg .command [s.cfg.byte .idle], wrote s.cfg .comIrq [comIrqClear s.cfg],
          wrote s.cfg .bitFraming [(rxAlign.setWidth 8 <<< 4) ||| txLastBits.setWidth 8], wrote s.cfg .fifoLevel [flushBuffer s.cfg]] ++
        (if tx = [] then [] else [wrote s.cfg .fifoData tx]) ++ start ++ polls ++
        [gave s.cfg .bitFraming [f], wrote s.cfg .bitFraming [f &&& ~~~startSend s.cfg]] ++ tail ∧
      (cmd = .transceive → ∃ b, start = [wrote s.cfg .command [s.cfg.byte .transceive], gave s.cfg .bitFraming [b],
        wrote s.cfg .bitFraming [b ||| startSend s.cfg]]) ∧
      (cmd = .mfAuthent → start = [wrote s.cfg .command [s.cfg.byte .mfAuthent]]) ∧
      PollRun s.cfg .picc .comIrq (fun v => commandDone s.cfg cmd v = true ∨ timerIrq s.cfg v = true) polls last ∧
      ((∀ v, last = some v → commandDone s.cfg cmd v = false) → o = .timeout ∧ tail = [] ∧ rsp = s.rsp) ∧
      (∀ v, last = some v → commandDone s.cfg cmd v = true → ∃ e more, tail = gave s.cfg .error [e] :: more ∧
        (earlyError s.cfg e = true → o = .comm e ∧ more = [] ∧ rsp = s.rsp) ∧
        (earlyError s.cfg e = false → o = (if collError s.cfg e then .coll else .ok) ∧
          (want = false → more = [] ∧ rsp = s.rsp) ∧
          (want = true → ∃ level bytes control, bytes.length = fifoCount s.cfg level ∧
            more = [gave s.cfg .fifoLevel [level]] ++ (if bytes = [] then [] else [gave s.cfg .fifoData bytes]) ++
              [gave s.cfg .control [control]] ∧
            rsp = ⟨bytes.modifyHead fun b => b &&& (0xFF#8 <<< rxAlign.toNat), rxLastBits s.cfg control⟩)))

/-- R218: the transaction as one step from the card's reply. In every conforming environment, whatever it answers to the register accesses
of a transaction, the strict run and the one-step run from the reply have the same outcome and the same `rsp`, those of the rule's table,
and a CollReg read behind either gives the reply's position; the one-step run makes the one event `Xact`. The reply is the cards' to the
frame, given once the transmission is started. With the antenna off every transaction is a Timeout (R140). How the environment reads R49's words
is log entry 24's choice, and that a transaction of no bytes or of more than 18 runs is log entry 13's. -/
def Obligations.TransactionAbstraction : Prop :=
  (∀ (cmd : PiccCommand) (tx : List Byte) (txLastBits rxAlign : BitVec 3) (want : Bool) (s t : State) (o : XactOutcome)
    (evs : List Event) (env : Env), ConformingEnv s.cfg env →
    (transceive s.cfg .registers cmd tx txLastBits rxAlign want).exec s = (.ok o, t) → t.trace = s.trace ++ evs →
    env.answered s.cfg s.trace evs = true →
    let reply := env.reply (s.trace ++ evs.take ((if tx = [] then 5 else 6) + (if cmd = .transceive then 2 else 0)))
    o = reply.outcome ∧ t.rsp = reply.rspAfter want rxAlign s.rsp ∧
    (env.value s.trace .txControl &&& txDrivers s.cfg = 0 → o = .timeout ∧ t.rsp = s.rsp) ∧
    ∀ rest, ∃ u, (transceive s.cfg .transactions cmd tx txLastBits rxAlign want).exec { s with answers := .reply reply :: rest } =
        (.ok o, u) ∧ u.trace = s.trace ++ [.xact cmd tx txLastBits rxAlign reply] ∧ u.rsp = t.rsp ∧ u.answers = rest ∧
      ∀ bytes vb p, reply = .reply bytes vb (some p) → ∃ c w,
        (readColl s.cfg .transactions).exec u = (.ok c, w) ∧ collPosNotValid s.cfg c = false ∧ collPos s.cfg c = p ∧
        collPosNotValid s.cfg (env.value t.trace .coll) = false ∧ collPos s.cfg (env.value t.trace .coll) = p) ∧
  ∀ (old : PiccResponse),
    (Reply.silent.outcome = .timeout ∧ Reply.silent.rspAfter true 0 old = old) ∧
    (∀ e, (Reply.garbled e).outcome = .comm e ∧ (Reply.garbled e).rspAfter true 0 old = old) ∧
    (∀ b vb, (Reply.reply b vb none).outcome = .ok ∧ (Reply.reply b vb none).rspAfter true 0 old = ⟨b, vb⟩) ∧
    (∀ b vb p, (Reply.reply b vb (some p)).outcome = .coll ∧ (Reply.reply b vb (some p)).rspAfter true 0 old = ⟨b, vb⟩) ∧
    ∀ r : Reply, r.rspAfter false 0 old = old

/-- R218: with a conforming chip, after however many polls, a frame row, or transceivePicc, sends its frame and no other, with the bit
counts of its rule in BitFramingReg (7 for REQA and WUPA, `k mod 8` twice for an anti-collision frame, else none), and has the outcome and
the response of the card's reply. The rows run by themselves by log entry 10; that WUPA's answer is read and HLTA's is not is log entry 9's
choice, that a transceivePicc of no bytes or of more than 18 runs is log entry 13's, and that an anti-collision row with an NVB that R106 (d)
reserves is sent as written is log entry 23's. -/
def Obligations.FrameRowsRun : Prop :=
  ∀ (i : Instr) (cmd : PiccCommand) (tx : List Byte) (txLastBits rxAlign : BitVec 3) (want : Bool) (s : State) (reply : Reply)
    (answers rest : List Answer), i.frame s.cfg = some (cmd, tx, txLastBits, rxAlign, want) → s.faultMark = none →
    XactAnswers s.cfg cmd want reply answers → s.answers = answers ++ rest →
    ∃ evs d q, exec i s =
        .next ({ s with rsp := reply.rspAfter want rxAlign s.rsp }.after evs rest d q (.value (.outcome reply.outcome))) ∧
      framesSent s.cfg evs = [((rxAlign.setWidth 8 <<< 4) ||| txLastBits.setWidth 8, tx)]

/-! ### Bring-up, antenna, end of the crypto session -/

/-- R143 and R276: a successful init, from either level of the reset line, after any number of failed polls the limit and the deadline
allow (R49 (f)): its exact events and the state it leaves. -/
def Obligations.InitSucceeds : Prop :=
  ∀ (s : State) (fails : List Byte) (v w t : Byte) (answers rest : List Answer), s.faultMark = none → s.busy = false →
    InitAnswers s.cfg fails v w t answers → s.answers = answers ++ rest →
    ∃ evs d, exec .init s =
        .next ({ s with ready := true, resetLine := .high, uidValid := false, lastAuthSector := none, gen := s.gen + 1
          }.after evs rest d .idle (.value .unit)) ∧
      evs.map Event.seen =
        [if s.resetLine = .low then .reset .high else wrote s.cfg .command [s.cfg.byte .softReset]] ++
        (fails.flatMap fun x => [gave s.cfg .command [x], .ask .reset false]) ++
        [gave s.cfg .command [v], gave s.cfg .status2 [w], wrote s.cfg .status2 [w &&& ~~~crypto1On s.cfg],
          wrote s.cfg .tMode [s.cfg.initValues.tMode], wrote s.cfg .tPrescaler [s.cfg.initValues.tPrescaler],
          wrote s.cfg .tReloadH [(s.cfg.initValues.tReload >>> 8).setWidth 8],
          wrote s.cfg .tReloadL [s.cfg.initValues.tReload.setWidth 8],
          wrote s.cfg .txAsk [s.cfg.initValues.txAsk], wrote s.cfg .mode [s.cfg.initValues.mode], gave s.cfg .txControl [t]] ++
        (if t &&& txDrivers s.cfg = txDrivers s.cfg then [] else [wrote s.cfg .txControl [t ||| txDrivers s.cfg]])

/-- R132, R138 and R277: init gives up when the last poll the limit allows still reads PowerDown, and when the deadline passes before;
nothing is written behind the poll, and the controller is left not ready and without a session. `fails` are the readings before the
last one. -/
def Obligations.InitGivesUp : Prop :=
  ∀ (s : State) (fails : List Byte) (v : Byte) (budget : Nat) (rest : List Answer), s.faultMark = none → s.busy = false →
    (∀ x ∈ fails ++ [v], powerDown s.cfg x = true) → s.answers = polled budget (fails ++ [v]) ++ rest →
    (fails.length + 1 = s.cfg.resetPollLimit → fails.length ≤ budget → ∃ evs d more,
      exec .init s =
        .next ({ s with ready := false, resetLine := .high, uidValid := false, lastAuthSector := none, gen := s.gen + 1
          }.after evs more d .idle (.error (.timeout .reset))) ∧
      evs.map Event.seen = [if s.resetLine = .low then .reset .high else wrote s.cfg .command [s.cfg.byte .softReset]] ++
        (fails.flatMap fun x => [gave s.cfg .command [x], .ask .reset false]) ++ [gave s.cfg .command [v]]) ∧
    (fails.length + 1 < s.cfg.resetPollLimit → fails.length = budget → ∃ evs d,
      exec .init s =
        .next ({ s with ready := false, resetLine := .high, uidValid := false, lastAuthSector := none, gen := s.gen + 1
          }.after evs rest d .idle (.error (.timeout .reset))) ∧
      evs.map Event.seen = [if s.resetLine = .low then .reset .high else wrote s.cfg .command [s.cfg.byte .softReset]] ++
        (fails.flatMap fun x => [gave s.cfg .command [x], .ask .reset false]) ++ [gave s.cfg .command [v], .ask .reset true])

/-- R137, R138, R276 and R277, whatever the chip answers: init ends, in one of two ways, and changes no other field of the session. In a
conforming environment (R49 (f)) only the deadline makes it fail; how the environment reads R49's words is log entry 24's choice. -/
def Obligations.InitOutcomes : Prop :=
  ∀ s : State, s.faultMark = none → s.busy = false →
    ∃ t, exec .init s = .next t ∧
      t.gen = s.gen + 1 ∧ t.uidValid = false ∧ t.lastAuthSector = none ∧ t.resetLine = .high ∧ t.busy = false ∧ t.pos = .idle ∧
      ((t.ready = true ∧ t.result = some (.value .unit)) ∨ (t.ready = false ∧ t.result = some (.error (.timeout .reset)))) ∧
      t.uid = s.uid ∧ t.uidSize = s.uidSize ∧ t.sak = s.sak ∧ t.selBuf = s.selBuf ∧ t.level = s.level ∧ t.k = s.k ∧ t.iter = s.iter ∧
      t.rsp = s.rsp ∧ t.crcOut = s.crcOut ∧ t.faultMark = none ∧ t.refuseMark = s.refuseMark ∧ t.pending = s.pending ∧
      t.bindings = s.bindings ∧ t.cfg = s.cfg ∧
      ∀ env evs, ConformingEnv s.cfg env → t.trace = s.trace ++ evs → env.answered s.cfg s.trace evs = true → t.ready = false →
        evs.getLast? = some (.ask .reset true)

/-- R139 and R110: the antenna operations read TxControlReg and write it only where the two driver bits differ from what is wanted. In a
conforming environment whose chip is not starting up the bits are then what is wanted (log entry 24 reads the premise); the session and the
cache stay (R140). -/
def Obligations.AntennaRuns : Prop :=
  (∀ (s : State) (i : Instr) (on : Bool) (env : Env), s.accepts →
    i = (if on then Instr.antennaOn else .antennaOff) ∨ (∃ a, i = .setAntennaState a ∧ boolOf s a = some on) → ConformingEnv s.cfg env →
    powerDown s.cfg (env.value s.trace .command) = false →
    ∃ t evs, exec i s = .next t ∧ t.trace = s.trace ++ evs ∧ t.result = some (.value .unit) ∧
      t.uidValid = s.uidValid ∧ t.gen = s.gen ∧ t.lastAuthSector = s.lastAuthSector ∧
      (env.answered s.cfg s.trace evs = true →
        env.value t.trace .txControl &&& txDrivers s.cfg = if on then txDrivers s.cfg else 0)) ∧
  ∀ (s : State) (v : Byte) (rest : List Answer), s.accepts → s.answers = .value v :: rest →
    (∀ i, i = Instr.antennaOn ∨ (∃ on, i = .setAntennaState on ∧ boolOf s on = some true) → ∃ evs d,
      exec i s = .next (s.after evs rest d .idle (.value .unit)) ∧
      evs.map Event.seen = gave s.cfg .txControl [v] ::
        if v &&& txDrivers s.cfg = txDrivers s.cfg then [] else [wrote s.cfg .txControl [v ||| txDrivers s.cfg]]) ∧
    ∀ i, i = Instr.antennaOff ∨ (∃ on, i = .setAntennaState on ∧ boolOf s on = some false) → ∃ evs d,
      exec i s = .next (s.after evs rest d .idle (.value .unit)) ∧
      evs.map Event.seen = gave s.cfg .txControl [v] ::
        if v &&& txDrivers s.cfg = 0 then [] else [wrote s.cfg .txControl [v &&& ~~~txDrivers s.cfg]]

/-- R183 and R110: mifareStopCrypto1 and endSession clear MFCrypto1On by a read and a write of Status2Reg, the write made whatever was
read, and change no session state. In a conforming environment crypto is then off (R73; log entry 24 reads the premise). -/
def Obligations.StopCryptoRuns : Prop :=
  (∀ (i : Instr) (s : State) (env : Env), i = .mifareStopCrypto1 ∨ i = .endSession → s.accepts → ConformingEnv s.cfg env →
    ∃ t, exec i s = .next t ∧ t.result = some (.value .unit) ∧ env.value t.trace .status2 &&& crypto1On s.cfg = 0) ∧
  ∀ (i : Instr) (s : State) (v : Byte) (rest : List Answer), i = .mifareStopCrypto1 ∨ i = .endSession → s.accepts →
    s.answers = .value v :: rest →
    ∃ evs d, exec i s = .next (s.after evs rest d .idle (.value .unit)) ∧
      evs.map Event.seen = [gave s.cfg .status2 [v], wrote s.cfg .status2 [v &&& ~~~crypto1On s.cfg]]

/-! ### Presence and selection -/

/-- R145 with a conforming chip: isCardPresent sends REQA, 7 bits of it, and is true on a clean ATQA and on a collision, false on every other
reply. In every conforming environment with the antenna off it is false (R140; log entry 24 reads the premise). -/
def Obligations.CardPresenceRuns : Prop :=
  (∀ (s : State) (env : Env), s.accepts → ConformingEnv s.cfg env → env.value s.trace .txControl &&& txDrivers s.cfg = 0 →
    ∃ t evs, exec .isCardPresent s = .next t ∧ t.trace = s.trace ++ evs ∧
      (env.answered s.cfg s.trace evs = true → t.result = some (.value (.bool false)))) ∧
  ∀ (s : State) (reply : Reply) (answers rest : List Answer), s.accepts → XactAnswers s.cfg .transceive true reply answers →
    s.answers = answers ++ rest →
    ∃ evs d b, exec .isCardPresent s =
        .next ({ s with rsp := reply.rspAfter true 0 s.rsp }.after evs rest d .idle (.value (.bool b))) ∧
      framesSent s.cfg evs = [(0x07, [s.cfg.picc.reqa])] ∧
      (b = true ↔ (∃ bytes, bytes.length = 2 ∧ reply = .reply bytes 0 none) ∨ ∃ bytes vb p, reply = .reply bytes vb (some p))

/-- R146 to R168 for a card with a 4-byte UID. A card alone in the field answers one anti-collision frame of no known bits and a SELECT
frame. Of cards that collide one is selected (R49 (d), R153 to R156, T-9): after however many collisions the passes leave the
bits of its UID field known, each pass sends the frame of the bits known so far, its bit counts in BitFramingReg, and the SELECT frame, of
whole bytes, goes to that card. The bytes of `uid` from the fifth on keep what they held (log entry 21). -/
def Obligations.SelectFourByteUid : Prop :=
  ∀ (s : State) (u : Vector Byte 4) (sak : Byte) (answers rest : List Answer), s.accepts → u[0] ≠ 0x88 → sak &&& 0x04 = 0 →
    s.answers = answers ++ rest →
    let body : List Byte := [s.cfg.picc.selCl1, 0x70] ++ u.toList ++ [u[0] ^^^ u[1] ^^^ u[2] ^^^ u[3]]
    let selects := fun (passes : Nat) (frames : List (Byte × List Byte)) => ∃ evs d, exec .select s =
        .next ({ s with
          uidValid := true, uidSize := 4, sak := sak, gen := s.gen + 1, lastAuthSector := none, level := .cl1, k := 32, iter := passes,
          uid := #v[u[0], u[1], u[2], u[3], s.uid[4], s.uid[5], s.uid[6], s.uid[7], s.uid[8], s.uid[9]],
          selBuf := #v[s.cfg.picc.selCl1, 0x70, u[0], u[1], u[2], u[3], u[0] ^^^ u[1] ^^^ u[2] ^^^ u[3], crcLow body, crcHigh body],
          rsp := ⟨[sak, crcLow [sak], crcHigh [sak]], 0⟩,
          crcOut := (crcLow [sak], crcHigh [sak]) }.after evs rest d .idle (.value (.selected u.toList sak))) ∧
      framesSent s.cfg evs = frames ++ [(0x00, body ++ crcBytes body)]
    (LevelAnswers s.cfg .cl1 u sak answers → selects 2 [(0x00, [s.cfg.picc.selCl1, 0x20])]) ∧
    ∀ cards ks, ResolvedAnswers s.cfg .cl1 cards u sak ks answers →
      ∃ frames, List.Forall₂ (KnownFrame s.cfg .cl1 u) ks frames ∧ selects (ks.length + 1) frames

/-- R146 to R168 for a card with a 7-byte UID: a cascade tag and three bytes at CL1, four at CL2, each level's collisions resolved (none
where the card is alone: then the level's one frame is that of no known bits). The bytes of `uid` from the eighth on keep what they held
(log entry 21). -/
def Obligations.SelectSevenByteUid : Prop :=
  ∀ (s : State) (u : Vector Byte 7) (sak1 sak : Byte) (cards1 cards2 : List (Vector Byte 4)) (ks1 ks2 : List Nat)
    (a1 a2 rest : List Answer), s.accepts → u[3] ≠ 0x88 → sak1 &&& 0x04 ≠ 0 → sak &&& 0x04 = 0 →
    ResolvedAnswers s.cfg .cl1 cards1 #v[0x88, u[0], u[1], u[2]] sak1 ks1 a1 →
    ResolvedAnswers s.cfg .cl2 cards2 #v[u[3], u[4], u[5], u[6]] sak ks2 a2 → s.answers = a1 ++ a2 ++ rest →
    let tag : List Byte := [s.cfg.picc.selCl1, 0x70, 0x88, u[0], u[1], u[2], 0x88 ^^^ u[0] ^^^ u[1] ^^^ u[2]]
    let body : List Byte := [s.cfg.picc.selCl2, 0x70, u[3], u[4], u[5], u[6], u[3] ^^^ u[4] ^^^ u[5] ^^^ u[6]]
    ∃ evs d frames1 frames2, exec .select s =
        .next ({ s with
          uidValid := true, uidSize := 7, sak := sak, gen := s.gen + 1, lastAuthSector := none, level := .cl2, k := 32,
          iter := ks2.length + 1,
          uid := #v[u[0], u[1], u[2], u[3], u[4], u[5], u[6], s.uid[7], s.uid[8], s.uid[9]],
          selBuf := #v[s.cfg.picc.selCl2, 0x70, u[3], u[4], u[5], u[6], u[3] ^^^ u[4] ^^^ u[5] ^^^ u[6], crcLow body, crcHigh body],
          rsp := ⟨[sak, crcLow [sak], crcHigh [sak]], 0⟩,
          crcOut := (crcLow [sak], crcHigh [sak]) }.after evs rest d .idle (.value (.selected u.toList sak))) ∧
      framesSent s.cfg evs = frames1 ++ [(0x00, tag ++ crcBytes tag)] ++ frames2 ++ [(0x00, body ++ crcBytes body)] ∧
      List.Forall₂ (KnownFrame s.cfg .cl1 #v[0x88, u[0], u[1], u[2]]) ks1 frames1 ∧
      List.Forall₂ (KnownFrame s.cfg .cl2 #v[u[3], u[4], u[5], u[6]]) ks2 frames2

/-- R146 to R168 for a card with a 10-byte UID: cascade tags at CL1 and CL2, and four bytes at CL3, the first of them any byte (R163:
no tag is tested at CL3), each level's collisions resolved. -/
def Obligations.SelectTenByteUid : Prop :=
  ∀ (s : State) (u : Vector Byte 10) (sak1 sak2 sak : Byte) (cards1 cards2 cards3 : List (Vector Byte 4)) (ks1 ks2 ks3 : List Nat)
    (a1 a2 a3 rest : List Answer), s.accepts → sak1 &&& 0x04 ≠ 0 → sak2 &&& 0x04 ≠ 0 → sak &&& 0x04 = 0 →
    ResolvedAnswers s.cfg .cl1 cards1 #v[0x88, u[0], u[1], u[2]] sak1 ks1 a1 →
    ResolvedAnswers s.cfg .cl2 cards2 #v[0x88, u[3], u[4], u[5]] sak2 ks2 a2 →
    ResolvedAnswers s.cfg .cl3 cards3 #v[u[6], u[7], u[8], u[9]] sak ks3 a3 → s.answers = a1 ++ a2 ++ a3 ++ rest →
    let tag1 : List Byte := [s.cfg.picc.selCl1, 0x70, 0x88, u[0], u[1], u[2], 0x88 ^^^ u[0] ^^^ u[1] ^^^ u[2]]
    let tag2 : List Byte := [s.cfg.picc.selCl2, 0x70, 0x88, u[3], u[4], u[5], 0x88 ^^^ u[3] ^^^ u[4] ^^^ u[5]]
    let body : List Byte := [s.cfg.picc.selCl3, 0x70, u[6], u[7], u[8], u[9], u[6] ^^^ u[7] ^^^ u[8] ^^^ u[9]]
    ∃ evs d frames1 frames2 frames3, exec .select s =
        .next ({ s with
          uidValid := true, uidSize := 10, sak := sak, gen := s.gen + 1, lastAuthSector := none, level := .cl3, k := 32,
          iter := ks3.length + 1, uid := u,
          selBuf := #v[s.cfg.picc.selCl3, 0x70, u[6], u[7], u[8], u[9], u[6] ^^^ u[7] ^^^ u[8] ^^^ u[9], crcLow body, crcHigh body],
          rsp := ⟨[sak, crcLow [sak], crcHigh [sak]], 0⟩,
          crcOut := (crcLow [sak], crcHigh [sak]) }.after evs rest d .idle (.value (.selected u.toList sak))) ∧
      framesSent s.cfg evs = frames1 ++ [(0x00, tag1 ++ crcBytes tag1)] ++ frames2 ++ [(0x00, tag2 ++ crcBytes tag2)] ++
        frames3 ++ [(0x00, body ++ crcBytes body)] ∧
      List.Forall₂ (KnownFrame s.cfg .cl1 #v[0x88, u[0], u[1], u[2]]) ks1 frames1 ∧
      List.Forall₂ (KnownFrame s.cfg .cl2 #v[0x88, u[3], u[4], u[5]]) ks2 frames2 ∧
      List.Forall₂ (KnownFrame s.cfg .cl3 #v[u[6], u[7], u[8], u[9]]) ks3 frames3

/-- R153 to R156: what a collision does. A position that is not valid, or that does not go past the known bits, is a protocol failure
with nothing changed; else the position's bit is set and known, and no other bit of the level's field or byte of the buffer changes. -/
def Obligations.CollisionResolution : Prop :=
  ∀ (s : State) (c : Byte) (rest : List Answer), s.answers = .value c :: rest →
    ∃ evs d q, evs.map Event.seen = [gave s.cfg .coll [c]] ∧
      let t := { s with trace := s.trace ++ evs, answers := rest, draws := d, pos := q }
      let p := collPos s.cfg c
      (collPosNotValid s.cfg c = true →
        (resolveCollision s.cfg .registers).exec s = (.error (.raise (.protocolFailure .collisionPositionNotValid)), t)) ∧
      (collPosNotValid s.cfg c = false → p ≤ s.k →
        (resolveCollision s.cfg .registers).exec s = (.error (.raise (.protocolFailure .noProgress)), t)) ∧
      (collPosNotValid s.cfg c = false → s.k < p → ∃ buf,
        (resolveCollision s.cfg .registers).exec s = (.ok (), { t with k := p, selBuf := buf }) ∧
        (∀ x, 1 ≤ x → x ≤ 32 → fieldBit buf x = (x == p || fieldBit s.selBuf x)) ∧
        ∀ j ∈ [0, 1, 6, 7, 8], buf.toList.getD j 0 = s.selBuf.toList.getD j 0)

/-- R151: the merge of an anti-collision response of a level with `k` known bits. A response too long is a Communication error and
changes nothing; else the known bits stay, the other bits of the response's bytes are the response's, and no other byte changes. -/
def Obligations.MergeKeepsKnownBits : Prop :=
  ∀ (s : State) (k : Nat), k ≤ 31 →
    (9 - (2 + k / 8) < s.rsp.bytes.length →
      (merge (2 + k / 8) (BitVec.ofNat 3 (k % 8))).exec s = (.error (.raise (.communication .responseTooLong)), s)) ∧
    (s.rsp.bytes.length ≤ 9 - (2 + k / 8) → ∃ buf,
      (merge (2 + k / 8) (BitVec.ofNat 3 (k % 8))).exec s = (.ok (), { s with selBuf := buf }) ∧
      (∀ x, 1 ≤ x → x ≤ k → fieldBit buf x = fieldBit s.selBuf x) ∧
      (∀ j b, s.rsp.bytes[j]? = some b → ∀ y < 8, (j = 0 → k % 8 ≤ y) →
        (buf.toList.getD (2 + k / 8 + j) 0).getLsbD y = b.getLsbD y) ∧
      ∀ j, j < 2 + k / 8 ∨ 2 + k / 8 + s.rsp.bytes.length ≤ j → buf.toList.getD j 0 = s.selBuf.toList.getD j 0)

/-- R171: the index arithmetic of a level's bits, re-derived: both forms of the byte index agree, and the frame of `k` known bits. -/
def Obligations.IndexArithmetic : Prop :=
  (∀ p, 1 ≤ p → p ≤ 32 → bitByte p = 1 + p / 8 + (if p % 8 ≠ 0 then 1 else 0) ∧ bitPlace p = (p - 1) % 8 ∧
    (p ≤ 8 → bitByte p = 2) ∧ (9 ≤ p → p ≤ 16 → bitByte p = 3) ∧ (17 ≤ p → p ≤ 24 → bitByte p = 4) ∧ (25 ≤ p → bitByte p = 5)) ∧
  ∀ k ≤ 31, fieldIndex k = 2 + k / 8 ∧ usedBytes k = 2 + k / 8 + (if k % 8 ≠ 0 then 1 else 0) ∧
    (nvb (fieldIndex k) (k % 8)).toNat = 16 * (2 + k / 8) + k % 8 ∧ (tailBits k).toNat = k % 8 ∧
    bitFraming (tailBits k) (tailBits k) = BitVec.ofNat 8 (17 * (k % 8))

/-- R168 and R164, whatever the chip answers: select ends with a UID, an error of its table, or the model's fault; the session is
over from its start, and comes back only on success. In a conforming environment (log entry 24 reads the premise) select never faults, no
response is too long or of a wrong shape, and no SAK has a wrong CRC (R98, R99, R152, R164). -/
def Obligations.SelectOutcomes : Prop :=
  ∀ s : State, s.accepts →
    ∃ t, exec .select s = .next t ∧ t.gen = s.gen + 1 ∧ t.lastAuthSector = none ∧
      ((t.uidValid = true ∧ t.uidSize = 3 * t.level.number + 1 ∧ t.sak &&& 0x04 = 0 ∧ t.busy = false ∧ t.pos = .idle ∧
          t.faultMark = none ∧ t.result = some (.value (.selected (t.uid.toList.take t.uidSize) t.sak))) ∨
        (t.uidValid = false ∧ t.busy = false ∧ t.pos = .idle ∧ t.faultMark = none ∧ t.uidSize = s.uidSize ∧ t.sak = s.sak ∧
          ∃ e, t.result = some (.error e) ∧
            (e = .timeout .picc ∨ e = .timeout .crc ∨ (∃ x, e = .communication (.errorReg x)) ∨
              e = .communication .responseTooLong ∨ e = .communication .sakShape ∨ e = .checksum .sak ∨ ∃ p, e = .protocolFailure p)) ∨
        (t.uidValid = false ∧ t.faultMark = some .cascadeTagMismatch ∧ t.result = none)) ∧
      t.ready = s.ready ∧ t.resetLine = s.resetLine ∧ t.refuseMark = s.refuseMark ∧ t.pending = s.pending ∧ t.bindings = s.bindings ∧
      t.cfg = s.cfg ∧
      ∀ env evs, ConformingEnv s.cfg env → t.trace = s.trace ++ evs → env.answered s.cfg s.trace evs = true →
        t.faultMark = none ∧ t.result ≠ some (.error (.communication .responseTooLong)) ∧
        t.result ≠ some (.error (.communication .sakShape)) ∧ t.result ≠ some (.error (.checksum .sak))

/-- R172: whatever the chip answers, select starts at most 96 transactions, and at most 32 at its last level. -/
def Obligations.SelectIsBounded : Prop :=
  ∀ s : State, s.accepts →
    ∃ t evs, exec .select s = .next t ∧ t.trace = s.trace ++ evs ∧ evs.countP (Event.starts s.cfg) ≤ 96 ∧ t.iter ≤ 32 ∧
      (s.k ≤ 32 → t.k ≤ 32)

/-- R164, R167 and R262: a first or a second level whose cascade tag and SAK disagree is the model's fault: no result, no session, and the
machine takes no further step. At CL3 no tag is tested; there a cascade bit is a ProtocolFailure. The collisions of every level are
resolved first. -/
def Obligations.CascadeMismatchFaults : Prop :=
  ∀ (s : State), s.accepts →
    let faults := ∃ t, exec .select s = .next t ∧ t.faultMark = some .cascadeTagMismatch ∧ t.uidValid = false ∧ t.result = none ∧
      step t = .fault (.stuck .cascadeTagMismatch) ∧ ∀ i, exec i t = .fault (.stuck .cascadeTagMismatch)
    (∀ cards (u : Vector Byte 4) sak ks answers rest, ResolvedAnswers s.cfg .cl1 cards u sak ks answers → s.answers = answers ++ rest →
      ¬ (u[0] = 0x88 ↔ sak &&& 0x04 ≠ 0) → faults) ∧
    ∀ cards1 (u : Vector Byte 4) sak1 ks1 a1, ResolvedAnswers s.cfg .cl1 cards1 u sak1 ks1 a1 → u[0] = 0x88 → sak1 &&& 0x04 ≠ 0 →
      ∀ cards2 (v : Vector Byte 4) sak2 ks2 a2, ResolvedAnswers s.cfg .cl2 cards2 v sak2 ks2 a2 →
        (∀ rest, s.answers = a1 ++ a2 ++ rest → ¬ (v[0] = 0x88 ↔ sak2 &&& 0x04 ≠ 0) → faults) ∧
        ∀ cards3 (w : Vector Byte 4) sak3 ks3 a3 rest, v[0] = 0x88 → sak2 &&& 0x04 ≠ 0 →
          ResolvedAnswers s.cfg .cl3 cards3 w sak3 ks3 a3 → s.answers = a1 ++ a2 ++ a3 ++ rest → sak3 &&& 0x04 ≠ 0 →
          ∃ t, exec .select s = .next t ∧ t.result = some (.error (.protocolFailure .cascadeBitAtCL3)) ∧ t.uidValid = false ∧
            t.faultMark = none ∧ t.busy = false ∧ t.pos = .idle

/-! ### MIFARE -/

/-- R180 and R181 with a conforming chip: mifareAuth sends the 12-byte frame with the last four UID bytes, and its result is the
reply's outcome. No field but the call's own changes: not `rsp`, not the cache. -/
def Obligations.MifareAuthRuns : Prop :=
  ∀ (s : State) (key : Key) (block : Arg Byte) (a : Byte) (reply : Reply) (answers rest : List Answer), s.accepts → s.uidValid = true →
    byteOf s block = some a → XactAnswers s.cfg .mfAuthent false reply answers → s.answers = answers ++ rest →
    ∃ evs d, exec (.mifareAuth key block) s = .next (s.after evs rest d .idle (match reply with
        | .silent             => .error (.timeout .picc)
        | .garbled e          => .error (.communication (.errorReg e))
        | .reply _ _ (some _) => .error .collision
        | .reply _ _ none     => .value .unit)) ∧
      framesSent s.cfg evs = [(0x00, [if key.kind = .a then s.cfg.picc.authA else s.cfg.picc.authB, a] ++ key.bytes.toList ++
        (s.uid.toList.drop (s.uidSize - 4)).take 4)]

/-- R184 with a conforming card: mifareRead sends the READ frame with its CRC and gives the 16 bytes the card sent. No address is
checked (R185), and no session is needed. -/
def Obligations.MifareReadRuns : Prop :=
  ∀ (s : State) (block : Arg Byte) (a : Byte) (data : Vector Byte 16) (answers rest : List Answer), s.accepts → byteOf s block = some a →
    ReadAnswers s.cfg a data.toList answers → s.answers = answers ++ rest →
    ∃ evs d, exec (.mifareRead block) s =
        .next ({ s with
          rsp := ⟨data.toList ++ crcBytes data.toList, 0⟩,
          crcOut := (crcLow data.toList, crcHigh data.toList) }.after evs rest d .idle (.value (.bytes data.toList))) ∧
      framesSent s.cfg evs = [(0x00, [s.cfg.picc.read, a] ++ crcBytes [s.cfg.picc.read, a])]

/-- R192 and R255: how mifareRead fails, in the order of its checks: the request's CRC (nothing is then sent), the outcome of the
transaction, the shape, the deadline of the check's CRC, then the CRC. -/
def Obligations.MifareReadFails : Prop :=
  (∀ (s : State) (block : Arg Byte) (a : Byte) (polls rest : List Answer), s.accepts → byteOf s block = some a →
    PollAnswers (crcIrq s.cfg) none polls → s.answers = polls ++ rest →
    ∃ evs d, exec (.mifareRead block) s = .next (s.after evs rest d .idle (.error (.timeout .crc))) ∧ framesSent s.cfg evs = []) ∧
  ∀ (s : State) (block : Arg Byte) (a : Byte) (reply : Reply) (c1 x : List Answer), s.accepts → byteOf s block = some a →
    CrcAnswers s.cfg [s.cfg.picc.read, a] c1 → XactAnswers s.cfg .transceive true reply x →
    (∀ rest bytes polls, reply = .reply bytes 0 none → bytes.length = 18 → PollAnswers (crcIrq s.cfg) none polls →
      s.answers = c1 ++ x ++ polls ++ rest →
      ∃ evs d, exec (.mifareRead block) s = .next ({ s with
          crcOut := (crcLow [s.cfg.picc.read, a], crcHigh [s.cfg.picc.read, a]), rsp := ⟨bytes, 0⟩
          }.after evs rest d .idle (.error (.timeout .crc))) ∧
        framesSent s.cfg evs = [(0x00, [s.cfg.picc.read, a] ++ crcBytes [s.cfg.picc.read, a])]) ∧
    (∀ rest e, s.answers = c1 ++ x ++ rest →
      (reply = .silent ∧ e = .timeout .picc) ∨ (∃ b, reply = .garbled b ∧ e = .communication (.errorReg b)) ∨
        (∃ bytes vb p, reply = .reply bytes vb (some p) ∧ e = .collision) ∨
        (∃ bytes vb, reply = .reply bytes vb none ∧ ¬ (bytes.length = 18 ∧ vb = 0) ∧ e = .communication .readShape) →
      ∃ evs d, exec (.mifareRead block) s = .next ({ s with
          crcOut := (crcLow [s.cfg.picc.read, a], crcHigh [s.cfg.picc.read, a]), rsp := reply.rspAfter true 0 s.rsp
          }.after evs rest d .idle (.error e)) ∧
        framesSent s.cfg evs = [(0x00, [s.cfg.picc.read, a] ++ crcBytes [s.cfg.picc.read, a])]) ∧
    ∀ rest bytes v polls lo hi, reply = .reply bytes 0 none → bytes.length = 18 → PollAnswers (crcIrq s.cfg) (some v) polls →
      bytes.drop 16 ≠ [lo, hi] → s.answers = c1 ++ x ++ polls ++ .value lo :: .value hi :: rest →
      ∃ evs d, exec (.mifareRead block) s = .next ({ s with
          crcOut := (lo, hi), rsp := ⟨bytes, 0⟩ }.after evs rest d .idle (.error (.checksum .read))) ∧
        framesSent s.cfg evs = [(0x00, [s.cfg.picc.read, a] ++ crcBytes [s.cfg.picc.read, a])]

/-- R186 and R187 with a conforming card that accepts: mifareWrite sends the WRITE frame, then the payload zero-padded to 16 bytes with
its CRC. No address is guarded (R190). -/
def Obligations.MifareWriteRuns : Prop :=
  ∀ (s : State) (block : Arg Byte) (data : Arg (List Byte)) (a : Byte) (bs : List Byte) (answers rest : List Answer), s.accepts →
    byteOf s block = some a → bytesOf s data = some bs → bs.length ≤ 16 → WriteAnswers s.cfg a bs answers → s.answers = answers ++ rest →
    ∃ (evs : List Event) (d : Nat) (high : BitVec 4), exec (.mifareWrite block data) s =
        .next ({ s with
          rsp := ⟨[high ++ 0xA#4], 4⟩,
          crcOut := (crcLow (bs ++ List.replicate (16 - bs.length) 0), crcHigh (bs ++ List.replicate (16 - bs.length) 0))
          }.after evs rest d .idle (.value .unit)) ∧
      framesSent s.cfg evs = [(0x00, [s.cfg.picc.write, a] ++ crcBytes [s.cfg.picc.write, a]),
        (0x00, bs ++ List.replicate (16 - bs.length) 0 ++ crcBytes (bs ++ List.replicate (16 - bs.length) 0))]

/-- R186, R188 and R255: how either phase of mifareWrite fails. A response that is not a 4-bit ACK with nibble 0xA is WriteRejected with
that response, the high bits of the ACK byte not counting; another outcome is the error of raiseOn; and the deadline of a CRC is Timeout
before its phase is sent. After a failure in phase 1 phase 2 is not sent. -/
def Obligations.WriteRejected : Prop :=
  (∀ (s : State) (block : Arg Byte) (data : Arg (List Byte)) (a : Byte) (bs : List Byte) (polls rest : List Answer), s.accepts →
    byteOf s block = some a → bytesOf s data = some bs → bs.length ≤ 16 → PollAnswers (crcIrq s.cfg) none polls →
    s.answers = polls ++ rest →
    ∃ evs d, exec (.mifareWrite block data) s = .next (s.after evs rest d .idle (.error (.timeout .crc))) ∧ framesSent s.cfg evs = []) ∧
  ∀ (s : State) (block : Arg Byte) (data : Arg (List Byte)) (a : Byte) (bs : List Byte) (c1 : List Answer), s.accepts →
    byteOf s block = some a → bytesOf s data = some bs → bs.length ≤ 16 → CrcAnswers s.cfg [s.cfg.picc.write, a] c1 →
    let command : List Byte := [s.cfg.picc.write, a]
    let payload : List Byte := bs ++ List.replicate (16 - bs.length) 0
    let fails := fun (reply : Reply) (e : Err) =>
      (reply = .silent ∧ e = .timeout .picc) ∨ (∃ b, reply = .garbled b ∧ e = .communication (.errorReg b)) ∨
        (∃ bytes vb p, reply = .reply bytes vb (some p) ∧ e = .collision) ∨
        ∃ (bytes : List Byte) (vb : BitVec 3), reply = .reply bytes vb none ∧ ¬ (vb = 4 ∧ ∃ b, bytes = [b] ∧ b &&& 0x0F = 0x0A) ∧
          e = .writeRejected ⟨bytes, vb⟩
    (∀ reply e x rest, fails reply e → XactAnswers s.cfg .transceive true reply x → s.answers = c1 ++ x ++ rest →
      ∃ evs d, exec (.mifareWrite block data) s = .next ({ s with
          crcOut := (crcLow command, crcHigh command), rsp := reply.rspAfter true 0 s.rsp }.after evs rest d .idle (.error e)) ∧
        framesSent s.cfg evs = [(0x00, command ++ crcBytes command)]) ∧
    (∀ high x1 polls rest, XactAnswers s.cfg .transceive true (ackReply high) x1 → PollAnswers (crcIrq s.cfg) none polls →
      s.answers = c1 ++ x1 ++ polls ++ rest →
      ∃ evs d, exec (.mifareWrite block data) s = .next ({ s with
          crcOut := (crcLow command, crcHigh command), rsp := ⟨[high ++ 0xA#4], 4⟩ }.after evs rest d .idle (.error (.timeout .crc))) ∧
        framesSent s.cfg evs = [(0x00, command ++ crcBytes command)]) ∧
    ∀ high x1 c2 reply e x2 rest, XactAnswers s.cfg .transceive true (ackReply high) x1 → CrcAnswers s.cfg payload c2 → fails reply e →
      XactAnswers s.cfg .transceive true reply x2 → s.answers = c1 ++ x1 ++ c2 ++ x2 ++ rest →
      ∃ evs d, exec (.mifareWrite block data) s = .next ({ s with
          crcOut := (crcLow payload, crcHigh payload), rsp := reply.rspAfter true 0 ⟨[high ++ 0xA#4], 4⟩
          }.after evs rest d .idle (.error e)) ∧
        framesSent s.cfg evs = [(0x00, command ++ crcBytes command), (0x00, payload ++ crcBytes payload)]

/-! ### Card types and the store -/

/-- R225: the card-type table is one to one in every configuration; cardType finds the type whose SAK is exactly the operand or raises
UnsupportedCard, and getSak gives a type's SAK. Neither touches the chip, and both run before init. A type the table has not is no operand
of getSak (log entry 14). -/
def Obligations.CardTypesRun : Prop :=
  (∀ (cfg : Cfg) t b, cfg.sakOf t = some b ↔ cfg.typeOf b = some t) ∧ (∀ cfg : Cfg, cfg.typeOf 0x08 = some .mifareClassic1K) ∧
  ∀ s : State, s.faultMark = none → s.busy = false →
    (∀ arg b t, byteOf s arg = some b → s.cfg.typeOf b = some t →
      exec (.cardType arg) s = .next (s.after [] s.answers s.draws .idle (.value (.cardType t)))) ∧
    (∀ arg b, byteOf s arg = some b → s.cfg.typeOf b = none →
      exec (.cardType arg) s = .next (s.after [] s.answers s.draws .idle (.error (.unsupportedCard b)))) ∧
    (∀ arg t b, typeOf s arg = some t → s.cfg.sakOf t = some b →
      exec (.getSak arg) s = .next (s.after [] s.answers s.draws .idle (.value (.byte b)))) ∧
    ∀ arg t, typeOf s arg = some t → s.cfg.sakOf t = none → exec (.getSak arg) s = .refused .badOperand

/-- R226: makeStore gives a store of the current session with capacity 704 for a MIFARE Classic 1K, and raises UnsupportedCard for
every other SAK; no chip I/O. -/
def Obligations.MakeStoreRuns : Prop :=
  ∀ s : State, s.accepts → s.uidValid = true →
    (s.sak = 0x08 → exec .makeStore s = .next (s.after [] s.answers s.draws .idle
      (.value (.store { gen := s.gen, uid := s.uid.toList.take s.uidSize, uidSize := s.uidSize, capacity := 704 })))) ∧
    (s.sak ≠ 0x08 → exec .makeStore s = .next (s.after [] s.answers s.draws .idle (.error (.unsupportedCard s.sak))))

/-- R227: getCapacity is 704 for every store the host can hold, a stale one or one asked before init among them, and does no I/O. It is
refused while another call is in progress (R264; log entry 8). -/
def Obligations.GetCapacityRuns : Prop :=
  ∀ (s : State) (name : Name) (st : Store), s.Inv → s.faultMark = none → storeOf s name = some st →
    exec (.getCapacity name) s = .next (s.after [] s.answers s.draws .idle (.value (.capacity 704)))

/-- R230 with a card that accepts the key: authenticate does nothing where the sector is the cached one, else sends one frame with key
B, and the sector is cached. -/
def Obligations.AuthenticateRuns : Prop :=
  ∀ (s : State) (name : Name) (block : Arg Byte) (a : Byte) (rest answers : List Answer), s.accepts → inSession s name →
    byteOf s block = some a → a.toNat < 64 → a ∉ s.cfg.forbidden → s.answers = answers ++ rest →
    (s.lastAuthSector = some (Fin.ofNat 16 (a.toNat / 4)) → answers = [] →
      exec (.authenticate name block) s = .next (s.after [] rest s.draws .idle (.value .unit))) ∧
    (s.lastAuthSector ≠ some (Fin.ofNat 16 (a.toNat / 4)) → AuthAnswers s.cfg answers → ∃ evs d,
      exec (.authenticate name block) s =
        .next ({ s with lastAuthSector := some (Fin.ofNat 16 (a.toNat / 4)) }.after evs rest d .idle (.value .unit)) ∧
      framesSent s.cfg evs =
        [(0x00, [s.cfg.picc.authB, a, 0xFF, 0xFF, 0xFF, 0xFF, 0xFF, 0xFF] ++ (s.uid.toList.drop (s.uidSize - 4)).take 4)])

/-- R230 and R237: an authentication the card does not accept is the error of its outcome, and the cache stays as it was. -/
def Obligations.FailedAuthKeepsTheCache : Prop :=
  ∀ (s : State) (name : Name) (block : Arg Byte) (a : Byte) (reply : Reply) (e : Err) (rest answers : List Answer), s.accepts →
    inSession s name → byteOf s block = some a → a.toNat < 64 → a ∉ s.cfg.forbidden →
    s.lastAuthSector ≠ some (Fin.ofNat 16 (a.toNat / 4)) → XactAnswers s.cfg .mfAuthent false reply answers →
    s.answers = answers ++ rest →
    (reply = .silent ∧ e = .timeout .picc) ∨ (∃ b, reply = .garbled b ∧ e = .communication (.errorReg b)) ∨
      (∃ bytes vb p, reply = .reply bytes vb (some p) ∧ e = .collision) →
    ∃ evs d, exec (.authenticate name block) s = .next (s.after evs rest d .idle (.error e))

/-- R231 and R253: readBlock authenticates through the cache, then reads. Whatever the chip answers, an error of the authentication is its
error, and behind an authentication that succeeds it does what mifareRead does; so a failed READ leaves the new sector cached (R237). -/
def Obligations.ReadBlockRuns : Prop :=
  (∀ (s : State) (name : Name) (block : Arg Byte) (a : Byte), s.accepts → inSession s name → byteOf s block = some a → a.toNat < 64 →
    a ∉ s.cfg.forbidden →
    ∃ t, exec (.authenticate name block) s = .next t ∧
      ((∃ e, t.result = some (.error e) ∧ exec (.readBlock name block) s = .next t) ∨
        (t.result = some (.value .unit) ∧ exec (.readBlock name block) s = exec (.mifareRead (.lit a)) t))) ∧
  ∀ (s : State) (name : Name) (block : Arg Byte) (a : Byte) (data : Vector Byte 16) (x y rest : List Answer), s.accepts →
    inSession s name → byteOf s block = some a → a.toNat < 64 → a ∉ s.cfg.forbidden →
    SectorAnswers s.cfg s.lastAuthSector a x → ReadAnswers s.cfg a data.toList y → s.answers = x ++ y ++ rest →
    ∃ evs d, exec (.readBlock name block) s =
        .next ({ s with
          lastAuthSector := some (Fin.ofNat 16 (a.toNat / 4)), rsp := ⟨data.toList ++ crcBytes data.toList, 0⟩,
          crcOut := (crcLow data.toList, crcHigh data.toList) }.after evs rest d .idle (.value (.bytes data.toList))) ∧
      framesSent s.cfg evs = (if s.lastAuthSector = some (Fin.ofNat 16 (a.toNat / 4)) then [] else [storeAuthFrame s a]) ++
        [(0x00, [s.cfg.picc.read, a] ++ crcBytes [s.cfg.picc.read, a])]

/-- R232 and R253: writeBlock authenticates through the cache, then writes the payload. Whatever the chip answers, an error of the
authentication is its error, and behind an authentication that succeeds it does what mifareWrite does; so a failed WRITE leaves the new
sector cached (R237). -/
def Obligations.WriteBlockRuns : Prop :=
  (∀ (s : State) (name : Name) (block : Arg Byte) (data : Arg (List Byte)) (a : Byte) (bs : List Byte), s.accepts → inSession s name →
    byteOf s block = some a → bytesOf s data = some bs → bs.length ≤ 16 → a.toNat < 64 → a ∉ s.cfg.forbidden →
    ∃ t, exec (.authenticate name block) s = .next t ∧
      ((∃ e, t.result = some (.error e) ∧ exec (.writeBlock name block data) s = .next t) ∨
        (t.result = some (.value .unit) ∧ exec (.writeBlock name block data) s = exec (.mifareWrite (.lit a) (.lit bs)) t))) ∧
  ∀ (s : State) (name : Name) (block : Arg Byte) (data : Arg (List Byte)) (a : Byte) (bs : List Byte) (x y rest : List Answer),
    s.accepts → inSession s name → byteOf s block = some a → bytesOf s data = some bs → bs.length ≤ 16 → a.toNat < 64 →
    a ∉ s.cfg.forbidden → SectorAnswers s.cfg s.lastAuthSector a x → WriteAnswers s.cfg a bs y → s.answers = x ++ y ++ rest →
    ∃ (evs : List Event) (d : Nat) (high : BitVec 4), exec (.writeBlock name block data) s =
        .next ({ s with
          lastAuthSector := some (Fin.ofNat 16 (a.toNat / 4)), rsp := ⟨[high ++ 0xA#4], 4⟩,
          crcOut := (crcLow (bs ++ List.replicate (16 - bs.length) 0), crcHigh (bs ++ List.replicate (16 - bs.length) 0))
          }.after evs rest d .idle (.value .unit)) ∧
      framesSent s.cfg evs = (if s.lastAuthSector = some (Fin.ofNat 16 (a.toNat / 4)) then [] else [storeAuthFrame s a]) ++
        [(0x00, [s.cfg.picc.write, a] ++ crcBytes [s.cfg.picc.write, a]),
          (0x00, bs ++ List.replicate (16 - bs.length) 0 ++ crcBytes (bs ++ List.replicate (16 - bs.length) 0))]

/-- R228 and R229: the usable sequence is the blocks of the card in address order but the forbidden ones; in the reference configuration
that is 47 blocks, the forbidden ones being block 0 and every sector's last. -/
def Obligations.UsableSequence : Prop :=
  (∀ (cfg : Cfg) (a : Byte), a ∈ usableBlocks cfg ↔ a.toNat < 64 ∧ a ∉ cfg.forbidden) ∧
  (∀ cfg : Cfg, (usableBlocks cfg).Pairwise (· < ·)) ∧
  (∀ a : Byte, a.toNat < 64 → (a ∈ Cfg.reference.forbidden ↔ a = 0 ∨ a.toNat % 4 = 3)) ∧
  (usableBlocks Cfg.reference).length = 47 ∧ (usableBlocks Cfg.reference)[43]? = some 58 ∧
  usableBlocks Cfg.reference =
    [1, 2, 4, 5, 6, 8, 9, 10, 12, 13, 14, 16, 17, 18, 20, 21, 22, 24, 25, 26, 28, 29, 30, 32, 33, 34, 36, 37, 38, 40, 41, 42,
      44, 45, 46, 48, 49, 50, 52, 53, 54, 56, 57, 58, 60, 61, 62]

/-- R233 with a conforming card: readBytes gives the content of the usable blocks in address order, with one authentication per newly
entered sector and none for a sector that is the cached one; in the reference configuration 752 bytes, sector 15 cached behind it.
Whatever the chip answers, it does what calls of readBlock do, one for each usable block in order, the first error ending it (R253). -/
def Obligations.ReadBytesRuns : Prop :=
  (∀ (s : State) (name : Name), s.accepts → inSession s name →
    exec (.readBytes name) s = readEach name (usableBlocks s.cfg) [] s) ∧
  ∀ (s : State) (name : Name) (content : Byte → Vector Byte 16) (answers rest : List Answer), s.accepts → inSession s name →
    ReadAllAnswers s.cfg content s.lastAuthSector allBlocks answers → s.answers = answers ++ rest →
    ∃ evs d rsp crc bytes last, exec (.readBytes name) s =
        .next ({ s with lastAuthSector := last, rsp := rsp, crcOut := crc }.after evs rest d .idle (.value (.bytes bytes))) ∧
      bytes = (usableBlocks s.cfg).flatMap (fun b => (content b).toList) ∧
      last = ((usableBlocks s.cfg).getLast?.map sectorOf).or s.lastAuthSector ∧
      (s.cfg.forbidden = Cfg.reference.forbidden → bytes.length = 752 ∧ last = some 15) ∧
      framesSent s.cfg evs = (List.range (usableBlocks s.cfg).length).flatMap fun i =>
        let block := (usableBlocks s.cfg).getD i 0
        let before := if i = 0 then s.lastAuthSector else some (sectorOf ((usableBlocks s.cfg).getD (i - 1) 0))
        (if before = some (sectorOf block) then [] else [storeAuthFrame s block]) ++
          [(0x00, [s.cfg.picc.read, block] ++ crcBytes [s.cfg.picc.read, block])]

/-- R234 and R235 with a card that accepts every write: writeBytes writes chunk `i` of the data, zero-padded, into usable block `i`, in
order, with one authentication per newly entered sector. Whatever the chip answers, it does what calls of writeBlock do, a chunk for each
usable block in order, the first error ending it, and nothing is taken back (R240, R253). -/
def Obligations.WriteBytesRuns : Prop :=
  (∀ (s : State) (name : Name) (data : Arg (List Byte)) (bs : List Byte), s.accepts → inSession s name → bytesOf s data = some bs →
    bs.length ≤ 704 → exec (.writeBytes name data) s = writeEach name (usableBlocks s.cfg) ((List.range ((bs.length + 15) / 16)).map fun i =>
      (List.range 16).map fun j => bs.getD (16 * i + j) 0) s) ∧
  ∀ (s : State) (name : Name) (data : Arg (List Byte)) (bs : List Byte) (answers rest : List Answer), s.accepts → inSession s name →
    bytesOf s data = some bs → bs.length ≤ 704 → WriteAllAnswers s.cfg s.lastAuthSector allBlocks (chunksOf bs) answers →
    s.answers = answers ++ rest →
    ∃ evs d rsp crc, exec (.writeBytes name data) s =
        .next ({ s with
          lastAuthSector := (((usableBlocks s.cfg).take ((bs.length + 15) / 16)).getLast?.map sectorOf).or s.lastAuthSector,
          rsp := rsp, crcOut := crc }.after evs rest d .idle (.value .unit)) ∧
      framesSent s.cfg evs = (List.range ((bs.length + 15) / 16)).flatMap fun i =>
        let block := (usableBlocks s.cfg).getD i 0
        let chunk := (List.range 16).map fun j => bs.getD (16 * i + j) 0
        let before := if i = 0 then s.lastAuthSector else some (sectorOf ((usableBlocks s.cfg).getD (i - 1) 0))
        (if before = some (sectorOf block) then [] else [storeAuthFrame s block]) ++
          [(0x00, [s.cfg.picc.write, block] ++ crcBytes [s.cfg.picc.write, block]), (0x00, chunk ++ crcBytes chunk)]

/-- R234: data over the capacity is CapacityExceeded with no I/O, and no data at all is a success with no I/O. -/
def Obligations.WriteBytesLimits : Prop :=
  ∀ (s : State) (name : Name) (data : Arg (List Byte)) (bs : List Byte), s.accepts → inSession s name → bytesOf s data = some bs →
    (704 < bs.length → exec (.writeBytes name data) s =
      .next (s.after [] s.answers s.draws .idle (.error (.capacityExceeded (.length bs.length))))) ∧
    (bs = [] → exec (.writeBytes name data) s = .next (s.after [] s.answers s.draws .idle (.value .unit)))

/-- R236: writeBytes, then readBytes, on a conforming card whose blocks hold what the frames wrote, and before them anything (`old`): the
read gives the data back, then the zero padding of the last chunk, then what the other blocks held. For the reference configuration's
forbidden blocks. -/
def Obligations.StoreRoundTrip : Prop :=
  ∀ (s : State) (name : Name) (data : Arg (List Byte)) (bs : List Byte) (answers more : List Answer), s.accepts → inSession s name →
    bytesOf s data = some bs → bs.length ≤ 704 → s.cfg.forbidden = Cfg.reference.forbidden →
    WriteAllAnswers s.cfg s.lastAuthSector allBlocks (chunksOf bs) answers → s.answers = answers ++ more →
    ∃ t evs, exec (.writeBytes name data) s = .next t ∧ t.result = some (.value .unit) ∧ t.trace = s.trace ++ evs ∧ t.answers = more ∧
      ∀ (old content : Byte → Vector Byte 16) (reads rest : List Answer),
        (∀ b, (content b).toList = holds s.cfg b (framesSent s.cfg evs) (old b).toList) →
        ReadAllAnswers s.cfg content t.lastAuthSector allBlocks reads → more = reads ++ rest →
        ∃ u bytes, exec (.readBytes name) t = .next u ∧ u.result = some (.value (.bytes bytes)) ∧ bytes.length = 752 ∧
          bytes.take bs.length = bs ∧
          (∀ o, bs.length ≤ o → o < 16 * ((bs.length + 15) / 16) → bytes[o]? = some 0) ∧
          ∀ o < 752, 16 * ((bs.length + 15) / 16) ≤ o →
            bytes[o]? = ((old ((usableBlocks s.cfg).getD (o / 16) 0)).toList)[o % 16]?

/-! ### Responses run by themselves -/

/-- The response rows, each received into `rsp` and then checked as the rule that parses it says (log entry 10): ATQA (R145), the
anti-collision response at `k` known bits, merged or too long (R151, R152), the SAK (R158, R162), a cascade tag (R163), the READ response
(R184), each CRC right, wrong or late (R203), and the ACK (R188). -/
def Obligations.ResponseRowsRun : Prop :=
  ∀ s : State, s.faultMark = none →
    (∀ b0 b1, exec (.atqa b0 b1) s = .next ({ s with rsp := ⟨[b0, b1], 0⟩ }.after [] s.answers s.draws s.pos (.value (.bool true)))) ∧
    (∀ bytes vb, s.k ≤ 31 → bytes.length ≤ 9 - (2 + s.k / 8) → ∃ buf, exec (.anticollResponse bytes vb) s =
        .next ({ s with rsp := ⟨bytes, vb⟩, selBuf := buf, k := 32 }.after [] s.answers s.draws s.pos (.value .unit)) ∧
      (∀ x, 1 ≤ x → x ≤ s.k → fieldBit buf x = fieldBit s.selBuf x) ∧
      (∀ j b, bytes[j]? = some b → ∀ y < 8, (j = 0 → s.k % 8 ≤ y) →
        (buf.toList.getD (2 + s.k / 8 + j) 0).getLsbD y = b.getLsbD y) ∧
      ∀ j, j < 2 + s.k / 8 ∨ 2 + s.k / 8 + bytes.length ≤ j → buf.toList.getD j 0 = s.selBuf.toList.getD j 0) ∧
    (∀ bytes vb, s.k ≤ 31 → 9 - (2 + s.k / 8) < bytes.length → exec (.anticollResponse bytes vb) s =
      .next ({ s with rsp := ⟨bytes, vb⟩, busy := false }.after [] s.answers s.draws .idle (.error (.communication .responseTooLong)))) ∧
    (∀ sak lo hi v polls x y rest, PollAnswers (crcIrq s.cfg) (some v) polls → s.answers = polls ++ .value x :: .value y :: rest →
      ∃ evs d q, framesSent s.cfg evs = [] ∧
        (lo = x → hi = y → exec (.sak sak lo hi) s =
          .next ({ s with rsp := ⟨[sak, lo, hi], 0⟩, crcOut := (x, y) }.after evs rest d q (.value (.byte sak)))) ∧
        (¬ (lo = x ∧ hi = y) → exec (.sak sak lo hi) s =
          .next ({ s with rsp := ⟨[sak, lo, hi], 0⟩, crcOut := (x, y), busy := false }.after evs rest d .idle (.error (.checksum .sak))))) ∧
    (∀ sak lo hi polls rest, PollAnswers (crcIrq s.cfg) none polls → s.answers = polls ++ rest →
      ∃ evs d, framesSent s.cfg evs = [] ∧ exec (.sak sak lo hi) s =
        .next ({ s with rsp := ⟨[sak, lo, hi], 0⟩, busy := false }.after evs rest d .idle (.error (.timeout .crc)))) ∧
    (∃ uid, exec .cascadeTag s =
        .next ({ s with selBuf := s.selBuf.set 2 0x88, uid := uid }.after [] s.answers s.draws s.pos
          (.value (.bool (s.level != CascadeLevel.cl3)))) ∧
      uid.toList = s.uid.toList.take s.level.offset ++
        (if s.level = .cl3 then [0x88#8, s.selBuf[3], s.selBuf[4], s.selBuf[5]] else [s.selBuf[3], s.selBuf[4], s.selBuf[5]]) ++
        s.uid.toList.drop (if s.level = .cl3 then 10 else s.level.offset + 3)) ∧
    (∀ (data : Vector Byte 16) lo hi v polls x y rest, PollAnswers (crcIrq s.cfg) (some v) polls →
      s.answers = polls ++ .value x :: .value y :: rest → ∃ evs d q, framesSent s.cfg evs = [] ∧
        (lo = x → hi = y → exec (.mfReadResponse data lo hi) s =
          .next ({ s with rsp := ⟨data.toList ++ [lo, hi], 0⟩, crcOut := (x, y) }.after evs rest d q (.value (.bytes data.toList)))) ∧
        (¬ (lo = x ∧ hi = y) → exec (.mfReadResponse data lo hi) s =
          .next ({ s with rsp := ⟨data.toList ++ [lo, hi], 0⟩, crcOut := (x, y), busy := false
            }.after evs rest d .idle (.error (.checksum .read))))) ∧
    (∀ (data : Vector Byte 16) lo hi polls rest, PollAnswers (crcIrq s.cfg) none polls → s.answers = polls ++ rest →
      ∃ evs d, framesSent s.cfg evs = [] ∧ exec (.mfReadResponse data lo hi) s =
        .next ({ s with rsp := ⟨data.toList ++ [lo, hi], 0⟩, busy := false }.after evs rest d .idle (.error (.timeout .crc)))) ∧
    ∀ high, exec (.mfAck high) s = .next ({ s with rsp := ⟨[high ++ 0xA#4], 4⟩ }.after [] s.answers s.draws s.pos (.value .unit))

/-! ### The whole machine -/

/-- Every call a host can make ends, in every state that has not faulted and whatever the chip answers (R259, R272). -/
def Obligations.EveryCallEnds : Prop :=
  ∀ (i : Instr) (s : State), s.faultMark = none → i.callable s → ∃ t, exec i s = .next t

/-- R262: a faulted machine takes no further step and accepts no call; no instruction answers a fault of its own; and only select marks
a fault, that of rule R164. -/
def Obligations.FaultsAreStuck : Prop :=
  (∀ (s : State) m, s.faultMark = some m → step s = .fault (.stuck m) ∧ ∀ i, exec i s = .fault (.stuck m)) ∧
  (∀ (s : State) i m, s.faultMark = none → exec i s ≠ .fault m) ∧
  ∀ (s t : State) i, exec i s = .next t → t.faultMark ≠ none → i = .select ∧ t.faultMark = some .cascadeTagMismatch

/-- R263: a call with a reason of the refusal table takes no step: `refuseMark` is set, the host gets the refusal, nothing else
changes. -/
def Obligations.RefusalsTakeNoStep : Prop :=
  ∀ (i : Instr) (s : State) (m : RefuseReason), s.faultMark = none → i.callable s → i.Refusal s m →
    exec i s = .next { s with refuseMark := some m, result := some (.refused m) } ∧ passes i s = []

/-- R263: nothing but a reason of the refusal table refuses a call, and no other call touches the mark. Which reason a call gets that has
several, and that `getCapacity` while busy has `Busy`, is log entry 8's. -/
def Obligations.OnlyTheTableRefuses : Prop :=
  ∀ (i : Instr) (s t : State), exec i s = .next t →
    (∀ m, t.result = some (.refused m) → i.Refusal s m) ∧ ((∀ m, ¬ i.Refusal s m) → t.refuseMark = s.refuseMark)

/-- R251, R252 and R257: a call that was not refused and did not fault gives control back: idle, not busy, with a value or an error. -/
def Obligations.CallsGiveBackControl : Prop :=
  ∀ (i : Instr) (s t : State), i.hostCall = true → exec i s = .next t → (∀ m, ¬ i.Refusal s m) → t.faultMark = none →
    t.busy = false ∧ t.pos = .idle ∧ ((∃ v, t.result = some (.value v)) ∨ ∃ e, t.result = some (.error e))

/-- R21's last column: which host operation writes which field, whatever the chip answers; and no operation writes what belongs to the
host or the configuration. -/
def Obligations.FieldsHaveTheirWriters : Prop :=
  ∀ (i : Instr) (s t : State), i.hostCall = true → exec i s = .next t →
    (t.ready ≠ s.ready → i = .init) ∧ (t.resetLine ≠ s.resetLine → i = .init) ∧
    (t.uidValid ≠ s.uidValid → i = .select ∨ i = .init) ∧ (t.uid ≠ s.uid → i = .select) ∧ (t.uidSize ≠ s.uidSize → i = .select) ∧
    (t.sak ≠ s.sak → i = .select) ∧ (t.gen ≠ s.gen → i = .select ∨ i = .init) ∧ (t.selBuf ≠ s.selBuf → i = .select) ∧
    (t.level ≠ s.level → i = .select) ∧ (t.k ≠ s.k → i = .select) ∧ (t.iter ≠ s.iter → i = .select) ∧
    (t.rsp ≠ s.rsp → i = .isCardPresent ∨ i = .select ∨ i.reads ∨ i.writes) ∧
    (t.crcOut ≠ s.crcOut → (∃ d, i = .calculateCrc d) ∨ i = .select ∨ i.reads ∨ i.writes) ∧
    t.pending = s.pending ∧ t.bindings = s.bindings ∧ t.cfg = s.cfg

/-- R25 and R238: every init and every select that is not refused starts a new generation, no other call does, and a store of an
earlier generation is refused from then on. -/
def Obligations.GenerationsCount : Prop :=
  ∀ (i : Instr) (s t : State), i.hostCall = true → exec i s = .next t → (∀ m, ¬ i.Refusal s m) →
    (i = .init ∨ i = .select → t.gen = s.gen + 1 ∧
      ∀ name st u, storeOf u name = some st → st.gen ≤ s.gen → t.gen ≤ u.gen → stale u name) ∧
    (i ≠ .init → i ≠ .select → t.gen = s.gen)

/-- R237: who writes the authentication cache, whatever the chip answers. select and init clear it; an authentication that succeeds caches
the block's sector, one that fails leaves the cache; a read or a write of a block leaves it or caches the block's sector, of all blocks a
usable block's; every other call, and a refused one, leaves it. -/
def Obligations.CacheHasItsWriters : Prop :=
  ∀ (i : Instr) (s t : State), i.hostCall = true → exec i s = .next t →
    ((∃ m, i.Refusal s m) → t.lastAuthSector = s.lastAuthSector) ∧
    ((∀ m, ¬ i.Refusal s m) → i = .init ∨ i = .select → t.lastAuthSector = none) ∧
    (∀ st b a, i = .authenticate st b → byteOf s b = some a →
      (∀ v, t.result = some (.value v) → t.lastAuthSector = some (Fin.ofNat 16 (a.toNat / 4))) ∧
      (∀ e, t.result = some (.error e) → t.lastAuthSector = s.lastAuthSector)) ∧
    (i ≠ .init → i ≠ .select → t.lastAuthSector = s.lastAuthSector ∨
      ∃ a : Byte, t.lastAuthSector = some (Fin.ofNat 16 (a.toNat / 4)) ∧
        ((∃ st b, (i = .authenticate st b ∨ i = .readBlock st b ∨ ∃ d, i = .writeBlock st b d) ∧ byteOf s b = some a) ∨
          (((∃ st, i = .readBytes st) ∨ ∃ st d, i = .writeBytes st d) ∧ a ∈ usableBlocks s.cfg)))

/-- What host operations do to the chip, whatever it answers: the trace only grows, by well-formed frames of rule R31's registers, and
only by the writes of R32 to R40 and the reads of R45; ErrorReg, ControlReg, CollReg and the CRC result are never written, and the
reset line is never driven low (R131). -/
def Obligations.HostCallsKeepTheRegisterRules : Prop :=
  ∀ (i : Instr) (s t : State), i.hostCall = true → exec i s = .next t →
    ∃ evs, t.trace = s.trace ++ evs ∧ ∀ e ∈ evs, e.wf s.cfg ∧ hostEvent s.cfg e

/-- R49's premises aside, the invariant of the machine is kept by every step: legal values of rule R21, an idle sequencer between
steps, a session only with a complete UID on a ready controller, a cached sector only in a session, well-formed events, and store
objects of the form makeStore gives. -/
def Obligations.StepKeepsTheInvariant : Prop := ∀ s t : State, s.Inv → step s = .next t → t.Inv

/-- The construction state satisfies the invariant. The values of the fields R275 leaves unwritten are the model's (log entry 6). -/
def Obligations.ResetHasTheInvariant : Prop := State.reset.Inv

/-- R275: the construction state, field by field; the level of the reset line is either. -/
def Obligations.ConstructionState : Prop :=
  State.reset.ready = false ∧ (State.reset.resetLine = .low ∨ State.reset.resetLine = .high) ∧ State.reset.busy = false ∧
  State.reset.pos = .idle ∧ State.reset.uidValid = false ∧ State.reset.gen = 0 ∧ State.reset.lastAuthSector = none ∧
  State.reset.faultMark = none ∧ State.reset.refuseMark = none ∧ State.reset.trace = []
end

