-- ==== Sys2Proof/Laws/Config.lean ====
section
/-! SUPPORT. What the legality of a configuration gives: its numbers tell registers, commands and levels apart, its card-type table is
one to one, and its fields lie apart. -/

namespace Sys2Proof

variable (cfg : Cfg)

/-- The parts of `Params.legal`. -/
theorem Cfg.parts : cfg.regIndex.list.Nodup ∧ cfg.pcd.list.Nodup ∧ cfg.picc.list.Nodup ∧ cfg.fields.legal = true ∧
    (cfg.cardTypes.map Prod.fst).Nodup ∧ (cfg.cardTypes.map Prod.snd).Nodup ∧ (0x08#8, CardType.mifareClassic1K) ∈ cfg.cardTypes ∧
    1 ≤ cfg.resetPollLimit ∧ cfg.fifoLevelMask.toNat ≤ 127 := of_decide_eq_true cfg.legal

/-- A function whose values on a list are all different is injective there. -/
theorem inj_of_nodup_map {α β : Type} {f : α → β} {l : List α} (h : (l.map f).Nodup) {a b : α} (ha : a ∈ l) (hb : b ∈ l)
    (e : f a = f b) : a = b := List.inj_on_of_nodup_map h ha hb e

theorem Reg.mem_all (r : Reg) : r ∈ Reg.all := by cases r <;> decide

theorem Cfg.index_inj {r q : Reg} (h : cfg.index r = cfg.index q) : r = q :=
  inj_of_nodup_map (l := Reg.all) (f := cfg.index) cfg.parts.1 r.mem_all q.mem_all h

/-- A register's index, read back from its write address. -/
theorem Cfg.index_of_wa (r : Reg) : ((cfg.wa r) >>> 1).setWidth 6 = cfg.index r := by
  have : ∀ x : BitVec 6, ((((x.setWidth 8 <<< 1) &&& 0x7E#8 : Byte)) >>> 1).setWidth 6 = x := by decide
  exact this _

theorem Cfg.wa_inj {r q : Reg} (h : cfg.wa r = cfg.wa q) : r = q := cfg.index_inj (by rw [← cfg.index_of_wa, h, cfg.index_of_wa])

theorem Cfg.index_of_ra (r : Reg) : ((cfg.ra r) >>> 1).setWidth 6 = cfg.index r := by
  have : ∀ x : BitVec 6, ((((x.setWidth 8 <<< 1) &&& 0x7E#8 ||| 0x80#8 : Byte)) >>> 1).setWidth 6 = x := by decide
  exact this _

theorem Cfg.ra_inj {r q : Reg} (h : cfg.ra r = cfg.ra q) : r = q := cfg.index_inj (by rw [← cfg.index_of_ra, h, cfg.index_of_ra])

theorem Cfg.wa_bit7 (r : Reg) : (cfg.wa r).getLsbD 7 = false := by
  have : ∀ x : BitVec 6, (((x.setWidth 8 <<< 1) &&& 0x7E#8 : Byte)).getLsbD 7 = false := by decide
  exact this _

theorem Cfg.ra_bit7 (r : Reg) : (cfg.ra r).getLsbD 7 = true := by
  have : ∀ x : BitVec 6, (((x.setWidth 8 <<< 1) &&& 0x7E#8 ||| 0x80#8 : Byte)).getLsbD 7 = true := by decide
  exact this _

theorem Cfg.ra_ne_wa (r q : Reg) : cfg.ra r ≠ cfg.wa q := fun h => by
  have := cfg.ra_bit7 r; rw [h, cfg.wa_bit7] at this; cases this

@[simp] theorem Cfg.wa_eq_wa {r q : Reg} : cfg.wa r = cfg.wa q ↔ r = q := ⟨cfg.wa_inj, fun h => h ▸ rfl⟩
@[simp] theorem Cfg.ra_eq_ra {r q : Reg} : cfg.ra r = cfg.ra q ↔ r = q := ⟨cfg.ra_inj, fun h => h ▸ rfl⟩

/-- A search for the one element a test holds of. -/
theorem find_unique {α : Type} {l : List α} {p : α → Bool} {a : α} (ha : a ∈ l) (hp : p a = true) (hu : ∀ x ∈ l, p x = true → x = a) :
    l.find? p = some a := by
  rcases h : l.find? p with _ | b
  · exact absurd hp (by simpa using List.find?_eq_none.1 h a ha)
  · rw [hu b (List.mem_of_find?_eq_some h) (List.find?_some h)]

@[simp] theorem Reg.ofWriteAddr_wa (r : Reg) : Reg.ofWriteAddr cfg (cfg.wa r) = some r :=
  find_unique r.mem_all (by simp) fun x _ h => cfg.wa_inj (by simpa using h)

@[simp] theorem Reg.ofReadAddr_ra (r : Reg) : Reg.ofReadAddr cfg (cfg.ra r) = some r :=
  find_unique r.mem_all (by simp) fun x _ h => cfg.ra_inj (by simpa using h)

theorem Reg.ofReadAddr_wa (r : Reg) : Reg.ofReadAddr cfg (cfg.wa r) = none :=
  List.find?_eq_none.2 fun q _ => by simpa using cfg.ra_ne_wa q r

/-! ### Commands (R92, R93) -/

theorem Cfg.code_inj {c d : PcdCommand} (h : cfg.code c = cfg.code d) : c = d :=
  inj_of_nodup_map (l := [PcdCommand.idle, .calcCrc, .transceive, .mfAuthent, .softReset]) (f := cfg.code) cfg.parts.2.1
    (by cases c <;> decide) (by cases d <;> decide) h

theorem Cfg.byte_inj {c d : PcdCommand} (h : cfg.byte c = cfg.byte d) : c = d := by
  have key : ∀ x : BitVec 4, ((x.setWidth 8 : Byte)).setWidth 4 = x := by decide
  exact cfg.code_inj (by rw [← key (cfg.code c), ← key (cfg.code d)]; exact congrArg _ h)

@[simp] theorem Cfg.byte_eq_byte {c d : PcdCommand} : cfg.byte c = cfg.byte d ↔ c = d := ⟨cfg.byte_inj, fun h => h ▸ rfl⟩

/-- The SEL bytes of the levels are different (R93). -/
theorem Cfg.sel_inj {l m : CascadeLevel} (h : cfg.sel l = cfg.sel m) : l = m := by
  have hn := cfg.parts.2.2.1
  simp only [PiccBytes.list, List.nodup_cons, List.mem_cons, not_or] at hn
  cases l <;> cases m <;> simp_all [Cfg.sel]

@[simp] theorem CascadeLevel.ofSel_sel (l : CascadeLevel) : CascadeLevel.ofSel cfg (cfg.sel l) = some l :=
  find_unique (by cases l <;> decide) (by simp) fun x _ h => cfg.sel_inj (by simpa using h)

/-- A byte that is no SEL byte. -/
theorem CascadeLevel.ofSel_none {b : Byte} (h : ∀ l, cfg.sel l ≠ b) : CascadeLevel.ofSel cfg b = none :=
  List.find?_eq_none.2 fun l _ => by simpa using h l

/-- The command bytes of frames to the card are different from one another (R93). -/
theorem Cfg.picc_ne : cfg.picc.list.Nodup := cfg.parts.2.2.1

/-! ### Card types (R225) -/

theorem Cfg.typeOf_iff {b : Byte} {t : CardType} : cfg.typeOf b = some t ↔ (b, t) ∈ cfg.cardTypes := by
  have hn := cfg.parts.2.2.2.2.1
  unfold Cfg.typeOf
  refine ⟨fun h => ?_, fun h => ?_⟩
  · obtain ⟨⟨x, y⟩, h1, rfl⟩ := Option.map_eq_some_iff.1 h
    obtain rfl : x = b := by simpa using List.find?_some h1
    exact List.mem_of_find?_eq_some h1
  · rw [find_unique h (by simp) fun x hx hb => List.inj_on_of_nodup_map hn hx h (by simpa using hb)]
    rfl

theorem Cfg.sakOf_iff {b : Byte} {t : CardType} : cfg.sakOf t = some b ↔ (b, t) ∈ cfg.cardTypes := by
  have hn := cfg.parts.2.2.2.2.2.1
  unfold Cfg.sakOf
  refine ⟨fun h => ?_, fun h => ?_⟩
  · obtain ⟨⟨x, y⟩, h1, rfl⟩ := Option.map_eq_some_iff.1 h
    obtain rfl : y = t := by simpa using List.find?_some h1
    exact List.mem_of_find?_eq_some h1
  · rw [find_unique h (by simp) fun x hx hb => List.inj_on_of_nodup_map hn hx h (by simpa using hb)]
    rfl

/-- The two directions of the card-type table agree (R225). -/
theorem Cfg.typeOf_sakOf {b : Byte} {t : CardType} : cfg.typeOf b = some t ↔ cfg.sakOf t = some b :=
  cfg.typeOf_iff.trans cfg.sakOf_iff.symm

@[simp] theorem Cfg.typeOf_classic : cfg.typeOf 0x08#8 = some .mifareClassic1K := cfg.typeOf_iff.2 cfg.parts.2.2.2.2.2.2.1

theorem Cfg.typeOf_classic_iff {b : Byte} : cfg.typeOf b = some .mifareClassic1K ↔ b = 0x08#8 := by
  rw [cfg.typeOf_sakOf, cfg.typeOf_sakOf.1 cfg.typeOf_classic]
  exact ⟨fun h => (Option.some.inj h).symm, fun h => h ▸ rfl⟩

/-! ### Bounds -/

theorem Cfg.limit_pos : 1 ≤ cfg.resetPollLimit := cfg.parts.2.2.2.2.2.2.2.1
theorem Cfg.mask_le : cfg.fifoLevelMask.toNat ≤ 127 := cfg.parts.2.2.2.2.2.2.2.2

end Sys2Proof
end

