-- ==== Sys2Proof/Laws/Proc.lean ====
section
/-! SUPPORT. How a procedure runs: its parts one after another, and the two endings. -/

namespace Sys2Proof.Machine

variable {α β : Type}

@[simp] theorem Proc.exec_pure (a : α) (s : State) : (pure a : Proc α).exec s = (.ok a, s) := rfl

@[simp] theorem Proc.exec_look (f : State → α) (s : State) : (Proc.look f).exec s = (.ok (f s), s) := rfl

@[simp] theorem Proc.exec_update (f : State → State) (s : State) : (Proc.update f).exec s = (.ok (), f s) := rfl

@[simp] theorem Proc.exec_raise (e : Err) (s : State) : (Proc.raise e : Proc α).exec s = (.error (.raise e), s) := rfl

@[simp] theorem Proc.exec_unmodelled (r : UnmodelledReason) (s : State) :
    (Proc.unmodelled r : Proc α).exec s = (.error (.unmodelled r), s) := rfl

@[simp] theorem Proc.exec_internal (f : State → α × State) (s : State) : (Proc.internal f).exec s = (.ok (f s).1, (f s).2) := rfl

@[simp] theorem Proc.exec_primitive (f : State → α × State) (s : State) : (Proc.primitive f).exec s = (.ok (f s).1, (f s).2) := rfl

@[simp] theorem Proc.between_pure (a : α) (s : State) : (pure a : Proc α).between s = [] := rfl

@[simp] theorem Proc.between_internal (f : State → α × State) (s : State) : (Proc.internal f).between s = [] := rfl

@[simp] theorem Proc.between_primitive (f : State → α × State) (s : State) : (Proc.primitive f).between s = [(f s).2] := rfl

@[simp] theorem Proc.between_raise (e : Err) (s : State) : (Proc.raise e : Proc α).between s = [] := rfl

@[simp] theorem Proc.between_unmodelled (r : UnmodelledReason) (s : State) : (Proc.unmodelled r : Proc α).between s = [] := rfl

/-- One procedure behind another, both results at once. -/
theorem Proc.run_bind (x : Proc α) (f : α → Proc β) (s : State) :
    (x >>= f).exec s = (match x.exec s with
      | (.ok a, t)    => (f a).exec t
      | (.error e, t) => (.error e, t)) ∧
    (x >>= f).between s = x.between s ++ (match x.exec s with
      | (.ok a, t)    => (f a).between t
      | (.error _, _) => []) := by
  have h : ((x >>= f) s : (Except Stop β × State) × FreeMonoid State) = (match (x s : (Except Stop α × State) × FreeMonoid State) with
      | ((.ok a, t), w) => ((f a t : (Except Stop β × State) × FreeMonoid State).1,
          w * (f a t : (Except Stop β × State) × FreeMonoid State).2)
      | ((.error e, t), w) => ((.error e, t), w * 1)) := by
    show (ExceptT.bind x f) s = _
    unfold ExceptT.bind ExceptT.mk
    show (StateT.bind x (ExceptT.bindCont f)) s = _
    unfold StateT.bind
    rcases x s with ⟨⟨_ | _, _⟩, w⟩ <;> rfl
  unfold Proc.exec Proc.between
  erw [h]
  rcases x s with ⟨⟨_ | _, _⟩, w⟩ <;> simp

/-- One procedure behind another: the second runs on the value and state of the first, unless that stopped. -/
theorem Proc.exec_bind (x : Proc α) (f : α → Proc β) (s : State) :
    (x >>= f).exec s = match x.exec s with
      | (.ok a, t)    => (f a).exec t
      | (.error e, t) => (.error e, t) := (Proc.run_bind x f s).1

/-- The states between the steps of two procedures, one behind another. -/
theorem Proc.between_bind (x : Proc α) (f : α → Proc β) (s : State) :
    (x >>= f).between s = x.between s ++ match x.exec s with
      | (.ok a, t)    => (f a).between t
      | (.error _, _) => [] := (Proc.run_bind x f s).2

theorem Proc.exec_bind_ok {x : Proc α} {f : α → Proc β} {s t : State} {a : α} (h : x.exec s = (.ok a, t)) :
    (x >>= f).exec s = (f a).exec t := by rw [Proc.exec_bind, h]

theorem Proc.exec_bind_error {x : Proc α} {f : α → Proc β} {s t : State} {e : Stop} (h : x.exec s = (.error e, t)) :
    (x >>= f).exec s = (.error e, t) := by rw [Proc.exec_bind, h]

@[simp] theorem Proc.exec_ite (c : Prop) [Decidable c] (x y : Proc α) (s : State) :
    (if c then x else y).exec s = if c then x.exec s else y.exec s := by split <;> rfl

/-! ### What a procedure may do, stated once and put together -/

/-- Every run of the procedure, from any state to the state it leaves, is in the relation. -/
def Proc.Keeps (R : State → State → Prop) (p : Proc α) : Prop := ∀ s, R s (p.exec s).2

section Keeps

variable {R : State → State → Prop}

/-- A relation that holds of no change and of two changes one after the other. -/
structure Path (R : State → State → Prop) : Prop where
  refl  : ∀ s, R s s
  trans : ∀ {s t u}, R s t → R t u → R s u

theorem Path.pure (h : Path R) (a : α) : (pure a : Proc α).Keeps R := fun s => h.refl s
theorem Path.look (h : Path R) (f : State → α) : (Proc.look f).Keeps R := fun s => h.refl s
theorem Path.raise (h : Path R) (e : Err) : (Proc.raise e : Proc α).Keeps R := fun s => h.refl s
theorem Path.unmodelled (h : Path R) (r : UnmodelledReason) : (Proc.unmodelled r : Proc α).Keeps R := fun s => h.refl s

theorem Path.bind (h : Path R) {x : Proc α} {f : α → Proc β} (hx : x.Keeps R) (hf : ∀ a, (f a).Keeps R) :
    (x >>= f).Keeps R := fun s => by
  have h1 := hx s
  rw [Proc.exec_bind]
  rcases hs : x.exec s with ⟨_ | a, t⟩ <;> rw [hs] at h1
  · exact h1
  · exact h.trans h1 (hf a t)

theorem Proc.keeps_update {f : State → State} (h : ∀ s, R s (f s)) : (Proc.update f).Keeps R := h

theorem Proc.keeps_ite {c : Prop} [Decidable c] {x y : Proc α} (hx : x.Keeps R) (hy : y.Keeps R) :
    (if c then x else y).Keeps R := by split <;> assumption

theorem Proc.Keeps.imp {S : State → State → Prop} {p : Proc α} (h : p.Keeps R) (i : ∀ s t, R s t → S s t) : p.Keeps S :=
  fun s => i _ _ (h s)

end Keeps

end Sys2Proof.Machine
end

