-- ==== Sys2Proof/Laws/State.lean ====
section
/-! SUPPORT. What each named update of the state leaves in each field. -/

namespace Sys2Proof.Machine

variable (s : State)

/-! ### `State.emit` -/

@[simp] theorem State.emit_cfg (e : Event) : (s.emit e).cfg = s.cfg := rfl
@[simp] theorem State.emit_ready (e : Event) : (s.emit e).ready = s.ready := rfl
@[simp] theorem State.emit_resetLine (e : Event) : (s.emit e).resetLine = s.resetLine := rfl
@[simp] theorem State.emit_busy (e : Event) : (s.emit e).busy = s.busy := rfl
@[simp] theorem State.emit_uidValid (e : Event) : (s.emit e).uidValid = s.uidValid := rfl
@[simp] theorem State.emit_uid (e : Event) : (s.emit e).uid = s.uid := rfl
@[simp] theorem State.emit_uidSize (e : Event) : (s.emit e).uidSize = s.uidSize := rfl
@[simp] theorem State.emit_sak (e : Event) : (s.emit e).sak = s.sak := rfl
@[simp] theorem State.emit_gen (e : Event) : (s.emit e).gen = s.gen := rfl
@[simp] theorem State.emit_lastAuthSector (e : Event) : (s.emit e).lastAuthSector = s.lastAuthSector := rfl
@[simp] theorem State.emit_selBuf (e : Event) : (s.emit e).selBuf = s.selBuf := rfl
@[simp] theorem State.emit_level (e : Event) : (s.emit e).level = s.level := rfl
@[simp] theorem State.emit_k (e : Event) : (s.emit e).k = s.k := rfl
@[simp] theorem State.emit_iter (e : Event) : (s.emit e).iter = s.iter := rfl
@[simp] theorem State.emit_rsp (e : Event) : (s.emit e).rsp = s.rsp := rfl
@[simp] theorem State.emit_crcOut (e : Event) : (s.emit e).crcOut = s.crcOut := rfl
@[simp] theorem State.emit_faultMark (e : Event) : (s.emit e).faultMark = s.faultMark := rfl
@[simp] theorem State.emit_refuseMark (e : Event) : (s.emit e).refuseMark = s.refuseMark := rfl
@[simp] theorem State.emit_pos (e : Event) : (s.emit e).pos = s.pos.advance := rfl
@[simp] theorem State.emit_trace (e : Event) : (s.emit e).trace = s.trace ++ [e] := rfl
@[simp] theorem State.emit_pending (e : Event) : (s.emit e).pending = s.pending := rfl
@[simp] theorem State.emit_bindings (e : Event) : (s.emit e).bindings = s.bindings := rfl
@[simp] theorem State.emit_result (e : Event) : (s.emit e).result = s.result := rfl
@[simp] theorem State.emit_answers (e : Event) : (s.emit e).answers = s.answers := rfl
@[simp] theorem State.emit_draws (e : Event) : (s.emit e).draws = s.draws := rfl

/-! ### `State.writeFrame` -/

@[simp] theorem State.writeFrame_cfg (m : List Byte) : (s.writeFrame m).cfg = s.cfg := rfl
@[simp] theorem State.writeFrame_ready (m : List Byte) : (s.writeFrame m).ready = s.ready := rfl
@[simp] theorem State.writeFrame_resetLine (m : List Byte) : (s.writeFrame m).resetLine = s.resetLine := rfl
@[simp] theorem State.writeFrame_busy (m : List Byte) : (s.writeFrame m).busy = s.busy := rfl
@[simp] theorem State.writeFrame_uidValid (m : List Byte) : (s.writeFrame m).uidValid = s.uidValid := rfl
@[simp] theorem State.writeFrame_uid (m : List Byte) : (s.writeFrame m).uid = s.uid := rfl
@[simp] theorem State.writeFrame_uidSize (m : List Byte) : (s.writeFrame m).uidSize = s.uidSize := rfl
@[simp] theorem State.writeFrame_sak (m : List Byte) : (s.writeFrame m).sak = s.sak := rfl
@[simp] theorem State.writeFrame_gen (m : List Byte) : (s.writeFrame m).gen = s.gen := rfl
@[simp] theorem State.writeFrame_lastAuthSector (m : List Byte) : (s.writeFrame m).lastAuthSector = s.lastAuthSector := rfl
@[simp] theorem State.writeFrame_selBuf (m : List Byte) : (s.writeFrame m).selBuf = s.selBuf := rfl
@[simp] theorem State.writeFrame_level (m : List Byte) : (s.writeFrame m).level = s.level := rfl
@[simp] theorem State.writeFrame_k (m : List Byte) : (s.writeFrame m).k = s.k := rfl
@[simp] theorem State.writeFrame_iter (m : List Byte) : (s.writeFrame m).iter = s.iter := rfl
@[simp] theorem State.writeFrame_rsp (m : List Byte) : (s.writeFrame m).rsp = s.rsp := rfl
@[simp] theorem State.writeFrame_crcOut (m : List Byte) : (s.writeFrame m).crcOut = s.crcOut := rfl
@[simp] theorem State.writeFrame_faultMark (m : List Byte) : (s.writeFrame m).faultMark = s.faultMark := rfl
@[simp] theorem State.writeFrame_refuseMark (m : List Byte) : (s.writeFrame m).refuseMark = s.refuseMark := rfl
@[simp] theorem State.writeFrame_pos (m : List Byte) : (s.writeFrame m).pos = s.pos.advance := rfl
@[simp] theorem State.writeFrame_trace (m : List Byte) : (s.writeFrame m).trace = s.trace ++ [.spi m (ignoredBytes s.draws m.length)] := rfl
@[simp] theorem State.writeFrame_pending (m : List Byte) : (s.writeFrame m).pending = s.pending := rfl
@[simp] theorem State.writeFrame_bindings (m : List Byte) : (s.writeFrame m).bindings = s.bindings := rfl
@[simp] theorem State.writeFrame_result (m : List Byte) : (s.writeFrame m).result = s.result := rfl
@[simp] theorem State.writeFrame_answers (m : List Byte) : (s.writeFrame m).answers = s.answers := rfl
@[simp] theorem State.writeFrame_draws (m : List Byte) : (s.writeFrame m).draws = s.draws + m.length := rfl

/-! ### `State.readFrame` -/

@[simp] theorem State.readFrame_cfg (m : List Byte) (n : Nat) : (s.readFrame m n).cfg = s.cfg := rfl
@[simp] theorem State.readFrame_ready (m : List Byte) (n : Nat) : (s.readFrame m n).ready = s.ready := rfl
@[simp] theorem State.readFrame_resetLine (m : List Byte) (n : Nat) : (s.readFrame m n).resetLine = s.resetLine := rfl
@[simp] theorem State.readFrame_busy (m : List Byte) (n : Nat) : (s.readFrame m n).busy = s.busy := rfl
@[simp] theorem State.readFrame_uidValid (m : List Byte) (n : Nat) : (s.readFrame m n).uidValid = s.uidValid := rfl
@[simp] theorem State.readFrame_uid (m : List Byte) (n : Nat) : (s.readFrame m n).uid = s.uid := rfl
@[simp] theorem State.readFrame_uidSize (m : List Byte) (n : Nat) : (s.readFrame m n).uidSize = s.uidSize := rfl
@[simp] theorem State.readFrame_sak (m : List Byte) (n : Nat) : (s.readFrame m n).sak = s.sak := rfl
@[simp] theorem State.readFrame_gen (m : List Byte) (n : Nat) : (s.readFrame m n).gen = s.gen := rfl
@[simp] theorem State.readFrame_lastAuthSector (m : List Byte) (n : Nat) : (s.readFrame m n).lastAuthSector = s.lastAuthSector := rfl
@[simp] theorem State.readFrame_selBuf (m : List Byte) (n : Nat) : (s.readFrame m n).selBuf = s.selBuf := rfl
@[simp] theorem State.readFrame_level (m : List Byte) (n : Nat) : (s.readFrame m n).level = s.level := rfl
@[simp] theorem State.readFrame_k (m : List Byte) (n : Nat) : (s.readFrame m n).k = s.k := rfl
@[simp] theorem State.readFrame_iter (m : List Byte) (n : Nat) : (s.readFrame m n).iter = s.iter := rfl
@[simp] theorem State.readFrame_rsp (m : List Byte) (n : Nat) : (s.readFrame m n).rsp = s.rsp := rfl
@[simp] theorem State.readFrame_crcOut (m : List Byte) (n : Nat) : (s.readFrame m n).crcOut = s.crcOut := rfl
@[simp] theorem State.readFrame_faultMark (m : List Byte) (n : Nat) : (s.readFrame m n).faultMark = s.faultMark := rfl
@[simp] theorem State.readFrame_refuseMark (m : List Byte) (n : Nat) : (s.readFrame m n).refuseMark = s.refuseMark := rfl
@[simp] theorem State.readFrame_pos (m : List Byte) (n : Nat) : (s.readFrame m n).pos = s.pos.advance := rfl
@[simp] theorem State.readFrame_trace (m : List Byte) (n : Nat) : (s.readFrame m n).trace = s.trace ++ [.spi m (ignoredBytes s.draws 1 ++ s.nextReads n)] := rfl
@[simp] theorem State.readFrame_pending (m : List Byte) (n : Nat) : (s.readFrame m n).pending = s.pending := rfl
@[simp] theorem State.readFrame_bindings (m : List Byte) (n : Nat) : (s.readFrame m n).bindings = s.bindings := rfl
@[simp] theorem State.readFrame_result (m : List Byte) (n : Nat) : (s.readFrame m n).result = s.result := rfl
@[simp] theorem State.readFrame_answers (m : List Byte) (n : Nat) : (s.readFrame m n).answers = (takeValues n s.answers).2 := rfl
@[simp] theorem State.readFrame_draws (m : List Byte) (n : Nat) : (s.readFrame m n).draws = s.draws + 1 + (n - (takeValues n s.answers).1.length) := rfl

/-! ### `State.xact` -/

section
variable (cmd : PiccCommand) (tx : List Byte) (tl al : BitVec 3) (want : Bool)

@[simp] theorem State.xact_cfg : (s.xact cmd tx tl al want).cfg = s.cfg := rfl
@[simp] theorem State.xact_ready : (s.xact cmd tx tl al want).ready = s.ready := rfl
@[simp] theorem State.xact_resetLine : (s.xact cmd tx tl al want).resetLine = s.resetLine := rfl
@[simp] theorem State.xact_busy : (s.xact cmd tx tl al want).busy = s.busy := rfl
@[simp] theorem State.xact_uidValid : (s.xact cmd tx tl al want).uidValid = s.uidValid := rfl
@[simp] theorem State.xact_uid : (s.xact cmd tx tl al want).uid = s.uid := rfl
@[simp] theorem State.xact_uidSize : (s.xact cmd tx tl al want).uidSize = s.uidSize := rfl
@[simp] theorem State.xact_sak : (s.xact cmd tx tl al want).sak = s.sak := rfl
@[simp] theorem State.xact_gen : (s.xact cmd tx tl al want).gen = s.gen := rfl
@[simp] theorem State.xact_lastAuthSector : (s.xact cmd tx tl al want).lastAuthSector = s.lastAuthSector := rfl
@[simp] theorem State.xact_selBuf : (s.xact cmd tx tl al want).selBuf = s.selBuf := rfl
@[simp] theorem State.xact_level : (s.xact cmd tx tl al want).level = s.level := rfl
@[simp] theorem State.xact_k : (s.xact cmd tx tl al want).k = s.k := rfl
@[simp] theorem State.xact_iter : (s.xact cmd tx tl al want).iter = s.iter := rfl
@[simp] theorem State.xact_rsp : (s.xact cmd tx tl al want).rsp = s.nextReply.rspAfter want al s.rsp := rfl
@[simp] theorem State.xact_crcOut : (s.xact cmd tx tl al want).crcOut = s.crcOut := rfl
@[simp] theorem State.xact_faultMark : (s.xact cmd tx tl al want).faultMark = s.faultMark := rfl
@[simp] theorem State.xact_refuseMark : (s.xact cmd tx tl al want).refuseMark = s.refuseMark := rfl
@[simp] theorem State.xact_pos : (s.xact cmd tx tl al want).pos = s.pos.advance := rfl
@[simp] theorem State.xact_trace : (s.xact cmd tx tl al want).trace = s.trace ++ [.xact cmd tx tl al s.nextReply] := rfl
@[simp] theorem State.xact_pending : (s.xact cmd tx tl al want).pending = s.pending := rfl
@[simp] theorem State.xact_bindings : (s.xact cmd tx tl al want).bindings = s.bindings := rfl
@[simp] theorem State.xact_result : (s.xact cmd tx tl al want).result = s.result := rfl
@[simp] theorem State.xact_draws : (s.xact cmd tx tl al want).draws = s.draws + 1 := rfl

end

/-! ### `State.giveBack` -/

@[simp] theorem State.giveBack_cfg (r : CallResult) : (s.giveBack r).cfg = s.cfg := rfl
@[simp] theorem State.giveBack_ready (r : CallResult) : (s.giveBack r).ready = s.ready := rfl
@[simp] theorem State.giveBack_resetLine (r : CallResult) : (s.giveBack r).resetLine = s.resetLine := rfl
@[simp] theorem State.giveBack_busy (r : CallResult) : (s.giveBack r).busy = false := rfl
@[simp] theorem State.giveBack_uidValid (r : CallResult) : (s.giveBack r).uidValid = s.uidValid := rfl
@[simp] theorem State.giveBack_uid (r : CallResult) : (s.giveBack r).uid = s.uid := rfl
@[simp] theorem State.giveBack_uidSize (r : CallResult) : (s.giveBack r).uidSize = s.uidSize := rfl
@[simp] theorem State.giveBack_sak (r : CallResult) : (s.giveBack r).sak = s.sak := rfl
@[simp] theorem State.giveBack_gen (r : CallResult) : (s.giveBack r).gen = s.gen := rfl
@[simp] theorem State.giveBack_lastAuthSector (r : CallResult) : (s.giveBack r).lastAuthSector = s.lastAuthSector := rfl
@[simp] theorem State.giveBack_selBuf (r : CallResult) : (s.giveBack r).selBuf = s.selBuf := rfl
@[simp] theorem State.giveBack_level (r : CallResult) : (s.giveBack r).level = s.level := rfl
@[simp] theorem State.giveBack_k (r : CallResult) : (s.giveBack r).k = s.k := rfl
@[simp] theorem State.giveBack_iter (r : CallResult) : (s.giveBack r).iter = s.iter := rfl
@[simp] theorem State.giveBack_rsp (r : CallResult) : (s.giveBack r).rsp = s.rsp := rfl
@[simp] theorem State.giveBack_crcOut (r : CallResult) : (s.giveBack r).crcOut = s.crcOut := rfl
@[simp] theorem State.giveBack_faultMark (r : CallResult) : (s.giveBack r).faultMark = s.faultMark := rfl
@[simp] theorem State.giveBack_refuseMark (r : CallResult) : (s.giveBack r).refuseMark = s.refuseMark := rfl
@[simp] theorem State.giveBack_pos (r : CallResult) : (s.giveBack r).pos = .idle := rfl
@[simp] theorem State.giveBack_trace (r : CallResult) : (s.giveBack r).trace = s.trace := rfl
@[simp] theorem State.giveBack_pending (r : CallResult) : (s.giveBack r).pending = s.pending := rfl
@[simp] theorem State.giveBack_bindings (r : CallResult) : (s.giveBack r).bindings = s.bindings := rfl
@[simp] theorem State.giveBack_result (r : CallResult) : (s.giveBack r).result = some r := rfl
@[simp] theorem State.giveBack_answers (r : CallResult) : (s.giveBack r).answers = s.answers := rfl
@[simp] theorem State.giveBack_draws (r : CallResult) : (s.giveBack r).draws = s.draws := rfl

/-! ### `State.markFault` -/

@[simp] theorem State.markFault_cfg (r : UnmodelledReason) : (s.markFault r).cfg = s.cfg := rfl
@[simp] theorem State.markFault_ready (r : UnmodelledReason) : (s.markFault r).ready = s.ready := rfl
@[simp] theorem State.markFault_resetLine (r : UnmodelledReason) : (s.markFault r).resetLine = s.resetLine := rfl
@[simp] theorem State.markFault_busy (r : UnmodelledReason) : (s.markFault r).busy = s.busy := rfl
@[simp] theorem State.markFault_uidValid (r : UnmodelledReason) : (s.markFault r).uidValid = s.uidValid := rfl
@[simp] theorem State.markFault_uid (r : UnmodelledReason) : (s.markFault r).uid = s.uid := rfl
@[simp] theorem State.markFault_uidSize (r : UnmodelledReason) : (s.markFault r).uidSize = s.uidSize := rfl
@[simp] theorem State.markFault_sak (r : UnmodelledReason) : (s.markFault r).sak = s.sak := rfl
@[simp] theorem State.markFault_gen (r : UnmodelledReason) : (s.markFault r).gen = s.gen := rfl
@[simp] theorem State.markFault_lastAuthSector (r : UnmodelledReason) : (s.markFault r).lastAuthSector = s.lastAuthSector := rfl
@[simp] theorem State.markFault_selBuf (r : UnmodelledReason) : (s.markFault r).selBuf = s.selBuf := rfl
@[simp] theorem State.markFault_level (r : UnmodelledReason) : (s.markFault r).level = s.level := rfl
@[simp] theorem State.markFault_k (r : UnmodelledReason) : (s.markFault r).k = s.k := rfl
@[simp] theorem State.markFault_iter (r : UnmodelledReason) : (s.markFault r).iter = s.iter := rfl
@[simp] theorem State.markFault_rsp (r : UnmodelledReason) : (s.markFault r).rsp = s.rsp := rfl
@[simp] theorem State.markFault_crcOut (r : UnmodelledReason) : (s.markFault r).crcOut = s.crcOut := rfl
@[simp] theorem State.markFault_faultMark (r : UnmodelledReason) : (s.markFault r).faultMark = some r := rfl
@[simp] theorem State.markFault_refuseMark (r : UnmodelledReason) : (s.markFault r).refuseMark = s.refuseMark := rfl
@[simp] theorem State.markFault_pos (r : UnmodelledReason) : (s.markFault r).pos = s.pos := rfl
@[simp] theorem State.markFault_trace (r : UnmodelledReason) : (s.markFault r).trace = s.trace := rfl
@[simp] theorem State.markFault_pending (r : UnmodelledReason) : (s.markFault r).pending = s.pending := rfl
@[simp] theorem State.markFault_bindings (r : UnmodelledReason) : (s.markFault r).bindings = s.bindings := rfl
@[simp] theorem State.markFault_result (r : UnmodelledReason) : (s.markFault r).result = s.result := rfl
@[simp] theorem State.markFault_answers (r : UnmodelledReason) : (s.markFault r).answers = s.answers := rfl
@[simp] theorem State.markFault_draws (r : UnmodelledReason) : (s.markFault r).draws = s.draws := rfl

/-! ### `State.refuse` -/

@[simp] theorem State.refuse_cfg (r : RefuseReason) : (s.refuse r).cfg = s.cfg := rfl
@[simp] theorem State.refuse_ready (r : RefuseReason) : (s.refuse r).ready = s.ready := rfl
@[simp] theorem State.refuse_resetLine (r : RefuseReason) : (s.refuse r).resetLine = s.resetLine := rfl
@[simp] theorem State.refuse_busy (r : RefuseReason) : (s.refuse r).busy = s.busy := rfl
@[simp] theorem State.refuse_uidValid (r : RefuseReason) : (s.refuse r).uidValid = s.uidValid := rfl
@[simp] theorem State.refuse_uid (r : RefuseReason) : (s.refuse r).uid = s.uid := rfl
@[simp] theorem State.refuse_uidSize (r : RefuseReason) : (s.refuse r).uidSize = s.uidSize := rfl
@[simp] theorem State.refuse_sak (r : RefuseReason) : (s.refuse r).sak = s.sak := rfl
@[simp] theorem State.refuse_gen (r : RefuseReason) : (s.refuse r).gen = s.gen := rfl
@[simp] theorem State.refuse_lastAuthSector (r : RefuseReason) : (s.refuse r).lastAuthSector = s.lastAuthSector := rfl
@[simp] theorem State.refuse_selBuf (r : RefuseReason) : (s.refuse r).selBuf = s.selBuf := rfl
@[simp] theorem State.refuse_level (r : RefuseReason) : (s.refuse r).level = s.level := rfl
@[simp] theorem State.refuse_k (r : RefuseReason) : (s.refuse r).k = s.k := rfl
@[simp] theorem State.refuse_iter (r : RefuseReason) : (s.refuse r).iter = s.iter := rfl
@[simp] theorem State.refuse_rsp (r : RefuseReason) : (s.refuse r).rsp = s.rsp := rfl
@[simp] theorem State.refuse_crcOut (r : RefuseReason) : (s.refuse r).crcOut = s.crcOut := rfl
@[simp] theorem State.refuse_faultMark (r : RefuseReason) : (s.refuse r).faultMark = s.faultMark := rfl
@[simp] theorem State.refuse_refuseMark (r : RefuseReason) : (s.refuse r).refuseMark = some r := rfl
@[simp] theorem State.refuse_pos (r : RefuseReason) : (s.refuse r).pos = s.pos := rfl
@[simp] theorem State.refuse_trace (r : RefuseReason) : (s.refuse r).trace = s.trace := rfl
@[simp] theorem State.refuse_pending (r : RefuseReason) : (s.refuse r).pending = s.pending := rfl
@[simp] theorem State.refuse_bindings (r : RefuseReason) : (s.refuse r).bindings = s.bindings := rfl
@[simp] theorem State.refuse_result (r : RefuseReason) : (s.refuse r).result = some (.refused r) := rfl
@[simp] theorem State.refuse_answers (r : RefuseReason) : (s.refuse r).answers = s.answers := rfl
@[simp] theorem State.refuse_draws (r : RefuseReason) : (s.refuse r).draws = s.draws := rfl

/-! ### `State.startCall` -/

@[simp] theorem State.startCall_cfg (op : HostOp) : (s.startCall op).cfg = s.cfg := rfl
@[simp] theorem State.startCall_ready (op : HostOp) : (s.startCall op).ready = s.ready := rfl
@[simp] theorem State.startCall_resetLine (op : HostOp) : (s.startCall op).resetLine = s.resetLine := rfl
@[simp] theorem State.startCall_busy (op : HostOp) : (s.startCall op).busy = true := rfl
@[simp] theorem State.startCall_uidValid (op : HostOp) : (s.startCall op).uidValid = s.uidValid := rfl
@[simp] theorem State.startCall_uid (op : HostOp) : (s.startCall op).uid = s.uid := rfl
@[simp] theorem State.startCall_uidSize (op : HostOp) : (s.startCall op).uidSize = s.uidSize := rfl
@[simp] theorem State.startCall_sak (op : HostOp) : (s.startCall op).sak = s.sak := rfl
@[simp] theorem State.startCall_gen (op : HostOp) : (s.startCall op).gen = s.gen := rfl
@[simp] theorem State.startCall_lastAuthSector (op : HostOp) : (s.startCall op).lastAuthSector = s.lastAuthSector := rfl
@[simp] theorem State.startCall_selBuf (op : HostOp) : (s.startCall op).selBuf = s.selBuf := rfl
@[simp] theorem State.startCall_level (op : HostOp) : (s.startCall op).level = s.level := rfl
@[simp] theorem State.startCall_k (op : HostOp) : (s.startCall op).k = s.k := rfl
@[simp] theorem State.startCall_iter (op : HostOp) : (s.startCall op).iter = s.iter := rfl
@[simp] theorem State.startCall_rsp (op : HostOp) : (s.startCall op).rsp = s.rsp := rfl
@[simp] theorem State.startCall_crcOut (op : HostOp) : (s.startCall op).crcOut = s.crcOut := rfl
@[simp] theorem State.startCall_faultMark (op : HostOp) : (s.startCall op).faultMark = s.faultMark := rfl
@[simp] theorem State.startCall_refuseMark (op : HostOp) : (s.startCall op).refuseMark = s.refuseMark := rfl
@[simp] theorem State.startCall_pos (op : HostOp) : (s.startCall op).pos = .running op 0 := rfl
@[simp] theorem State.startCall_trace (op : HostOp) : (s.startCall op).trace = s.trace := rfl
@[simp] theorem State.startCall_pending (op : HostOp) : (s.startCall op).pending = s.pending := rfl
@[simp] theorem State.startCall_bindings (op : HostOp) : (s.startCall op).bindings = s.bindings := rfl
@[simp] theorem State.startCall_result (op : HostOp) : (s.startCall op).result = none := rfl
@[simp] theorem State.startCall_answers (op : HostOp) : (s.startCall op).answers = s.answers := rfl
@[simp] theorem State.startCall_draws (op : HostOp) : (s.startCall op).draws = s.draws := rfl

/-! ### `State.endSessionForInit` -/

@[simp] theorem State.endSessionForInit_cfg : (s.endSessionForInit).cfg = s.cfg := rfl
@[simp] theorem State.endSessionForInit_ready : (s.endSessionForInit).ready = false := rfl
@[simp] theorem State.endSessionForInit_resetLine : (s.endSessionForInit).resetLine = s.resetLine := rfl
@[simp] theorem State.endSessionForInit_busy : (s.endSessionForInit).busy = s.busy := rfl
@[simp] theorem State.endSessionForInit_uidValid : (s.endSessionForInit).uidValid = false := rfl
@[simp] theorem State.endSessionForInit_uid : (s.endSessionForInit).uid = s.uid := rfl
@[simp] theorem State.endSessionForInit_uidSize : (s.endSessionForInit).uidSize = s.uidSize := rfl
@[simp] theorem State.endSessionForInit_sak : (s.endSessionForInit).sak = s.sak := rfl
@[simp] theorem State.endSessionForInit_gen : (s.endSessionForInit).gen = s.gen + 1 := rfl
@[simp] theorem State.endSessionForInit_lastAuthSector : (s.endSessionForInit).lastAuthSector = none := rfl
@[simp] theorem State.endSessionForInit_selBuf : (s.endSessionForInit).selBuf = s.selBuf := rfl
@[simp] theorem State.endSessionForInit_level : (s.endSessionForInit).level = s.level := rfl
@[simp] theorem State.endSessionForInit_k : (s.endSessionForInit).k = s.k := rfl
@[simp] theorem State.endSessionForInit_iter : (s.endSessionForInit).iter = s.iter := rfl
@[simp] theorem State.endSessionForInit_rsp : (s.endSessionForInit).rsp = s.rsp := rfl
@[simp] theorem State.endSessionForInit_crcOut : (s.endSessionForInit).crcOut = s.crcOut := rfl
@[simp] theorem State.endSessionForInit_faultMark : (s.endSessionForInit).faultMark = s.faultMark := rfl
@[simp] theorem State.endSessionForInit_refuseMark : (s.endSessionForInit).refuseMark = s.refuseMark := rfl
@[simp] theorem State.endSessionForInit_pos : (s.endSessionForInit).pos = s.pos := rfl
@[simp] theorem State.endSessionForInit_trace : (s.endSessionForInit).trace = s.trace := rfl
@[simp] theorem State.endSessionForInit_pending : (s.endSessionForInit).pending = s.pending := rfl
@[simp] theorem State.endSessionForInit_bindings : (s.endSessionForInit).bindings = s.bindings := rfl
@[simp] theorem State.endSessionForInit_result : (s.endSessionForInit).result = s.result := rfl
@[simp] theorem State.endSessionForInit_answers : (s.endSessionForInit).answers = s.answers := rfl
@[simp] theorem State.endSessionForInit_draws : (s.endSessionForInit).draws = s.draws := rfl

/-! ### `State.endSessionForSelect` -/

@[simp] theorem State.endSessionForSelect_cfg : (s.endSessionForSelect).cfg = s.cfg := rfl
@[simp] theorem State.endSessionForSelect_ready : (s.endSessionForSelect).ready = s.ready := rfl
@[simp] theorem State.endSessionForSelect_resetLine : (s.endSessionForSelect).resetLine = s.resetLine := rfl
@[simp] theorem State.endSessionForSelect_busy : (s.endSessionForSelect).busy = s.busy := rfl
@[simp] theorem State.endSessionForSelect_uidValid : (s.endSessionForSelect).uidValid = false := rfl
@[simp] theorem State.endSessionForSelect_uid : (s.endSessionForSelect).uid = s.uid := rfl
@[simp] theorem State.endSessionForSelect_uidSize : (s.endSessionForSelect).uidSize = s.uidSize := rfl
@[simp] theorem State.endSessionForSelect_sak : (s.endSessionForSelect).sak = s.sak := rfl
@[simp] theorem State.endSessionForSelect_gen : (s.endSessionForSelect).gen = s.gen + 1 := rfl
@[simp] theorem State.endSessionForSelect_lastAuthSector : (s.endSessionForSelect).lastAuthSector = none := rfl
@[simp] theorem State.endSessionForSelect_selBuf : (s.endSessionForSelect).selBuf = s.selBuf := rfl
@[simp] theorem State.endSessionForSelect_level : (s.endSessionForSelect).level = s.level := rfl
@[simp] theorem State.endSessionForSelect_k : (s.endSessionForSelect).k = s.k := rfl
@[simp] theorem State.endSessionForSelect_iter : (s.endSessionForSelect).iter = s.iter := rfl
@[simp] theorem State.endSessionForSelect_rsp : (s.endSessionForSelect).rsp = s.rsp := rfl
@[simp] theorem State.endSessionForSelect_crcOut : (s.endSessionForSelect).crcOut = s.crcOut := rfl
@[simp] theorem State.endSessionForSelect_faultMark : (s.endSessionForSelect).faultMark = s.faultMark := rfl
@[simp] theorem State.endSessionForSelect_refuseMark : (s.endSessionForSelect).refuseMark = s.refuseMark := rfl
@[simp] theorem State.endSessionForSelect_pos : (s.endSessionForSelect).pos = s.pos := rfl
@[simp] theorem State.endSessionForSelect_trace : (s.endSessionForSelect).trace = s.trace := rfl
@[simp] theorem State.endSessionForSelect_pending : (s.endSessionForSelect).pending = s.pending := rfl
@[simp] theorem State.endSessionForSelect_bindings : (s.endSessionForSelect).bindings = s.bindings := rfl
@[simp] theorem State.endSessionForSelect_result : (s.endSessionForSelect).result = s.result := rfl
@[simp] theorem State.endSessionForSelect_answers : (s.endSessionForSelect).answers = s.answers := rfl
@[simp] theorem State.endSessionForSelect_draws : (s.endSessionForSelect).draws = s.draws := rfl

/-! ### `State.enterLevel` -/

@[simp] theorem State.enterLevel_cfg (cfg : Cfg) (l : CascadeLevel) : (s.enterLevel cfg l).cfg = s.cfg := rfl
@[simp] theorem State.enterLevel_ready (cfg : Cfg) (l : CascadeLevel) : (s.enterLevel cfg l).ready = s.ready := rfl
@[simp] theorem State.enterLevel_resetLine (cfg : Cfg) (l : CascadeLevel) : (s.enterLevel cfg l).resetLine = s.resetLine := rfl
@[simp] theorem State.enterLevel_busy (cfg : Cfg) (l : CascadeLevel) : (s.enterLevel cfg l).busy = s.busy := rfl
@[simp] theorem State.enterLevel_uidValid (cfg : Cfg) (l : CascadeLevel) : (s.enterLevel cfg l).uidValid = s.uidValid := rfl
@[simp] theorem State.enterLevel_uid (cfg : Cfg) (l : CascadeLevel) : (s.enterLevel cfg l).uid = s.uid := rfl
@[simp] theorem State.enterLevel_uidSize (cfg : Cfg) (l : CascadeLevel) : (s.enterLevel cfg l).uidSize = s.uidSize := rfl
@[simp] theorem State.enterLevel_sak (cfg : Cfg) (l : CascadeLevel) : (s.enterLevel cfg l).sak = s.sak := rfl
@[simp] theorem State.enterLevel_gen (cfg : Cfg) (l : CascadeLevel) : (s.enterLevel cfg l).gen = s.gen := rfl
@[simp] theorem State.enterLevel_lastAuthSector (cfg : Cfg) (l : CascadeLevel) : (s.enterLevel cfg l).lastAuthSector = s.lastAuthSector := rfl
@[simp] theorem State.enterLevel_selBuf (cfg : Cfg) (l : CascadeLevel) : (s.enterLevel cfg l).selBuf = (Vector.replicate 9 (0 : Byte)).setIfInBounds 0 (cfg.sel l) := rfl
@[simp] theorem State.enterLevel_level (cfg : Cfg) (l : CascadeLevel) : (s.enterLevel cfg l).level = l := rfl
@[simp] theorem State.enterLevel_k (cfg : Cfg) (l : CascadeLevel) : (s.enterLevel cfg l).k = 0 := rfl
@[simp] theorem State.enterLevel_iter (cfg : Cfg) (l : CascadeLevel) : (s.enterLevel cfg l).iter = 0 := rfl
@[simp] theorem State.enterLevel_rsp (cfg : Cfg) (l : CascadeLevel) : (s.enterLevel cfg l).rsp = s.rsp := rfl
@[simp] theorem State.enterLevel_crcOut (cfg : Cfg) (l : CascadeLevel) : (s.enterLevel cfg l).crcOut = s.crcOut := rfl
@[simp] theorem State.enterLevel_faultMark (cfg : Cfg) (l : CascadeLevel) : (s.enterLevel cfg l).faultMark = s.faultMark := rfl
@[simp] theorem State.enterLevel_refuseMark (cfg : Cfg) (l : CascadeLevel) : (s.enterLevel cfg l).refuseMark = s.refuseMark := rfl
@[simp] theorem State.enterLevel_pos (cfg : Cfg) (l : CascadeLevel) : (s.enterLevel cfg l).pos = s.pos := rfl
@[simp] theorem State.enterLevel_trace (cfg : Cfg) (l : CascadeLevel) : (s.enterLevel cfg l).trace = s.trace := rfl
@[simp] theorem State.enterLevel_pending (cfg : Cfg) (l : CascadeLevel) : (s.enterLevel cfg l).pending = s.pending := rfl
@[simp] theorem State.enterLevel_bindings (cfg : Cfg) (l : CascadeLevel) : (s.enterLevel cfg l).bindings = s.bindings := rfl
@[simp] theorem State.enterLevel_result (cfg : Cfg) (l : CascadeLevel) : (s.enterLevel cfg l).result = s.result := rfl
@[simp] theorem State.enterLevel_answers (cfg : Cfg) (l : CascadeLevel) : (s.enterLevel cfg l).answers = s.answers := rfl
@[simp] theorem State.enterLevel_draws (cfg : Cfg) (l : CascadeLevel) : (s.enterLevel cfg l).draws = s.draws := rfl

/-! ### `State.resolveBit` -/

@[simp] theorem State.resolveBit_cfg (p : Nat) : (s.resolveBit p).cfg = s.cfg := rfl
@[simp] theorem State.resolveBit_ready (p : Nat) : (s.resolveBit p).ready = s.ready := rfl
@[simp] theorem State.resolveBit_resetLine (p : Nat) : (s.resolveBit p).resetLine = s.resetLine := rfl
@[simp] theorem State.resolveBit_busy (p : Nat) : (s.resolveBit p).busy = s.busy := rfl
@[simp] theorem State.resolveBit_uidValid (p : Nat) : (s.resolveBit p).uidValid = s.uidValid := rfl
@[simp] theorem State.resolveBit_uid (p : Nat) : (s.resolveBit p).uid = s.uid := rfl
@[simp] theorem State.resolveBit_uidSize (p : Nat) : (s.resolveBit p).uidSize = s.uidSize := rfl
@[simp] theorem State.resolveBit_sak (p : Nat) : (s.resolveBit p).sak = s.sak := rfl
@[simp] theorem State.resolveBit_gen (p : Nat) : (s.resolveBit p).gen = s.gen := rfl
@[simp] theorem State.resolveBit_lastAuthSector (p : Nat) : (s.resolveBit p).lastAuthSector = s.lastAuthSector := rfl
@[simp] theorem State.resolveBit_selBuf (p : Nat) : (s.resolveBit p).selBuf = setFieldBit s.selBuf p := rfl
@[simp] theorem State.resolveBit_level (p : Nat) : (s.resolveBit p).level = s.level := rfl
@[simp] theorem State.resolveBit_k (p : Nat) : (s.resolveBit p).k = p := rfl
@[simp] theorem State.resolveBit_iter (p : Nat) : (s.resolveBit p).iter = s.iter := rfl
@[simp] theorem State.resolveBit_rsp (p : Nat) : (s.resolveBit p).rsp = s.rsp := rfl
@[simp] theorem State.resolveBit_crcOut (p : Nat) : (s.resolveBit p).crcOut = s.crcOut := rfl
@[simp] theorem State.resolveBit_faultMark (p : Nat) : (s.resolveBit p).faultMark = s.faultMark := rfl
@[simp] theorem State.resolveBit_refuseMark (p : Nat) : (s.resolveBit p).refuseMark = s.refuseMark := rfl
@[simp] theorem State.resolveBit_pos (p : Nat) : (s.resolveBit p).pos = s.pos := rfl
@[simp] theorem State.resolveBit_trace (p : Nat) : (s.resolveBit p).trace = s.trace := rfl
@[simp] theorem State.resolveBit_pending (p : Nat) : (s.resolveBit p).pending = s.pending := rfl
@[simp] theorem State.resolveBit_bindings (p : Nat) : (s.resolveBit p).bindings = s.bindings := rfl
@[simp] theorem State.resolveBit_result (p : Nat) : (s.resolveBit p).result = s.result := rfl
@[simp] theorem State.resolveBit_answers (p : Nat) : (s.resolveBit p).answers = s.answers := rfl
@[simp] theorem State.resolveBit_draws (p : Nat) : (s.resolveBit p).draws = s.draws := rfl

/-! ### `State.writeSelectHead` -/

@[simp] theorem State.writeSelectHead_cfg : (s.writeSelectHead).cfg = s.cfg := rfl
@[simp] theorem State.writeSelectHead_ready : (s.writeSelectHead).ready = s.ready := rfl
@[simp] theorem State.writeSelectHead_resetLine : (s.writeSelectHead).resetLine = s.resetLine := rfl
@[simp] theorem State.writeSelectHead_busy : (s.writeSelectHead).busy = s.busy := rfl
@[simp] theorem State.writeSelectHead_uidValid : (s.writeSelectHead).uidValid = s.uidValid := rfl
@[simp] theorem State.writeSelectHead_uid : (s.writeSelectHead).uid = s.uid := rfl
@[simp] theorem State.writeSelectHead_uidSize : (s.writeSelectHead).uidSize = s.uidSize := rfl
@[simp] theorem State.writeSelectHead_sak : (s.writeSelectHead).sak = s.sak := rfl
@[simp] theorem State.writeSelectHead_gen : (s.writeSelectHead).gen = s.gen := rfl
@[simp] theorem State.writeSelectHead_lastAuthSector : (s.writeSelectHead).lastAuthSector = s.lastAuthSector := rfl
@[simp] theorem State.writeSelectHead_level : (s.writeSelectHead).level = s.level := rfl
@[simp] theorem State.writeSelectHead_k : (s.writeSelectHead).k = s.k := rfl
@[simp] theorem State.writeSelectHead_iter : (s.writeSelectHead).iter = s.iter := rfl
@[simp] theorem State.writeSelectHead_rsp : (s.writeSelectHead).rsp = s.rsp := rfl
@[simp] theorem State.writeSelectHead_crcOut : (s.writeSelectHead).crcOut = s.crcOut := rfl
@[simp] theorem State.writeSelectHead_faultMark : (s.writeSelectHead).faultMark = s.faultMark := rfl
@[simp] theorem State.writeSelectHead_refuseMark : (s.writeSelectHead).refuseMark = s.refuseMark := rfl
@[simp] theorem State.writeSelectHead_pos : (s.writeSelectHead).pos = s.pos := rfl
@[simp] theorem State.writeSelectHead_trace : (s.writeSelectHead).trace = s.trace := rfl
@[simp] theorem State.writeSelectHead_pending : (s.writeSelectHead).pending = s.pending := rfl
@[simp] theorem State.writeSelectHead_bindings : (s.writeSelectHead).bindings = s.bindings := rfl
@[simp] theorem State.writeSelectHead_result : (s.writeSelectHead).result = s.result := rfl
@[simp] theorem State.writeSelectHead_answers : (s.writeSelectHead).answers = s.answers := rfl
@[simp] theorem State.writeSelectHead_draws : (s.writeSelectHead).draws = s.draws := rfl

/-! ### `State.takeUidBytes` -/

@[simp] theorem State.takeUidBytes_cfg : (s.takeUidBytes).cfg = s.cfg := rfl
@[simp] theorem State.takeUidBytes_ready : (s.takeUidBytes).ready = s.ready := rfl
@[simp] theorem State.takeUidBytes_resetLine : (s.takeUidBytes).resetLine = s.resetLine := rfl
@[simp] theorem State.takeUidBytes_busy : (s.takeUidBytes).busy = s.busy := rfl
@[simp] theorem State.takeUidBytes_uidValid : (s.takeUidBytes).uidValid = s.uidValid := rfl
@[simp] theorem State.takeUidBytes_uidSize : (s.takeUidBytes).uidSize = s.uidSize := rfl
@[simp] theorem State.takeUidBytes_sak : (s.takeUidBytes).sak = s.sak := rfl
@[simp] theorem State.takeUidBytes_gen : (s.takeUidBytes).gen = s.gen := rfl
@[simp] theorem State.takeUidBytes_lastAuthSector : (s.takeUidBytes).lastAuthSector = s.lastAuthSector := rfl
@[simp] theorem State.takeUidBytes_selBuf : (s.takeUidBytes).selBuf = s.selBuf := rfl
@[simp] theorem State.takeUidBytes_level : (s.takeUidBytes).level = s.level := rfl
@[simp] theorem State.takeUidBytes_k : (s.takeUidBytes).k = s.k := rfl
@[simp] theorem State.takeUidBytes_iter : (s.takeUidBytes).iter = s.iter := rfl
@[simp] theorem State.takeUidBytes_rsp : (s.takeUidBytes).rsp = s.rsp := rfl
@[simp] theorem State.takeUidBytes_crcOut : (s.takeUidBytes).crcOut = s.crcOut := rfl
@[simp] theorem State.takeUidBytes_faultMark : (s.takeUidBytes).faultMark = s.faultMark := rfl
@[simp] theorem State.takeUidBytes_refuseMark : (s.takeUidBytes).refuseMark = s.refuseMark := rfl
@[simp] theorem State.takeUidBytes_pos : (s.takeUidBytes).pos = s.pos := rfl
@[simp] theorem State.takeUidBytes_trace : (s.takeUidBytes).trace = s.trace := rfl
@[simp] theorem State.takeUidBytes_pending : (s.takeUidBytes).pending = s.pending := rfl
@[simp] theorem State.takeUidBytes_bindings : (s.takeUidBytes).bindings = s.bindings := rfl
@[simp] theorem State.takeUidBytes_result : (s.takeUidBytes).result = s.result := rfl
@[simp] theorem State.takeUidBytes_answers : (s.takeUidBytes).answers = s.answers := rfl
@[simp] theorem State.takeUidBytes_draws : (s.takeUidBytes).draws = s.draws := rfl

/-! ### `State.completeSelect` -/

@[simp] theorem State.completeSelect_cfg (b : Byte) : (s.completeSelect b).cfg = s.cfg := rfl
@[simp] theorem State.completeSelect_ready (b : Byte) : (s.completeSelect b).ready = s.ready := rfl
@[simp] theorem State.completeSelect_resetLine (b : Byte) : (s.completeSelect b).resetLine = s.resetLine := rfl
@[simp] theorem State.completeSelect_busy (b : Byte) : (s.completeSelect b).busy = s.busy := rfl
@[simp] theorem State.completeSelect_uidValid (b : Byte) : (s.completeSelect b).uidValid = true := rfl
@[simp] theorem State.completeSelect_uid (b : Byte) : (s.completeSelect b).uid = s.uid := rfl
@[simp] theorem State.completeSelect_uidSize (b : Byte) : (s.completeSelect b).uidSize = s.level.uidSize := rfl
@[simp] theorem State.completeSelect_sak (b : Byte) : (s.completeSelect b).sak = b := rfl
@[simp] theorem State.completeSelect_gen (b : Byte) : (s.completeSelect b).gen = s.gen := rfl
@[simp] theorem State.completeSelect_lastAuthSector (b : Byte) : (s.completeSelect b).lastAuthSector = s.lastAuthSector := rfl
@[simp] theorem State.completeSelect_selBuf (b : Byte) : (s.completeSelect b).selBuf = s.selBuf := rfl
@[simp] theorem State.completeSelect_level (b : Byte) : (s.completeSelect b).level = s.level := rfl
@[simp] theorem State.completeSelect_k (b : Byte) : (s.completeSelect b).k = s.k := rfl
@[simp] theorem State.completeSelect_iter (b : Byte) : (s.completeSelect b).iter = s.iter := rfl
@[simp] theorem State.completeSelect_rsp (b : Byte) : (s.completeSelect b).rsp = s.rsp := rfl
@[simp] theorem State.completeSelect_crcOut (b : Byte) : (s.completeSelect b).crcOut = s.crcOut := rfl
@[simp] theorem State.completeSelect_faultMark (b : Byte) : (s.completeSelect b).faultMark = s.faultMark := rfl
@[simp] theorem State.completeSelect_refuseMark (b : Byte) : (s.completeSelect b).refuseMark = s.refuseMark := rfl
@[simp] theorem State.completeSelect_pos (b : Byte) : (s.completeSelect b).pos = s.pos := rfl
@[simp] theorem State.completeSelect_trace (b : Byte) : (s.completeSelect b).trace = s.trace := rfl
@[simp] theorem State.completeSelect_pending (b : Byte) : (s.completeSelect b).pending = s.pending := rfl
@[simp] theorem State.completeSelect_bindings (b : Byte) : (s.completeSelect b).bindings = s.bindings := rfl
@[simp] theorem State.completeSelect_result (b : Byte) : (s.completeSelect b).result = s.result := rfl
@[simp] theorem State.completeSelect_answers (b : Byte) : (s.completeSelect b).answers = s.answers := rfl
@[simp] theorem State.completeSelect_draws (b : Byte) : (s.completeSelect b).draws = s.draws := rfl

/-! ### `State.withFetchWord` -/

@[simp] theorem State.withFetchWord_cfg (nbits w : Nat) : (s.withFetchWord nbits w).cfg = s.cfg := rfl
@[simp] theorem State.withFetchWord_ready (nbits w : Nat) : (s.withFetchWord nbits w).ready = s.ready := rfl
@[simp] theorem State.withFetchWord_resetLine (nbits w : Nat) : (s.withFetchWord nbits w).resetLine = s.resetLine := rfl
@[simp] theorem State.withFetchWord_busy (nbits w : Nat) : (s.withFetchWord nbits w).busy = s.busy := rfl
@[simp] theorem State.withFetchWord_uidValid (nbits w : Nat) : (s.withFetchWord nbits w).uidValid = s.uidValid := rfl
@[simp] theorem State.withFetchWord_uid (nbits w : Nat) : (s.withFetchWord nbits w).uid = s.uid := rfl
@[simp] theorem State.withFetchWord_uidSize (nbits w : Nat) : (s.withFetchWord nbits w).uidSize = s.uidSize := rfl
@[simp] theorem State.withFetchWord_sak (nbits w : Nat) : (s.withFetchWord nbits w).sak = s.sak := rfl
@[simp] theorem State.withFetchWord_gen (nbits w : Nat) : (s.withFetchWord nbits w).gen = s.gen := rfl
@[simp] theorem State.withFetchWord_lastAuthSector (nbits w : Nat) : (s.withFetchWord nbits w).lastAuthSector = s.lastAuthSector := rfl
@[simp] theorem State.withFetchWord_selBuf (nbits w : Nat) : (s.withFetchWord nbits w).selBuf = s.selBuf := rfl
@[simp] theorem State.withFetchWord_level (nbits w : Nat) : (s.withFetchWord nbits w).level = s.level := rfl
@[simp] theorem State.withFetchWord_k (nbits w : Nat) : (s.withFetchWord nbits w).k = s.k := rfl
@[simp] theorem State.withFetchWord_iter (nbits w : Nat) : (s.withFetchWord nbits w).iter = s.iter := rfl
@[simp] theorem State.withFetchWord_rsp (nbits w : Nat) : (s.withFetchWord nbits w).rsp = s.rsp := rfl
@[simp] theorem State.withFetchWord_crcOut (nbits w : Nat) : (s.withFetchWord nbits w).crcOut = s.crcOut := rfl
@[simp] theorem State.withFetchWord_faultMark (nbits w : Nat) : (s.withFetchWord nbits w).faultMark = s.faultMark := rfl
@[simp] theorem State.withFetchWord_refuseMark (nbits w : Nat) : (s.withFetchWord nbits w).refuseMark = s.refuseMark := rfl
@[simp] theorem State.withFetchWord_pos (nbits w : Nat) : (s.withFetchWord nbits w).pos = s.pos := rfl
@[simp] theorem State.withFetchWord_trace (nbits w : Nat) : (s.withFetchWord nbits w).trace = s.trace := rfl
@[simp] theorem State.withFetchWord_pending (nbits w : Nat) : (s.withFetchWord nbits w).pending = tableWord s.cfg nbits w :: s.pending := rfl
@[simp] theorem State.withFetchWord_bindings (nbits w : Nat) : (s.withFetchWord nbits w).bindings = s.bindings := rfl
@[simp] theorem State.withFetchWord_result (nbits w : Nat) : (s.withFetchWord nbits w).result = s.result := rfl
@[simp] theorem State.withFetchWord_answers (nbits w : Nat) : (s.withFetchWord nbits w).answers = s.answers := rfl
@[simp] theorem State.withFetchWord_draws (nbits w : Nat) : (s.withFetchWord nbits w).draws = s.draws := rfl

end Sys2Proof.Machine
end

