-- ==== Sys2Proof/Laws/Transport.lean ====
section
/-! SUPPORT. What the transport primitives, the poll loops and a procedure built of them do: exactly, where the chip's answers are
scripted (`Goes`), and at most, whatever the chip answers (`Moves`). -/

namespace Sys2Proof.Machine

variable {α β : Type} {cfg : Cfg}

/-! ### Answers and values -/

theorem takeValues_length (n : Nat) (as : List Answer) : (takeValues n as).1.length ≤ n := by
  induction n generalizing as with
  | zero => simp [takeValues]
  | succ n ih =>
    rcases as with _ | ⟨_ | _ | _, as⟩ <;> simp [takeValues, ih]

/-- A script that begins with values gives them. -/
theorem takeValues_map (ans : List Byte) (rest : List Answer) : takeValues ans.length (ans.map .value ++ rest) = (ans, rest) := by
  induction ans with
  | nil => simp [takeValues]
  | cons b bs ih => simp [takeValues, ih]

theorem nextReads_length (s : State) (n : Nat) : (s.nextReads n).length = n := by
  have := takeValues_length n s.answers
  simp only [State.nextReads, List.length_append, List.length_map, List.length_range]; omega

theorem ignoredBytes_length (i n : Nat) : (ignoredBytes i n).length = n := by simp [ignoredBytes]

theorem nextReads_of_script {s : State} {ans : List Byte} {rest : List Answer} (h : s.answers = ans.map .value ++ rest) :
    s.nextReads ans.length = ans := by
  simp [State.nextReads, h, takeValues_map]

@[simp] theorem alignFirst_zero (bs : List Byte) : alignFirst 0#3 bs = bs := by
  cases bs with
  | nil => rfl
  | cons b bs => simp only [alignFirst]; congr 1; simp; exact BitVec.and_allOnes

@[simp] theorem alignFirst_length (a : BitVec 3) (bs : List Byte) : (alignFirst a bs).length = bs.length := by cases bs <;> rfl

/-! ### Addresses (R86, R116) -/

theorem anyBit_80 (b : Byte) : anyBit b 0x80#8 = b.getLsbD 7 := by revert b; decide

theorem wa_write (cfg : Cfg) (r : Reg) : anyBit (cfg.wa r) 0x80#8 = false := by rw [anyBit_80, cfg.wa_bit7]
theorem ra_read (cfg : Cfg) (r : Reg) : anyBit (cfg.ra r) 0x80#8 = true := by rw [anyBit_80, cfg.ra_bit7]

@[simp] theorem seen_write (r : Reg) (bs miso : List Byte) : Event.seen (.spi (cfg.wa r :: bs) miso) = wrote cfg r bs := by
  simp [Event.seen, wa_write, wrote]

theorem seen_read (r : Reg) (bs : List Byte) (m : Byte) (miso : List Byte) :
    Event.seen (.spi (cfg.ra r :: bs) (m :: miso)) = .spi (cfg.ra r :: bs) miso := by simp [Event.seen, ra_read]

theorem seen_gave (r : Reg) {bs : List Byte} (h : bs ≠ []) (m : Byte) :
    Event.seen (.spi (List.replicate bs.length (cfg.ra r) ++ [0x00]) (m :: bs)) = gave cfg r bs := by
  cases bs with
  | nil => exact absurd rfl h
  | cons b bs => simp [gave, List.replicate_succ, seen_read]

@[simp] theorem seen_ask (k : WaitKind) (a : Bool) : Event.seen (.ask k a) = .ask k a := rfl
@[simp] theorem seen_reset (l : LineLevel) : Event.seen (.reset l) = .reset l := rfl

/-! ### The frames of a trace -/

@[simp] theorem bytesTo_seen (r : Reg) (e : Event) : e.seen.bytesTo cfg r = e.bytesTo cfg r := by
  cases e with
  | spi m _ => cases m <;> rfl
  | _ => rfl

@[simp] theorem flushes_seen (e : Event) : e.seen.flushes cfg = e.flushes cfg := by simp [Event.flushes]
@[simp] theorem pushes_seen (e : Event) : e.seen.pushes cfg = e.pushes cfg := by simp [Event.pushes]
@[simp] theorem startsSend_seen (e : Event) : e.seen.startsSend cfg = e.startsSend cfg := by simp [Event.startsSend]
@[simp] theorem fifo_seen (held : List Byte) (e : Event) : e.seen.fifo cfg held = e.fifo cfg held := by simp [Event.fifo]

@[simp] theorem issues_seen (c : PcdCommand) (e : Event) : e.seen.issues cfg c = e.issues cfg c := by
  cases e with
  | spi m _ => rcases m with _ | ⟨_, _ | ⟨_, _ | _⟩⟩ <;> rfl
  | _ => rfl

@[simp] theorem starts_seen (e : Event) : e.seen.starts cfg = e.starts cfg := by
  cases e with
  | spi m n => exact congrArg₂ or (startsSend_seen (cfg := cfg) (.spi m n)) (issues_seen .mfAuthent (.spi m n))
  | _ => rfl

@[simp] theorem sets_seen (r : Reg) (e : Event) : e.seen.sets cfg r = e.sets cfg r := by
  cases e with
  | spi m _ => rcases m with _ | ⟨_, _ | ⟨_, _ | _⟩⟩ <;> rfl
  | _ => rfl

theorem sends_seen (u : TxSetup) (e : Event) : e.seen.sends cfg u = e.sends cfg u := by
  cases e with
  | spi m n => show (if (Event.seen (.spi m n)).starts cfg then _ else _) = _; rw [starts_seen]; rfl
  | _ => rfl

theorem next_seen (u : TxSetup) (e : Event) : u.next cfg e.seen = u.next cfg e := by simp [TxSetup.next]

theorem sentFrom_seen (u : TxSetup) (evs : List Event) : sentFrom cfg u (evs.map Event.seen) = sentFrom cfg u evs := by
  induction evs generalizing u with
  | nil => rfl
  | cons e es ih => rw [List.map_cons, sentFrom, sentFrom, sends_seen, next_seen, ih]

theorem framesSent_seen (evs : List Event) : framesSent cfg (evs.map Event.seen) = framesSent cfg evs := sentFrom_seen _ evs

theorem sentFrom_append (u : TxSetup) (a b : List Event) :
    sentFrom cfg u (a ++ b) = sentFrom cfg u a ++ sentFrom cfg (a.foldl (TxSetup.next cfg) u) b := by
  induction a generalizing u with
  | nil => rfl
  | cons e es ih => simp [sentFrom, ih]

/-! ### What a procedure does with a script -/

/-- The state after some transport: the events it left, the answers still scripted, the draws and the position. -/
def State.did (s : State) (evs : List Event) (rest : List Answer) (d : Nat) (q : Pos) : State :=
  { s with trace := s.trace ++ evs, answers := rest, draws := d, pos := q }

theorem State.did_did (s : State) (e1 e2 : List Event) (r1 r2 : List Answer) (d1 d2 : Nat) (q1 q2 : Pos) :
    (s.did e1 r1 d1 q1).did e2 r2 d2 q2 = s.did (e1 ++ e2) r2 d2 q2 := by simp [State.did]

theorem did_self (s : State) : s.did [] s.answers s.draws s.pos = s := by simp [State.did]

/-- From `s` with the answers `r` scripted the procedure ends with `x`; the state it leaves is `u` after transport that shows `seen`
and leaves `r'` scripted. The events before, the draws and the position do not matter. -/
def Proc.Goes (p : Proc α) (s : State) (r : List Answer) (x : Except Stop α) (u : State) (seen : List Event) (r' : List Answer) : Prop :=
  ∀ evs d q, ∃ new d' q', p.exec (s.did evs r d q) = (x, u.did (evs ++ new) r' d' q') ∧ new.map Event.seen = seen

/-- The run from the state itself. -/
theorem Proc.Goes.run {p : Proc α} {s u : State} {r r' : List Answer} {x : Except Stop α} {seen : List Event}
    (h : p.Goes s r x u seen r') (hr : s.answers = r) : ∃ evs d q, p.exec s = (x, u.did evs r' d q) ∧ evs.map Event.seen = seen := by
  obtain ⟨evs, d, q, h, hs⟩ := h [] s.draws s.pos
  rw [← hr, did_self] at h
  exact ⟨evs, d, q, by simpa using h, hs⟩

section Goes

variable {s u v : State} {r r1 r2 : List Answer}

theorem Proc.Goes.bind {x : Proc α} {f : α → Proc β} {a : α} {b : Except Stop β} {e1 e2 : List Event}
    (hx : x.Goes s r (.ok a) u e1 r1) (hf : (f a).Goes u r1 b v e2 r2) : (x >>= f).Goes s r b v (e1 ++ e2) r2 := fun evs d q => by
  obtain ⟨n1, d1, q1, h1, hs1⟩ := hx evs d q
  obtain ⟨n2, d2, q2, h2, hs2⟩ := hf (evs ++ n1) d1 q1
  exact ⟨n1 ++ n2, d2, q2, by rw [Proc.exec_bind_ok h1, h2, List.append_assoc], by simp [hs1, hs2]⟩

theorem Proc.Goes.bind_error {x : Proc α} {f : α → Proc β} {e : Stop} {seen : List Event}
    (hx : x.Goes s r (.error e) u seen r1) : (x >>= f).Goes s r (.error e) u seen r1 := fun evs d q => by
  obtain ⟨n, d1, q1, h, hs⟩ := hx evs d q
  exact ⟨n, d1, q1, Proc.exec_bind_error h, hs⟩

/-- The same run, its events written in another way. -/
theorem Proc.Goes.as {p : Proc α} {x : Except Stop α} {e1 e2 : List Event} (h : p.Goes s r x u e1 r1) (he : e1 = e2) :
    p.Goes s r x u e2 r1 := he ▸ h

theorem goes_pure (a : α) : (pure a : Proc α).Goes s r (.ok a) s [] r := fun evs d q => ⟨[], d, q, by simp, rfl⟩

theorem goes_raise (e : Err) : (Proc.raise e : Proc α).Goes s r (.error (.raise e)) s [] r := fun evs d q => ⟨[], d, q, by simp, rfl⟩

theorem goes_unmodelled (m : UnmodelledReason) : (Proc.unmodelled m : Proc α).Goes s r (.error (.unmodelled m)) s [] r :=
  fun evs d q => ⟨[], d, q, by simp, rfl⟩

theorem goes_look {f : State → α} {a : α} (h : ∀ evs d q, f (s.did evs r d q) = a) : (Proc.look f).Goes s r (.ok a) s [] r :=
  fun evs d q => ⟨[], d, q, by simp [h], rfl⟩

theorem goes_update {f : State → State} (h : ∀ evs d q, f (s.did evs r d q) = u.did evs r d q) :
    (Proc.update f).Goes s r (.ok ()) u [] r := fun evs d q => ⟨[], d, q, by simp [h], rfl⟩

/-! ### The primitives with a script -/

theorem emit_did (s : State) (e : Event) (evs : List Event) (r : List Answer) (d : Nat) (q : Pos) :
    (s.did evs r d q).emit e = s.did (evs ++ [e]) r d q.advance := by simp [State.emit, State.did]

theorem writeFrame_did (s : State) (m : List Byte) (evs : List Event) (r : List Answer) (d : Nat) (q : Pos) :
    (s.did evs r d q).writeFrame m = s.did (evs ++ [.spi m (ignoredBytes d m.length)]) r (d + m.length) q.advance := by
  simp [State.writeFrame, State.emit, State.did]

theorem goes_regWrite (g : Reg) (b : Byte) : (regWrite cfg g b).Goes s r (.ok ()) s [wrote cfg g [b]] r := fun evs d q =>
  ⟨[.spi [cfg.wa g, b] (ignoredBytes d 2)], d + 2, q.advance, by simp [regWrite, writeFrame_did], by simp⟩

theorem goes_regWriteN (g : Reg) {bs : List Byte} (h : bs ≠ []) :
    (regWriteN cfg g bs).Goes s r (.ok ()) s [wrote cfg g bs] r := fun evs d q => by
  refine ⟨[.spi (cfg.wa g :: bs) (ignoredBytes d (bs.length + 1))], d + (bs.length + 1), q.advance, ?_, by simp⟩
  have : bs.isEmpty = false := by simp [h]
  simp [regWriteN, this, writeFrame_did]

theorem goes_regWriteN_nil (g : Reg) : (regWriteN cfg g []).Goes s r (.ok ()) s [] r := fun evs d q =>
  ⟨[], d, q, by simp [regWriteN], rfl⟩

theorem readFrame_did (s : State) (ans : List Byte) (rest : List Answer) (m : List Byte) (evs : List Event) (d : Nat) (q : Pos) :
    (s.did evs (ans.map .value ++ rest) d q).readFrame m ans.length =
      s.did (evs ++ [.spi m (Config.freeIgnored d :: ans)]) rest (d + 1) q.advance := by
  simp [State.readFrame, State.did, State.emit, State.nextReads, ignoredBytes, takeValues_map]

theorem goes_regRead (g : Reg) (b : Byte) : (regRead cfg g).Goes s (.value b :: r) (.ok b) s [gave cfg g [b]] r := fun evs d q =>
  ⟨[.spi [cfg.ra g, 0x00] [Config.freeIgnored d, b]], d + 1, q.advance,
    congrArg (Prod.mk _) (readFrame_did s [b] r [cfg.ra g, 0x00] evs d q), by simp [seen_read, gave]⟩

theorem goes_regReadN (g : Reg) (al : BitVec 3) {ans : List Byte} (hn : ans ≠ []) :
    (regReadN cfg g ans.length al).Goes s (ans.map .value ++ r) (.ok (alignFirst al ans)) s [gave cfg g ans] r :=
  fun evs d q => by
  have h0 : ans.length ≠ 0 := by simpa using hn
  refine ⟨[.spi (List.replicate ans.length (cfg.ra g) ++ [0x00]) (Config.freeIgnored d :: ans)], d + 1, q.advance, ?_, ?_⟩
  · rw [regReadN, if_neg h0, Proc.exec_primitive]
    show (Except.ok (alignFirst al (State.nextReads _ _)), State.readFrame _ _ _) = _
    rw [nextReads_of_script (rest := r) rfl, readFrame_did]
  · simp only [List.map_cons, List.map_nil, seen_gave g hn]

theorem goes_regReadN_zero (g : Reg) (al : BitVec 3) : (regReadN cfg g 0 al).Goes s r (.ok []) s [] r :=
  fun evs d q => ⟨[], d, q, by rw [List.append_nil]; rfl, rfl⟩

theorem goes_resetLine (l : LineLevel) : (resetLine l).Goes s r (.ok ()) { s with resetLine := l } [.reset l] r :=
  fun evs d q => ⟨[.reset l], d, q.advance, by simp [resetLine, State.did, State.emit], by simp⟩

theorem goes_setBits (g : Reg) (m b : Byte) :
    (setBits cfg g m).Goes s (.value b :: r) (.ok ()) s [gave cfg g [b], wrote cfg g [b ||| m]] r :=
  (goes_regRead g b).bind (goes_regWrite g _)

theorem goes_clearBits (g : Reg) (m b : Byte) :
    (clearBits cfg g m).Goes s (.value b :: r) (.ok ()) s [gave cfg g [b], wrote cfg g [b &&& ~~~m]] r :=
  (goes_regRead g b).bind (goes_regWrite g _)

theorem goes_jump (head : Pos) : (jump head).Goes s r (.ok ()) s [] r := fun evs d q => ⟨[], d, head, by simp [jump, State.did], rfl⟩

theorem goes_askDeadline (kind : WaitKind) (a : Bool) : (askDeadline kind a).Goes s r (.ok ()) s [.ask kind a] r :=
  fun evs d q => ⟨[.ask kind a], d, q.advance, by simp [askDeadline, emit_did], by simp⟩

/-! ### Poll loops with a script -/

/-- A poll loop whose first test ends it asks nothing and draws nothing. -/
theorem goes_poll_first {kind : WaitKind} {check : Nat → Proc (Option β)} {od : Proc β} {b : β} {seen : List Event}
    (h : (check 0).Goes s r (.ok (some b)) u seen r1) : (poll kind check od).Goes s r (.ok b) u seen r1 := fun evs d q => by
  obtain ⟨n, d1, q1, hx, hs⟩ := h evs d q
  refine ⟨n, d1, q1, ?_, hs⟩
  unfold poll
  rw [Proc.exec_bind_ok (Proc.exec_look _ _), Proc.exec_bind_ok hx]
  rfl

/-- A poll loop whose first test raises ends there. -/
theorem goes_poll_error {kind : WaitKind} {check : Nat → Proc (Option β)} {od : Proc β} {e : Stop} {seen : List Event}
    (h : (check 0).Goes s r (.error e) u seen r1) : (poll kind check od).Goes s r (.error e) u seen r1 := fun evs d q => by
  obtain ⟨n, d1, q1, hx, hs⟩ := h evs d q
  refine ⟨n, d1, q1, ?_, hs⟩
  unfold poll
  rw [Proc.exec_bind_ok (Proc.exec_look _ _), Proc.exec_bind_error hx]

theorem goes_drawBudget (b : Nat) : drawBudget.Goes s (.deadline b :: r) (.ok b) s [] r := fun evs d q =>
  ⟨[], d, q, by rw [List.append_nil]; rfl, rfl⟩

/-- A poll loop whose first test does not end it: the budget is drawn and the queries begin. -/
theorem goes_poll_next {kind : WaitKind} {check : Nat → Proc (Option β)} {od : Proc β} {b : Nat} {e1 e2 : List Event}
    {x : Except Stop β} (h : (check 0).Goes s r (.ok none) u e1 (.deadline b :: r1))
    (hn : ∀ head, (pollAgain kind head check od b 1).Goes u r1 x v e2 r2) :
    (poll kind check od).Goes s r x v (e1 ++ e2) r2 := fun evs d q => by
  obtain ⟨n1, d1, q1, h1, hs1⟩ := ((h.bind (f := fun
    | some b => pure b
    | none   => do let budget ← drawBudget; pollAgain kind (s.did evs r d q).pos check od budget 1)
    ((goes_drawBudget b).bind (hn (s.did evs r d q).pos))) evs d q)
  exact ⟨n1, d1, q1, by unfold poll; rw [Proc.exec_bind_ok (Proc.exec_look _ _)]; exact h1, by simpa using hs1⟩

/-- Polls that do not end a loop, and the queries behind them that do not either. -/
theorem goes_pollAgain_fails {kind : WaitKind} {head : Pos} {check : Nat → Proc (Option β)} {od : Proc β} {g : Reg} {xs : List Byte}
    {budget i : Nat} {x : Except Stop β} {e : List Event}
    (hc : ∀ j < xs.length, ∀ r, (check (i + j)).Goes s (.value (xs.getD j 0) :: r) (.ok none) s [gave cfg g [xs.getD j 0]] r)
    (hl : xs.length ≤ budget) (hn : (pollAgain kind head check od (budget - xs.length) (i + xs.length)).Goes s r x u e r1) :
    (pollAgain kind head check od budget i).Goes s (xs.map .value ++ r) x u
      (xs.flatMap (fun y => [.ask kind false, gave cfg g [y]]) ++ e) r1 := by
  induction xs generalizing budget i with
  | nil => simpa using hn
  | cons y ys ih =>
    obtain ⟨n, rfl⟩ : ∃ n, budget = n + 1 := ⟨budget - 1, by simp at hl; omega⟩
    have h1 := hc 0 (by simp) (ys.map .value ++ r)
    have h2 := ih (budget := n) (i := i + 1) (fun j hj r => by
      have := hc (j + 1) (by simpa using hj) r
      simpa [show i + (j + 1) = i + 1 + j by omega] using this) (by simpa using hl)
      (by simpa [show n + 1 - (ys.length + 1) = n - ys.length by omega, show i + (ys.length + 1) = i + 1 + ys.length by omega] using hn)
    refine Proc.Goes.as ((goes_askDeadline kind false).bind ((goes_jump head).bind
      (Proc.Goes.bind (a := none) (e1 := [gave cfg g [y]]) (by simpa using h1) h2))) ?_
    simp

/-- The events of failed polls of a register, each with the query behind it that does not end the loop. -/
def failedPolls (cfg : Cfg) (g : Reg) (kind : WaitKind) (xs : List Byte) : List Event :=
  xs.flatMap fun x => [gave cfg g [x], .ask kind false]

theorem failedPolls_cons (g : Reg) (kind : WaitKind) (y : Byte) (ys : List Byte) (v : Byte) :
    gave cfg g [y] :: (ys.flatMap (fun y => [Event.ask kind false, gave cfg g [y]]) ++ [.ask kind false, gave cfg g [v]]) =
      failedPolls cfg g kind (y :: ys) ++ [gave cfg g [v]] := by
  induction ys generalizing y with
  | nil => rfl
  | cons z zs ih => simpa [failedPolls] using ih z

/-- A poll loop that ends, by a value or by a stop, at the reading behind some failed polls. -/
theorem goes_poll_ends {kind : WaitKind} {check : Nat → Proc (Option β)} {od : Proc β} {g : Reg} {xs : List Byte} {budget : Nat} {v : Byte}
    {x : Except Stop β}
    (hc : ∀ j < xs.length, ∀ r, (check j).Goes s (.value (xs.getD j 0) :: r) (.ok none) s [gave cfg g [xs.getD j 0]] r)
    (hl : xs.length ≤ budget)
    (hv : (∃ b, x = .ok b ∧ (check xs.length).Goes s (.value v :: r) (.ok (some b)) u [gave cfg g [v]] r) ∨
      ∃ z, x = .error z ∧ (check xs.length).Goes s (.value v :: r) (.error z) u [gave cfg g [v]] r) :
    (poll kind check od).Goes s (polled budget xs ++ .value v :: r) x u (failedPolls cfg g kind xs ++ [gave cfg g [v]]) r := by
  cases xs with
  | nil =>
    rcases hv with ⟨b, rfl, h⟩ | ⟨z, rfl, h⟩
    · exact goes_poll_first h
    · exact goes_poll_error h
  | cons y ys =>
    obtain ⟨n, rfl⟩ : ∃ n, budget = ys.length + (n + 1) := ⟨budget - ys.length - 1, by simp at hl; omega⟩
    have h0 := hc 0 (by simp) (.deadline (ys.length + (n + 1)) :: (ys.map .value ++ .value v :: r))
    have last : ∀ head, (pollAgain kind head check od (n + 1) (1 + ys.length)).Goes s (.value v :: r) x u
        ([.ask kind false] ++ [gave cfg g [v]]) r := fun head => by
      refine (goes_askDeadline kind false).bind (e2 := [gave cfg g [v]]) ((goes_jump head).bind (e1 := []) (e2 := [gave cfg g [v]]) ?_)
      simp only [List.length_cons, Nat.add_comm] at hv ⊢
      rcases hv with ⟨b, rfl, h⟩ | ⟨z, rfl, h⟩
      · exact Proc.Goes.as (h.bind (goes_pure b)) (by simp)
      · exact h.bind_error
    have h1 : ∀ head, (pollAgain kind head check od (ys.length + (n + 1)) 1).Goes s (ys.map .value ++ .value v :: r) x u
        (ys.flatMap (fun y => [.ask kind false, gave cfg g [y]]) ++ [.ask kind false, gave cfg g [v]]) r := fun head =>
      goes_pollAgain_fails (fun j hj r => by
        have := hc (j + 1) (by simpa using hj) r
        simpa [Nat.add_comm 1 j] using this) (by omega) (by simpa using last head)
    refine Proc.Goes.as (goes_poll_next (e1 := [gave cfg g [y]]) (by simpa [polled] using h0) h1) ?_
    rw [← failedPolls_cons]; rfl

/-- The events of a poll loop that its deadline ends. -/
def deadlinePolls (cfg : Cfg) (g : Reg) (kind : WaitKind) (xs : List Byte) : List Event :=
  failedPolls cfg g kind xs.dropLast ++ [gave cfg g [xs.getLastD 0], .ask kind true]

theorem deadlinePolls_cons (g : Reg) (kind : WaitKind) (y : Byte) (ys : List Byte) :
    gave cfg g [y] :: (ys.flatMap (fun y => [Event.ask kind false, gave cfg g [y]]) ++ [.ask kind true]) =
      deadlinePolls cfg g kind (y :: ys) := by
  induction ys generalizing y with
  | nil => rfl
  | cons z zs ih => simpa [deadlinePolls, failedPolls, List.dropLast] using ih z

/-- A poll loop that its deadline ends. -/
theorem goes_poll_deadline {kind : WaitKind} {check : Nat → Proc (Option β)} {od : Proc β} {g : Reg} {xs : List Byte} {budget : Nat}
    {x : Except Stop β}
    (hc : ∀ j < xs.length, ∀ r, (check j).Goes s (.value (xs.getD j 0) :: r) (.ok none) s [gave cfg g [xs.getD j 0]] r)
    (hl : xs.length = budget + 1) (ho : od.Goes s r x u [] r) :
    (poll kind check od).Goes s (polled budget xs ++ r) x u (deadlinePolls cfg g kind xs) r := by
  cases xs with
  | nil => simp at hl
  | cons y ys =>
    obtain rfl : ys.length = budget := by simpa using hl
    have h0 := hc 0 (by simp) (.deadline ys.length :: (ys.map .value ++ r))
    have h1 : ∀ head, (pollAgain kind head check od ys.length 1).Goes s (ys.map .value ++ r) x u
        (ys.flatMap (fun y => [.ask kind false, gave cfg g [y]]) ++ [.ask kind true]) r := fun head =>
      goes_pollAgain_fails (fun j hj r => by
        have := hc (j + 1) (by simpa using hj) r
        simpa [Nat.add_comm 1 j] using this) (Nat.le_refl _) (by
        rw [Nat.sub_self]; exact (goes_askDeadline kind true).bind (e1 := [.ask kind true]) (e2 := []) ho)
    refine Proc.Goes.as (goes_poll_next (e1 := [gave cfg g [y]]) (by simpa [polled] using h0) h1) ?_
    rw [← deadlinePolls_cons]; rfl

/-- Failed polls in front of a poll loop's run. -/
theorem pollRun_fails {kind : WaitKind} {g : Reg} {ends : Byte → Prop} {xs : List Byte} {es : List Event} {last : Option Byte}
    (h : ∀ y ∈ xs, ¬ ends y) (hr : PollRun cfg kind g ends es last) :
    PollRun cfg kind g ends (failedPolls cfg g kind xs ++ es) last := by
  induction xs with
  | nil => exact hr
  | cons y ys ih => exact .again y (h y (by simp)) (ih fun z hz => h z (by simp [hz]))

/-- A poll loop on one register with a script, however many polls it takes. -/
theorem goes_poll {kind : WaitKind} {check : Nat → Proc (Option β)} {od : Proc β} {g : Reg} {test : Byte → Option β} {ends : Byte → Bool}
    {last : Option Byte} {answers : List Answer} {x : Except Stop β}
    (hc : ∀ i v r, (check i).Goes s (.value v :: r) (.ok (test v)) s [gave cfg g [v]] r)
    (he : ∀ v, (test v).isSome = ends v) (h : PollAnswers ends last answers)
    (hv : ∀ v, last = some v → (test v).map Except.ok = some x ∧ u = s) (hd : last = none → od.Goes s r x u [] r) :
    ∃ seen, PollRun cfg kind g (fun v => ends v = true) seen last ∧ (poll kind check od).Goes s (answers ++ r) x u seen r := by
  obtain ⟨fails, budget, hf, h⟩ := h
  have fail : ∀ j < fails.length, ∀ r, (check j).Goes s (.value (fails.getD j 0) :: r) (.ok none) s [gave cfg g [fails.getD j 0]] r :=
    fun j hj r => by
      have h1 := he (fails.getD j 0)
      rw [hf _ (by rw [List.getD_eq_getElem _ _ hj]; exact List.getElem_mem hj)] at h1
      have h2 := hc j (fails.getD j 0) r
      rwa [show test (fails.getD j 0) = none from Option.not_isSome_iff_eq_none.1 (by simpa using h1)] at h2
  have hf' : ∀ y ∈ fails, ¬ ends y = true := fun y hy => by simp [hf y hy]
  cases last with
  | some v =>
    obtain ⟨h1, h2, rfl⟩ := h
    obtain ⟨hx, rfl⟩ := hv v rfl
    obtain ⟨b, hb, rfl⟩ := Option.map_eq_some_iff.1 hx
    refine ⟨_, pollRun_fails hf' (.done v h1), ?_⟩
    have := goes_poll_ends (kind := kind) (od := od) (v := v) (r := r) fail h2 (.inl ⟨b, rfl, hb ▸ hc fails.length v r⟩)
    simpa using this
  | none =>
    obtain ⟨h1, rfl⟩ := h
    have hne : fails ≠ [] := by rintro rfl; simp at h1
    refine ⟨_, ?_, goes_poll_deadline fail h1 (hd rfl)⟩
    refine pollRun_fails (fun y hy => hf' y (List.mem_of_mem_dropLast hy)) (.deadline _ ?_)
    have : fails.getLastD 0 ∈ fails := by
      rw [List.getLastD_eq_getLast?, List.getLast?_eq_some_getLast hne]; exact List.getLast_mem hne
    exact hf' _ this

end Goes

/-! ### What a procedure may do whatever the chip answers -/

/-- A change that only the transport makes: events of a kind appended, answers used up, `rsp` and `crcOut` rewritten, a response never
over 127 bytes. -/
def Moves (E : Event → Prop) (s t : State) : Prop :=
  ∃ evs rd dr q r c, (∀ e ∈ evs, E e) ∧ (r = s.rsp ∨ r.n ≤ 127) ∧
    t = { s with trace := s.trace ++ evs, answers := rd, draws := dr, pos := q, rsp := r, crcOut := c }

theorem moves_path (E : Event → Prop) : Path (Moves E) where
  refl s := ⟨[], s.answers, s.draws, s.pos, s.rsp, s.crcOut, by simp, .inl rfl, by simp⟩
  trans := by
    rintro s t u ⟨e1, _, _, _, r1, _, h1, hr1, rfl⟩ ⟨e2, rd, dr, q, r2, c, h2, hr2, rfl⟩
    refine ⟨e1 ++ e2, rd, dr, q, r2, c, ?_, ?_, by simp⟩
    · intro e he; rcases List.mem_append.1 he with h | h
      · exact h1 e h
      · exact h2 e h
    · rcases hr2 with rfl | h
      · exact hr1
      · exact .inr h

theorem Moves.mono {E F : Event → Prop} {s t : State} (h : Moves E s t) (i : ∀ e, E e → F e) : Moves F s t := by
  obtain ⟨evs, rd, dr, q, r, c, h1, h2, h3⟩ := h
  exact ⟨evs, rd, dr, q, r, c, fun e he => i e (h1 e he), h2, h3⟩

section Moves

variable {E : Event → Prop}

theorem moves_emit (s : State) (e : Event) (h : E e) : Moves E s (s.emit e) :=
  ⟨[e], s.answers, s.draws, s.pos.advance, s.rsp, s.crcOut, by simpa using h, .inl rfl, rfl⟩

theorem moves_writeFrame (s : State) (m : List Byte) (h : ∀ miso, miso.length = m.length → E (.spi m miso)) :
    Moves E s (s.writeFrame m) :=
  ⟨[.spi m (ignoredBytes s.draws m.length)], s.answers, s.draws + m.length, s.pos.advance, s.rsp, s.crcOut,
    by simpa using h _ (ignoredBytes_length _ _), .inl rfl, rfl⟩

theorem moves_readFrame (s : State) (m : List Byte) (n : Nat) (h : ∀ miso, miso.length = n + 1 → E (.spi m miso)) :
    Moves E s (s.readFrame m n) :=
  ⟨[.spi m (ignoredBytes s.draws 1 ++ s.nextReads n)], (takeValues n s.answers).2, s.draws + 1 + (n - (takeValues n s.answers).1.length), s.pos.advance,
    s.rsp, s.crcOut, by simpa using h _ (by simp [ignoredBytes_length, nextReads_length, Nat.add_comm]), .inl rfl, rfl⟩

theorem keeps_regWrite (r : Reg) (v : Byte) (h : ∀ miso, miso.length = 2 → E (.spi [cfg.wa r, v] miso)) : (regWrite cfg r v).Keeps (Moves E) :=
  fun s => moves_writeFrame s _ h

theorem keeps_regWriteN (r : Reg) (bs : List Byte)
    (h : bs ≠ [] → ∀ miso, miso.length = bs.length + 1 → E (.spi (cfg.wa r :: bs) miso)) :
    (regWriteN cfg r bs).Keeps (Moves E) := by
  unfold regWriteN
  split
  · exact (moves_path E).pure ()
  · rename_i hb; exact fun s => moves_writeFrame s _ (by simpa using h (by simpa using hb))

theorem keeps_regRead (r : Reg) (h : ∀ miso, miso.length = 2 → E (.spi [cfg.ra r, 0x00] miso)) : (regRead cfg r).Keeps (Moves E) :=
  fun s => moves_readFrame s _ 1 h

theorem keeps_regReadN (r : Reg) (n : Nat) (a : BitVec 3)
    (h : 1 ≤ n → ∀ miso, miso.length = n + 1 → E (.spi (List.replicate n (cfg.ra r) ++ [0x00]) miso)) :
    (regReadN cfg r n a).Keeps (Moves E) := by
  unfold regReadN
  split
  · exact (moves_path E).pure []
  · exact fun s => moves_readFrame s _ n (h (by omega))

theorem keeps_setBits (r : Reg) (m : Byte) (hr : ∀ miso, miso.length = 2 → E (.spi [cfg.ra r, 0x00] miso))
    (hw : ∀ v miso, miso.length = 2 → E (.spi [cfg.wa r, v ||| m] miso)) : (setBits cfg r m).Keeps (Moves E) :=
  (moves_path E).bind (keeps_regRead r hr) fun v => keeps_regWrite r _ (hw v)

theorem keeps_clearBits (r : Reg) (m : Byte) (hr : ∀ miso, miso.length = 2 → E (.spi [cfg.ra r, 0x00] miso))
    (hw : ∀ v miso, miso.length = 2 → E (.spi [cfg.wa r, v &&& ~~~m] miso)) : (clearBits cfg r m).Keeps (Moves E) :=
  (moves_path E).bind (keeps_regRead r hr) fun v => keeps_regWrite r _ (hw v)

theorem keeps_jump (head : Pos) : (jump head).Keeps (Moves E) := fun s =>
  ⟨[], s.answers, s.draws, head, s.rsp, s.crcOut, by simp, .inl rfl, by simp [jump]⟩

theorem keeps_drawBudget : drawBudget.Keeps (Moves E) := fun s => by
  show Moves E s s.nextBudget.2
  unfold State.nextBudget
  split
  · exact ⟨[], _, s.draws, s.pos, s.rsp, s.crcOut, by simp, .inl rfl, by simp; rfl⟩
  · exact ⟨[], s.answers, s.draws + 1, s.pos, s.rsp, s.crcOut, by simp, .inl rfl, by simp⟩

end Moves

/-! ### Poll loops -/

section Poll

variable {R : State → State → Prop}

theorem keeps_pollAgain (h : Path R) {kind : WaitKind} {head : Pos} {check : Nat → Proc (Option β)} {od : Proc β}
    (ha : ∀ a, (askDeadline kind a).Keeps R) (hj : (jump head).Keeps R) (hc : ∀ i, (check i).Keeps R) (ho : od.Keeps R)
    (budget i : Nat) : (pollAgain kind head check od budget i).Keeps R := by
  induction budget generalizing i with
  | zero => exact h.bind (ha true) fun _ => ho
  | succ n ih =>
    refine h.bind (ha false) fun _ => h.bind hj fun _ => h.bind (hc i) fun o => ?_
    cases o with
    | none => exact ih (i + 1)
    | some b => exact h.pure b

/-- A poll loop stays in a relation that its queries, its jumps, its tests and its deadline keep. -/
theorem keeps_poll (h : Path R) {kind : WaitKind} {check : Nat → Proc (Option β)} {od : Proc β}
    (ha : ∀ a, (askDeadline kind a).Keeps R) (hj : ∀ head, (jump head).Keeps R) (hd : drawBudget.Keeps R)
    (hc : ∀ i, (check i).Keeps R) (ho : od.Keeps R) : (poll kind check od).Keeps R := by
  refine h.bind (h.look _) fun head => h.bind (hc 0) fun o => ?_
  cases o with
  | none => exact h.bind hd fun b => keeps_pollAgain h ha (hj head) hc ho b 1
  | some b => exact h.pure b

end Poll

theorem keeps_askDeadline {E : Event → Prop} (kind : WaitKind) (a : Bool) (h : E (.ask kind a)) :
    (askDeadline kind a).Keeps (Moves E) := fun s => moves_emit s _ h

end Sys2Proof.Machine
end

