-- ==== Sys2Proof/Laws/Transaction.lean ====
section
/-! SUPPORT. What the two chip transactions do: the CRC transaction (R202 to R205) and transceivePicc (R206), with a conforming script
and whatever the chip answers. -/

namespace Sys2Proof.Machine

variable {cfg : Cfg}

/-! ### Events by their addresses -/

@[simp] theorem bytesTo_wrote (g r : Reg) (bs : List Byte) : (wrote cfg r bs).bytesTo cfg g = if r = g then bs else [] := by
  simp [Event.bytesTo, wrote]

@[simp] theorem bytesTo_gave (g r : Reg) (b : Byte) (bs : List Byte) : (gave cfg r (b :: bs)).bytesTo cfg g = [] := by
  simp [gave, List.replicate_succ, Event.bytesTo, cfg.ra_ne_wa]

/-! ### FlushBuffer and StartSend in the values written (R37, R38, R87) -/

theorem anyBit_bit (n : BitVec 3) : ∀ v : Byte, anyBit (v ||| bit n) (bit n) = true ∧ anyBit (v &&& ~~~bit n) (bit n) = false := by
  revert n; decide

@[simp] theorem anyBit_flushBuffer : anyBit (flushBuffer cfg) (flushBuffer cfg) = true := by
  simpa [flushBuffer] using (anyBit_bit cfg.fields.flushBuffer 0).1

@[simp] theorem anyBit_start (v : Byte) : anyBit (v ||| startSend cfg) (startSend cfg) = true := (anyBit_bit _ v).1
@[simp] theorem anyBit_stop (v : Byte) : anyBit (v &&& ~~~startSend cfg) (startSend cfg) = false := (anyBit_bit _ v).2

/-- The two bit counts leave StartSend clear, wherever a legal configuration has it (R38). -/
@[simp] theorem anyBit_bitFraming (al tl : BitVec 3) : anyBit (bitFraming al tl) (startSend cfg) = false := by
  have hs : cfg.fields.startSend ∈ [3#3, 7#3] := (of_decide_eq_true cfg.parts.2.2.2.1).2.2.2.2.1
  have key : ∀ n ∈ [3#3, 7#3], ∀ al tl : BitVec 3, anyBit (bitFraming al tl) (bit n) = false := by decide
  exact key _ hs al tl

@[simp] theorem writes_wrote (g r : Reg) (bs : List Byte) : (wrote cfg r bs).writes cfg g = decide (r = g) := by
  simp [Event.writes, wrote, beq_eq_decide]

@[simp] theorem pushes_wrote (r : Reg) (bs : List Byte) : (wrote cfg r bs).pushes cfg = if r = .fifoData then bs else [] :=
  bytesTo_wrote _ r bs

@[simp] theorem flushes_wrote (r : Reg) (bs : List Byte) :
    (wrote cfg r bs).flushes cfg = (decide (r = .fifoLevel) && bs.any fun v => anyBit v (flushBuffer cfg)) := by
  by_cases h : r = .fifoLevel <;> simp [Event.flushes, h]

@[simp] theorem startsSend_wrote (r : Reg) (bs : List Byte) :
    (wrote cfg r bs).startsSend cfg = (decide (r = .bitFraming) && bs.any fun v => anyBit v (startSend cfg)) := by
  by_cases h : r = .bitFraming <;> simp [Event.startsSend, h]

theorem fifo_wrote (held : List Byte) (r : Reg) (bs : List Byte) : (wrote cfg r bs).fifo cfg held =
    if (wrote cfg r bs).flushes cfg then [] else held ++ if r = .fifoData then bs else [] := by simp [Event.fifo]

theorem fifo_gave (held : List Byte) (r : Reg) (b : Byte) (bs : List Byte) : (gave cfg r (b :: bs)).fifo cfg held = held := by
  simp [Event.fifo, Event.flushes, Event.pushes]

@[simp] theorem sets_wrote (g r : Reg) (b : Byte) : (wrote cfg r [b]).sets cfg g = if r = g then some b else none := by
  simp [Event.sets, wrote]

theorem sets_wrote_other {g r : Reg} (h : r ≠ g) (bs : List Byte) : (wrote cfg r bs).sets cfg g = none := by
  rcases bs with _ | ⟨b, _ | _⟩ <;> simp [Event.sets, wrote, h]

@[simp] theorem issues_wrote (c d : PcdCommand) : (wrote cfg .command [cfg.byte d]).issues cfg c = decide (d = c) := by
  simp [Event.issues, wrote, beq_eq_decide]

@[simp] theorem starts_wrote (c : PcdCommand) : (wrote cfg .command [cfg.byte c]).starts cfg = decide (c = .mfAuthent) := by
  show (_ || _) = _
  rw [issues_wrote, startsSend_wrote]; simp

@[simp] theorem starts_framing (bs : List Byte) : (wrote cfg .bitFraming bs).starts cfg = bs.any fun v => anyBit v (startSend cfg) := by
  have hi : (wrote cfg .bitFraming bs).issues cfg .mfAuthent = false := by
    rcases bs with _ | ⟨b, _ | _⟩ <;> simp [Event.issues, wrote]
  show (_ || _) = _
  rw [hi, startsSend_wrote]; simp

theorem starts_wrote_other {r : Reg} (h : r ≠ .command) (h' : r ≠ .bitFraming) (bs : List Byte) : (wrote cfg r bs).starts cfg = false := by
  have hi : (wrote cfg r bs).issues cfg .mfAuthent = false := by
    rcases bs with _ | ⟨b, _ | _⟩ <;> simp [Event.issues, wrote, h]
  show (_ || _) = _
  rw [hi, startsSend_wrote]; simp [h']

@[simp] theorem starts_gave (r : Reg) (b : Byte) (bs : List Byte) : (gave cfg r (b :: bs)).starts cfg = false := by
  have hi : (gave cfg r (b :: bs)).issues cfg .mfAuthent = false := by
    rcases bs with _ | ⟨d, bs⟩ <;> simp [gave, List.replicate_succ, Event.issues, cfg.ra_ne_wa]
  show (_ || _) = _
  rw [hi]; simp [Event.startsSend]

@[simp] theorem starts_ask (k : WaitKind) (a : Bool) : Event.starts cfg (.ask k a) = false := rfl
@[simp] theorem starts_reset (l : LineLevel) : Event.starts cfg (.reset l) = false := rfl

/-- Events none of which starts a transmission. -/
def quiet (cfg : Cfg) (evs : List Event) : Prop := ∀ e ∈ evs, e.starts cfg = false

@[simp] theorem quiet_nil : quiet cfg [] := by simp [quiet]
@[simp] theorem quiet_cons (e : Event) (es : List Event) : quiet cfg (e :: es) ↔ e.starts cfg = false ∧ quiet cfg es := by simp [quiet]
@[simp] theorem quiet_append (a b : List Event) : quiet cfg (a ++ b) ↔ quiet cfg a ∧ quiet cfg b := by
  simp only [quiet, List.mem_append, or_imp, forall_and]

/-- The readings and queries of a poll loop are quiet. -/
theorem PollRun.quiet {kind : WaitKind} {g : Reg} {ends : Byte → Prop} {es : List Event} {last : Option Byte}
    (h : PollRun cfg kind g ends es last) : quiet cfg es := by
  induction h <;> simp_all

theorem PollRun.ne_nil {kind : WaitKind} {g : Reg} {ends : Byte → Prop} {es : List Event} {last : Option Byte}
    (h : PollRun cfg kind g ends es last) : es ≠ [] := by cases h <;> simp

theorem sends_quiet (u : TxSetup) {e : Event} (h : e.starts cfg = false) : e.sends cfg u = [] := by
  rcases e with m | l | ⟨k, a⟩ | _
  · exact if_neg (Bool.eq_false_iff.1 h)
  · rfl
  · rfl
  · cases h

theorem sentFrom_quiet (u : TxSetup) {evs : List Event} (h : quiet cfg evs) : sentFrom cfg u evs = [] := by
  induction evs generalizing u with
  | nil => rfl
  | cons e es ih =>
    rw [quiet_cons] at h
    rw [sentFrom, sends_quiet u h.1, ih _ h.2]; rfl

/-! ### The CRC transaction with a script -/

/-- The events of `crcStart`. -/
def crcStartSeen (cfg : Cfg) (d : List Byte) : List Event :=
  [wrote cfg .command [cfg.byte .idle], wrote cfg .divIrq [crcIrqClear cfg], wrote cfg .fifoLevel [flushBuffer cfg]] ++
    (if d.isEmpty then [] else [wrote cfg .fifoData d]) ++ [wrote cfg .command [cfg.byte .calcCrc]]

/-- The events of a CRC transaction, `polls` those of its poll loop. -/
def crcSeen (cfg : Cfg) (d : List Byte) (polls : List Event) (lo hi : Byte) : List Event :=
  crcStartSeen cfg d ++ (polls ++ [gave cfg .crcResultL [lo], gave cfg .crcResultH [hi]])

theorem quiet_crcSeen (d : List Byte) {polls : List Event} (hq : quiet cfg polls) (lo hi : Byte) : quiet cfg (crcSeen cfg d polls lo hi) := by
  cases d <;> simp [crcSeen, crcStartSeen, hq, starts_wrote_other]

section

variable {s : State} {r : List Answer}

theorem goes_crcStart (d : List Byte) : (crcStart cfg d).Goes s r (.ok ()) s (crcStartSeen cfg d) r := by
  unfold crcStart
  cases d with
  | nil =>
    refine Proc.Goes.as ((goes_regWrite _ _).bind ((goes_regWrite _ _).bind ((goes_regWrite _ _).bind
      ((goes_regWriteN_nil _).bind (goes_regWrite _ _))))) rfl
  | cons b d =>
    refine Proc.Goes.as ((goes_regWrite _ _).bind ((goes_regWrite _ _).bind ((goes_regWrite _ _).bind
      ((goes_regWriteN _ (List.cons_ne_nil b d)).bind (goes_regWrite _ _))))) rfl

theorem goes_crcCheck (v : Byte) (r : List Answer) :
    (crcCheck cfg).Goes s (.value v :: r) (.ok (if crcIrq cfg v then some () else none)) s [gave cfg .divIrq [v]] r :=
  (goes_regRead _ v).bind (goes_pure _)

theorem goes_pollCrc {v : Byte} {answers : List Answer} (h : PollAnswers (crcIrq cfg) (some v) answers) :
    ∃ polls, PollRun cfg .crc .divIrq (fun v => crcIrq cfg v = true) polls (some v) ∧
      (pollCrc cfg).Goes s (answers ++ r) (.ok ()) s polls r :=
  goes_poll (test := fun v => if crcIrq cfg v then some () else none) (fun _ v r => goes_crcCheck v r)
    (fun v => by cases crcIrq cfg v <;> rfl) h
    (fun w hw => by obtain rfl := Option.some.inj hw; simp [show crcIrq cfg v = true from h.choose_spec.choose_spec.2.1]) (fun h => by cases h)

/-- A CRC poll that its deadline ends (R203). -/
theorem goes_pollCrc_late {answers : List Answer} (h : PollAnswers (crcIrq cfg) none answers) :
    ∃ polls, PollRun cfg .crc .divIrq (fun v => crcIrq cfg v = true) polls none ∧
      (pollCrc cfg).Goes s (answers ++ r) (.error (.raise (.timeout .crc))) s polls r :=
  goes_poll (test := fun v => if crcIrq cfg v then some () else none) (fun _ v r => goes_crcCheck v r)
    (fun v => by cases crcIrq cfg v <;> rfl) h (fun w hw => by cases hw) fun _ => goes_raise _

/-- The CRC transaction on the answers of a poll that ends and the two result bytes. -/
theorem goes_crc (d : List Byte) {v lo hi : Byte} {answers : List Answer} (h : PollAnswers (crcIrq cfg) (some v) answers) :
    ∃ polls, PollRun cfg .crc .divIrq (fun v => crcIrq cfg v = true) polls (some v) ∧
      (crcTransaction cfg d).Goes s (answers ++ .value lo :: .value hi :: r) (.ok (lo, hi)) { s with crcOut := (lo, hi) }
        (crcSeen cfg d polls lo hi) r := by
  obtain ⟨polls, hp, hg⟩ := goes_pollCrc (s := s) (r := .value lo :: .value hi :: r) h
  refine ⟨polls, hp, Proc.Goes.as ((goes_crcStart d).bind (hg.bind ((goes_regRead _ lo).bind ((goes_regRead _ hi).bind
    ((goes_update fun _ _ _ => rfl).bind (goes_pure _)))))) ?_⟩
  simp [crcSeen]

/-! ### transceivePicc with a script -/

/-- The events of a transaction up to its command. -/
def xactStartSeen (cfg : Cfg) (cmd : PiccCommand) (tx : List Byte) (txLastBits rxAlign : BitVec 3) : List Event :=
  [wrote cfg .command [cfg.byte .idle], wrote cfg .comIrq [comIrqClear cfg], wrote cfg .bitFraming [bitFraming rxAlign txLastBits],
    wrote cfg .fifoLevel [flushBuffer cfg]] ++ ((if tx.isEmpty then [] else [wrote cfg .fifoData tx]) ++
    [wrote cfg .command [cfg.byte cmd.pcd]])

/-- The StartSend read and write of Transceive (R210), `start` being what BitFramingReg reads. -/
def startSeen (cfg : Cfg) (cmd : PiccCommand) (start : Byte) : List Event :=
  match cmd with
  | .transceive => [gave cfg .bitFraming [start], wrote cfg .bitFraming [start ||| startSend cfg]]
  | .mfAuthent  => []

theorem goes_issueCommand (cmd : PiccCommand) (start : Byte) :
    (issueCommand cfg cmd).Goes s (startAnswer cmd start ++ r) (.ok ()) s
      (wrote cfg .command [cfg.byte cmd.pcd] :: startSeen cfg cmd start) r := by
  unfold issueCommand
  cases cmd with
  | transceive => exact (goes_regWrite _ _).bind (goes_setBits _ _ _)
  | mfAuthent => exact (goes_regWrite _ _).bind (goes_pure _)

/-- What one test of ComIrqReg finds (R211). -/
def piccTest (cfg : Cfg) (cmd : PiccCommand) (v : Byte) : Option Bool :=
  if commandDone cfg cmd v then some false else if timerIrq cfg v then some true else none

theorem goes_piccCheck (cmd : PiccCommand) (v : Byte) (r : List Answer) :
    (piccCheck cfg cmd).Goes s (.value v :: r) (.ok (piccTest cfg cmd v)) s [gave cfg .comIrq [v]] r :=
  (goes_regRead _ v).bind (goes_pure _)

theorem piccTest_isSome (cmd : PiccCommand) (v : Byte) : (piccTest cfg cmd v).isSome = pollEnds cfg cmd v := by
  unfold piccTest pollEnds
  cases commandDone cfg cmd v <;> cases timerIrq cfg v <;> rfl

/-- Whether a transaction poll that ends like this is a timeout (R211, R213). -/
def timedOut (cfg : Cfg) (cmd : PiccCommand) : Option Byte → Bool
  | some v => !commandDone cfg cmd v
  | none   => true

theorem goes_pollPicc {cmd : PiccCommand} {last : Option Byte} {answers : List Answer} (h : PollAnswers (pollEnds cfg cmd) last answers) :
    ∃ polls, PollRun cfg .picc .comIrq (fun v => pollEnds cfg cmd v = true) polls last ∧
      (pollPicc cfg cmd).Goes s (answers ++ r) (.ok (timedOut cfg cmd last)) s polls r := by
  refine goes_poll (test := piccTest cfg cmd) (fun _ v r => goes_piccCheck cmd v r) (piccTest_isSome cmd) h (fun v hv => ?_)
    fun hn => by subst hn; exact goes_pure _
  subst hv
  have he : pollEnds cfg cmd v = true := h.choose_spec.choose_spec.2.1
  unfold pollEnds at he
  unfold piccTest timedOut
  cases hc : commandDone cfg cmd v <;> simp_all

/-- The events of a response read. -/
def responseSeen (cfg : Cfg) (level : Byte) (bytes : List Byte) (control : Byte) : List Event :=
  [gave cfg .fifoLevel [level]] ++ (if bytes.isEmpty then [] else [gave cfg .fifoData bytes]) ++ [gave cfg .control [control]]

theorem goes_readResponse (al : BitVec 3) {level control : Byte} {bytes : List Byte} (h : fifoCount cfg level = bytes.length) :
    (readResponse cfg al).Goes s (.value level :: (bytes.map .value ++ .value control :: r)) (.ok ())
      { s with rsp := ⟨alignFirst al bytes, rxLastBits cfg control⟩ } (responseSeen cfg level bytes control) r := by
  unfold readResponse
  cases bytes with
  | nil =>
    refine Proc.Goes.as ((goes_regRead _ level).bind (Proc.Goes.bind (a := []) (e1 := []) ?_ ((goes_regRead _ control).bind
      (goes_update fun _ _ _ => rfl)))) rfl
    rw [h]; exact goes_regReadN_zero _ _
  | cons b bs =>
    refine Proc.Goes.as ((goes_regRead _ level).bind (Proc.Goes.bind (a := alignFirst al (b :: bs))
      (e1 := [gave cfg .fifoData (b :: bs)]) ?_ ((goes_regRead _ control).bind (goes_update fun _ _ _ => rfl)))) rfl
    rw [h]; exact goes_regReadN _ _ (List.cons_ne_nil b bs)

/-- The transaction up to the end of its poll, and the StartSend clear behind it (R207 to R212). -/
def transceiveHead (cfg : Cfg) (cmd : PiccCommand) (tx : List Byte) (txLastBits rxAlign : BitVec 3) : Proc Bool := do
  regWrite cfg .command (cfg.byte .idle)
  regWrite cfg .comIrq (comIrqClear cfg)
  regWrite cfg .bitFraming (bitFraming rxAlign txLastBits)
  regWrite cfg .fifoLevel (flushBuffer cfg)
  regWriteN cfg .fifoData tx
  issueCommand cfg cmd
  let timedOut ← pollPicc cfg cmd
  clearBits cfg .bitFraming (startSend cfg)
  pure timedOut

/-- The rest of a transaction (R213 to R217). -/
def transceiveTail (cfg : Cfg) (rxAlign : BitVec 3) (want timedOut : Bool) : Proc XactOutcome :=
  if timedOut then pure .timeout
  else do
    let e ← regRead cfg .error
    if earlyError cfg e then pure (.comm e)
    else do
      if want then readResponse cfg rxAlign else pure ()
      pure (if collError cfg e then .coll else .ok)

theorem transceive_eq (cmd : PiccCommand) (tx : List Byte) (txLastBits rxAlign : BitVec 3) (want : Bool) :
    transceive cfg .registers cmd tx txLastBits rxAlign want =
      transceiveHead cfg cmd tx txLastBits rxAlign >>= transceiveTail cfg rxAlign want := by
  simp only [transceive, transceiveRegisters, transceiveHead, transceiveTail, bind_assoc, pure_bind]

/-- The events of the head of a transaction, `polls` those of its poll loop. -/
def headSeen (cfg : Cfg) (cmd : PiccCommand) (tx : List Byte) (txLastBits rxAlign : BitVec 3) (start : Byte) (polls : List Event)
    (framing : Byte) : List Event :=
  xactStartSeen cfg cmd tx txLastBits rxAlign ++ (startSeen cfg cmd start ++ polls ++
    [gave cfg .bitFraming [framing], wrote cfg .bitFraming [framing &&& ~~~startSend cfg]])

theorem goes_transceiveHead {cmd : PiccCommand} (tx : List Byte) (tl al : BitVec 3) (start framing : Byte)
    {last : Option Byte} {answers : List Answer} (h : PollAnswers (pollEnds cfg cmd) last answers) :
    ∃ polls, PollRun cfg .picc .comIrq (fun v => pollEnds cfg cmd v = true) polls last ∧
      (transceiveHead cfg cmd tx tl al).Goes s (startAnswer cmd start ++ (answers ++ .value framing :: r)) (.ok (timedOut cfg cmd last)) s
        (headSeen cfg cmd tx tl al start polls framing) r := by
  obtain ⟨polls, hp, hg⟩ := goes_pollPicc (s := s) (r := .value framing :: r) h
  refine ⟨polls, hp, ?_⟩
  have hload : (regWriteN cfg .fifoData tx).Goes s (startAnswer cmd start ++ (answers ++ .value framing :: r)) (.ok ()) s
      (if tx.isEmpty then [] else [wrote cfg .fifoData tx]) (startAnswer cmd start ++ (answers ++ .value framing :: r)) := by
    cases tx with
    | nil => exact goes_regWriteN_nil _
    | cons b bs => exact goes_regWriteN _ (List.cons_ne_nil b bs)
  unfold transceiveHead
  refine Proc.Goes.as ((goes_regWrite _ _).bind ((goes_regWrite _ _).bind ((goes_regWrite _ _).bind ((goes_regWrite _ _).bind
    (hload.bind ((goes_issueCommand cmd start).bind (hg.bind ((goes_clearBits _ _ framing).bind
    (goes_pure _))))))))) ?_
  simp [headSeen, xactStartSeen]

/-- The transaction behind the head (R213 to R217), by the card's reply (R218). -/
theorem goes_transceiveTail (al : BitVec 3) {cmd : PiccCommand} {want : Bool} {reply : Reply} {last : Option Byte} {tail : List Answer}
    (h : TailAnswers cfg cmd want last tail reply) :
    ∃ seen, quiet cfg seen ∧ (transceiveTail cfg al want (timedOut cfg cmd last)).Goes s (tail ++ r) (.ok reply.outcome)
      { s with rsp := reply.rspAfter want al s.rsp } seen r := by
  cases reply with
  | silent =>
    obtain ⟨hd, rfl⟩ := h
    have ht : timedOut cfg cmd last = true := by
      cases last with
      | none => rfl
      | some v => simp [timedOut, hd v rfl]
    rw [ht]; exact ⟨[], by simp, goes_pure _⟩
  | garbled e =>
    obtain ⟨⟨v, rfl, hd⟩, he, rfl⟩ := h
    rw [show timedOut cfg cmd (some v) = false by simp [timedOut, hd]]
    refine ⟨[gave cfg .error [e]], by simp, Proc.Goes.as ((goes_regRead _ e).bind (e2 := []) ?_) (by simp)⟩
    rw [if_pos he]; exact goes_pure _
  | reply bytes vb coll =>
    obtain ⟨⟨v, rfl, hd⟩, e, rest, he, hc, rfl, hw⟩ := h
    rw [show timedOut cfg cmd (some v) = false by simp [timedOut, hd]]
    have ho : (if collError cfg e = true then XactOutcome.coll else .ok) = (Reply.reply bytes vb coll).outcome := by
      rw [hc]; cases coll <;> rfl
    cases want with
    | false =>
      simp only [Bool.false_eq_true, if_false] at hw
      subst hw
      refine ⟨[gave cfg .error [e]], by simp, Proc.Goes.as ((goes_regRead _ e).bind (e2 := []) ?_) (by simp)⟩
      rw [if_neg (by simp [he])]
      simp only [Bool.false_eq_true, if_false, ho]
      exact goes_pure _
    | true =>
      simp only [if_true] at hw
      obtain ⟨level, control, hl, hv, rfl⟩ := hw
      refine ⟨gave cfg .error [e] :: responseSeen cfg level bytes control, by cases bytes <;> simp [responseSeen],
        Proc.Goes.as ((goes_regRead _ e).bind (e2 := responseSeen cfg level bytes control) ?_) (by simp)⟩
      rw [if_neg (by simp [he])]
      refine Proc.Goes.as (Proc.Goes.bind (a := ()) (e1 := responseSeen cfg level bytes control) (e2 := []) ?_
        (by rw [ho]; exact goes_pure _)) (by simp)
      have := goes_readResponse (s := s) (r := r) al (control := control) hl
      rw [hv] at this
      simpa [Reply.rspAfter] using this

/-- A transaction with a conforming script, by the card's reply (R218). -/
theorem goes_transceive {cmd : PiccCommand} (tx : List Byte) (tl al : BitVec 3) {want : Bool} {reply : Reply}
    {answers : List Answer} (h : XactAnswers cfg cmd want reply answers) :
    ∃ start post, quiet cfg post ∧
      (transceive cfg .registers cmd tx tl al want).Goes s (answers ++ r) (.ok reply.outcome)
        { s with rsp := reply.rspAfter want al s.rsp } (xactStartSeen cfg cmd tx tl al ++ (startSeen cfg cmd start ++ post)) r := by
  obtain ⟨start, last, pa, framing, tail, hp, rfl, h⟩ := h
  obtain ⟨polls, hr, hh⟩ := goes_transceiveHead (s := s) (r := tail ++ r) tx tl al start framing hp
  obtain ⟨seen, hs, ht⟩ := goes_transceiveTail (s := s) (r := r) al h
  refine ⟨start, polls ++ [gave cfg .bitFraming [framing], wrote cfg .bitFraming [framing &&& ~~~startSend cfg]] ++ seen,
    by simp [hs, hr.quiet], ?_⟩
  · rw [transceive_eq]
    refine Proc.Goes.as (Proc.Goes.bind (by simpa using hh) ht) ?_
    simp [headSeen]

/-- Such a transaction sends its frame and no other, with the framing byte it wrote (R208 to R210). -/
theorem sentFrom_xactSeen (u : TxSetup) (cmd : PiccCommand) (tx : List Byte) (tl al : BitVec 3) (start : Byte) {post : List Event}
    (hq : quiet cfg post) : sentFrom cfg u (xactStartSeen cfg cmd tx tl al ++ (startSeen cfg cmd start ++ post)) = [(bitFraming al tl, tx)] := by
  have hc : ∀ (w : TxSetup) (c : PcdCommand), (wrote cfg .command [cfg.byte c]).sends cfg w =
      if c = .mfAuthent then [(w.framing, w.contents)] else [] := fun w c => by
    show (if (wrote cfg .command [cfg.byte c]).starts cfg = true then _ else _) = _
    rw [starts_wrote]; simp only [decide_eq_true_eq]
  have hf : ∀ (w : TxSetup) (b : Byte), (wrote cfg .bitFraming [b]).sends cfg w =
      if anyBit b (startSend cfg) then [(w.framing, w.contents)] else [] := fun w b => by
    show (if (wrote cfg .bitFraming [b]).starts cfg = true then _ else _) = _
    rw [starts_framing]; simp
  have hn : ∀ (w : TxSetup) (r : Reg) (bs : List Byte), r ≠ .command → r ≠ .bitFraming → (wrote cfg r bs).sends cfg w = [] :=
    fun w r bs h h' => sends_quiet w (starts_wrote_other h h' bs)
  have hg : ∀ (w : TxSetup) (r : Reg) (b : Byte), (gave cfg r [b]).sends cfg w = [] := fun w r b => sends_quiet w (by simp)
  cases tx <;> cases cmd <;>
    simp [xactStartSeen, startSeen, sentFrom, hc, hf, hn, hg, TxSetup.next, fifo_wrote, fifo_gave, sentFrom_quiet _ hq, PiccCommand.pcd]

/-- `Goes` with what the events send: what the callers of a transaction need of its trace. -/
def Proc.Sends {α : Type} (cfg : Cfg) (p : Proc α) (s : State) (r : List Answer) (x : Except Stop α) (u : State)
    (frames : List (Byte × List Byte)) (r' : List Answer) : Prop :=
  ∀ evs d q, ∃ new d' q', p.exec (s.did evs r d q) = (x, u.did (evs ++ new) r' d' q') ∧ ∀ w, sentFrom cfg w new = frames

end

section

variable {α β : Type} {s u v : State} {r r1 r2 : List Answer}

theorem Proc.Goes.sends {p : Proc α} {x : Except Stop α} {seen : List Event} {frames : List (Byte × List Byte)}
    (h : p.Goes s r x u seen r1) (hf : ∀ w, sentFrom cfg w seen = frames) : p.Sends cfg s r x u frames r1 := fun evs d q => by
  obtain ⟨new, d', q', hx, rfl⟩ := h evs d q
  exact ⟨new, d', q', hx, fun w => (sentFrom_seen w new).symm.trans (hf w)⟩

theorem Proc.Goes.sends_nothing {p : Proc α} {x : Except Stop α} {seen : List Event} (h : p.Goes s r x u seen r1) (hq : quiet cfg seen) :
    p.Sends cfg s r x u [] r1 := h.sends fun w => sentFrom_quiet w hq

theorem Proc.Sends.bind {x : Proc α} {f : α → Proc β} {a : α} {b : Except Stop β} {f1 f2 : List (Byte × List Byte)}
    (hx : x.Sends cfg s r (.ok a) u f1 r1) (hf : (f a).Sends cfg u r1 b v f2 r2) : (x >>= f).Sends cfg s r b v (f1 ++ f2) r2 := fun evs d q => by
  obtain ⟨n1, d1, q1, h1, hf1⟩ := hx evs d q
  obtain ⟨n2, d2, q2, h2, hf2⟩ := hf (evs ++ n1) d1 q1
  exact ⟨n1 ++ n2, d2, q2, by rw [Proc.exec_bind_ok h1, h2, List.append_assoc], fun w => by rw [sentFrom_append, hf1, hf2]⟩

theorem Proc.Sends.bind_error {x : Proc α} {f : α → Proc β} {e : Stop} {f1 : List (Byte × List Byte)}
    (hx : x.Sends cfg s r (.error e) u f1 r1) : (x >>= f).Sends cfg s r (.error e) u f1 r1 := fun evs d q => by
  obtain ⟨n1, d1, q1, h1, hf1⟩ := hx evs d q
  exact ⟨n1, d1, q1, Proc.exec_bind_error h1, hf1⟩

/-- A procedure that takes the position as a loop head. -/
theorem sends_head {f : Pos → Proc α} {x : Except Stop α} {frames : List (Byte × List Byte)}
    (h : ∀ head, (f head).Sends cfg s r x u frames r1) : (Proc.look State.pos >>= f).Sends cfg s r x u frames r1 := fun evs d q => by
  obtain ⟨new, d', q', h', hn⟩ := h q evs d q
  exact ⟨new, d', q', by rw [Proc.exec_bind_ok (Proc.exec_look _ _)]; exact h', hn⟩

theorem sends_pure (a : α) : (pure a : Proc α).Sends cfg s r (.ok a) s [] r := (goes_pure a).sends_nothing (by simp)

theorem sends_raise (e : Err) : (Proc.raise e : Proc α).Sends cfg s r (.error (.raise e)) s [] r := (goes_raise e).sends_nothing (by simp)

theorem sends_unmodelled (m : UnmodelledReason) : (Proc.unmodelled m : Proc α).Sends cfg s r (.error (.unmodelled m)) s [] r :=
  (goes_unmodelled m).sends_nothing (by simp)

theorem sends_look {f : State → α} {a : α} (h : ∀ evs d q, f (s.did evs r d q) = a) : (Proc.look f).Sends cfg s r (.ok a) s [] r :=
  (goes_look h).sends_nothing (by simp)

theorem sends_update {f : State → State} (h : ∀ evs d q, f (s.did evs r d q) = u.did evs r d q) :
    (Proc.update f).Sends cfg s r (.ok ()) u [] r := (goes_update h).sends_nothing (by simp)

theorem sends_crc (d : List Byte) {answers : List Answer} (h : CrcAnswers cfg d answers) :
    (crcTransaction cfg d).Sends cfg s (answers ++ r) (.ok (crcLow d, crcHigh d)) { s with crcOut := (crcLow d, crcHigh d) } [] r := by
  obtain ⟨v, pa, hv, rfl⟩ := h
  obtain ⟨polls, hp, hg⟩ := goes_crc (s := s) (r := r) (lo := crcLow d) (hi := crcHigh d) d hv
  exact Proc.Goes.sends_nothing (by simpa using hg) (quiet_crcSeen d hp.quiet _ _)

/-- A CRC transaction that its deadline ends (R203). -/
theorem sends_crc_late (d : List Byte) {answers : List Answer} (h : PollAnswers (crcIrq cfg) none answers) :
    (crcTransaction cfg d).Sends cfg s (answers ++ r) (.error (.raise (.timeout .crc))) s [] r := by
  obtain ⟨polls, hp, hg⟩ := goes_pollCrc_late (s := s) (r := r) h
  refine Proc.Goes.sends_nothing (seen := crcStartSeen cfg d ++ polls) ((goes_crcStart d).bind hg.bind_error) ?_
  cases d <;> simp [crcStartSeen, hp.quiet, starts_wrote_other]

/-- A transaction of any bytes, none included, sends them with the framing it wrote. -/
theorem sends_transceive {cmd : PiccCommand} (tx : List Byte) (tl al : BitVec 3) {want : Bool} {reply : Reply} {answers : List Answer}
    (h : XactAnswers cfg cmd want reply answers) :
    (transceive cfg .registers cmd tx tl al want).Sends cfg s (answers ++ r) (.ok reply.outcome)
      { s with rsp := reply.rspAfter want al s.rsp } [(bitFraming al tl, tx)] r := by
  obtain ⟨start, post, hq, hg⟩ := goes_transceive (s := s) (r := r) tx tl al h
  exact hg.sends fun w => sentFrom_xactSeen w cmd tx tl al start hq

/-- A transaction of whole bytes whose clean answer is read. -/
theorem sends_reply (tx : List Byte) (tl : BitVec 3) {bytes : List Byte} {vb : BitVec 3} {answers : List Answer}
    (h : XactAnswers cfg .transceive true (.reply bytes vb none) answers) :
    (transceive cfg .registers .transceive tx tl 0 true).Sends cfg s (answers ++ r) (.ok .ok) { s with rsp := ⟨bytes, vb⟩ }
      [(bitFraming 0 tl, tx)] r := by
  have := sends_transceive (s := s) (r := r) tx tl 0 h
  simpa [Reply.rspAfter, Reply.outcome] using this

/-- A run from the state itself, with the frames it sent. -/
theorem Proc.Sends.run {p : Proc α} {x : Except Stop α} {frames : List (Byte × List Byte)} (h : p.Sends cfg s r x u frames r1)
    (hr : s.answers = r) : ∃ evs d q, p.exec s = (x, u.did evs r1 d q) ∧ framesSent cfg evs = frames := by
  obtain ⟨evs, d, q, h, hf⟩ := h [] s.draws s.pos
  rw [← hr, did_self] at h
  exact ⟨evs, d, q, by simpa using h, hf _⟩

end

end Sys2Proof.Machine
end

