-- ==== Sys2Proof/Laws/Calls.lean ====
section
/-! SUPPORT. How a host call and an internal row end, from how their procedures run. -/

namespace Sys2Proof.Machine

variable {s u : State} {r : List Answer} {cfg : Cfg}

theorem unlessStuck_none (h : s.faultMark = none) (go : StepResult) : unlessStuck s go = go := by simp [unlessStuck, h]

theorem unlessStuck_some {m : UnmodelledReason} (h : s.faultMark = some m) (go : StepResult) : unlessStuck s go = .fault (.stuck m) := by
  simp [unlessStuck, h]

theorem withArg_some {α : Type} {a : Option α} {x : α} (hf : s.faultMark = none) (h : a = some x) (go : α → StepResult) :
    withArg s a go = go x := by simp [withArg, unlessStuck_none hf, h]

/-- A call that is not refused runs its procedure. -/
theorem hostCall_run {op : HostOp} {nr : Bool} {own : Option RefuseReason} {p : Proc Value} (hf : s.faultMark = none)
    (hr : refusalOf s nr own = none) : hostCall op nr own p s = .next (finishCall (p.exec (s.startCall op))) := by
  simp [hostCall, unlessStuck_none hf, hr]

theorem hostCall_refused {op : HostOp} {nr : Bool} {own : Option RefuseReason} {p : Proc Value} {m : RefuseReason}
    (hf : s.faultMark = none) (hr : refusalOf s nr own = some m) : hostCall op nr own p s = .next (s.refuse m) := by
  simp [hostCall, unlessStuck_none hf, hr]

theorem refusalOf_none {nr : Bool} {own : Option RefuseReason} (hb : s.busy = false) (hr : nr = true → s.ready = true)
    (ho : own = none) : refusalOf s nr own = none := by
  subst ho
  cases nr <;> simp_all [refusalOf]

theorem refusalOf_accepts (h : s.accepts) (nr : Bool) : refusalOf s nr none = none := refusalOf_none h.2.1 (fun _ => h.2.2) rfl

/-- A call whose procedure gives a value. -/
theorem hostCall_value {op : HostOp} {nr : Bool} {own : Option RefuseReason} {p : Proc Value} {v : Value} {frames : List (Byte × List Byte)}
    (hf : s.faultMark = none) (hr : refusalOf s nr own = none) (h : p.Sends cfg (s.startCall op) s.answers (.ok v) u frames r) :
    ∃ evs d, hostCall op nr own p s = .next ((u.did evs r d .idle).giveBack (.value v)) ∧ framesSent cfg evs = frames := by
  obtain ⟨evs, d, q, h, hs⟩ := h.run rfl
  exact ⟨evs, d, by rw [hostCall_run hf hr, h]; rfl, hs⟩

/-- A call whose procedure raises an error. -/
theorem hostCall_error {op : HostOp} {nr : Bool} {own : Option RefuseReason} {p : Proc Value} {e : Err} {frames : List (Byte × List Byte)}
    (hf : s.faultMark = none) (hr : refusalOf s nr own = none) (h : p.Sends cfg (s.startCall op) s.answers (.error (.raise e)) u frames r) :
    ∃ evs d, hostCall op nr own p s = .next ((u.did evs r d .idle).giveBack (.error e)) ∧ framesSent cfg evs = frames := by
  obtain ⟨evs, d, q, h, hs⟩ := h.run rfl
  exact ⟨evs, d, by rw [hostCall_run hf hr, h]; rfl, hs⟩

/-- The same with the events themselves. -/
theorem hostCall_goes {op : HostOp} {nr : Bool} {own : Option RefuseReason} {p : Proc Value} {v : Value} {seen : List Event}
    (hf : s.faultMark = none) (hr : refusalOf s nr own = none) (h : p.Goes (s.startCall op) s.answers (.ok v) u seen r) :
    ∃ evs d, hostCall op nr own p s = .next ((u.did evs r d .idle).giveBack (.value v)) ∧ evs.map Event.seen = seen := by
  obtain ⟨evs, d, q, h, hs⟩ := h.run rfl
  exact ⟨evs, d, by rw [hostCall_run hf hr, h]; rfl, hs⟩

/-- The same for an error. -/
theorem hostCall_goes_error {op : HostOp} {nr : Bool} {own : Option RefuseReason} {p : Proc Value} {e : Err} {seen : List Event}
    (hf : s.faultMark = none) (hr : refusalOf s nr own = none) (h : p.Goes (s.startCall op) s.answers (.error (.raise e)) u seen r) :
    ∃ evs d, hostCall op nr own p s = .next ((u.did evs r d .idle).giveBack (.error e)) ∧ evs.map Event.seen = seen := by
  obtain ⟨evs, d, q, h, hs⟩ := h.run rfl
  exact ⟨evs, d, by rw [hostCall_run hf hr, h]; rfl, hs⟩

/-- An internal row whose procedure gives a value. -/
theorem runRow_goes {p : Proc Value} {v : Value} {seen : List Event} (hf : s.faultMark = none)
    (h : p.Goes s s.answers (.ok v) u seen r) :
    ∃ evs d q, runRow p s = .next { u.did evs r d q with result := some (.value v) } ∧ evs.map Event.seen = seen := by
  obtain ⟨evs, d, q, h, hs⟩ := h.run rfl
  exact ⟨evs, d, q, by rw [runRow, unlessStuck_none hf, h]; rfl, hs⟩

/-- The same with the frames sent. -/
theorem runRow_sends {p : Proc Value} {v : Value} {frames : List (Byte × List Byte)} (hf : s.faultMark = none)
    (h : p.Sends cfg s s.answers (.ok v) u frames r) :
    ∃ evs d q, runRow p s = .next { u.did evs r d q with result := some (.value v) } ∧ framesSent cfg evs = frames := by
  obtain ⟨evs, d, q, h, hs⟩ := h.run rfl
  exact ⟨evs, d, q, by rw [runRow, unlessStuck_none hf, h]; rfl, hs⟩

/-- An internal row whose procedure raises an error. -/
theorem runRow_error {p : Proc Value} {e : Err} {frames : List (Byte × List Byte)} (hf : s.faultMark = none)
    (h : p.Sends cfg s s.answers (.error (.raise e)) u frames r) :
    ∃ evs d, runRow p s = .next ((u.did evs r d .idle).giveBack (.error e)) ∧ framesSent cfg evs = frames := by
  obtain ⟨evs, d, q, h, hs⟩ := h.run rfl
  exact ⟨evs, d, by rw [runRow, unlessStuck_none hf, h]; rfl, hs⟩

end Sys2Proof.Machine
end

