-- ==== Sys2Proof/Laws/Blocks.lean ====
section
/-! SUPPORT. What authentication, block I/O and the sector store do with a conforming script (R180 to R188, R230 to R234). -/

namespace Sys2Proof.Machine

variable {cfg : Cfg} {s : State} {r : List Answer}

theorem sends_jump (head : Pos) : (jump head).Sends cfg s r (.ok ()) s [] r := Proc.Goes.sends_nothing (goes_jump head) (by simp)

/-! ### Lengths -/

theorem slice_length {n : Nat} (v : Vector Byte n) (start len : Nat) (h : start + len ≤ n) : (slice v start len).length = len := by
  simp [slice]; omega

theorem padBlock_length {data : List Byte} (h : data.length ≤ 16) : (padBlock data).length = 16 := by
  simp [padBlock, Config.blockLen]; omega

theorem crcBytes_length (d : List Byte) : (crcBytes d).length = 2 := rfl

/-! ### Frames -/

/-- The authentication frame of a store access, if the sector is not the cached one: key B, six 0xFF, the block's own address (R230). -/
def storeAuth (cfg : Cfg) (uidLast4 : List Byte) (cached : Option (Fin 16)) (a : Byte) : List (Byte × List Byte) :=
  if cached = some (sectorOf a) then [] else [(0x00, [cfg.picc.authB, a, 0xFF, 0xFF, 0xFF, 0xFF, 0xFF, 0xFF] ++ uidLast4)]

/-- The frame of a block read (R102). -/
def readFrameOf (cfg : Cfg) (a : Byte) : Byte × List Byte := (0x00, [cfg.picc.read, a] ++ crcBytes [cfg.picc.read, a])

/-- The two frames of a block write (R103). -/
def writeFramesOf (cfg : Cfg) (a : Byte) (data : List Byte) : List (Byte × List Byte) :=
  [(0x00, [cfg.picc.write, a] ++ crcBytes [cfg.picc.write, a]), (0x00, padBlock data ++ crcBytes (padBlock data))]

/-- Frames of whole bytes go out with no bit counts set (R87). -/
@[simp] theorem bitFraming_zero : bitFraming 0 0 = 0x00 := rfl

/-! ### Authentication and blocks -/

theorem sends_auth {answers : List Answer} (h : AuthAnswers cfg answers) (key : Key) (a : Byte) :
    (authBlock cfg .registers key a).Sends cfg s (answers ++ r) (.ok ()) s
      [(0x00, authBytes cfg key.kind a key.bytes.toList s.uidLast4)] r := by
  unfold authBlock sendAuth
  exact (sends_look fun _ _ _ => rfl).bind ((sends_transceive _ _ _ h).bind (f2 := []) (sends_pure _))

theorem sends_readCardBlock {a : Byte} {data : List Byte} {answers : List Answer} (hd : data.length = 16) (h : ReadAnswers cfg a data answers) :
    (readCardBlock cfg .registers a).Sends cfg s (answers ++ r) (.ok data)
      { s with rsp := ⟨data ++ crcBytes data, 0⟩, crcOut := (crcLow data, crcHigh data) }
      [readFrameOf cfg a] r := by
  obtain ⟨c1, x, c2, h1, hx, h2, rfl⟩ := h
  have e : c1 ++ x ++ c2 ++ r = c1 ++ (x ++ (c2 ++ r)) := by simp
  rw [e]
  unfold readCardBlock sendFrame
  refine Proc.Sends.bind (f1 := []) (sends_crc _ h1) (Proc.Sends.bind (f2 := []) (sends_reply _ _ hx)
    (Proc.Sends.bind (f1 := []) (f2 := []) (sends_pure _) ?_))
  unfold checkRead
  refine Proc.Sends.bind (f1 := []) (f2 := []) (sends_look (a := ⟨data ++ crcBytes data, 0⟩) ?_) ?_
  · intro _ _ _; simp [State.did]
  · have hs : readShape ⟨data ++ crcBytes data, 0⟩ = true := by simp [readShape, PiccResponse.n, hd, crcBytes_length]
    have ht : (data ++ crcBytes data).take 16 = data := by simp [← hd]
    have h16 : (data ++ crcBytes data).getD 16 0 = crcLow data := by simp [← hd, crcBytes]
    have h17 : (data ++ crcBytes data).getD 17 0 = crcHigh data := by
      simp [List.getD, hd, crcBytes]
    rw [if_pos hs]
    simp only [ht]
    refine Proc.Sends.bind (f1 := []) (f2 := []) (sends_crc _ h2) ?_
    rw [if_pos ⟨h16.symm, h17.symm⟩]
    exact sends_pure data

theorem acked_ack (h : BitVec 4) : acked ⟨[h ++ Config.mfAck], 4⟩ = true := by
  revert h; decide

theorem sends_writePhase {frame : List Byte} {answers : List Answer} {hi : BitVec 4}
    (hx : XactAnswers cfg .transceive true (ackReply hi) answers) :
    (writePhase cfg .registers frame).Sends cfg s (answers ++ r) (.ok ()) { s with rsp := ⟨[hi ++ Config.mfAck], 4⟩ } [(0x00, frame)] r := by
  unfold writePhase sendFrame
  refine Proc.Sends.bind (f2 := []) (sends_reply _ _ hx) (Proc.Sends.bind (f1 := []) (f2 := []) (sends_pure _) ?_)
  unfold ackCheck
  refine Proc.Sends.bind (f1 := []) (f2 := []) (sends_look (a := ⟨[hi ++ Config.mfAck], 4⟩) ?_) ?_
  · intro _ _ _; simp [State.did]
  · rw [if_pos (acked_ack hi)]
    exact sends_pure ()

/-- A block write leaves the last response and CRC, and nothing else. -/
theorem sends_writeCardBlock {a : Byte} {data : List Byte} {answers : List Answer} (h : WriteAnswers cfg a data answers) :
    ∃ hi : BitVec 4, (writeCardBlock cfg .registers a data).Sends cfg s (answers ++ r) (.ok ())
      { s with rsp := ⟨[hi ++ Config.mfAck], 4⟩, crcOut := (crcLow (padBlock data), crcHigh (padBlock data)) }
      (writeFramesOf cfg a data) r := by
  obtain ⟨c1, x1, c2, x2, h1, h2, hc1, hx1, hc2, hx2, rfl⟩ := h
  refine ⟨h2, ?_⟩
  have e : c1 ++ x1 ++ c2 ++ x2 ++ r = c1 ++ (x1 ++ (c2 ++ (x2 ++ r))) := by simp
  rw [e]
  unfold writeCardBlock
  exact Proc.Sends.bind (f1 := []) (sends_crc _ hc1) (Proc.Sends.bind (f1 := [_]) (sends_writePhase hx1)
    (Proc.Sends.bind (f1 := []) (sends_crc _ hc2) (sends_writePhase hx2)))

/-! ### The store -/

theorem sends_authSector {a : Byte} {answers : List Answer} (h : SectorAnswers cfg s.lastAuthSector a answers) :
    (authSector cfg .registers a).Sends cfg s (answers ++ r) (.ok ()) { s with lastAuthSector := some (sectorOf a) }
      (storeAuth cfg s.uidLast4 s.lastAuthSector a) r := by
  unfold authSector
  refine Proc.Sends.bind (f1 := []) (f2 := storeAuth cfg s.uidLast4 s.lastAuthSector a)
    (sends_look (a := s.lastAuthSector) fun _ _ _ => rfl) ?_
  simp only [SectorAnswers] at h
  by_cases hc : s.lastAuthSector = some (sectorOf a)
  · rw [if_pos hc] at h
    subst h
    rw [if_pos hc, show storeAuth cfg s.uidLast4 s.lastAuthSector a = [] from if_pos hc]
    have : ({ s with lastAuthSector := some (sectorOf a) } : State) = s := by rw [← hc]
    rw [this]; exact sends_pure _
  · rw [if_neg hc] at h
    rw [if_neg hc, show storeAuth cfg s.uidLast4 s.lastAuthSector a = _ from if_neg hc]
    exact (sends_auth h Config.storeKey a).bind (f2 := []) (sends_update fun _ _ _ => rfl)

/-- The state after a block read through the cache, its transport aside. -/
def State.afterRead (s : State) (a : Byte) (data : List Byte) : State :=
  { s with lastAuthSector := some (sectorOf a), rsp := ⟨data ++ crcBytes data, 0⟩, crcOut := (crcLow data, crcHigh data) }

/-- The state after a block write through the cache, its transport aside. -/
def State.afterWrite (s : State) (a : Byte) (data : List Byte) (hi : BitVec 4) : State :=
  { s with lastAuthSector := some (sectorOf a), rsp := ⟨[hi ++ Config.mfAck], 4⟩, crcOut := (crcLow (padBlock data), crcHigh (padBlock data)) }

theorem sends_readThrough {a : Byte} {data : List Byte} {x y : List Answer} (hd : data.length = 16) (hx : SectorAnswers cfg s.lastAuthSector a x)
    (hy : ReadAnswers cfg a data y) :
    (readThrough cfg .registers a).Sends cfg s (x ++ (y ++ r)) (.ok data)
      (s.afterRead a data)
      (storeAuth cfg s.uidLast4 s.lastAuthSector a ++ [readFrameOf cfg a]) r :=
  Proc.Sends.bind (sends_authSector hx) (sends_readCardBlock hd hy)

theorem sends_writeThrough {a : Byte} {data : List Byte} {x y : List Answer} (hx : SectorAnswers cfg s.lastAuthSector a x) (hy : WriteAnswers cfg a data y) :
    ∃ hi : BitVec 4, (writeThrough cfg .registers a data).Sends cfg s (x ++ (y ++ r)) (.ok ())
      (s.afterWrite a data hi)
      (storeAuth cfg s.uidLast4 s.lastAuthSector a ++ writeFramesOf cfg a data) r := by
  obtain ⟨hi, h⟩ := sends_writeCardBlock (s := { s with lastAuthSector := some (sectorOf a) }) (r := r) hy
  exact ⟨hi, Proc.Sends.bind (sends_authSector hx) h⟩

/-- The sector cached after accesses to the blocks of a list that are not forbidden. -/
def cachedAfter (cfg : Cfg) (cached : Option (Fin 16)) (bs : List Byte) : Option (Fin 16) :=
  bs.foldl (fun c b => if forbidden cfg b then c else some (sectorOf b)) cached

/-- The frames of a read of the blocks of a list. -/
def readAllFrames (cfg : Cfg) (u : List Byte) : Option (Fin 16) → List Byte → List (Byte × List Byte)
  | _, [] => []
  | c, b :: bs =>
    if forbidden cfg b then readAllFrames cfg u c bs else storeAuth cfg u c b ++ [readFrameOf cfg b] ++ readAllFrames cfg u (some (sectorOf b)) bs

theorem sends_readAll {content : Byte → Vector Byte 16} (bs : List Byte) {s : State} {answers : List Answer}
    (h : ReadAllAnswers cfg content s.lastAuthSector bs answers) :
    ∃ rsp crc, ∀ head, (readAll cfg .registers head bs).Sends cfg s (answers ++ r) (.ok ((bs.filter fun b => !forbidden cfg b).flatMap fun b => (content b).toList))
      { s with lastAuthSector := cachedAfter cfg s.lastAuthSector bs, rsp := rsp, crcOut := crc }
      (readAllFrames cfg s.uidLast4 s.lastAuthSector bs) r := by
  induction bs generalizing s answers with
  | nil =>
    obtain rfl : answers = [] := h
    exact ⟨s.rsp, s.crcOut, fun _ => sends_pure _⟩
  | cons b bs ih =>
    by_cases hf : forbidden cfg b = true
    · simp only [ReadAllAnswers, hf, if_true] at h
      obtain ⟨rsp, crc, hr⟩ := ih h
      refine ⟨rsp, crc, fun head => ?_⟩
      have e : readAllFrames cfg s.uidLast4 s.lastAuthSector (b :: bs) = readAllFrames cfg s.uidLast4 s.lastAuthSector bs := if_pos hf
      rw [e]
      refine Proc.Sends.bind (f1 := []) (sends_jump head) ?_
      simpa [cachedAfter, hf] using hr head
    · simp only [ReadAllAnswers, hf] at h
      obtain ⟨x, y, z, hx, hy, hz, rfl⟩ := h
      have hd : (content b).toList.length = 16 := by simp
      obtain ⟨rsp, crc, hr⟩ := ih (s := State.afterRead s b (content b).toList) hz
      refine ⟨rsp, crc, fun head => ?_⟩
      have e : x ++ y ++ z ++ r = x ++ (y ++ (z ++ r)) := by simp
      simp only [readAll, readAllFrames, cachedAfter, hf, e, List.foldl_cons, List.filter_cons, Bool.not_false, if_true,
        List.flatMap_cons, Bool.false_eq_true, if_false]
      refine Proc.Sends.bind (f1 := []) (sends_jump head) (Proc.Sends.bind (sends_readThrough hd hx hy) ?_)
      have := Proc.Sends.bind (f := fun rest => pure ((content b).toList ++ rest)) (f2 := []) (hr head) (sends_pure _)
      rw [List.append_nil] at this
      exact this

theorem sends_readStore {content : Byte → Vector Byte 16} {s : State} {answers : List Answer}
    (h : ReadAllAnswers cfg content s.lastAuthSector allBlocks answers) :
    ∃ rsp crc, (readStore cfg .registers).Sends cfg s (answers ++ r) (.ok ((usableBlocks cfg).flatMap fun b => (content b).toList))
      { s with lastAuthSector := cachedAfter cfg s.lastAuthSector allBlocks, rsp := rsp, crcOut := crc }
      (readAllFrames cfg s.uidLast4 s.lastAuthSector allBlocks) r :=
  let ⟨rsp, crc, h⟩ := sends_readAll allBlocks h
  ⟨rsp, crc, sends_head h⟩

/-- The frames of a write of chunks into the blocks of a list. -/
def writeAllFrames (cfg : Cfg) (u : List Byte) : Option (Fin 16) → List Byte → List (List Byte) → List (Byte × List Byte)
  | _, _, [] => []
  | _, [], _ :: _ => []
  | c, b :: bs, ch :: cs =>
    if forbidden cfg b then writeAllFrames cfg u c bs (ch :: cs)
    else storeAuth cfg u c b ++ writeFramesOf cfg b ch ++ writeAllFrames cfg u (some (sectorOf b)) bs cs

/-- The sector cached after a write of chunks into the blocks of a list. -/
def cachedAfterWrite (cfg : Cfg) (cached : Option (Fin 16)) : List Byte → List (List Byte) → Option (Fin 16)
  | _, [] => cached
  | [], _ :: _ => cached
  | b :: bs, ch :: cs => if forbidden cfg b then cachedAfterWrite cfg cached bs (ch :: cs) else cachedAfterWrite cfg (some (sectorOf b)) bs cs

theorem sends_writeAll (bs : List Byte) {s : State} {chunks : List (List Byte)} {answers : List Answer}
    (h : WriteAllAnswers cfg s.lastAuthSector bs chunks answers) :
    ∃ rsp crc, ∀ head, (writeAll cfg .registers head bs chunks).Sends cfg s (answers ++ r) (.ok ())
      { s with lastAuthSector := cachedAfterWrite cfg s.lastAuthSector bs chunks, rsp := rsp, crcOut := crc }
      (writeAllFrames cfg s.uidLast4 s.lastAuthSector bs chunks) r := by
  induction bs generalizing s chunks answers with
  | nil =>
    cases chunks with
    | nil => obtain rfl : answers = [] := h; exact ⟨s.rsp, s.crcOut, fun _ => sends_pure _⟩
    | cons c cs => exact absurd h (by simp [WriteAllAnswers])
  | cons b bs ih =>
    cases chunks with
    | nil => obtain rfl : answers = [] := by simpa [WriteAllAnswers] using h
             exact ⟨s.rsp, s.crcOut, fun _ => by simpa [writeAll, cachedAfterWrite, writeAllFrames] using sends_pure (s := s) (r := r) ()⟩
    | cons c cs =>
      by_cases hf : forbidden cfg b = true
      · simp only [WriteAllAnswers, hf, if_true] at h
        obtain ⟨rsp, crc, hr⟩ := ih h
        refine ⟨rsp, crc, fun head => ?_⟩
        have e : writeAllFrames cfg s.uidLast4 s.lastAuthSector (b :: bs) (c :: cs) =
          writeAllFrames cfg s.uidLast4 s.lastAuthSector bs (c :: cs) := if_pos hf
        rw [e]
        refine Proc.Sends.bind (f1 := []) (sends_jump head) ?_
        simpa [cachedAfterWrite, hf] using hr head
      · simp only [WriteAllAnswers, hf] at h
        obtain ⟨x, y, z, hx, hy, hz, rfl⟩ := h
        obtain ⟨hi, hw⟩ := sends_writeThrough (s := s) (r := z ++ r) hx hy
        obtain ⟨rsp, crc, hr⟩ := ih (s := s.afterWrite b c hi) hz
        refine ⟨rsp, crc, fun head => ?_⟩
        have e : x ++ y ++ z ++ r = x ++ (y ++ (z ++ r)) := by simp
        simp only [writeAll, writeAllFrames, cachedAfterWrite, hf, e, Bool.false_eq_true, if_false]
        exact Proc.Sends.bind (f1 := []) (sends_jump head) (Proc.Sends.bind hw (hr head))

theorem sends_writeStore {s : State} {data : List Byte} {answers : List Answer} (hl : data.length ≤ Config.capacity)
    (h : WriteAllAnswers cfg s.lastAuthSector allBlocks (chunksOf data) answers) :
    ∃ rsp crc, (writeStore cfg .registers data).Sends cfg s (answers ++ r) (.ok ())
      { s with lastAuthSector := cachedAfterWrite cfg s.lastAuthSector allBlocks (chunksOf data), rsp := rsp, crcOut := crc }
      (writeAllFrames cfg s.uidLast4 s.lastAuthSector allBlocks (chunksOf data)) r := by
  obtain ⟨rsp, crc, h⟩ := sends_writeAll (r := r) allBlocks h
  refine ⟨rsp, crc, ?_⟩
  unfold writeStore
  rw [if_neg (by omega)]
  exact sends_head h

end Sys2Proof.Machine
end

