-- ==== Sys2Proof/Laws/Strict.lean ====
section
/-! SUPPORT. What every procedure may do whatever the chip answers (the strict model of R42): which events it leaves and which fields
it can change. -/

namespace Sys2Proof.Machine

variable {cfg : Cfg}

/-- A well-formed event of a host operation. -/
def hostMove (cfg : Cfg) (e : Event) : Prop := e.wf cfg ∧ hostEvent cfg e

theorem hostMove_write {r : Reg} {bs miso : List Byte} (h : hostWrite cfg r bs) (hm : miso.length = bs.length + 1) :
    hostMove cfg (.spi ((cfg.wa r) :: bs) miso) := ⟨⟨by simpa using hm, r, .inl rfl⟩, .inl ⟨r, bs, rfl, h⟩⟩

theorem hostMove_read {r : Reg} {n : Nat} {miso : List Byte} (h : hostRead r) (hn : 1 ≤ n) (hm : miso.length = n + 1) :
    hostMove cfg (.spi (List.replicate n (cfg.ra r) ++ [0x00]) miso) := by
  refine ⟨⟨by simpa using hm, r, .inr ?_⟩, .inr ⟨r, n, h, hn, rfl⟩⟩
  obtain ⟨m, rfl⟩ : ∃ m, n = m + 1 := ⟨n - 1, by omega⟩
  simp [List.replicate_succ]

/-- The moves of host operations. -/
abbrev HostMoves (cfg : Cfg) : State → State → Prop := Moves (hostMove cfg)

theorem hostPath : Path (HostMoves cfg) := moves_path _

theorem host_write (r : Reg) {v : Byte} (h : hostWrite cfg r [v]) : (regWrite cfg r v).Keeps (HostMoves cfg) :=
  keeps_regWrite r v fun _ hm => hostMove_write h (by simpa using hm)

theorem host_read (r : Reg) (h : hostRead r) : (regRead cfg r).Keeps (HostMoves cfg) :=
  keeps_regRead r fun _ hm => hostMove_read (n := 1) h (by omega) hm

theorem host_clearBits (r : Reg) (m : Byte) (hr : hostRead r) (hw : ∀ v : Byte, hostWrite cfg r [v &&& ~~~m]) :
    (clearBits cfg r m).Keeps (HostMoves cfg) := hostPath.bind (host_read r hr) fun v => host_write r (hw v)

theorem host_setBits (r : Reg) (m : Byte) (hr : hostRead r) (hw : ∀ v : Byte, hostWrite cfg r [v ||| m]) :
    (setBits cfg r m).Keeps (HostMoves cfg) := hostPath.bind (host_read r hr) fun v => host_write r (hw v)

theorem host_ask (kind : WaitKind) (a : Bool) : (askDeadline kind a).Keeps (HostMoves cfg) := keeps_askDeadline kind a ⟨trivial, trivial⟩

theorem host_poll {β : Type} {kind : WaitKind} {check : Nat → Proc (Option β)} {od : Proc β}
    (hc : ∀ i, (check i).Keeps (HostMoves cfg)) (ho : od.Keeps (HostMoves cfg)) : (poll kind check od).Keeps (HostMoves cfg) :=
  keeps_poll hostPath (host_ask kind) keeps_jump keeps_drawBudget hc ho

theorem host_command (c : PcdCommand) : (regWrite cfg .command (cfg.byte c)).Keeps (HostMoves cfg) := host_write _ ⟨c, rfl⟩

/-! ### The two transactions -/

theorem host_crcOut (c : Byte × Byte) : (Proc.update fun s => { s with crcOut := c }).Keeps (HostMoves cfg) := fun s =>
  ⟨[], s.answers, s.draws, s.pos, s.rsp, c, by simp, .inl rfl, by simp⟩

theorem host_crcStart (d : List Byte) : (crcStart cfg d).Keeps (HostMoves cfg) :=
  hostPath.bind (host_command .idle) fun _ => hostPath.bind (host_write .divIrq rfl) fun _ =>
    hostPath.bind (host_write .fifoLevel rfl) fun _ => hostPath.bind
      (keeps_regWriteN .fifoData d fun h _ hm => hostMove_write h hm) fun _ => host_command .calcCrc

theorem host_crc (d : List Byte) : (crcTransaction cfg d).Keeps (HostMoves cfg) :=
  hostPath.bind (host_crcStart d) fun _ => hostPath.bind
    (host_poll (fun _ => hostPath.bind (host_read .divIrq (by simp [hostRead])) fun _ => hostPath.pure _) (hostPath.raise _)) fun _ =>
    hostPath.bind (host_read .crcResultL (by simp [hostRead])) fun _ => hostPath.bind (host_read .crcResultH (by simp [hostRead])) fun _ =>
    hostPath.bind (host_crcOut _) fun _ => hostPath.pure _

theorem fifoCount_le (v : Byte) : fifoCount cfg v ≤ 127 := by
  exact Nat.le_trans (by rw [fifoCount, BitVec.toNat_and]; exact Nat.and_le_right) cfg.mask_le

/-- The response read: the response it leaves has the length FIFOLevel gave (R215). -/
theorem host_readResponse (al : BitVec 3) : (readResponse cfg al).Keeps (HostMoves cfg) := by
  refine hostPath.bind (host_read .fifoLevel (by simp [hostRead])) fun level => fun s => ?_
  have h1 := keeps_regReadN (E := hostMove cfg) .fifoData (fifoCount cfg level) al (fun hn _ hm => hostMove_read (by simp [hostRead]) hn hm) s
  rw [Proc.exec_bind]
  rcases hs : (regReadN cfg .fifoData (fifoCount cfg level) al).exec s with ⟨_ | bs, t⟩
  · simp only [hs] at h1 ⊢; exact h1
  · simp only [hs] at h1 ⊢
    have hb : bs.length ≤ 127 := by
      have : bs = if fifoCount cfg level = 0 then [] else alignFirst al (s.nextReads (fifoCount cfg level)) := by
        unfold regReadN at hs
        split at hs
        · rw [if_pos ‹_›]; simp at hs; exact hs.1
        · rw [if_neg ‹_›]; simp at hs; exact hs.1.symm
      rw [this]; split
      · simp
      · rw [alignFirst_length, nextReads_length]; exact fifoCount_le level
    refine hostPath.trans h1 ((hostPath.bind (host_read .control (by simp [hostRead])) fun control => ?_) t)
    exact fun s => ⟨[], s.answers, s.draws, s.pos, ⟨bs, rxLastBits cfg control⟩, s.crcOut, by simp, .inr hb, by simp⟩

theorem host_issueCommand (cmd : PiccCommand) : (issueCommand cfg cmd).Keeps (HostMoves cfg) := by
  unfold issueCommand
  refine hostPath.bind (host_command _) fun _ => ?_
  cases cmd with
  | transceive => exact host_setBits _ _ (by simp [hostRead]) fun _ => ⟨_, rfl⟩
  | mfAuthent => exact hostPath.pure _

theorem host_pollPicc (cmd : PiccCommand) : (pollPicc cfg cmd).Keeps (HostMoves cfg) :=
  host_poll (fun _ => hostPath.bind (host_read .comIrq (by simp [hostRead])) fun _ => hostPath.pure _) (hostPath.pure _)

theorem host_transceive (cmd : PiccCommand) (tx : List Byte) (tl al : BitVec 3) (want : Bool) :
    (transceive cfg .registers cmd tx tl al want).Keeps (HostMoves cfg) := by
  rw [transceive_eq]
  refine hostPath.bind ?_ fun timedOut => ?_
  · exact hostPath.bind (host_command .idle) fun _ => hostPath.bind (host_write .comIrq rfl) fun _ =>
      hostPath.bind (host_write .bitFraming ⟨_, rfl⟩) fun _ => hostPath.bind (host_write .fifoLevel rfl) fun _ =>
      hostPath.bind (keeps_regWriteN .fifoData tx fun h _ hm => hostMove_write h hm) fun _ =>
      hostPath.bind (host_issueCommand cmd) fun _ => hostPath.bind (host_pollPicc cmd) fun b =>
      hostPath.bind (host_clearBits .bitFraming _ (by simp [hostRead]) fun _ => ⟨_, rfl⟩) fun _ => hostPath.pure b
  · unfold transceiveTail
    refine Proc.keeps_ite (hostPath.pure _) (hostPath.bind (host_read .error (by simp [hostRead])) fun e =>
      Proc.keeps_ite (hostPath.pure _) (Proc.keeps_ite (hostPath.bind (host_readResponse al) fun _ => hostPath.pure _) (hostPath.pure _)))

/-! ### Bring-up and the antenna -/

/-- A mask cleared out of a value is out of it. -/
theorem andn_and (v m : Byte) : (v &&& ~~~m) &&& m = 0 := by
  ext i; simp

/-- A mask set in a value is in it. -/
theorem or_and (v m : Byte) : (v ||| m) &&& m = m := by
  ext i; simp; exact fun h => .inr h

theorem host_stopCrypto1 : (stopCrypto1 cfg).Keeps (HostMoves cfg) := host_clearBits _ _ (by simp [hostRead]) fun v => ⟨_, andn_and v _, rfl⟩

theorem host_antennaSet (on : Bool) : (antennaSet cfg on).Keeps (HostMoves cfg) :=
  hostPath.bind (host_read .txControl (by simp [hostRead])) fun v => Proc.keeps_ite
    (Proc.keeps_ite (host_write _ ⟨_, .inl (or_and v _), rfl⟩) (hostPath.pure _))
    (Proc.keeps_ite (host_write _ ⟨_, .inr (andn_and v _), rfl⟩) (hostPath.pure _))

/-! ### MIFARE -/

theorem host_raiseOn (o : XactOutcome) : (raiseOn o).Keeps (HostMoves cfg) := by
  cases o <;> first | exact hostPath.raise _ | exact hostPath.pure _

theorem host_authBlock (key : Key) (a : Byte) : (authBlock cfg .registers key a).Keeps (HostMoves cfg) :=
  hostPath.bind (hostPath.look _) fun _ => hostPath.bind (host_transceive _ _ _ _ _) host_raiseOn

theorem host_checkRead : (checkRead cfg).Keeps (HostMoves cfg) :=
  hostPath.bind (hostPath.look _) fun _ => Proc.keeps_ite
    (hostPath.bind (host_crc _) fun _ => Proc.keeps_ite (hostPath.pure _) (hostPath.raise _)) (hostPath.raise _)

theorem host_readCardBlock (a : Byte) : (readCardBlock cfg .registers a).Keeps (HostMoves cfg) :=
  hostPath.bind (host_crc _) fun _ => hostPath.bind (host_transceive _ _ _ _ _) fun o =>
    hostPath.bind (host_raiseOn o) fun _ => host_checkRead

theorem host_ackCheck : ackCheck.Keeps (HostMoves cfg) :=
  hostPath.bind (hostPath.look _) fun _ => Proc.keeps_ite (hostPath.pure _) (hostPath.raise _)

theorem host_writePhase (frame : List Byte) : (writePhase cfg .registers frame).Keeps (HostMoves cfg) :=
  hostPath.bind (host_transceive _ _ _ _ _) fun o => hostPath.bind (host_raiseOn o) fun _ => host_ackCheck

theorem host_writeCardBlock (a : Byte) (data : List Byte) : (writeCardBlock cfg .registers a data).Keeps (HostMoves cfg) :=
  hostPath.bind (host_crc _) fun _ => hostPath.bind (host_writePhase _) fun _ => hostPath.bind (host_crc _) fun _ => host_writePhase _

theorem host_typeOfSak (b : Byte) : (typeOfSak cfg b).Keeps (HostMoves cfg) := by
  unfold typeOfSak; split
  · exact hostPath.pure _
  · exact hostPath.raise _

theorem host_newStore : (newStore cfg).Keeps (HostMoves cfg) :=
  hostPath.bind (hostPath.look _) fun b => hostPath.bind (host_typeOfSak b) fun _ =>
    Proc.keeps_ite (hostPath.look _) (hostPath.raise _)

theorem host_cardPresent : (cardPresent cfg .registers).Keeps (HostMoves cfg) := by
  unfold cardPresent
  refine hostPath.bind (host_transceive _ _ _ _ _) fun o => ?_
  cases o
  · exact hostPath.bind (hostPath.look _) fun _ => hostPath.pure _
  all_goals exact hostPath.pure _

/-! ### The store: the moves and the cache -/

/-- The moves of a host operation and a change of the authentication cache to a sector. -/
def CacheMoves (cfg : Cfg) (s t : State) : Prop :=
  ∃ c, (c = s.lastAuthSector ∨ c.isSome = true) ∧ HostMoves cfg { s with lastAuthSector := c } t

theorem HostMoves.cache {s t : State} (h : HostMoves cfg s t) (c : Option (Fin 16)) :
    HostMoves cfg { s with lastAuthSector := c } { t with lastAuthSector := c } := by
  obtain ⟨evs, rd, dr, q, r, cr, h1, h2, rfl⟩ := h
  exact ⟨evs, rd, dr, q, r, cr, h1, h2, rfl⟩

theorem HostMoves.cacheMoves {s t : State} (h : HostMoves cfg s t) : CacheMoves cfg s t := ⟨s.lastAuthSector, .inl rfl, h⟩

theorem cachePath : Path (CacheMoves cfg) where
  refl s := (hostPath.refl s).cacheMoves
  trans := by
    rintro s t u ⟨c, hc, h⟩ ⟨d, hd, h'⟩
    have ht : t.lastAuthSector = c := by obtain ⟨_, _, _, _, _, _, _, _, rfl⟩ := h; rfl
    refine ⟨d, ?_, hostPath.trans (h.cache d) h'⟩
    rcases hd with rfl | hd
    · rw [ht]; exact hc
    · exact .inr hd

theorem Proc.Keeps.cacheMoves {α : Type} {p : Proc α} (h : p.Keeps (HostMoves cfg)) : p.Keeps (CacheMoves cfg) := h.imp fun _ _ => HostMoves.cacheMoves

theorem cache_authSector (a : Byte) : (authSector cfg .registers a).Keeps (CacheMoves cfg) :=
  cachePath.bind (cachePath.look _) fun _ => Proc.keeps_ite (cachePath.pure _)
    (cachePath.bind (host_authBlock _ _).cacheMoves fun _ => fun _ => ⟨some (sectorOf a), .inr rfl, hostPath.refl _⟩)

theorem cache_readThrough (a : Byte) : (readThrough cfg .registers a).Keeps (CacheMoves cfg) :=
  cachePath.bind (cache_authSector a) fun _ => (host_readCardBlock a).cacheMoves

theorem cache_writeThrough (a : Byte) (data : List Byte) : (writeThrough cfg .registers a data).Keeps (CacheMoves cfg) :=
  cachePath.bind (cache_authSector a) fun _ => (host_writeCardBlock a data).cacheMoves

theorem cache_readAll (head : Pos) (bs : List Byte) : (readAll cfg .registers head bs).Keeps (CacheMoves cfg) := by
  induction bs with
  | nil => exact cachePath.pure _
  | cons b bs ih =>
    exact cachePath.bind (keeps_jump head).cacheMoves fun _ =>
      Proc.keeps_ite ih (cachePath.bind (cache_readThrough b) fun _ => cachePath.bind ih fun _ => cachePath.pure _)

theorem cache_writeAll (head : Pos) (bs : List Byte) (chunks : List (List Byte)) :
    (writeAll cfg .registers head bs chunks).Keeps (CacheMoves cfg) := by
  induction bs generalizing chunks with
  | nil =>
    cases chunks
    · exact cachePath.pure _
    · exact cachePath.raise _
  | cons b bs ih =>
    cases chunks with
    | nil => exact cachePath.pure _
    | cons c cs => exact cachePath.bind (keeps_jump head).cacheMoves fun _ =>
        Proc.keeps_ite (ih _) (cachePath.bind (cache_writeThrough b c) fun _ => ih _)

theorem cache_readStore : (readStore cfg .registers).Keeps (CacheMoves cfg) :=
  cachePath.bind (cachePath.look _) fun head => cache_readAll head _

theorem cache_writeStore (data : List Byte) : (writeStore cfg .registers data).Keeps (CacheMoves cfg) :=
  Proc.keeps_ite (cachePath.raise _) (cachePath.bind (cachePath.look _) fun head => cache_writeAll head _ _)

/-! ### init -/

/-- What bring-up changes once the session is ended: the transport's fields, the reset line raised, and `ready` at the end. -/
def InitMoves (cfg : Cfg) (s t : State) : Prop :=
  ∃ l r, (l = s.resetLine ∨ l = .high) ∧ (r = s.ready ∨ r = true) ∧ HostMoves cfg { s with resetLine := l, ready := r } t

theorem HostMoves.initMoves {s t : State} (h : HostMoves cfg s t) : InitMoves cfg s t := ⟨s.resetLine, s.ready, .inl rfl, .inl rfl, h⟩

theorem HostMoves.line {s t : State} (h : HostMoves cfg s t) (l : LineLevel) (b : Bool) :
    HostMoves cfg { s with resetLine := l, ready := b } { t with resetLine := l, ready := b } := by
  obtain ⟨evs, rd, dr, q, r, cr, h1, h2, rfl⟩ := h
  exact ⟨evs, rd, dr, q, r, cr, h1, h2, rfl⟩

theorem initPath : Path (InitMoves cfg) where
  refl s := (hostPath.refl s).initMoves
  trans := by
    rintro s t u ⟨l, r, hl, hr, h⟩ ⟨l', r', hl', hr', h'⟩
    obtain ⟨e1, e2⟩ : t.resetLine = l ∧ t.ready = r := by obtain ⟨_, _, _, _, _, _, _, _, rfl⟩ := h; exact ⟨rfl, rfl⟩
    refine ⟨l', r', ?_, ?_, hostPath.trans (h.line l' r') h'⟩
    · rcases hl' with rfl | rfl
      · rw [e1]; exact hl
      · exact .inr rfl
    · rcases hr' with rfl | rfl
      · rw [e2]; exact hr
      · exact .inr rfl

theorem Proc.Keeps.initMoves {α : Type} {p : Proc α} (h : p.Keeps (HostMoves cfg)) : p.Keeps (InitMoves cfg) := h.imp fun _ _ => HostMoves.initMoves

theorem host_powerDownCheck (i : Nat) : (powerDownCheck cfg i).Keeps (HostMoves cfg) :=
  hostPath.bind (host_read .command (by simp [hostRead])) fun _ =>
    Proc.keeps_ite (Proc.keeps_ite (hostPath.raise _) (hostPath.pure _)) (hostPath.pure _)

theorem init_chipReset : (chipReset cfg).Keeps (InitMoves cfg) := by
  refine initPath.bind (initPath.look _) fun l => ?_
  cases l with
  | low => exact fun s => ⟨.high, s.ready, .inr rfl, .inl rfl, moves_emit _ _ ⟨trivial, rfl⟩⟩
  | high => exact (host_command .softReset).initMoves

/-- init past its first write: the rest of the procedure. -/
def bringUpRest (cfg : Cfg) : Proc Unit := do
  chipReset cfg
  pollPowerDown cfg
  stopCrypto1 cfg
  regWrite cfg .tMode cfg.initValues.tMode
  regWrite cfg .tPrescaler cfg.initValues.tPrescaler
  regWrite cfg .tReloadH ((cfg.initValues.tReload >>> 8).setWidth 8)
  regWrite cfg .tReloadL (cfg.initValues.tReload.setWidth 8)
  regWrite cfg .txAsk cfg.initValues.txAsk
  regWrite cfg .mode cfg.initValues.mode
  antennaSet cfg true
  Proc.update fun s => { s with ready := true }

theorem init_bringUpRest : (bringUpRest cfg).Keeps (InitMoves cfg) :=
  initPath.bind init_chipReset fun _ => initPath.bind (host_poll (host_powerDownCheck) (hostPath.raise _)).initMoves fun _ =>
  initPath.bind host_stopCrypto1.initMoves fun _ => initPath.bind (host_write .tMode rfl).initMoves fun _ =>
  initPath.bind (host_write .tPrescaler rfl).initMoves fun _ => initPath.bind (host_write .tReloadH rfl).initMoves fun _ =>
  initPath.bind (host_write .tReloadL rfl).initMoves fun _ => initPath.bind (host_write .txAsk rfl).initMoves fun _ =>
  initPath.bind (host_write .mode rfl).initMoves fun _ => initPath.bind (host_antennaSet true).initMoves fun _ =>
  fun s => ⟨s.resetLine, true, .inl rfl, .inr rfl, hostPath.refl _⟩

/-- What init does to the state: the session is over, then what `InitMoves` allows. -/
theorem init_bringUp (s : State) : InitMoves cfg s.endSessionForInit ((bringUp cfg).exec s).2 := by
  have h : bringUp cfg = Proc.update State.endSessionForInit >>= fun _ => bringUpRest cfg := rfl
  rw [h, Proc.exec_bind_ok (Proc.exec_update _ _)]
  exact init_bringUpRest s.endSessionForInit

/-! ### Parts of the state that a procedure leaves alone -/

/-- A part of the state stays. -/
def Same {γ : Type} (f : State → γ) (s t : State) : Prop := f t = f s

/-- A part of the state that the transport leaves alone. -/
def Apart {γ : Type} (f : State → γ) : Prop := ∀ s evs rd d q, f (s.did evs rd d q) = f s

section Same

variable {γ β : Type} {f : State → γ}

theorem samePath : Path (Same f) := ⟨fun _ => rfl, fun h1 h2 => Eq.trans h2 h1⟩

theorem same_update {g : State → State} (h : ∀ s, f (g s) = f s) : (Proc.update g).Keeps (Same f) := h

theorem same_regWrite (hf : Apart f) (r : Reg) (v : Byte) : (regWrite cfg r v).Keeps (Same f) := fun s => hf s _ s.answers _ _
theorem same_regRead (hf : Apart f) (r : Reg) : (regRead cfg r).Keeps (Same f) := fun s => hf s _ _ _ _
theorem same_regWriteN (hf : Apart f) (r : Reg) (bs : List Byte) : (regWriteN cfg r bs).Keeps (Same f) :=
  Proc.keeps_ite (samePath.pure _) fun s => hf s _ s.answers _ _
theorem same_regReadN (hf : Apart f) (r : Reg) (n : Nat) (a : BitVec 3) : (regReadN cfg r n a).Keeps (Same f) :=
  Proc.keeps_ite (samePath.pure _) fun s => hf s _ _ _ _
theorem same_setBits (hf : Apart f) (r : Reg) (m : Byte) : (setBits cfg r m).Keeps (Same f) :=
  samePath.bind (same_regRead hf r) fun _ => same_regWrite hf r _
theorem same_clearBits (hf : Apart f) (r : Reg) (m : Byte) : (clearBits cfg r m).Keeps (Same f) :=
  samePath.bind (same_regRead hf r) fun _ => same_regWrite hf r _

theorem Apart.quiet (hf : Apart f) (s : State) (rd : List Answer) (d : Nat) (q : Pos) :
    f { s with answers := rd, draws := d, pos := q } = f s := by
  simpa [State.did] using hf s [] rd d q

theorem same_drawBudget (hf : Apart f) : drawBudget.Keeps (Same f) := fun s => by
  show f s.nextBudget.2 = f s
  unfold State.nextBudget
  split
  · exact hf.quiet s _ s.draws s.pos
  · exact hf.quiet s s.answers _ s.pos

theorem same_poll (hf : Apart f) {kind : WaitKind} {check : Nat → Proc (Option β)} {od : Proc β} (hc : ∀ i, (check i).Keeps (Same f))
    (ho : od.Keeps (Same f)) : (poll kind check od).Keeps (Same f) :=
  keeps_poll samePath (fun _ s => hf s _ s.answers s.draws _) (fun q s => hf.quiet s s.answers s.draws q) (same_drawBudget hf) hc ho

/-- A CRC transaction leaves what is neither transport nor `crcOut`. -/
theorem same_crc (hf : Apart f) (hc : ∀ s c, f { s with crcOut := c } = f s) (d : List Byte) : (crcTransaction cfg d).Keeps (Same f) :=
  samePath.bind (samePath.bind (same_regWrite hf _ _) fun _ => samePath.bind (same_regWrite hf _ _) fun _ =>
    samePath.bind (same_regWrite hf _ _) fun _ => samePath.bind (same_regWriteN hf _ _) fun _ => same_regWrite hf _ _) fun _ =>
  samePath.bind (same_poll hf (fun _ => samePath.bind (same_regRead hf _) fun _ => samePath.pure _) (samePath.raise _)) fun _ =>
  samePath.bind (same_regRead hf _) fun _ => samePath.bind (same_regRead hf _) fun _ => samePath.bind (same_update fun _ => hc _ _) fun _ =>
  samePath.pure _

/-- A transaction leaves what is neither transport nor, where it reads a response, `rsp`. -/
theorem same_transceive (hf : Apart f) {want : Bool} (hw : want = true → ∀ s r, f { s with rsp := r } = f s) (cmd : PiccCommand)
    (tx : List Byte) (tl al : BitVec 3) : (transceive cfg .registers cmd tx tl al want).Keeps (Same f) := by
  have hi : (issueCommand cfg cmd).Keeps (Same f) := by
    refine samePath.bind (same_regWrite hf _ _) fun _ => ?_
    cases cmd
    · exact same_setBits hf _ _
    · exact samePath.pure _
  have hr : want = true → (readResponse cfg al).Keeps (Same f) := fun h => samePath.bind (same_regRead hf _) fun _ =>
    samePath.bind (same_regReadN hf _ _ _) fun _ => samePath.bind (same_regRead hf _) fun _ => same_update fun _ => hw h _ _
  rw [transceive_eq]
  refine samePath.bind ?_ fun _ => ?_
  · exact samePath.bind (same_regWrite hf _ _) fun _ => samePath.bind (same_regWrite hf _ _) fun _ => samePath.bind (same_regWrite hf _ _)
      fun _ => samePath.bind (same_regWrite hf _ _) fun _ => samePath.bind (same_regWriteN hf _ _) fun _ => samePath.bind hi fun _ =>
      samePath.bind (same_poll hf (fun _ => samePath.bind (same_regRead hf _) fun _ => samePath.pure _) (samePath.pure _)) fun _ =>
      samePath.bind (same_clearBits hf _ _) fun _ => samePath.pure _
  · refine Proc.keeps_ite (samePath.pure _) (samePath.bind (same_regRead hf _) fun _ => Proc.keeps_ite (samePath.pure _) ?_)
    cases want
    · exact samePath.pure _
    · exact samePath.bind (hr rfl) fun _ => samePath.pure _

theorem same_antennaSet (hf : Apart f) (on : Bool) : (antennaSet cfg on).Keeps (Same f) :=
  samePath.bind (same_regRead hf _) fun _ => Proc.keeps_ite (Proc.keeps_ite (same_regWrite hf _ _) (samePath.pure _))
    (Proc.keeps_ite (same_regWrite hf _ _) (samePath.pure _))

/-- Bring-up leaves what is neither transport nor one of the fields it writes. -/
theorem same_bringUp (hf : Apart f) (hl : ∀ s l, f { s with resetLine := l } = f s) (he : ∀ s, f (State.endSessionForInit s) = f s)
    (hr : ∀ s b, f { s with ready := b } = f s) : (bringUp cfg).Keeps (Same f) := by
  have hreset : (chipReset cfg).Keeps (Same f) := by
    refine samePath.bind (samePath.look _) fun l => ?_
    cases l
    · exact fun s => Eq.trans (hl (s.emit (.reset .high)) _) (hf s _ s.answers s.draws _)
    · exact same_regWrite hf _ _
  exact samePath.bind (same_update he) fun _ => samePath.bind hreset fun _ => samePath.bind
    (same_poll hf (fun _ => samePath.bind (same_regRead hf _) fun _ => Proc.keeps_ite (Proc.keeps_ite (samePath.raise _) (samePath.pure _))
      (samePath.pure _)) (samePath.raise _)) fun _ => samePath.bind (same_clearBits hf _ _) fun _ =>
    samePath.bind (same_regWrite hf _ _) fun _ => samePath.bind (same_regWrite hf _ _) fun _ => samePath.bind (same_regWrite hf _ _) fun _ =>
    samePath.bind (same_regWrite hf _ _) fun _ => samePath.bind (same_regWrite hf _ _) fun _ => samePath.bind (same_regWrite hf _ _) fun _ =>
    samePath.bind (same_antennaSet hf true) fun _ => same_update fun _ => hr _ _

end Same

end Sys2Proof.Machine
end

