-- ==== Sys2Proof/Laws/SelectStrict.lean ====
section
/-! SUPPORT. What select may do whatever the chip answers: the fields it can change, its bounds, and how it ends (R146 to R172). -/

namespace Sys2Proof.Machine

variable {cfg : Cfg}

/-! ### The fields of the passes -/

/-- The moves of select between its first write and its completion: transport, and select's own working fields, `k` never over 32. -/
def SelMoves (cfg : Cfg) (s t : State) : Prop :=
  ∃ buf l k it u, (k = s.k ∨ k ≤ 32) ∧
    HostMoves cfg { s with selBuf := buf, level := l, k := k, iter := it, uid := u } t

theorem HostMoves.sel {s t : State} (h : HostMoves cfg s t) (buf : Vector Byte 9) (l : CascadeLevel) (k it : Nat) (u : Vector Byte 10) :
    HostMoves cfg { s with selBuf := buf, level := l, k := k, iter := it, uid := u }
      { t with selBuf := buf, level := l, k := k, iter := it, uid := u } := by
  obtain ⟨evs, rd, dr, q, r, cr, h1, h2, rfl⟩ := h
  exact ⟨evs, rd, dr, q, r, cr, h1, h2, rfl⟩

theorem HostMoves.selMoves {s t : State} (h : HostMoves cfg s t) : SelMoves cfg s t := ⟨s.selBuf, s.level, s.k, s.iter, s.uid, .inl rfl, h⟩

theorem selPath : Path (SelMoves cfg) where
  refl s := (hostPath.refl s).selMoves
  trans := by
    rintro s t u ⟨b, l, k, i, v, hk, h⟩ ⟨b', l', k', i', v', hk', h'⟩
    have ht : t.k = k := by obtain ⟨_, _, _, _, _, _, _, _, rfl⟩ := h; rfl
    refine ⟨b', l', k', i', v', ?_, hostPath.trans (h.sel b' l' k' i' v') h'⟩
    rcases hk' with rfl | hk'
    · rw [ht]; exact hk
    · exact .inr hk'

theorem Proc.Keeps.selMoves {α : Type} {p : Proc α} (h : p.Keeps (HostMoves cfg)) : p.Keeps (SelMoves cfg) := h.imp fun _ _ => HostMoves.selMoves

theorem collPos_le (c : Byte) : 1 ≤ collPos cfg c ∧ collPos cfg c ≤ 32 := by
  have := ((c >>> cfg.fields.collPos.toNat).setWidth 5).isLt
  unfold collPos; dsimp only; split <;> omega

theorem sel_buf {f : State → Vector Byte 9} : (Proc.update fun s => { s with selBuf := f s }).Keeps (SelMoves cfg) :=
  fun s => ⟨f s, s.level, s.k, s.iter, s.uid, .inl rfl, hostPath.refl _⟩

theorem sel_merge (idx : Nat) (tb : BitVec 3) : (merge idx tb).Keeps (SelMoves cfg) :=
  selPath.bind (selPath.look _) fun _ => Proc.keeps_ite (selPath.raise _) sel_buf

theorem sel_known : allBitsKnown.Keeps (SelMoves cfg) := fun s => ⟨s.selBuf, s.level, 32, s.iter, s.uid, .inr (by omega), hostPath.refl _⟩

theorem sel_sendKnownBits (k : Nat) : (sendKnownBits cfg .registers k).Keeps (SelMoves cfg) :=
  selPath.bind sel_buf fun _ => selPath.bind (selPath.look _) fun _ => (host_transceive _ _ _ _ _).selMoves

theorem sel_resolveCollision : (resolveCollision cfg .registers).Keeps (SelMoves cfg) :=
  selPath.bind (host_read .coll (by simp [hostRead])).selMoves fun c => Proc.keeps_ite (selPath.raise _)
    (selPath.bind (selPath.look _) fun _ => Proc.keeps_ite (selPath.raise _)
      fun s => ⟨setFieldBit s.selBuf (collPos cfg c), s.level, collPos cfg c, s.iter, s.uid, .inr (collPos_le c).2, hostPath.refl _⟩)

theorem sel_afterFailedPass (o : XactOutcome) : (afterFailedPass cfg .registers o).Keeps (SelMoves cfg) := by
  cases o
  · exact selPath.pure _
  · exact selPath.raise _
  · exact selPath.raise _
  · exact sel_resolveCollision

theorem sel_anticollPass (k : Nat) : (anticollPass cfg .registers k).Keeps (SelMoves cfg) := by
  refine selPath.bind (sel_sendKnownBits k) fun o => ?_
  cases o
  · exact selPath.bind (sel_merge _ _) fun _ => sel_known
  · exact sel_afterFailedPass .timeout
  · exact sel_afterFailedPass (.comm _)
  · exact selPath.bind (sel_merge _ _) fun _ => sel_afterFailedPass _

theorem sel_sendSelectFromBuffer : (sendSelectFromBuffer cfg .registers).Keeps (SelMoves cfg) :=
  selPath.bind sel_buf fun _ => selPath.bind (selPath.look _) fun _ => selPath.bind (host_crc _).selMoves fun _ =>
    selPath.bind sel_buf fun _ => selPath.bind (selPath.look _) fun _ => (host_transceive _ _ _ _ _).selMoves

theorem sel_checkSakShape : checkSakShape.Keeps (SelMoves cfg) :=
  selPath.bind (selPath.look _) fun _ => Proc.keeps_ite (selPath.pure _) (selPath.raise _)

theorem sel_selectPass : (selectPass cfg .registers).Keeps (SelMoves cfg) := by
  refine selPath.bind sel_sendSelectFromBuffer fun o => ?_
  cases o
  · exact selPath.bind sel_checkSakShape fun _ => selPath.pure _
  all_goals exact selPath.bind (sel_afterFailedPass _) fun _ => selPath.pure _

theorem sel_pass : (pass cfg .registers).Keeps (SelMoves cfg) :=
  selPath.bind (fun s => ⟨s.selBuf, s.level, s.k, s.iter + 1, s.uid, .inl rfl, hostPath.refl _⟩) fun _ =>
    selPath.bind (selPath.look _) fun k => Proc.keeps_ite sel_selectPass
      (selPath.bind (sel_anticollPass k) fun _ => selPath.pure _)

theorem sel_levelLoop (head : Pos) (n : Nat) : (levelLoop cfg .registers head n).Keeps (SelMoves cfg) := by
  induction n with
  | zero => exact selPath.raise _
  | succ n ih =>
    exact selPath.bind (keeps_jump head).selMoves fun _ => selPath.bind sel_pass fun c => Proc.keeps_ite (selPath.pure _) ih

theorem sel_checkSakCrc : (checkSakCrc cfg).Keeps (SelMoves cfg) :=
  selPath.bind (selPath.look _) fun _ => selPath.bind (host_crc _).selMoves fun _ => Proc.keeps_ite (selPath.pure _) (selPath.raise _)

theorem sel_takeUidBytes : (Proc.update State.takeUidBytes).Keeps (SelMoves cfg) := fun s =>
  ⟨s.selBuf, s.level, s.k, s.iter, s.takeUidBytes.uid, .inl rfl, hostPath.refl _⟩

theorem sel_finishLevel : (finishLevel cfg).Keeps (SelMoves cfg) :=
  selPath.bind sel_checkSakCrc fun _ => selPath.bind (selPath.look _) fun _ => selPath.bind sel_takeUidBytes fun _ =>
    selPath.bind (selPath.look _) fun _ => Proc.keeps_ite (selPath.raise _) (Proc.keeps_ite (selPath.unmodelled _) (selPath.pure _))

theorem sel_enterLevel (l : CascadeLevel) : (Proc.update fun s => s.enterLevel cfg l).Keeps (SelMoves cfg) := fun s =>
  ⟨(s.enterLevel cfg l).selBuf, l, 0, 0, s.uid, .inr (by omega), hostPath.refl _⟩

theorem sel_runLevel (l : CascadeLevel) : (runLevel cfg .registers l).Keeps (SelMoves cfg) :=
  selPath.bind (sel_enterLevel l) fun _ => selPath.bind (selPath.look _) fun head =>
    selPath.bind (sel_levelLoop head _) fun _ => sel_finishLevel

/-! ### The pass counter (R149, R160) -/

/-- At most `n` passes are counted. -/
def PassesBy (n : Nat) (s t : State) : Prop := t.iter ≤ s.iter + n

theorem passesPath : Path (PassesBy 0) where
  refl _ := Nat.le_refl _
  trans h1 h2 := by unfold PassesBy at *; omega

theorem Proc.Keeps.noPass {α : Type} {p : Proc α} (h : p.Keeps (HostMoves cfg)) : p.Keeps (PassesBy 0) := h.imp fun s t h => by
  obtain ⟨_, _, _, _, _, _, _, _, rfl⟩ := h; exact Nat.le_refl _

theorem passes_update {f : State → State} (h : ∀ s, (f s).iter = s.iter) : (Proc.update f).Keeps (PassesBy 0) :=
  fun s => by simp [PassesBy, h]

theorem passes_merge (idx : Nat) (tb : BitVec 3) : (merge idx tb).Keeps (PassesBy 0) :=
  passesPath.bind (passesPath.look _) fun _ => Proc.keeps_ite (passesPath.raise _) (passes_update fun _ => rfl)

theorem passes_resolveCollision : (resolveCollision cfg .registers).Keeps (PassesBy 0) :=
  passesPath.bind (host_read .coll (by simp [hostRead])).noPass fun _ => Proc.keeps_ite (passesPath.raise _)
    (passesPath.bind (passesPath.look _) fun _ => Proc.keeps_ite (passesPath.raise _) (passes_update fun _ => rfl))

theorem passes_afterFailedPass (o : XactOutcome) : (afterFailedPass cfg .registers o).Keeps (PassesBy 0) := by
  cases o
  · exact passesPath.pure _
  · exact passesPath.raise _
  · exact passesPath.raise _
  · exact passes_resolveCollision

theorem passes_anticollPass (k : Nat) : (anticollPass cfg .registers k).Keeps (PassesBy 0) := by
  refine passesPath.bind (passesPath.bind (passes_update fun _ => rfl) fun _ => passesPath.bind (passesPath.look _) fun _ =>
    (host_transceive _ _ _ _ _).noPass) fun o => ?_
  cases o
  · exact passesPath.bind (passes_merge _ _) fun _ => passes_update fun _ => rfl
  · exact passes_afterFailedPass .timeout
  · exact passes_afterFailedPass (.comm _)
  · exact passesPath.bind (passes_merge _ _) fun _ => passes_afterFailedPass _

theorem passes_selectPass : (selectPass cfg .registers).Keeps (PassesBy 0) := by
  refine passesPath.bind (passesPath.bind (passes_update fun _ => rfl) fun _ => passesPath.bind (passesPath.look _) fun _ =>
    passesPath.bind (host_crc _).noPass fun _ => passesPath.bind (passes_update fun _ => rfl) fun _ =>
    passesPath.bind (passesPath.look _) fun _ => (host_transceive _ _ _ _ _).noPass) fun o => ?_
  cases o
  · exact passesPath.bind (passesPath.bind (passesPath.look _) fun _ => Proc.keeps_ite (passesPath.pure _) (passesPath.raise _))
      fun _ => passesPath.pure _
  all_goals exact passesPath.bind (passes_afterFailedPass _) fun _ => passesPath.pure _

/-- Two runs, their passes added up. -/
theorem passes_bind {α β : Type} {x : Proc α} {f : α → Proc β} {m n : Nat} (hx : x.Keeps (PassesBy m)) (hf : ∀ a, (f a).Keeps (PassesBy n)) :
    (x >>= f).Keeps (PassesBy (m + n)) := fun s => by
  have h1 := hx s
  rw [Proc.exec_bind]
  rcases hs : x.exec s with ⟨_ | a, t⟩ <;> rw [hs] at h1
  · unfold PassesBy at *; simp only at *; omega
  · have h2 := hf a t
    unfold PassesBy at *; simp only at *; omega

theorem passes_pass : (pass cfg .registers).Keeps (PassesBy 1) :=
  passes_bind (n := 0) (fun _ => Nat.le_refl _) fun _ => passesPath.bind (passesPath.look _) fun k =>
    Proc.keeps_ite passes_selectPass (passesPath.bind (passes_anticollPass k) fun _ => passesPath.pure _)

theorem passes_levelLoop (head : Pos) (n : Nat) : (levelLoop cfg .registers head n).Keeps (PassesBy n) := by
  induction n with
  | zero => exact passesPath.raise _
  | succ n ih =>
    have h : (levelLoop cfg .registers head (n + 1)).Keeps (PassesBy (0 + (1 + n))) :=
      passes_bind (keeps_jump (E := hostMove cfg) head).noPass fun _ => passes_bind passes_pass fun c => Proc.keeps_ite
        ((passesPath.pure _).imp fun _ _ h => by unfold PassesBy at *; omega) ih
    exact h.imp fun _ _ h => by unfold PassesBy at *; omega

theorem passes_finishLevel : (finishLevel cfg).Keeps (PassesBy 0) :=
  passesPath.bind (passesPath.bind (passesPath.look _) fun _ => passesPath.bind (host_crc _).noPass fun _ =>
    Proc.keeps_ite (passesPath.pure _) (passesPath.raise _)) fun _ => passesPath.bind (passesPath.look _) fun _ =>
    passesPath.bind (passes_update fun _ => rfl) fun _ => passesPath.bind (passesPath.look _) fun _ =>
    Proc.keeps_ite (passesPath.raise _) (Proc.keeps_ite (passesPath.unmodelled _) (passesPath.pure _))

/-- After a level at most 32 passes were counted. -/
theorem iter_runLevel (l : CascadeLevel) (s : State) : ((runLevel cfg .registers l).exec s).2.iter ≤ 32 := by
  have h : (do let head ← Proc.look State.pos; levelLoop cfg .registers head Config.maxSubIter; finishLevel cfg : Proc Byte).Keeps (PassesBy (0 + (32 + 0))) :=
    passes_bind (passesPath.look _) fun head => passes_bind (passes_levelLoop head 32) fun _ => passes_finishLevel
  have := h (s.enterLevel cfg l)
  have e : (runLevel cfg .registers l).exec s = (do let head ← Proc.look State.pos; levelLoop cfg .registers head Config.maxSubIter; finishLevel cfg : Proc Byte).exec
      (s.enterLevel cfg l) := by
    unfold runLevel; rw [Proc.exec_bind_ok (Proc.exec_update _ _)]
  rw [e]
  simpa [PassesBy, State.enterLevel] using this

/-! ### How select ends -/

/-- How a procedure can stop, whatever the chip answers. -/
def Proc.Stops {α : Type} (p : Proc α) (Q : Stop → Prop) : Prop := ∀ s e t, p.exec s = (.error e, t) → Q e

section Stops

variable {α β : Type} {Q : Stop → Prop}

theorem stops_pure (a : α) : (pure a : Proc α).Stops Q := fun s e t h => by simp at h
theorem stops_look (f : State → α) : (Proc.look f).Stops Q := fun s e t h => by simp at h
theorem stops_update (f : State → State) : (Proc.update f).Stops Q := fun s e t h => by simp at h
theorem stops_raise {e : Err} (h : Q (.raise e)) : (Proc.raise e : Proc α).Stops Q := fun s x t hx => by
  simp at hx; exact hx.1 ▸ h
theorem stops_unmodelled {r : UnmodelledReason} (h : Q (.unmodelled r)) : (Proc.unmodelled r : Proc α).Stops Q := fun s x t hx => by
  simp at hx; exact hx.1 ▸ h

theorem stops_bind {x : Proc α} {f : α → Proc β} (hx : x.Stops Q) (hf : ∀ a, (f a).Stops Q) : (x >>= f).Stops Q := fun s e t h => by
  rw [Proc.exec_bind] at h
  rcases hs : x.exec s with ⟨e' | a, u⟩
  · rw [hs] at h; obtain ⟨rfl, rfl⟩ : e' = e ∧ u = t := by simpa using h
    exact hx s _ _ hs
  · rw [hs] at h; exact hf a u e t h

theorem stops_ite {c : Prop} [Decidable c] {x y : Proc α} (hx : x.Stops Q) (hy : y.Stops Q) : (if c then x else y).Stops Q := by
  split <;> assumption

theorem stops_regWrite (r : Reg) (v : Byte) : (regWrite cfg r v).Stops Q := fun s e t h => by simp [regWrite] at h
theorem stops_regWriteN (r : Reg) (bs : List Byte) : (regWriteN cfg r bs).Stops Q := fun s e t h => by
  unfold regWriteN at h; split at h <;> simp at h
theorem stops_regRead (r : Reg) : (regRead cfg r).Stops Q := fun s e t h => by simp [regRead] at h
theorem stops_regReadN (r : Reg) (n : Nat) (a : BitVec 3) : (regReadN cfg r n a).Stops Q := fun s e t h => by
  unfold regReadN at h; split at h <;> simp at h
theorem stops_setBits (r : Reg) (m : Byte) : (setBits cfg r m).Stops Q := stops_bind (stops_regRead r) fun _ => stops_regWrite r _
theorem stops_clearBits (r : Reg) (m : Byte) : (clearBits cfg r m).Stops Q := stops_bind (stops_regRead r) fun _ => stops_regWrite r _
theorem stops_ask (k : WaitKind) (a : Bool) : (askDeadline k a).Stops Q := fun s e t h => by simp [askDeadline] at h
theorem stops_jump (h : Pos) : (jump h).Stops Q := stops_update _
theorem stops_drawBudget : drawBudget.Stops Q := fun s e t h => by simp [drawBudget] at h

theorem stops_pollAgain {kind : WaitKind} {head : Pos} {check : Nat → Proc (Option β)} {od : Proc β} (hc : ∀ i, (check i).Stops Q)
    (ho : od.Stops Q) (budget i : Nat) : (pollAgain kind head check od budget i).Stops Q := by
  induction budget generalizing i with
  | zero => exact stops_bind (stops_ask _ _) fun _ => ho
  | succ n ih =>
    refine stops_bind (stops_ask _ _) fun _ => stops_bind (stops_jump _) fun _ => stops_bind (hc i) fun o => ?_
    cases o with
    | none => exact ih (i + 1)
    | some b => exact stops_pure b

theorem stops_poll {kind : WaitKind} {check : Nat → Proc (Option β)} {od : Proc β} (hc : ∀ i, (check i).Stops Q) (ho : od.Stops Q) :
    (poll kind check od).Stops Q := by
  refine stops_bind (stops_look _) fun head => stops_bind (hc 0) fun o => ?_
  cases o with
  | none => exact stops_bind stops_drawBudget fun b => stops_pollAgain hc ho b 1
  | some b => exact stops_pure b

theorem stops_crc (hq : Q (.raise (.timeout .crc))) (d : List Byte) : (crcTransaction cfg d).Stops Q :=
  stops_bind (stops_bind (stops_regWrite _ _) fun _ => stops_bind (stops_regWrite _ _) fun _ => stops_bind (stops_regWrite _ _) fun _ =>
    stops_bind (stops_regWriteN _ _) fun _ => stops_regWrite _ _) fun _ => stops_bind
    (stops_poll (fun _ => stops_bind (stops_regRead _) fun _ => stops_pure _) (stops_raise hq)) fun _ => stops_bind (stops_regRead _)
    fun _ => stops_bind (stops_regRead _) fun _ => stops_bind (stops_update _) fun _ => stops_pure _

/-- A transaction raises nothing (R206). -/
theorem stops_transceive (cmd : PiccCommand) (tx : List Byte) (tl al : BitVec 3) (want : Bool) :
    (transceive cfg .registers cmd tx tl al want).Stops Q := by
  rw [transceive_eq]
  refine stops_bind ?_ fun timedOut => ?_
  · refine stops_bind (stops_regWrite _ _) fun _ => stops_bind (stops_regWrite _ _) fun _ => stops_bind (stops_regWrite _ _) fun _ =>
      stops_bind (stops_regWrite _ _) fun _ => stops_bind (stops_regWriteN _ _) fun _ => stops_bind ?_ fun _ => stops_bind
      (stops_poll (fun _ => stops_bind (stops_regRead _) fun _ => stops_pure _) (stops_pure _)) fun _ => stops_bind
      (stops_clearBits _ _) fun _ => stops_pure _
    unfold issueCommand
    refine stops_bind (stops_regWrite _ _) fun _ => ?_
    cases cmd
    · exact stops_setBits _ _
    · exact stops_pure _
  · have hr : (readResponse cfg al).Stops Q := stops_bind (stops_regRead _) fun _ => stops_bind (stops_regReadN _ _ _) fun _ =>
      stops_bind (stops_regRead _) fun _ => stops_update _
    exact stops_ite (stops_pure _) (stops_bind (stops_regRead _) fun _ => stops_ite (stops_pure _)
      (stops_ite (stops_bind hr fun _ => stops_pure _) (stops_pure _)))

end Stops

/-- The errors of select, and the one fault (R164, R168). -/
inductive SelectStop : Stop → Prop where
  | picc : SelectStop (.raise (.timeout .picc))
  | crc : SelectStop (.raise (.timeout .crc))
  | errorReg (e : Byte) : SelectStop (.raise (.communication (.errorReg e)))
  | tooLong : SelectStop (.raise (.communication .responseTooLong))
  | shape : SelectStop (.raise (.communication .sakShape))
  | checksum : SelectStop (.raise (.checksum .sak))
  | protocol (p : ProtocolInfo) : SelectStop (.raise (.protocolFailure p))
  | fault : SelectStop (.unmodelled .cascadeTagMismatch)

theorem selStops_merge (idx : Nat) (tb : BitVec 3) : (merge idx tb).Stops SelectStop :=
  stops_bind (stops_look _) fun _ => stops_ite (stops_raise .tooLong) (stops_update _)

theorem selStops_afterFailedPass (o : XactOutcome) : (afterFailedPass cfg .registers o).Stops SelectStop := by
  cases o
  · exact stops_pure _
  · exact stops_raise .picc
  · exact stops_raise (.errorReg _)
  · exact stops_bind (stops_regRead _) fun _ => stops_ite (stops_raise (.protocol _)) (stops_bind (stops_look _) fun _ =>
      stops_ite (stops_raise (.protocol _)) (stops_update _))

theorem selStops_pass : (pass cfg .registers).Stops SelectStop := by
  refine stops_bind (stops_update _) fun _ => stops_bind (stops_look _) fun k => stops_ite ?_ ?_
  · refine stops_bind (stops_bind (stops_update _) fun _ => stops_bind (stops_look _) fun _ => stops_bind (stops_crc .crc _) fun _ =>
      stops_bind (stops_update _) fun _ => stops_bind (stops_look _) fun _ => stops_transceive _ _ _ _ _) fun o => ?_
    cases o
    · exact stops_bind (stops_bind (stops_look _) fun _ => stops_ite (stops_pure _) (stops_raise .shape)) fun _ => stops_pure _
    all_goals exact stops_bind (selStops_afterFailedPass _) fun _ => stops_pure _
  · refine stops_bind (stops_bind (stops_bind (stops_update _) fun _ => stops_bind (stops_look _) fun _ => stops_transceive _ _ _ _ _)
      fun o => ?_) fun _ => stops_pure _
    cases o
    · exact stops_bind (selStops_merge _ _) fun _ => stops_update _
    · exact selStops_afterFailedPass .timeout
    · exact selStops_afterFailedPass (.comm _)
    · exact stops_bind (selStops_merge _ _) fun _ => selStops_afterFailedPass _

theorem selStops_levelLoop (head : Pos) (n : Nat) : (levelLoop cfg .registers head n).Stops SelectStop := by
  induction n with
  | zero => exact stops_raise (.protocol _)
  | succ n ih => exact stops_bind (stops_jump _) fun _ => stops_bind selStops_pass fun _ => stops_ite (stops_pure _) ih

theorem selStops_runLevel (l : CascadeLevel) : (runLevel cfg .registers l).Stops SelectStop :=
  stops_bind (stops_update _) fun _ => stops_bind (stops_look _) fun head => stops_bind (selStops_levelLoop head _) fun _ =>
    stops_bind (stops_bind (stops_look _) fun _ => stops_bind (stops_crc .crc _) fun _ => stops_ite (stops_pure _) (stops_raise .checksum))
    fun _ => stops_bind (stops_look _) fun _ => stops_bind (stops_update _) fun _ => stops_bind (stops_look _) fun _ =>
    stops_ite (stops_raise (.protocol _)) (stops_ite (stops_unmodelled .fault) (stops_pure _))

theorem selStops_runLevels (head : Pos) (ls : List CascadeLevel) : (runLevels cfg .registers head ls).Stops SelectStop := by
  induction ls with
  | nil => exact stops_raise (.protocol _)
  | cons l ls ih => exact stops_bind (stops_jump _) fun _ => stops_bind (selStops_runLevel l) fun _ => stops_ite ih (stops_update _)

/-- How the levels end: at a stop, or completed with a SAK whose cascade bit is clear (R165, R166). -/
theorem runLevels_ends (head : Pos) (ls : List CascadeLevel) (hne : ls ≠ []) (s : State) :
    ∃ t, SelMoves cfg s t ∧ t.iter ≤ 32 ∧
      ((∃ e, (runLevels cfg .registers head ls).exec s = (.error e, t)) ∨
        ∃ sak, cascadeBit sak = false ∧ (runLevels cfg .registers head ls).exec s = (.ok (), t.completeSelect sak)) := by
  induction ls generalizing s with
  | nil => exact absurd rfl hne
  | cons l ls ih =>
    have e : (runLevels cfg .registers head (l :: ls)).exec s = match (runLevel cfg .registers l).exec { s with pos := head } with
        | (.ok sak, t) => (if cascadeBit sak then runLevels cfg .registers head ls else Proc.update fun s => s.completeSelect sak).exec t
        | (.error e, t) => (.error e, t) := by
      show (Proc.update (fun s => { s with pos := head }) >>= fun _ => runLevel cfg .registers l >>= fun sak =>
        if cascadeBit sak then runLevels cfg .registers head ls else Proc.update fun s => s.completeSelect sak).exec s = _
      rw [Proc.exec_bind_ok (Proc.exec_update _ _), Proc.exec_bind]
      rcases (runLevel cfg .registers l).exec { s with pos := head } with ⟨_ | _, _⟩ <;> rfl
    have h0 : SelMoves cfg s { s with pos := head } := HostMoves.selMoves (keeps_jump (E := hostMove cfg) head s)
    have h1 := selPath.trans h0 (sel_runLevel l { s with pos := head })
    have h2 := iter_runLevel (cfg := cfg) l { s with pos := head }
    rcases hr : (runLevel cfg .registers l).exec { s with pos := head } with ⟨x | sak, t⟩ <;> rw [hr] at e h1 h2
    · exact ⟨t, h1, h2, .inl ⟨x, e⟩⟩
    · simp only at e
      by_cases hc : cascadeBit sak = true
      · rw [if_pos hc] at e
        cases ls with
        | nil => exact ⟨t, h1, h2, .inl ⟨_, e⟩⟩
        | cons m ls =>
          obtain ⟨u, hu, hi, hx⟩ := ih (by simp) t
          exact ⟨u, selPath.trans h1 hu, hi, by rw [e]; exact hx⟩
      · rw [if_neg hc] at e
        exact ⟨t, h1, h2, .inr ⟨sak, by simpa using hc, e⟩⟩

/-- How select ends, whatever the chip answers (R146, R166, R168). -/
theorem selectCard_ends (s : State) :
    ∃ t, SelMoves cfg s.endSessionForSelect t ∧ t.iter ≤ 32 ∧
      ((∃ e, SelectStop e ∧ (selectCard cfg .registers).exec s = (.error e, t)) ∨
        ∃ sak, cascadeBit sak = false ∧
          (selectCard cfg .registers).exec s = (.ok (.selected (t.completeSelect sak).uidBytes sak), t.completeSelect sak)) := by
  have e : (selectCard cfg .registers).exec s = match (runLevels cfg .registers s.pos [.cl1, .cl2, .cl3]).exec s.endSessionForSelect with
      | (.ok (), t) => (.ok (.selected t.uidBytes t.sak), t)
      | (.error e, t) => (.error e, t) := by
    unfold selectCard
    rw [Proc.exec_bind_ok (Proc.exec_update _ _), Proc.exec_bind_ok (Proc.exec_look _ _), Proc.exec_bind]
    rw [show s.endSessionForSelect.pos = s.pos from rfl]
    rcases (runLevels cfg .registers s.pos [.cl1, .cl2, .cl3]).exec s.endSessionForSelect with ⟨_ | _, _⟩ <;> rfl
  obtain ⟨t, h1, h2, h⟩ := runLevels_ends s.pos [.cl1, .cl2, .cl3] (by simp) s.endSessionForSelect
  refine ⟨t, h1, h2, ?_⟩
  rcases h with ⟨x, hx⟩ | ⟨sak, hs, hx⟩
  · exact .inl ⟨x, selStops_runLevels _ _ _ _ _ hx, by rw [e, hx]⟩
  · exact .inr ⟨sak, hs, by rw [e, hx]; rfl⟩

end Sys2Proof.Machine
end

