-- ==== Sys2Proof/Laws/Exec.lean ====
section
/-! SUPPORT. What exec does with any instruction, said once: a host call is refused or runs its procedure, an internal row runs its
procedure, and nothing else. -/

namespace Sys2Proof.Machine

variable {cfg : Cfg}

/-- A stuck machine answers every instruction with its fault (R262). -/
theorem exec_stuck {i : Instr} {s : State} {m : UnmodelledReason} (h : s.faultMark = some m) : exec i s = .fault (.stuck m) := by
  have hr : ∀ p, runRow p s = .fault (.stuck m) := fun _ => unlessStuck_some h _
  have hc : ∀ op nr own p, hostCall op nr own p s = .fault (.stuck m) := fun _ _ _ _ => unlessStuck_some h _
  have ha : ∀ {α : Type} (a : Option α) (go : α → StepResult), withArg s a go = .fault (.stuck m) := fun _ _ => unlessStuck_some h _
  cases i
  case init | isCardPresent | select | mifareStopCrypto1 | makeStore | antennaOn | antennaOff | endSession => exact hc _ _ _ _
  case setAntennaState | mifareAuth | mifareRead | mifareWrite | calculateCrc | cardType | getSak | getCapacity | authenticate |
      readBlock | writeBlock | readBytes | writeBytes => exact ha _ _
  all_goals exact hr _

theorem exec_row {i : Instr} {p : Proc Value} (s : State) (h : rowProc s.cfg .registers i = some p) : exec i s = runRow p s := by
  cases i
  case init | setAntennaState | isCardPresent | select | mifareAuth | mifareStopCrypto1 | mifareRead | mifareWrite | calculateCrc |
      cardType | getSak | makeStore | getCapacity | authenticate | readBlock | writeBlock | readBytes | writeBytes | antennaOn | antennaOff |
      endSession => cases h
  all_goals
    obtain rfl := Option.some.inj h
    rfl

/-- A host call whose operands are given is `hostCall` of its procedure. -/
theorem exec_call {i : Instr} {s : State} {op : HostOp} {p : Proc Value} (hf : s.faultMark = none) (h : callProc s.cfg .registers s i = some (op, p)) :
    exec i s = hostCall op i.needsReady (ownReason s i) p s := by
  cases i
  case init | antennaOn | antennaOff | isCardPresent | select | mifareStopCrypto1 | endSession | makeStore =>
    obtain ⟨rfl, rfl⟩ := Prod.mk.inj (Option.some.inj h); rfl
  case setAntennaState | mifareAuth | mifareRead | cardType | getSak | getCapacity =>
    obtain ⟨_, h1, h2⟩ := Option.map_eq_some_iff.1 h
    obtain ⟨rfl, rfl⟩ := Prod.mk.inj h2; exact withArg_some hf h1 _
  case calculateCrc | readBytes =>
    obtain ⟨_, h1, h2⟩ := Option.map_eq_some_iff.1 h
    obtain ⟨rfl, rfl⟩ := Prod.mk.inj h2
    simp only [ownReason, h1, Option.bind_some]; exact withArg_some hf h1 _
  case mifareWrite =>
    obtain ⟨_, h1, h'⟩ := Option.bind_eq_some_iff.1 h
    obtain ⟨_, h2, h3⟩ := Option.map_eq_some_iff.1 h'
    obtain ⟨rfl, rfl⟩ := Prod.mk.inj h3
    simp only [ownReason, h2, Option.bind_some]; exact (withArg_some hf h1 _).trans (withArg_some hf h2 _)
  case authenticate | readBlock =>
    obtain ⟨_, h1, h'⟩ := Option.bind_eq_some_iff.1 h
    obtain ⟨_, h2, h3⟩ := Option.map_eq_some_iff.1 h'
    obtain ⟨rfl, rfl⟩ := Prod.mk.inj h3
    simp only [ownReason, h1, h2, Option.bind_some]; exact (withArg_some hf h1 _).trans (withArg_some hf h2 _)
  case writeBytes =>
    obtain ⟨_, h1, h'⟩ := Option.bind_eq_some_iff.1 h
    obtain ⟨_, h2, h3⟩ := Option.map_eq_some_iff.1 h'
    obtain ⟨rfl, rfl⟩ := Prod.mk.inj h3
    simp only [ownReason, h1, Option.bind_some]; exact (withArg_some hf h1 _).trans (withArg_some hf h2 _)
  case writeBlock =>
    obtain ⟨_, h1, h'⟩ := Option.bind_eq_some_iff.1 h
    obtain ⟨_, h2, h''⟩ := Option.bind_eq_some_iff.1 h'
    obtain ⟨_, h3, h4⟩ := Option.map_eq_some_iff.1 h''
    obtain ⟨rfl, rfl⟩ := Prod.mk.inj h4
    simp only [ownReason, h1, h2, h3, Option.bind_some]
    exact (withArg_some hf h1 _).trans ((withArg_some hf h2 _).trans (withArg_some hf h3 _))
  all_goals cases h

theorem withArg_missing {α : Type} {s : State} {a : Option α} {go : α → StepResult} (hf : s.faultMark = none) (h : a = none) :
    withArg s a go = .refused .badOperand := by simp [withArg, unlessStuck_none hf, h]

/-- An instruction that is neither has an operand without a value: the call cannot be made. -/
theorem exec_neither {i : Instr} {s : State} (hf : s.faultMark = none) (hr : rowProc s.cfg .registers i = none) (hc : callProc s.cfg .registers s i = none) :
    exec i s = .refused .badOperand := by
  have step2 : ∀ {α β : Type} {a : Option α} {b : Option β} {go : α → β → StepResult}, (a = none ∨ b = none) →
      withArg s a (fun x => withArg s b fun y => go x y) = .refused .badOperand := by
    intro α β a b go h
    cases a with
    | none => exact withArg_missing hf rfl
    | some x =>
      rw [withArg_some hf rfl]
      exact withArg_missing hf (by simpa using h)
  cases i
  case setAntennaState | mifareAuth | mifareRead | cardType | getSak | getCapacity | calculateCrc | readBytes =>
    exact withArg_missing hf (Option.map_eq_none_iff.1 hc)
  case mifareWrite block data =>
    refine step2 ?_
    rcases h : byteOf s block with _ | a
    · exact .inl rfl
    · exact .inr (Option.map_eq_none_iff.1 (Option.bind_eq_none_iff.1 hc a h))
  case authenticate st block | readBlock st block =>
    refine step2 ?_
    rcases h : storeOf s st with _ | a
    · exact .inl rfl
    · exact .inr (Option.map_eq_none_iff.1 (Option.bind_eq_none_iff.1 hc a h))
  case writeBytes st data =>
    refine step2 ?_
    rcases h : storeOf s st with _ | a
    · exact .inl rfl
    · exact .inr (Option.map_eq_none_iff.1 (Option.bind_eq_none_iff.1 hc a h))
  case writeBlock st block data =>
    rcases h : storeOf s st with _ | a
    · exact withArg_missing hf h
    · show withArg s (storeOf s st) _ = _
      rw [withArg_some hf h]
      refine step2 ?_
      rcases h2 : byteOf s block with _ | b
      · exact .inl rfl
      · exact .inr (Option.map_eq_none_iff.1 (Option.bind_eq_none_iff.1 (Option.bind_eq_none_iff.1 hc a h) b h2))
  case init | isCardPresent | select | mifareStopCrypto1 | makeStore | antennaOn | antennaOff | endSession => cases hc
  all_goals cases hr

/-- The internal rows and the host calls are different instructions. -/
theorem row_or_call {i : Instr} {s : State} {p : Proc Value} (h : rowProc s.cfg .registers i = some p) : callProc s.cfg .registers s i = none := by
  cases i
  case init | setAntennaState | isCardPresent | select | mifareAuth | mifareStopCrypto1 | mifareRead | mifareWrite | calculateCrc |
      cardType | getSak | makeStore | getCapacity | authenticate | readBlock | writeBlock | readBytes | writeBytes | antennaOn | antennaOff |
      endSession => cases h
  all_goals rfl

/-- An NVB's bits of a partial byte are its low three bits. -/
theorem nvbTail_eq (n : Byte) : nvbTail n = n.setWidth 3 := by revert n; decide

/-- A frame row is its transaction. -/
theorem rowProc_frame {i : Instr} {cmd : PiccCommand} {tx : List Byte} {tl al : BitVec 3} {want : Bool}
    (h : i.frame cfg = some (cmd, tx, tl, al, want)) :
    rowProc cfg .registers i = some (do let o ← transceive cfg .registers cmd tx tl al want; pure (.outcome o)) := by
  have key : ∀ {c tx1 tl1 al1 w}, (some (c, tx1, tl1, al1, w) : Option (PiccCommand × List Byte × BitVec 3 × BitVec 3 × Bool)) = some (cmd, tx, tl, al, want) →
      (some (do let o ← transceive cfg .registers c tx1 tl1 al1 w; pure (.outcome o)) : Option (Proc Value)) =
        some (do let o ← transceive cfg .registers cmd tx tl al want; pure (.outcome o)) := fun h => by cases h; rfl
  cases i
  case reqa | wupa | hlta | mfAuthA | mfAuthB | mfRead | mfWrite | mfWriteData | transceivePicc => exact key h
  case anticollCL1 n bits | anticollCL2 n bits | anticollCL3 n bits =>
    rw [← key h, ← nvbTail_eq]; rfl
  case selectCL1 u lo hi | selectCL2 u lo hi | selectCL3 u lo hi => 
    rw [← key h]; rfl
  all_goals cases h

/-! ### How init ends -/

/-- init behind its poll never stops. -/
theorem stops_antennaSet {Q : Stop → Prop} (on : Bool) : (antennaSet cfg on).Stops Q :=
  stops_bind (stops_regRead _) fun _ => stops_ite (stops_ite (stops_regWrite _ _) (stops_pure _)) (stops_ite (stops_regWrite _ _) (stops_pure _))

/-- How init ends, whatever the chip answers: it gives up at its poll, or it completes and the controller is ready (R132, R137, R138). -/
theorem bringUp_ends (s : State) :
    ∃ t, HostMoves cfg { s.endSessionForInit with resetLine := .high } t ∧
      ((bringUp cfg).exec s = (.error (.raise (.timeout .reset)), t) ∨ (bringUp cfg).exec s = (.ok (), { t with ready := true })) := by
  have hreset : ∃ u, HostMoves cfg { s.endSessionForInit with resetLine := .high } u ∧
  (chipReset cfg).exec s.endSessionForInit = (.ok (), u) := by
    unfold chipReset
    rw [Proc.exec_bind_ok (Proc.exec_look _ _)]
    rcases hl : s.endSessionForInit.resetLine with _ | _
    · exact ⟨_, ⟨[.reset .high], s.answers, s.draws, s.pos.advance, s.rsp, s.crcOut, by simp [hostMove, Event.wf, hostEvent],
        .inl rfl, rfl⟩, rfl⟩
    · have h := host_command (cfg := cfg) .softReset s.endSessionForInit
      have e : ({ s.endSessionForInit with resetLine := .high } : State) = s.endSessionForInit := by rw [← hl]
      rw [e]; exact ⟨_, h, rfl⟩
  obtain ⟨u, hu, he⟩ := hreset
  let rest : Proc Unit := do
    pollPowerDown cfg
    stopCrypto1 cfg
    regWrite cfg .tMode cfg.initValues.tMode
    regWrite cfg .tPrescaler cfg.initValues.tPrescaler
    regWrite cfg .tReloadH ((cfg.initValues.tReload >>> 8).setWidth 8)
    regWrite cfg .tReloadL (cfg.initValues.tReload.setWidth 8)
    regWrite cfg .txAsk cfg.initValues.txAsk
    regWrite cfg .mode cfg.initValues.mode
    antennaSet cfg true
  have hk : rest.Keeps (HostMoves cfg) := hostPath.bind (host_poll (host_powerDownCheck) (hostPath.raise _)) fun _ =>
    hostPath.bind host_stopCrypto1 fun _ => hostPath.bind (host_write .tMode rfl) fun _ => hostPath.bind (host_write .tPrescaler rfl) fun _ =>
    hostPath.bind (host_write .tReloadH rfl) fun _ => hostPath.bind (host_write .tReloadL rfl) fun _ =>
    hostPath.bind (host_write .txAsk rfl) fun _ => hostPath.bind (host_write .mode rfl) fun _ => host_antennaSet true
  have hs : rest.Stops fun x => x = .raise (.timeout .reset) := stops_bind (stops_poll (fun _ => stops_bind (stops_regRead _) fun _ =>
      stops_ite (stops_ite (stops_raise rfl) (stops_pure _)) (stops_pure _)) (stops_raise rfl)) fun _ => stops_bind (stops_clearBits _ _) fun _ =>
    stops_bind (stops_regWrite _ _) fun _ => stops_bind (stops_regWrite _ _) fun _ => stops_bind (stops_regWrite _ _) fun _ =>
    stops_bind (stops_regWrite _ _) fun _ => stops_bind (stops_regWrite _ _) fun _ => stops_bind (stops_regWrite _ _) fun _ => stops_antennaSet true
  have e : (bringUp cfg).exec s = match rest.exec u with
      | (.ok (), t) => (.ok (), { t with ready := true })
      | (.error x, t) => (.error x, t) := by
    have : bringUp cfg = Proc.update State.endSessionForInit >>= fun _ => chipReset cfg >>= fun _ =>
        rest >>= fun _ => Proc.update fun s => { s with ready := true } := by simp only [bringUp, rest, bind_assoc]
    rw [this, Proc.exec_bind_ok (Proc.exec_update _ _), Proc.exec_bind_ok he, Proc.exec_bind]
    rcases rest.exec u with ⟨_ | _, _⟩ <;> rfl
  have h1 := hostPath.trans hu (hk u)
  rcases hr : rest.exec u with ⟨x | _, t⟩ <;> rw [hr] at e h1
  · exact ⟨t, h1, .inl (by rw [e, hs _ _ _ hr])⟩
  · exact ⟨t, h1, .inr e⟩

/-- What a next state of exec is: a refusal, the end of a host call, or the end of an internal row. -/
theorem exec_next {i : Instr} {s t : State} (h : exec i s = .next t) :
    s.faultMark = none ∧
    ((∃ p, rowProc s.cfg .registers i = some p ∧ t = finishRow (p.exec s)) ∨
      ∃ op p, callProc s.cfg .registers s i = some (op, p) ∧
        ((∃ m, refusalOf s i.needsReady (ownReason s i) = some m ∧ t = s.refuse m) ∨
          refusalOf s i.needsReady (ownReason s i) = none ∧ t = finishCall (p.exec (s.startCall op)))) := by
  rcases hf : s.faultMark with _ | m
  · refine ⟨rfl, ?_⟩
    rcases hr : rowProc s.cfg .registers i with _ | p
    · rcases hc : callProc s.cfg .registers s i with _ | ⟨op, p⟩
      · rw [exec_neither hf hr hc] at h; cases h
      · rw [exec_call hf hc] at h
        refine .inr ⟨op, p, rfl, ?_⟩
        rcases hx : refusalOf s i.needsReady (ownReason s i) with _ | m
        · rw [hostCall_run hf hx] at h; cases h; exact .inr ⟨rfl, rfl⟩
        · rw [hostCall_refused hf hx] at h; cases h; exact .inl ⟨m, rfl, rfl⟩
    · rw [exec_row s hr, runRow, unlessStuck_none hf] at h
      cases h; exact .inl ⟨p, rfl, rfl⟩
  · rw [exec_stuck hf] at h; cases h

end Sys2Proof.Machine
end

