-- ==== Sys2Proof/Laws/Between.lean ====
section
/-! SUPPORT. The states a procedure passes through (R13, R29): one event behind another, the call in progress, the position of the next
primitive. -/

namespace Sys2Proof.Machine

variable {α β : Type} {cfg : Cfg}

/-- From `s` through the states `us` to `t`: one event between two states, and none behind the last; the positions in between are one
primitive behind a position of a kind. -/
inductive Walk (P : Pos → Prop) : State → List State → State → Prop where
  | still {s t : State} : t.trace = s.trace → t.busy = s.busy → t.faultMark = s.faultMark → t.result = s.result → P t.pos → Walk P s [] t
  | step {s u t : State} {us : List State} (e : Event) : u.trace = s.trace ++ [e] → u.busy = s.busy → u.faultMark = s.faultMark →
      u.result = s.result → (∃ q, P q ∧ u.pos = q.advance) → Walk P u us t → Walk P s (u :: us) t

/-- The kinds of positions a walk may go through. -/
structure Onward (P : Pos → Prop) : Prop where
  advance : ∀ q, P q → P q.advance

theorem Walk.end {P : Pos → Prop} {s t : State} {us : List State} (h : Walk P s us t) : P t.pos := by
  induction h with
  | still _ _ _ _ h => exact h
  | step _ _ _ _ _ _ _ ih => exact ih

theorem Walk.from {P : Pos → Prop} {s s' t : State} {us : List State} (h : Walk P s' us t) (h1 : s'.trace = s.trace)
    (h2 : s'.busy = s.busy) (h3 : s'.faultMark = s.faultMark) (h4 : s'.result = s.result) : Walk P s us t := by
  cases h with
  | still a b c d e => exact .still (a.trans h1) (b.trans h2) (c.trans h3) (d.trans h4) e
  | step e a b c d f g => exact .step e (h1 ▸ a) (b.trans h2) (c.trans h3) (d.trans h4) f g

theorem Walk.append {P : Pos → Prop} {s t v : State} {us ws : List State} (h : Walk P s us t) (h' : Walk P t ws v) :
    Walk P s (us ++ ws) v := by
  induction h with
  | still a b c d _ => exact h'.from a b c d
  | step e a b c d f _ ih => exact .step e a b c d f (ih h')

/-- From every state whose position is of a kind the procedure walks. -/
def Proc.Walks (P : Pos → Prop) (p : Proc α) : Prop := ∀ s, P s.pos → Walk P s (p.between s) (p.exec s).2

section

variable {P : Pos → Prop}

theorem walks_pure (a : α) : (pure a : Proc α).Walks P := fun _ h => .still rfl rfl rfl rfl h
theorem walks_look (f : State → α) : (Proc.look f).Walks P := fun _ h => .still rfl rfl rfl rfl h
theorem walks_raise (e : Err) : (Proc.raise e : Proc α).Walks P := fun _ h => .still rfl rfl rfl rfl h
theorem walks_unmodelled (r : UnmodelledReason) : (Proc.unmodelled r : Proc α).Walks P := fun _ h => .still rfl rfl rfl rfl h

theorem walks_internal {f : State → α × State} (h : ∀ s, (f s).2.trace = s.trace ∧ (f s).2.busy = s.busy ∧
    (f s).2.faultMark = s.faultMark ∧ (f s).2.result = s.result ∧ (f s).2.pos = s.pos) : (Proc.internal f).Walks P := fun s hs =>
  .still (h s).1 (h s).2.1 (h s).2.2.1 (h s).2.2.2.1 (by rw [Proc.exec_internal]; rw [(h s).2.2.2.2]; exact hs)

theorem walks_update {f : State → State} (h : ∀ s, (f s).trace = s.trace ∧ (f s).busy = s.busy ∧ (f s).faultMark = s.faultMark ∧
    (f s).result = s.result ∧ (f s).pos = s.pos) : (Proc.update f).Walks P := walks_internal fun s => h s

/-- A primitive that emits one event. -/
theorem walks_primitive (hP : Onward P) {f : State → α × State} (h : ∀ s, ∃ e, (f s).2.trace = s.trace ++ [e] ∧ (f s).2.busy = s.busy ∧
    (f s).2.faultMark = s.faultMark ∧ (f s).2.result = s.result ∧ (f s).2.pos = s.pos.advance) : (Proc.primitive f).Walks P := fun s hs => by
  obtain ⟨e, h1, h2, h3, h4, h5⟩ := h s
  exact .step e h1 h2 h3 h4 ⟨_, hs, h5⟩ (.still rfl rfl rfl rfl (by rw [Proc.exec_primitive]; rw [h5]; exact hP.advance _ hs))

theorem walks_bind {x : Proc α} {f : α → Proc β} (hx : x.Walks P) (hf : ∀ a, (f a).Walks P) : (x >>= f).Walks P := fun s hs => by
  have h1 := hx s hs
  rw [Proc.between_bind, Proc.exec_bind]
  rcases he : x.exec s with ⟨_ | a, t⟩ <;> rw [he] at h1
  · simpa using h1
  · exact h1.append (hf a t h1.end)

theorem walks_ite {c : Prop} [Decidable c] {x y : Proc α} (hx : x.Walks P) (hy : y.Walks P) : (if c then x else y).Walks P := by
  split <;> assumption

theorem walks_jump {head : Pos} (h : P head) : (jump head).Walks P := fun _ _ => .still rfl rfl rfl rfl h

/-- A loop takes the position it starts at as its head. -/
theorem walks_head {f : Pos → Proc α} (h : ∀ head, P head → (f head).Walks P) : (Proc.look State.pos >>= f).Walks P := fun s hs => by
  rw [Proc.between_bind, Proc.exec_bind]
  exact h s.pos hs s hs

theorem walks_drawBudget : drawBudget.Walks P := walks_internal fun s => by
  unfold State.nextBudget; split <;> exact ⟨rfl, rfl, rfl, rfl, rfl⟩

/-! ### The transport -/

variable (hP : Onward P)
include hP

theorem walks_regWrite (r : Reg) (v : Byte) : (regWrite cfg r v).Walks P := walks_primitive hP fun _ => ⟨_, rfl, rfl, rfl, rfl, rfl⟩

theorem walks_regWriteN (r : Reg) (bs : List Byte) : (regWriteN cfg r bs).Walks P := by
  unfold regWriteN
  exact walks_ite (walks_pure _) (walks_primitive hP fun _ => ⟨_, rfl, rfl, rfl, rfl, rfl⟩)

theorem walks_regRead (r : Reg) : (regRead cfg r).Walks P := walks_primitive hP fun _ => ⟨_, rfl, rfl, rfl, rfl, rfl⟩

theorem walks_regReadN (r : Reg) (n : Nat) (a : BitVec 3) : (regReadN cfg r n a).Walks P := by
  unfold regReadN
  exact walks_ite (walks_pure _) (walks_primitive hP fun _ => ⟨_, rfl, rfl, rfl, rfl, rfl⟩)

theorem walks_resetLine (l : LineLevel) : (resetLine l).Walks P := walks_primitive hP fun _ => ⟨_, rfl, rfl, rfl, rfl, rfl⟩

theorem walks_ask (k : WaitKind) (a : Bool) : (askDeadline k a).Walks P := walks_primitive hP fun _ => ⟨_, rfl, rfl, rfl, rfl, rfl⟩

theorem walks_setBits (r : Reg) (m : Byte) : (setBits cfg r m).Walks P := walks_bind (walks_regRead hP r) fun _ => walks_regWrite hP r _
theorem walks_clearBits (r : Reg) (m : Byte) : (clearBits cfg r m).Walks P := walks_bind (walks_regRead hP r) fun _ => walks_regWrite hP r _

theorem walks_pollAgain {kind : WaitKind} {head : Pos} {check : Nat → Proc (Option β)} {od : Proc β} (hh : P head)
    (hc : ∀ i, (check i).Walks P) (ho : od.Walks P) (budget i : Nat) : (pollAgain kind head check od budget i).Walks P := by
  induction budget generalizing i with
  | zero => exact walks_bind (walks_ask hP _ _) fun _ => ho
  | succ n ih =>
    refine walks_bind (walks_ask hP _ _) fun _ => walks_bind (walks_jump hh) fun _ => walks_bind (hc i) fun o => ?_
    cases o with
    | none => exact ih (i + 1)
    | some b => exact walks_pure b

theorem walks_poll {kind : WaitKind} {check : Nat → Proc (Option β)} {od : Proc β} (hc : ∀ i, (check i).Walks P) (ho : od.Walks P) :
    (poll kind check od).Walks P := by
  refine walks_head fun head hh => walks_bind (hc 0) fun o => ?_
  cases o with
  | none => exact walks_bind walks_drawBudget fun b => walks_pollAgain hP hh hc ho b 1
  | some b => exact walks_pure b

/-! ### The procedures -/

theorem walks_crc (d : List Byte) : (crcTransaction cfg d).Walks P :=
  walks_bind (walks_bind (walks_regWrite hP _ _) fun _ => walks_bind (walks_regWrite hP _ _) fun _ => walks_bind (walks_regWrite hP _ _)
    fun _ => walks_bind (walks_regWriteN hP _ _) fun _ => walks_regWrite hP _ _) fun _ => walks_bind
    (walks_poll hP (fun _ => walks_bind (walks_regRead hP _) fun _ => walks_pure _) (walks_raise _)) fun _ => walks_bind (walks_regRead hP _)
    fun _ => walks_bind (walks_regRead hP _) fun _ => walks_bind (walks_update fun _ => ⟨rfl, rfl, rfl, rfl, rfl⟩) fun _ => walks_pure _

theorem walks_issueCommand (cmd : PiccCommand) : (issueCommand cfg cmd).Walks P := by
  unfold issueCommand
  refine walks_bind (walks_regWrite hP _ _) fun _ => ?_
  cases cmd
  · exact walks_setBits hP _ _
  · exact walks_pure _

theorem walks_transceive (cmd : PiccCommand) (tx : List Byte) (tl al : BitVec 3) (want : Bool) :
    (transceive cfg .registers cmd tx tl al want).Walks P := by
  rw [transceive_eq]
  refine walks_bind ?_ fun _ => ?_
  · exact walks_bind (walks_regWrite hP _ _) fun _ => walks_bind (walks_regWrite hP _ _) fun _ => walks_bind (walks_regWrite hP _ _) fun _ =>
      walks_bind (walks_regWrite hP _ _) fun _ => walks_bind (walks_regWriteN hP _ _) fun _ => walks_bind (walks_issueCommand hP _) fun _ =>
      walks_bind (walks_poll hP (fun _ => walks_bind (walks_regRead hP _) fun _ => walks_pure _) (walks_pure _)) fun _ =>
      walks_bind (walks_clearBits hP _ _) fun _ => walks_pure _
  · have hr : (readResponse cfg al).Walks P := walks_bind (walks_regRead hP _) fun _ => walks_bind (walks_regReadN hP _ _ _) fun _ =>
      walks_bind (walks_regRead hP _) fun _ => walks_update fun _ => ⟨rfl, rfl, rfl, rfl, rfl⟩
    exact walks_ite (walks_pure _) (walks_bind (walks_regRead hP _) fun _ => walks_ite (walks_pure _)
      (walks_ite (walks_bind hr fun _ => walks_pure _) (walks_pure _)))

omit hP in
theorem walks_raiseOn (o : XactOutcome) : (raiseOn o).Walks P := by
  cases o <;> first | exact walks_raise _ | exact walks_pure _

theorem walks_antennaSet (on : Bool) : (antennaSet cfg on).Walks P :=
  walks_bind (walks_regRead hP _) fun _ => walks_ite (walks_ite (walks_regWrite hP _ _) (walks_pure _))
    (walks_ite (walks_regWrite hP _ _) (walks_pure _))

theorem walks_bringUp : (bringUp cfg).Walks P := by
  refine walks_bind (walks_update fun _ => ⟨rfl, rfl, rfl, rfl, rfl⟩) fun _ => walks_bind ?_ fun _ => walks_bind
    (walks_poll hP (fun _ => walks_bind (walks_regRead hP _) fun _ => walks_ite (walks_ite (walks_raise _) (walks_pure _)) (walks_pure _))
      (walks_raise _)) fun _ => walks_bind (walks_clearBits hP _ _) fun _ => walks_bind (walks_regWrite hP _ _) fun _ =>
    walks_bind (walks_regWrite hP _ _) fun _ => walks_bind (walks_regWrite hP _ _) fun _ => walks_bind (walks_regWrite hP _ _) fun _ =>
    walks_bind (walks_regWrite hP _ _) fun _ => walks_bind (walks_regWrite hP _ _) fun _ => walks_bind (walks_antennaSet hP true) fun _ =>
    walks_update fun _ => ⟨rfl, rfl, rfl, rfl, rfl⟩
  refine walks_bind (walks_look _) fun l => ?_
  cases l
  · exact walks_resetLine hP _
  · exact walks_regWrite hP _ _

theorem walks_cardPresent : (cardPresent cfg .registers).Walks P := by
  refine walks_bind (walks_transceive hP _ _ _ _ _) fun o => ?_
  cases o
  · exact walks_bind (walks_look _) fun _ => walks_pure _
  all_goals exact walks_pure _

theorem walks_authBlock (key : Key) (a : Byte) : (authBlock cfg .registers key a).Walks P :=
  walks_bind (walks_look _) fun _ => walks_bind (walks_transceive hP _ _ _ _ _) walks_raiseOn

theorem walks_checkRead : (checkRead cfg).Walks P :=
  walks_bind (walks_look _) fun _ => walks_ite (walks_bind (walks_crc hP _) fun _ => walks_ite (walks_pure _) (walks_raise _)) (walks_raise _)

theorem walks_readCardBlock (a : Byte) : (readCardBlock cfg .registers a).Walks P :=
  walks_bind (walks_crc hP _) fun _ => walks_bind (walks_transceive hP _ _ _ _ _) fun o => walks_bind (walks_raiseOn o) fun _ =>
    walks_checkRead hP

omit hP in
theorem walks_ackCheck : ackCheck.Walks P := walks_bind (walks_look _) fun _ => walks_ite (walks_pure _) (walks_raise _)

theorem walks_writePhase (frame : List Byte) : (writePhase cfg .registers frame).Walks P :=
  walks_bind (walks_transceive hP _ _ _ _ _) fun o => walks_bind (walks_raiseOn o) fun _ => walks_ackCheck

theorem walks_writeCardBlock (a : Byte) (data : List Byte) : (writeCardBlock cfg .registers a data).Walks P :=
  walks_bind (walks_crc hP _) fun _ => walks_bind (walks_writePhase hP _) fun _ => walks_bind (walks_crc hP _) fun _ => walks_writePhase hP _

theorem walks_authSector (a : Byte) : (authSector cfg .registers a).Walks P :=
  walks_bind (walks_look _) fun _ => walks_ite (walks_pure _) (walks_bind (walks_authBlock hP _ _) fun _ =>
    walks_update fun _ => ⟨rfl, rfl, rfl, rfl, rfl⟩)

theorem walks_readThrough (a : Byte) : (readThrough cfg .registers a).Walks P :=
  walks_bind (walks_authSector hP a) fun _ => walks_readCardBlock hP a

theorem walks_writeThrough (a : Byte) (data : List Byte) : (writeThrough cfg .registers a data).Walks P :=
  walks_bind (walks_authSector hP a) fun _ => walks_writeCardBlock hP a data

theorem walks_readAll {head : Pos} (hh : P head) (bs : List Byte) : (readAll cfg .registers head bs).Walks P := by
  induction bs with
  | nil => exact walks_pure _
  | cons b bs ih =>
    exact walks_bind (walks_jump hh) fun _ => walks_ite ih (walks_bind (walks_readThrough hP b) fun _ => walks_bind ih fun _ => walks_pure _)

theorem walks_writeAll {head : Pos} (hh : P head) (bs : List Byte) (chunks : List (List Byte)) :
    (writeAll cfg .registers head bs chunks).Walks P := by
  induction bs generalizing chunks with
  | nil =>
    cases chunks
    · exact walks_pure _
    · exact walks_raise _
  | cons b bs ih =>
    cases chunks with
    | nil => exact walks_pure _
    | cons c cs =>
      exact walks_bind (walks_jump hh) fun _ => walks_ite (ih _) (walks_bind (walks_writeThrough hP b c) fun _ => ih _)

theorem walks_writeStore (data : List Byte) : (writeStore cfg .registers data).Walks P :=
  walks_ite (walks_raise _) (walks_head fun _ hh => walks_writeAll hP hh _ _)

omit hP in
theorem walks_typeOfSak (b : Byte) : (typeOfSak cfg b).Walks P := by
  unfold typeOfSak; split
  · exact walks_pure _
  · exact walks_raise _

/-! ### select -/

omit hP in
theorem walks_merge (idx : Nat) (tb : BitVec 3) : (merge idx tb).Walks P :=
  walks_bind (walks_look _) fun _ => walks_ite (walks_raise _) (walks_update fun _ => ⟨rfl, rfl, rfl, rfl, rfl⟩)

theorem walks_afterFailedPass (o : XactOutcome) : (afterFailedPass cfg .registers o).Walks P := by
  cases o
  · exact walks_pure _
  · exact walks_raise _
  · exact walks_raise _
  · exact walks_bind (walks_regRead hP _) fun _ => walks_ite (walks_raise _) (walks_bind (walks_look _) fun _ =>
      walks_ite (walks_raise _) (walks_update fun _ => ⟨rfl, rfl, rfl, rfl, rfl⟩))

theorem walks_pass : (pass cfg .registers).Walks P := by
  refine walks_bind (walks_update fun _ => ⟨rfl, rfl, rfl, rfl, rfl⟩) fun _ => walks_bind (walks_look _) fun k => walks_ite ?_ ?_
  · refine walks_bind (walks_bind (walks_update fun _ => ⟨rfl, rfl, rfl, rfl, rfl⟩) fun _ => walks_bind (walks_look _) fun _ =>
      walks_bind (walks_crc hP _) fun _ => walks_bind (walks_update fun _ => ⟨rfl, rfl, rfl, rfl, rfl⟩) fun _ =>
      walks_bind (walks_look _) fun _ => walks_transceive hP _ _ _ _ _) fun o => ?_
    cases o
    · exact walks_bind (walks_bind (walks_look _) fun _ => walks_ite (walks_pure _) (walks_raise _)) fun _ => walks_pure _
    all_goals exact walks_bind (walks_afterFailedPass hP _) fun _ => walks_pure _
  · refine walks_bind (walks_bind (walks_bind (walks_update fun _ => ⟨rfl, rfl, rfl, rfl, rfl⟩) fun _ => walks_bind (walks_look _) fun _ =>
      walks_transceive hP _ _ _ _ _) fun o => ?_) fun _ => walks_pure _
    cases o
    · exact walks_bind (walks_merge _ _) fun _ => walks_update fun _ => ⟨rfl, rfl, rfl, rfl, rfl⟩
    · exact walks_afterFailedPass hP .timeout
    · exact walks_afterFailedPass hP (.comm _)
    · exact walks_bind (walks_merge _ _) fun _ => walks_afterFailedPass hP _

theorem walks_levelLoop {head : Pos} (hh : P head) (n : Nat) : (levelLoop cfg .registers head n).Walks P := by
  induction n with
  | zero => exact walks_raise _
  | succ n ih => exact walks_bind (walks_jump hh) fun _ => walks_bind (walks_pass hP) fun _ => walks_ite (walks_pure _) ih

theorem walks_checkSakCrc : (checkSakCrc cfg).Walks P :=
  walks_bind (walks_look _) fun _ => walks_bind (walks_crc hP _) fun _ => walks_ite (walks_pure _) (walks_raise _)

theorem walks_runLevel (l : CascadeLevel) : (runLevel cfg .registers l).Walks P :=
  walks_bind (walks_update fun _ => ⟨rfl, rfl, rfl, rfl, rfl⟩) fun _ => walks_head fun _ hh => walks_bind (walks_levelLoop hP hh _) fun _ =>
    walks_bind (walks_checkSakCrc hP) fun _ => walks_bind (walks_look _) fun _ => walks_bind
    (walks_update fun _ => ⟨rfl, rfl, rfl, rfl, rfl⟩) fun _ => walks_bind (walks_look _) fun _ =>
    walks_ite (walks_raise _) (walks_ite (walks_unmodelled _) (walks_pure _))

theorem walks_runLevels {head : Pos} (hh : P head) (ls : List CascadeLevel) : (runLevels cfg .registers head ls).Walks P := by
  induction ls with
  | nil => exact walks_raise _
  | cons l ls ih =>
    exact walks_bind (walks_jump hh) fun _ => walks_bind (walks_runLevel hP l) fun _ => walks_ite ih
      (walks_update fun _ => ⟨rfl, rfl, rfl, rfl, rfl⟩)

theorem walks_selectCard : (selectCard cfg .registers).Walks P :=
  walks_bind (walks_update fun _ => ⟨rfl, rfl, rfl, rfl, rfl⟩) fun _ => walks_head fun _ hh => walks_bind (walks_runLevels hP hh _) fun _ =>
    walks_look _

/-! ### Any instruction -/

omit hP in
theorem walks_then {p : Proc α} (h : p.Walks P) (f : α → β) : (do let a ← p; pure (f a) : Proc β).Walks P := walks_bind h fun _ => walks_pure _

/-- The procedure of every host call. -/
theorem call_walks {i : Instr} {s : State} {op : HostOp} {p : Proc Value} (h : callProc cfg .registers s i = some (op, p)) : p.Walks P := by
  cases i
  case init => obtain ⟨rfl, rfl⟩ := Prod.mk.inj (Option.some.inj h); exact walks_then (walks_bringUp hP) _
  case antennaOn | antennaOff => obtain ⟨rfl, rfl⟩ := Prod.mk.inj (Option.some.inj h); exact walks_then (walks_antennaSet hP _) _
  case isCardPresent => obtain ⟨rfl, rfl⟩ := Prod.mk.inj (Option.some.inj h); exact walks_then (walks_cardPresent hP) _
  case select => obtain ⟨rfl, rfl⟩ := Prod.mk.inj (Option.some.inj h); exact walks_selectCard hP
  case mifareStopCrypto1 | endSession => obtain ⟨rfl, rfl⟩ := Prod.mk.inj (Option.some.inj h); exact walks_then (walks_clearBits hP _ _) _
  case makeStore =>
    obtain ⟨rfl, rfl⟩ := Prod.mk.inj (Option.some.inj h)
    exact walks_then (walks_bind (walks_look _) fun b => walks_bind (walks_typeOfSak b) fun _ => walks_ite (walks_look _) (walks_raise _)) _
  case setAntennaState =>
    obtain ⟨_, _, h2⟩ := Option.map_eq_some_iff.1 h
    obtain ⟨rfl, rfl⟩ := Prod.mk.inj h2; exact walks_then (walks_antennaSet hP _) _
  case mifareAuth =>
    obtain ⟨_, _, h2⟩ := Option.map_eq_some_iff.1 h
    obtain ⟨rfl, rfl⟩ := Prod.mk.inj h2; exact walks_then (walks_authBlock hP _ _) _
  case mifareRead =>
    obtain ⟨_, _, h2⟩ := Option.map_eq_some_iff.1 h
    obtain ⟨rfl, rfl⟩ := Prod.mk.inj h2; exact walks_then (walks_readCardBlock hP _) _
  case cardType =>
    obtain ⟨_, _, h2⟩ := Option.map_eq_some_iff.1 h
    obtain ⟨rfl, rfl⟩ := Prod.mk.inj h2; exact walks_then (walks_typeOfSak _) _
  case getSak | getCapacity =>
    obtain ⟨_, _, h2⟩ := Option.map_eq_some_iff.1 h
    obtain ⟨rfl, rfl⟩ := Prod.mk.inj h2; exact walks_pure _
  case calculateCrc =>
    obtain ⟨_, _, h2⟩ := Option.map_eq_some_iff.1 h
    obtain ⟨rfl, rfl⟩ := Prod.mk.inj h2; exact walks_bind (walks_crc hP _) fun _ => walks_pure _
  case readBytes =>
    obtain ⟨_, _, h2⟩ := Option.map_eq_some_iff.1 h
    obtain ⟨rfl, rfl⟩ := Prod.mk.inj h2; exact walks_then (walks_head fun _ hh => walks_readAll hP hh _) _
  case mifareWrite =>
    obtain ⟨_, _, h'⟩ := Option.bind_eq_some_iff.1 h
    obtain ⟨_, _, h2⟩ := Option.map_eq_some_iff.1 h'
    obtain ⟨rfl, rfl⟩ := Prod.mk.inj h2; exact walks_then (walks_writeCardBlock hP _ _) _
  case authenticate =>
    obtain ⟨_, _, h'⟩ := Option.bind_eq_some_iff.1 h
    obtain ⟨_, _, h2⟩ := Option.map_eq_some_iff.1 h'
    obtain ⟨rfl, rfl⟩ := Prod.mk.inj h2; exact walks_then (walks_authSector hP _) _
  case readBlock =>
    obtain ⟨_, _, h'⟩ := Option.bind_eq_some_iff.1 h
    obtain ⟨_, _, h2⟩ := Option.map_eq_some_iff.1 h'
    obtain ⟨rfl, rfl⟩ := Prod.mk.inj h2; exact walks_then (walks_readThrough hP _) _
  case writeBytes =>
    obtain ⟨_, _, h'⟩ := Option.bind_eq_some_iff.1 h
    obtain ⟨_, _, h2⟩ := Option.map_eq_some_iff.1 h'
    obtain ⟨rfl, rfl⟩ := Prod.mk.inj h2; exact walks_then (walks_writeStore hP _) _
  case writeBlock =>
    obtain ⟨_, _, h'⟩ := Option.bind_eq_some_iff.1 h
    obtain ⟨_, _, h''⟩ := Option.bind_eq_some_iff.1 h'
    obtain ⟨_, _, h2⟩ := Option.map_eq_some_iff.1 h''
    obtain ⟨rfl, rfl⟩ := Prod.mk.inj h2; exact walks_then (walks_writeThrough hP _ _) _
  all_goals cases h

/-- The procedure of every internal row. -/
theorem row_walks {i : Instr} {p : Proc Value} (h : rowProc cfg .registers i = some p) : p.Walks P := by
  have recv : ∀ bs v, (receive bs v).Walks P := fun _ _ => walks_update fun _ => ⟨rfl, rfl, rfl, rfl, rfl⟩
  cases i
  case init | setAntennaState | isCardPresent | select | mifareAuth | mifareStopCrypto1 | mifareRead | mifareWrite | calculateCrc |
      cardType | getSak | makeStore | getCapacity | authenticate | readBlock | writeBlock | readBytes | writeBytes | antennaOn | antennaOff |
      endSession => cases h
  all_goals obtain rfl := Option.some.inj h
  case regWrite => exact walks_then (walks_regWrite hP _ _) _
  case regWriteN => exact walks_then (walks_regWriteN hP _ _) _
  case regRead => exact walks_then (walks_regRead hP _) _
  case regReadN => exact walks_then (walks_regReadN hP _ _ _) _
  case resetLine => exact walks_then (walks_resetLine hP _) _
  case pcdIdle | pcdCalcCrc | pcdSoftReset => exact walks_then (walks_regWrite hP _ _) _
  case pcdTransceive | pcdMfAuthent => exact walks_then (walks_issueCommand hP _) _
  case reqa | wupa | hlta | anticollCL1 | anticollCL2 | anticollCL3 | selectCL1 | selectCL2 | selectCL3 | mfAuthA | mfAuthB | mfRead |
      mfWrite | mfWriteData | transceivePicc => exact walks_then (walks_transceive hP _ _ _ _ _) _
  case atqa => exact walks_bind (recv _ _) fun _ => walks_bind (walks_look _) fun _ => walks_pure _
  case anticollResponse =>
    exact walks_bind (recv _ _) fun _ => walks_bind (walks_look _) fun _ => walks_bind (walks_merge _ _) fun _ => walks_bind
      (walks_update fun _ => ⟨rfl, rfl, rfl, rfl, rfl⟩) fun _ => walks_pure _
  case sak =>
    exact walks_bind (recv _ _) fun _ => walks_bind (walks_bind (walks_look _) fun _ => walks_ite (walks_pure _) (walks_raise _))
      fun _ => walks_then (walks_checkSakCrc hP) _
  case cascadeTag =>
    exact walks_bind (walks_update fun _ => ⟨rfl, rfl, rfl, rfl, rfl⟩) fun _ => walks_bind (walks_look _) fun _ => walks_bind
      (walks_update fun _ => ⟨rfl, rfl, rfl, rfl, rfl⟩) fun _ => walks_pure _
  case mfReadResponse => exact walks_bind (recv _ _) fun _ => walks_then (walks_checkRead hP) _
  case mfAck => exact walks_bind (recv _ _) fun _ => walks_then walks_ackCheck _

end

/-- The traces along a walk: each one event longer than the one before. -/
theorem Walk.traces {P : Pos → Prop} {s t : State} {us : List State} (h : Walk P s us t) :
    ∃ evs, t.trace = s.trace ++ evs ∧ us.map State.trace = (List.range evs.length).map fun j => s.trace ++ evs.take (j + 1) := by
  induction h with
  | still h => exact ⟨[], by simpa using h, rfl⟩
  | @step s u t us e hu _ _ _ _ _ ih =>
    obtain ⟨evs, h1, h2⟩ := ih
    refine ⟨e :: evs, by rw [h1, hu]; simp, ?_⟩
    rw [List.map_cons, h2, List.length_cons, List.range_succ_eq_map, List.map_cons, List.map_map, hu]
    simp [Function.comp_def]

theorem Walk.busy {P : Pos → Prop} {s t : State} {us : List State} (h : Walk P s us t) :
    ∀ u ∈ us, u.busy = s.busy ∧ u.faultMark = s.faultMark ∧ u.result = s.result ∧ ∃ q, P q ∧ u.pos = q.advance := by
  induction h with
  | still => simp
  | step _ _ hb hf hr hq _ ih =>
    intro u hu
    rcases List.mem_cons.1 hu with rfl | hu
    · exact ⟨hb, hf, hr, hq⟩
    · obtain ⟨h1, h2, h3, h4⟩ := ih u hu
      exact ⟨h1.trans hb, h2.trans hf, h3.trans hr, h4⟩

end Sys2Proof.Machine
end

