-- ==== Sys2Proof/Laws/Bringup.lean ====
section
/-! SUPPORT. Bring-up and the antenna with a script (R130 to R143, R183). -/

namespace Sys2Proof.Machine

variable {cfg : Cfg} {s : State} {r : List Answer}

/-! ### The power-down poll (R132) -/

theorem goes_powerDown_go {i : Nat} {x : Byte} (hx : powerDown cfg x = true) (hi : i + 1 < cfg.resetPollLimit) (r : List Answer) :
    (powerDownCheck cfg i).Goes s (.value x :: r) (.ok none) s [gave cfg .command [x]] r := by
  refine (goes_regRead .command x).bind (e2 := []) ?_
  rw [if_pos hx, if_neg (by omega)]; exact goes_pure _

theorem goes_powerDown_done {i : Nat} {x : Byte} (hx : powerDown cfg x = false) :
    (powerDownCheck cfg i).Goes s (.value x :: r) (.ok (some ())) s [gave cfg .command [x]] r := by
  refine (goes_regRead .command x).bind (e2 := []) ?_
  rw [if_neg (by simp [hx])]; exact goes_pure _

theorem goes_powerDown_limit {i : Nat} {x : Byte} (hx : powerDown cfg x = true) (hi : cfg.resetPollLimit ≤ i + 1) :
    (powerDownCheck cfg i).Goes s (.value x :: r) (.error (.raise (.timeout .reset))) s [gave cfg .command [x]] r := by
  refine (goes_regRead .command x).bind (e2 := []) ?_
  rw [if_pos hx, if_pos hi]; exact goes_raise _

/-- Readings with PowerDown set, fewer than the limit, do not end the poll. -/
theorem goes_powerDown_fails {fails : List Byte} (hf : ∀ x ∈ fails, powerDown cfg x = true) (hl : fails.length < cfg.resetPollLimit) :
    ∀ j < fails.length, ∀ r, (powerDownCheck cfg j).Goes s (.value (fails.getD j 0) :: r) (.ok none) s
      [gave cfg .command [fails.getD j 0]] r := fun j hj r =>
  goes_powerDown_go (hf _ (by rw [List.getD_eq_getElem _ _ hj]; exact List.getElem_mem hj)) (by omega) r

/-- The poll ends at a reading with PowerDown clear. -/
theorem goes_pollPowerDown {fails : List Byte} {v : Byte} {budget : Nat} (hf : ∀ x ∈ fails, powerDown cfg x = true)
    (hl : fails.length < cfg.resetPollLimit) (hb : fails.length ≤ budget) (hv : powerDown cfg v = false) :
    (pollPowerDown cfg).Goes s (polled budget fails ++ .value v :: r) (.ok ()) s
      (failedPolls cfg .command .reset fails ++ [gave cfg .command [v]]) r :=
  goes_poll_ends (goes_powerDown_fails hf hl) hb (.inl ⟨(), rfl, goes_powerDown_done hv⟩)

/-- The limit's last poll reads PowerDown set: the poll gives up without another query. -/
theorem goes_pollPowerDown_limit {fails : List Byte} {v : Byte} {budget : Nat} (hf : ∀ x ∈ fails, powerDown cfg x = true)
    (hl : fails.length + 1 = cfg.resetPollLimit) (hb : fails.length ≤ budget) (hv : powerDown cfg v = true) :
    (pollPowerDown cfg).Goes s (polled budget fails ++ .value v :: r) (.error (.raise (.timeout .reset))) s
      (failedPolls cfg .command .reset fails ++ [gave cfg .command [v]]) r :=
  goes_poll_ends (goes_powerDown_fails hf (by omega)) hb (.inr ⟨_, rfl, goes_powerDown_limit hv (by omega)⟩)

/-- The deadline passes before the limit. -/
theorem goes_pollPowerDown_deadline {fails : List Byte} {budget : Nat} (hf : ∀ x ∈ fails, powerDown cfg x = true)
    (hl : fails.length < cfg.resetPollLimit) (hb : fails.length = budget + 1) :
    (pollPowerDown cfg).Goes s (polled budget fails ++ r) (.error (.raise (.timeout .reset))) s (deadlinePolls cfg .command .reset fails) r :=
  goes_poll_deadline (goes_powerDown_fails hf hl) hb (goes_raise _)

/-! ### The antenna, the crypto session, the reset -/

/-- The events of `antennaSet` where TxControlReg reads `t` (R139). -/
def antennaSeen (cfg : Cfg) (on : Bool) (t : Byte) : List Event :=
  gave cfg .txControl [t] ::
    if on then (if t &&& txDrivers cfg = txDrivers cfg then [] else [wrote cfg .txControl [t ||| txDrivers cfg]])
    else if t &&& txDrivers cfg = 0 then [] else [wrote cfg .txControl [t &&& ~~~txDrivers cfg]]

theorem goes_antennaSet (on : Bool) (t : Byte) :
    (antennaSet cfg on).Goes s (.value t :: r) (.ok ()) s (antennaSeen cfg on t) r := by
  refine (goes_regRead .txControl t).bind ?_
  cases on
  · by_cases h : t &&& txDrivers cfg = 0
    · simp only [Bool.false_eq_true, if_false, if_pos h]
      rw [if_neg (by simpa using h)]; exact goes_pure _
    · simp only [Bool.false_eq_true, if_false, if_neg h]
      rw [if_pos (by simpa using h)]; exact goes_regWrite _ _
  · by_cases h : t &&& txDrivers cfg = txDrivers cfg
    · simp only [if_true, if_pos h]
      rw [if_neg (by simpa using h)]; exact goes_pure _
    · simp only [if_true, if_neg h]
      rw [if_pos (by simpa using h)]; exact goes_regWrite _ _

theorem goes_stopCrypto1 (w : Byte) : (stopCrypto1 cfg).Goes s (.value w :: r) (.ok ()) s
    [gave cfg .status2 [w], wrote cfg .status2 [w &&& ~~~crypto1On cfg]] r := goes_clearBits _ _ _

/-- What the reset shows (R131). -/
def resetSeen (cfg : Cfg) : LineLevel → Event
  | .low  => .reset .high
  | .high => wrote cfg .command [cfg.byte .softReset]

theorem goes_chipReset : (chipReset cfg).Goes s r (.ok ()) { s with resetLine := .high } [resetSeen cfg s.resetLine] r := by
  unfold chipReset
  refine Proc.Goes.bind (e1 := []) (a := s.resetLine) (goes_look fun _ _ _ => rfl) ?_
  rcases hl : s.resetLine with _ | _
  · exact goes_resetLine .high
  · have : ({ s with resetLine := .high } : State) = s := by rw [← hl]
    rw [this]; exact goes_regWrite _ _

/-! ### init (R130) -/

/-- The events of init behind the power-down poll (R143). -/
def setupSeen (cfg : Cfg) (w t : Byte) : List Event :=
  [gave cfg .status2 [w], wrote cfg .status2 [w &&& ~~~crypto1On cfg], wrote cfg .tMode [cfg.initValues.tMode],
    wrote cfg .tPrescaler [cfg.initValues.tPrescaler], wrote cfg .tReloadH [(cfg.initValues.tReload >>> 8).setWidth 8],
    wrote cfg .tReloadL [cfg.initValues.tReload.setWidth 8], wrote cfg .txAsk [cfg.initValues.txAsk], wrote cfg .mode [cfg.initValues.mode]] ++
    antennaSeen cfg true t

/-- init behind its poll. -/
def setup (cfg : Cfg) : Proc Unit := do
  stopCrypto1 cfg
  regWrite cfg .tMode cfg.initValues.tMode
  regWrite cfg .tPrescaler cfg.initValues.tPrescaler
  regWrite cfg .tReloadH ((cfg.initValues.tReload >>> 8).setWidth 8)
  regWrite cfg .tReloadL (cfg.initValues.tReload.setWidth 8)
  regWrite cfg .txAsk cfg.initValues.txAsk
  regWrite cfg .mode cfg.initValues.mode
  antennaSet cfg true
  Proc.update fun s => { s with ready := true }

theorem goes_setup (w t : Byte) :
    (setup cfg).Goes s (.value w :: .value t :: r) (.ok ()) { s with ready := true } (setupSeen cfg w t) r := by
  refine Proc.Goes.as ((goes_stopCrypto1 w).bind ((goes_regWrite _ _).bind ((goes_regWrite _ _).bind
    ((goes_regWrite _ _).bind ((goes_regWrite _ _).bind ((goes_regWrite _ _).bind ((goes_regWrite _ _).bind
    ((goes_antennaSet true t).bind (u := s) (goes_update (u := { s with ready := true }) fun _ _ _ => rfl))))))))) ?_
  simp [setupSeen]

theorem bringUp_eq : bringUp cfg =
    (Proc.update State.endSessionForInit >>= fun _ => chipReset cfg >>= fun _ => pollPowerDown cfg >>= fun _ => setup cfg) := rfl

/-- A successful init (R130 to R143). -/
theorem goes_bringUp {fails : List Byte} {v w t : Byte} {answers : List Answer} (h : InitAnswers cfg fails v w t answers) :
    (bringUp cfg).Goes s (answers ++ r) (.ok ()) { s.endSessionForInit with resetLine := .high, ready := true }
      (resetSeen cfg s.resetLine :: (failedPolls cfg .command .reset fails ++ gave cfg .command [v] :: setupSeen cfg w t)) r := by
  obtain ⟨hf, hv, hl, budget, hb, rfl⟩ := h
  rw [bringUp_eq]
  refine Proc.Goes.as (Proc.Goes.bind (a := ()) (e1 := []) (u := s.endSessionForInit) (goes_update fun _ _ _ => rfl)
    (Proc.Goes.bind (goes_chipReset (s := s.endSessionForInit)) (Proc.Goes.bind (r1 := .value w :: .value t :: r)
      (u := { s.endSessionForInit with resetLine := .high })
      (by simpa using goes_pollPowerDown (s := { s.endSessionForInit with resetLine := .high }) hf hl hb hv)
      (goes_setup (s := { s.endSessionForInit with resetLine := .high }) w t)))) ?_
  simp

/-- An init whose power-down poll gives up (R132, R138). -/
theorem goes_bringUp_error {answers rest : List Answer} {e : Stop} {u : State} {seen : List Event}
    (h : (pollPowerDown cfg).Goes { s.endSessionForInit with resetLine := .high } answers (.error e) u seen rest) :
    (bringUp cfg).Goes s answers (.error e) u (resetSeen cfg s.resetLine :: seen) rest := by
  rw [bringUp_eq]
  exact Proc.Goes.bind (a := ()) (e1 := []) (u := s.endSessionForInit) (goes_update fun _ _ _ => rfl)
    (Proc.Goes.bind (e1 := [_]) (goes_chipReset (s := s.endSessionForInit)) (Proc.Goes.bind_error h))

end Sys2Proof.Machine
end

