-- ==== Sys2Proof/Laws/Buffers.lean ====
section
/-! SUPPORT. Bytes and bits of the scratch buffer and of the UID register after the operations that write them. -/

namespace Sys2Proof.Machine

variable {n : Nat}

theorem byteAt_set (v : Vector Byte n) (i j : Nat) (b : Byte) :
    byteAt (v.setIfInBounds i b) j = if i = j ∧ j < n then b else byteAt v j := by
  unfold byteAt
  by_cases hj : j < n
  · rw [List.getD_eq_getElem _ _ (by simpa using hj), List.getD_eq_getElem _ _ (by simpa using hj)]
    simp [List.getElem_set, hj]
  · rw [List.getD_eq_default _ _ (by simpa using hj), List.getD_eq_default _ _ (by simpa using hj)]
    simp [hj]

/-- Byte `j` after some bytes were written from a position on. -/
theorem byteAt_writeAt (v : Vector Byte n) (start j : Nat) (bs : List Byte) :
    byteAt (writeAt v start bs) j = if start ≤ j ∧ j < start + bs.length ∧ j < n then bs.getD (j - start) 0 else byteAt v j := by
  induction bs generalizing v start with
  | nil => simp [writeAt]; omega
  | cons b bs ih =>
    rw [writeAt, ih, byteAt_set]
    by_cases h1 : start = j
    · subst h1
      by_cases h2 : start < n
      · rw [if_neg (by omega), if_pos ⟨rfl, h2⟩, if_pos (by simp; omega)]; simp
      · rw [if_neg (by omega), if_neg (by omega), if_neg (by omega)]
    · by_cases h2 : start + 1 ≤ j ∧ j < start + 1 + bs.length ∧ j < n
      · rw [if_pos h2, if_pos (by simp; omega), show j - start = j - (start + 1) + 1 by omega, List.getD_cons_succ]
      · rw [if_neg h2, if_neg (by tauto), if_neg (by simp; omega)]

/-- Two buffers with the same bytes. -/
theorem buf_ext {v w : Vector Byte n} (h : ∀ j < n, byteAt v j = byteAt w j) : v = w := by
  ext i hi
  have := h i hi
  unfold byteAt at this
  rw [List.getD_eq_getElem _ _ (by simpa using hi), List.getD_eq_getElem _ _ (by simpa using hi)] at this
  rw [show v[i] = w[i] by simpa using this]

theorem byteAt_toList (v : Vector Byte n) (j : Nat) : v.toList.getD j 0 = byteAt v j := rfl

/-- The bytes after some were written from a position on, where they fit. -/
theorem writeAt_toList (v : Vector Byte n) (start : Nat) (bs : List Byte) (h : start + bs.length ≤ n) :
    (writeAt v start bs).toList = v.toList.take start ++ bs ++ v.toList.drop (start + bs.length) := by
  apply List.ext_getElem?
  intro j
  by_cases hj : j < n
  · have e1 : (writeAt v start bs).toList[j]? = some (byteAt (writeAt v start bs) j) := by
      unfold byteAt; rw [List.getD_eq_getElem _ _ (by simpa using hj)]; exact List.getElem?_eq_getElem (by simpa using hj)
    have e2 : v.toList[j]? = some (byteAt v j) := by
      unfold byteAt; rw [List.getD_eq_getElem _ _ (by simpa using hj)]; exact List.getElem?_eq_getElem (by simpa using hj)
    rw [e1, byteAt_writeAt]
    by_cases h1 : j < start
    · rw [if_neg (by omega), List.append_assoc, List.getElem?_append_left (by simp; omega), List.getElem?_take_of_lt h1, e2]
    · rw [List.append_assoc, List.getElem?_append_right (by simp; omega)]
      have hl : (v.toList.take start).length = start := by simp; omega
      rw [hl]
      by_cases h2 : j < start + bs.length
      · rw [if_pos ⟨by omega, h2, hj⟩, List.getElem?_append_left (by omega), List.getElem?_eq_getElem (by omega),
          List.getD_eq_getElem _ _ (by omega)]
      · rw [if_neg (by omega), List.getElem?_append_right (by omega), List.getElem?_drop,
          show start + bs.length + (j - start - bs.length) = j by omega, e2]
  · rw [List.getElem?_eq_none (by simpa using hj), List.getElem?_eq_none (by simp; omega)]

/-! ### Bits of a level's UID field (R66, R151, R156) -/

theorem fieldBit_eq (buf : Vector Byte 9) (p : Nat) : fieldBit buf p = (byteAt buf (2 + (p - 1) / 8)).getLsbD ((p - 1) % 8) := rfl

theorem fieldBitOf_eq (f : Vector Byte 4) (p : Nat) : fieldBitOf f p = (byteAt f ((p - 1) / 8)).getLsbD ((p - 1) % 8) := rfl

theorem getLsbD_orBit (b : Byte) {q y : Nat} (hy : y < 8) : (b ||| (1#8 <<< q)).getLsbD y = (y == q || b.getLsbD y) := by
  simp only [BitVec.getLsbD_or, BitVec.getLsbD_shiftLeft, BitVec.getLsbD_one]
  rcases Nat.lt_trichotomy y q with h | h | h
  · simp [h, Nat.ne_of_lt h]
  · subst h; simp [hy]
  · simp [show ¬ y < q by omega, show ¬ y = q by omega, show ¬ y - q = 0 by omega]

/-- The bits of a byte that keeps its `m` low bits and takes another's bits from there on. -/
theorem getLsbD_masked (a r : Byte) (m : Nat) {y : Nat} (hy : y < 8) :
    ((a &&& ~~~(0xFF#8 <<< m)) ||| (r &&& (0xFF#8 <<< m))).getLsbD y = if y < m then a.getLsbD y else r.getLsbD y := by
  have h255 : (0xFF#8).getLsbD (y - m) = true := by
    have : (0xFF#8) = BitVec.allOnes 8 := rfl
    rw [this, BitVec.getLsbD_allOnes]; simp; omega
  simp only [BitVec.getLsbD_or, BitVec.getLsbD_and, BitVec.getLsbD_not, BitVec.getLsbD_shiftLeft, hy, h255]
  by_cases h : y < m <;> simp [h]

/-- A resolved bit is set, every other bit of the field stays (R156). -/
theorem fieldBit_setFieldBit (buf : Vector Byte 9) {p x : Nat} (hp : 1 ≤ p) (hx : 1 ≤ x ∧ x ≤ 32) :
    fieldBit (setFieldBit buf p) x = (x == p || fieldBit buf x) := by
  rw [fieldBit_eq, fieldBit_eq]
  unfold setFieldBit bitByte bitPlace
  rw [byteAt_set]
  by_cases hxp : (p - 1) / 8 = (x - 1) / 8
  · rw [if_pos (by omega), hxp, getLsbD_orBit _ (by omega)]
    congr 1
    rw [Bool.eq_iff_iff]; simp; omega
  · rw [if_neg (by omega)]
    have : (x == p) = false := by simp; rintro rfl; exact hxp rfl
    rw [this]; rfl

theorem byteAt_setFieldBit (buf : Vector Byte 9) {p j : Nat} (hj : j < 2) :
    byteAt (setFieldBit buf p) j = byteAt buf j := by
  unfold setFieldBit bitByte
  rw [byteAt_set, if_neg (by omega)]

theorem byteAt_mergeBytes (buf : Vector Byte 9) (idx : Nat) (tb : BitVec 3) (bs : List Byte) {j : Nat} (hj : j < idx) :
    byteAt (mergeBytes buf idx tb bs) j = byteAt buf j := by
  cases bs with
  | nil => rfl
  | cons r rs => simp only [mergeBytes]; rw [byteAt_writeAt, if_neg (by omega)]

/-- A merged response: the known bits stay, the bits behind them are the response's, what it does not reach stays (R151). -/
theorem fieldBit_mergeBytes (buf : Vector Byte 9) (k : Nat) (bs : List Byte) (hl : bs.length ≤ 7 - k / 8) {x : Nat} (hx : 1 ≤ x) (h32 : x ≤ 32) :
    fieldBit (mergeBytes buf (2 + k / 8) (tailBits k) bs) x =
      if x ≤ k ∨ k / 8 + bs.length ≤ (x - 1) / 8 then fieldBit buf x else (bs.getD ((x - 1) / 8 - k / 8) 0).getLsbD ((x - 1) % 8) := by
  rw [fieldBit_eq, fieldBit_eq]
  have hm : (tailBits k).toNat = k % 8 := by simp [tailBits]
  cases bs with
  | nil => simp only [mergeBytes]; split
           · rfl
           · rename_i h; simp at h; omega
  | cons r rs =>
    simp only [mergeBytes, hm]
    simp only [List.length_cons] at hl ⊢
    rw [byteAt_writeAt]
    by_cases h1 : x ≤ k
    · rw [if_pos (Or.inl h1)]
      split
      · rename_i hc
        rw [show (x - 1) / 8 = k / 8 by omega, show 2 + k / 8 - (2 + k / 8) = 0 by omega, List.getD_cons_zero,
          getLsbD_masked _ _ _ (by omega), if_pos (by omega)]
      · rfl
    · by_cases h2 : k / 8 + (rs.length + 1) ≤ (x - 1) / 8
      · rw [if_pos (Or.inr h2), if_neg (by simp; omega)]
      · have h3 : ¬ (x ≤ k ∨ k / 8 + (rs.length + 1) ≤ (x - 1) / 8) := by omega
        rw [if_neg h3, if_pos (by simp; omega), show 2 + (x - 1) / 8 - (2 + k / 8) = (x - 1) / 8 - k / 8 by omega]
        rcases hd : (x - 1) / 8 - k / 8 with _ | j
        · rw [List.getD_cons_zero, List.getD_cons_zero, getLsbD_masked _ _ _ (by omega), if_neg (by omega)]
        · rw [List.getD_cons_succ, List.getD_cons_succ]

/-- What the alignment cuts off a response is not merged (R120, R151). -/
theorem mergeBytes_alignFirst (buf : Vector Byte 9) (idx : Nat) (tb : BitVec 3) (bs : List Byte) :
    mergeBytes buf idx tb (alignFirst tb bs) = mergeBytes buf idx tb bs := by
  cases bs with
  | nil => rfl
  | cons r rs => simp only [alignFirst, mergeBytes, BitVec.and_assoc, BitVec.and_self]

/-- A response put behind no known bit is the response. -/
theorem mergeBytes_zero (buf : Vector Byte 9) (idx : Nat) (bs : List Byte) : mergeBytes buf idx 0#3 bs = writeAt buf idx bs := by
  cases bs with
  | nil => rfl
  | cons b bs =>
    have h : ((byteAt buf idx &&& ~~~(0xFF#8 <<< (0#3).toNat)) ||| (b &&& (0xFF#8 <<< (0#3).toNat))) = b := by
      have : (0xFF#8 <<< (0#3).toNat) = BitVec.allOnes 8 := by decide
      rw [this]; simp; exact BitVec.and_allOnes
    simp only [mergeBytes, h]

/-- A scratch buffer that holds SEL and the first `k` bits of a UID field. -/
def Knows (cfg : Cfg) (l : CascadeLevel) (f : Vector Byte 4) (k : Nat) (buf : Vector Byte 9) : Prop :=
  byteAt buf 0 = cfg.sel l ∧ ∀ p, 1 ≤ p → p ≤ k → fieldBit buf p = fieldBitOf f p

variable {cfg : Cfg} {l : CascadeLevel} {f : Vector Byte 4} {k : Nat} {buf : Vector Byte 9}

/-- A buffer that holds all 32 bits, byte by byte. -/
theorem Knows.all {a b c d : Byte} (h : Knows cfg l #v[a, b, c, d] 32 buf) :
    ∃ n x y z, buf = #v[cfg.sel l, n, a, b, c, d, x, y, z] := by
  refine ⟨byteAt buf 1, byteAt buf 6, byteAt buf 7, byteAt buf 8, buf_ext fun j hj => ?_⟩
  have hb : ∀ i < 4, byteAt buf (2 + i) = byteAt #v[a, b, c, d] i := fun i hi => by
    apply BitVec.eq_of_getLsbD_eq
    intro y hy
    have := h.2 (8 * i + y + 1) (by omega) (by omega)
    rw [fieldBit_eq, fieldBitOf_eq, show (8 * i + y + 1 - 1) / 8 = i by omega, show (8 * i + y + 1 - 1) % 8 = y by omega] at this
    exact this
  rcases j with _ | _ | _ | _ | _ | _ | _ | _ | _ | j
  · exact h.1
  · rfl
  · exact hb 0 (by omega)
  · exact hb 1 (by omega)
  · exact hb 2 (by omega)
  · exact hb 3 (by omega)
  all_goals first | rfl | omega

/-- The NVB a pass writes, as a number (R88, R150). -/
theorem nvb_eq {k : Nat} (hk : k ≤ 31) : nvb (fieldIndex k) (k % 8) = BitVec.ofNat 8 (16 * (2 + k / 8) + k % 8) := by
  have : ∀ k ≤ 31, nvb (fieldIndex k) (k % 8) = BitVec.ofNat 8 (16 * (2 + k / 8) + k % 8) := by decide
  exact this k hk

/-- A pass sends an anti-collision frame with the bytes of the buffer that hold the known bits (R96, R150). -/
theorem isAnticoll_slice {cfg : Cfg} {l : CascadeLevel} {k : Nat} {buf : Vector Byte 9} (h0 : byteAt buf 0 = cfg.sel l) (hk : k ≤ 31) :
    IsAnticoll cfg l k (slice buf 2 ((k + 7) / 8)) (slice (buf.setIfInBounds 1 (nvb (fieldIndex k) (k % 8))) 0 (usedBytes k)) := by
  have hu : usedBytes k = 2 + (k + 7) / 8 := by unfold usedBytes fieldIndex; split <;> omega
  refine ⟨hk, by simp [slice]; omega, ?_⟩
  rw [hu, ← nvb_eq hk]
  unfold byteAt at h0
  rcases buf with ⟨⟨xs⟩, hx⟩
  rcases xs with _ | ⟨x0, _ | ⟨x1, xs⟩⟩
  · simp at hx
  · simp at hx
  · simp only [List.getD, Vector.toList] at h0
    simp at h0
    simp [slice, Vector.toList, Nat.add_comm 2, List.take_succ_cons, h0]

/-- Both bit counts of the frame of a pass are `k mod 8` (R87, R150). -/
theorem bitFraming_tailBits (k : Nat) : bitFraming (tailBits k) (tailBits k) = BitVec.ofNat 8 (17 * (k % 8)) := by
  have : ∀ j < 8, bitFraming (BitVec.ofNat 3 j) (BitVec.ofNat 3 j) = BitVec.ofNat 8 (17 * j) := by decide
  exact this _ (Nat.mod_lt k (by omega))

/-- The frame an anti-collision pass sends from such a buffer (R96, R150). -/
theorem Knows.frame (h : Knows cfg l f k buf) (hk : k ≤ 31) :
    KnownFrame cfg l f k (bitFraming (tailBits k) (tailBits k), slice (buf.setIfInBounds 1 (nvb (fieldIndex k) (k % 8))) 0 (usedBytes k)) := by
  refine ⟨bitFraming_tailBits k, slice buf 2 ((k + 7) / 8), ?_, isAnticoll_slice h.1 hk⟩
  simp only [matchesBits, List.all_eq_true, List.mem_range, beq_iff_eq]
  intro i hi
  rw [← h.2 (i + 1) (by omega) (by omega), fieldBit_eq, show i + 1 - 1 = i by omega]
  congr 1
  simp only [slice, byteAt, List.getD, List.getElem?_take, List.getElem?_drop]
  rw [if_pos (by omega)]

end Sys2Proof.Machine
end

