-- ==== Sys2Proof/Laws/Environment.lean ====
section
/-! SUPPORT. What the conforming-environment premise gives of a run (R49): which events issue a command and which leave its results, what
an answered read or query says of the environment, and the parts of a poll loop. -/

namespace Sys2Proof.Machine

variable {cfg : Cfg} {env : Env}

/-! ### What an event does does not depend on the bytes no rule reads -/

@[simp] theorem reads_seen (r : Reg) (e : Event) : e.seen.reads cfg r = e.reads cfg r := by
  rcases e with ⟨_ | _, _⟩ | _ | _ | _ <;> rfl
@[simp] theorem writes_seen (r : Reg) (e : Event) : e.seen.writes cfg r = e.writes cfg r := by
  rcases e with ⟨_ | _, _⟩ | _ | _ | _ <;> rfl
@[simp] theorem isAsk_seen (e : Event) : e.seen.isAsk = e.isAsk := by cases e <;> rfl
@[simp] theorem leavesCommand_seen (e : Event) : e.seen.leavesCommand cfg = e.leavesCommand cfg := by
  rcases e with ⟨_ | _, _⟩ | _ | _ | _ <;> rfl
@[simp] theorem leavesResults_seen (e : Event) : e.seen.leavesResults cfg = e.leavesResults cfg := by simp [Event.leavesResults]
@[simp] theorem pops_seen (e : Event) : e.seen.pops cfg = e.pops cfg := by
  rcases e with ⟨_ | _, _⟩ | _ | _ | _ <;> rfl
@[simp] theorem resetsChip_seen (e : Event) : e.seen.resetsChip cfg = e.resetsChip cfg := by
  rcases e with ⟨_ | ⟨_, _ | ⟨_, _ | _⟩⟩, _⟩ | _ | _ | _ <;> rfl

/-! ### Writes, reads and queries -/

@[simp] theorem writes_gave (g r : Reg) (b : Byte) (bs : List Byte) : (gave cfg r (b :: bs)).writes cfg g = false := by
  simp [Event.writes, gave, List.replicate_succ, cfg.ra_ne_wa]

@[simp] theorem leavesCommand_wrote (r : Reg) (bs : List Byte) : (wrote cfg r bs).leavesCommand cfg =
    (!decide (r = .command) && !(wrote cfg r bs).flushes cfg && !(wrote cfg r bs).startsSend cfg) := by
  show (_ && _ && _) = _; rw [writes_wrote]

@[simp] theorem leavesCommand_gave (r : Reg) (b : Byte) (bs : List Byte) : (gave cfg r (b :: bs)).leavesCommand cfg = true := by
  show (_ && _ && _) = _; simp [Event.flushes, Event.startsSend]

@[simp] theorem leavesCommand_ask (k : WaitKind) (a : Bool) : (Event.ask k a).leavesCommand cfg = true := rfl

@[simp] theorem leavesResults_wrote (r : Reg) (bs : List Byte) : (wrote cfg r bs).leavesResults cfg =
    ((wrote cfg r bs).leavesCommand cfg && !decide (r = .fifoData)) := by simp [Event.leavesResults]

@[simp] theorem leavesResults_gave (r : Reg) (b : Byte) (bs : List Byte) : (gave cfg r (b :: bs)).leavesResults cfg = true := by
  simp [Event.leavesResults]

@[simp] theorem leavesResults_ask (k : WaitKind) (a : Bool) : (Event.ask k a).leavesResults cfg = true := rfl

@[simp] theorem pops_wrote (r : Reg) (bs : List Byte) : (wrote cfg r bs).pops cfg = 0 := by
  simp [Event.pops, Event.reads, wrote, (cfg.ra_ne_wa _ _).symm]
@[simp] theorem pops_gave (r : Reg) (b : Byte) (bs : List Byte) :
    (gave cfg r (b :: bs)).pops cfg = if r = .fifoData then bs.length + 1 else 0 := by
  simp [Event.pops, Event.reads, gave, List.replicate_succ]
@[simp] theorem resetsChip_wrote (r : Reg) (bs : List Byte) :
    (wrote cfg r bs).resetsChip cfg = (decide (r = .command) && decide (bs = [cfg.byte .softReset])) := by
  rcases bs with _ | ⟨b, _ | _⟩ <;> simp [Event.resetsChip, Event.issues, wrote, beq_eq_decide]

@[simp] theorem resetsChip_gave (r : Reg) (b : Byte) (bs : List Byte) : (gave cfg r (b :: bs)).resetsChip cfg = false := by
  cases bs <;> simp [Event.resetsChip, Event.issues, gave, List.replicate_succ, cfg.ra_ne_wa]

@[simp] theorem resetsChip_ask (k : WaitKind) (a : Bool) : (Event.ask k a).resetsChip cfg = false := rfl

@[simp] theorem pops_ask (k : WaitKind) (a : Bool) : (Event.ask k a).pops cfg = 0 := rfl

@[simp] theorem reads_gave (r q : Reg) (b : Byte) (bs : List Byte) : (gave cfg r (b :: bs)).reads cfg q = decide (r = q) := by
  simp [Event.reads, gave, List.replicate_succ, beq_eq_decide]

/-! ### Answered events -/

@[simp] theorem answered_nil (past : List Event) : env.answered cfg past [] = true := rfl

@[simp] theorem answered_append (past a b : List Event) :
    env.answered cfg past (a ++ b) = (env.answered cfg past a && env.answered cfg (past ++ a) b) := by
  induction a generalizing past with
  | nil => simp
  | cons e es ih => simp [Env.answered, ih, Bool.and_assoc]

/-- A read frame that is answered gives what the environment has for the register. -/
theorem gives_read {past : List Event} {e : Event} {r : Reg} {b : Byte} {bs : List Byte} (hs : e.seen = gave cfg r (b :: bs))
    (h : env.gives cfg past e = true) : env.values past r (bs.length + 1) = b :: bs := by
  rcases e with ⟨mosi, miso⟩ | _ | _ | _
  · obtain ⟨rfl, hm⟩ := Event.spi.inj hs
    have h7 : anyBit (cfg.ra r) 0x80#8 = true := by
      have : ∀ x : Byte, x.getLsbD 7 = true → anyBit x 0x80#8 = true := by decide
      exact this _ (cfg.ra_bit7 r)
    rw [List.length_cons, List.replicate_succ, List.cons_append, List.headD_cons, if_pos h7] at hm
    simp only [Env.gives, List.length_cons, List.replicate_succ, List.cons_append, List.headD_cons, Reg.ofReadAddr_ra, hm, beq_iff_eq] at h
    rw [h]; simp
  all_goals cases hs

theorem gives_value {past : List Event} {e : Event} {r : Reg} {b : Byte} (hs : e.seen = gave cfg r [b])
    (h : env.gives cfg past e = true) : env.value past r = b := by
  rw [Env.value, show (1 : Nat) = ([] : List Byte).length + 1 from rfl, gives_read hs h]; rfl

/-- A query that is answered has the environment's answer. -/
theorem gives_ask {past : List Event} {e : Event} {k : WaitKind} {a : Bool} (hs : e.seen = .ask k a) (h : env.gives cfg past e = true) :
    env.passed past k = a := by
  cases e with
  | ask k' a' => obtain ⟨rfl, rfl⟩ := Event.ask.inj hs; exact (beq_iff_eq.1 h).symm
  | _ => cases hs

/-! ### Poll loops -/

/-- The parts of a poll loop that a reading ends: what comes before it leaves results and pops nothing. -/
theorem PollRun.split {kind : WaitKind} {g : Reg} {ends : Byte → Prop} {es : List Event} {last : Option Byte}
    (h : PollRun cfg kind g ends es last) : (∀ e ∈ es, ((∃ v, e = gave cfg g [v]) ∨ ∃ a, e = .ask kind a)) ∧
      ∃ pre, (∀ v, last = some v → ends v ∧ es = pre ++ [gave cfg g [v]]) ∧ (last = none → es = pre ++ [.ask kind true]) := by
  induction h with
  | done v hv =>
    exact ⟨fun e he => .inl ⟨v, List.mem_singleton.1 he⟩, [], fun w hw => by obtain rfl := Option.some.inj hw; exact ⟨hv, rfl⟩,
      fun h => nomatch h⟩
  | deadline v hv =>
    refine ⟨fun e he => ?_, [gave cfg g [v]], fun w hw => absurd hw (Option.some_ne_none w).symm, fun _ => rfl⟩
    rcases List.mem_cons.1 he with rfl | he
    · exact .inl ⟨v, rfl⟩
    · exact .inr ⟨true, List.mem_singleton.1 he⟩
  | @again es last v hv _ ih =>
    obtain ⟨h1, pre, h2, h3⟩ := ih
    refine ⟨fun e he => ?_, gave cfg g [v] :: .ask kind false :: pre, fun w hw => ?_, fun hn => by rw [h3 hn]; rfl⟩
    · rcases List.mem_cons.1 he with rfl | he
      · exact .inl ⟨v, rfl⟩
      · rcases List.mem_cons.1 he with rfl | he
        · exact .inr ⟨false, rfl⟩
        · exact h1 e he
    · obtain ⟨h4, h5⟩ := h2 w hw
      exact ⟨h4, by rw [h5]; rfl⟩

/-! ### A command started -/

/-- What stands behind the write of a command that starts it may be told from what it shows. -/
theorem Started.of_seen {c : PcdCommand} {upTo : List Event} (h : Started cfg c (upTo.map Event.seen)) : Started cfg c upTo := by
  unfold Started at h ⊢
  split at h
  · rename_i hc
    obtain ⟨b, s, hu, hb, hs⟩ := h
    obtain ⟨x, y, rfl, rfl, hy⟩ := List.map_eq_append_iff.1 hu
    obtain ⟨e, z, rfl, rfl, hz⟩ := List.map_eq_cons_iff.1 hy
    obtain rfl := List.map_eq_nil_iff.1 hz
    rw [if_pos hc]
    refine ⟨x, e, rfl, fun e he => ?_, by rwa [startsSend_seen] at hs⟩
    have := hb _ (List.mem_map_of_mem he)
    rwa [leavesResults_seen, pops_seen] at this
  · rename_i hc; rw [if_neg hc]; exact List.map_eq_nil_iff.1 h

/-- Every command but Transceive starts at its write (R73, R210). -/
theorem started_now {c : PcdCommand} (h : c ≠ .transceive) : Started cfg c [] := by rw [Started, if_neg h]

/-- A PICC command is started by the events the controller makes behind its write (R210). -/
theorem started_seen (cmd : PiccCommand) (start : Byte) : Started cfg cmd.pcd (startSeen cfg cmd start) := by
  cases cmd
  · exact ⟨[gave cfg .bitFraming [start]], wrote cfg .bitFraming [start ||| startSend cfg], rfl, by simp, by simp⟩
  · exact started_now (by decide)

/-- A trace that ends with a flush, a load, if there are bytes to load, a command and what starts it has started the command on those bytes
(R202, R207 to R210). -/
theorem commanded {c : PcdCommand} {d : List Byte} {start since before pre upTo : List Event}
    (hs : start.map Event.seen = pre ++ ([wrote cfg .fifoLevel [flushBuffer cfg]] ++ (if d = [] then [] else [wrote cfg .fifoData d]) ++
      wrote cfg .command [cfg.byte c] :: upTo)) (hu : Started cfg c upTo)
    (hl : ∀ e ∈ since.map Event.seen, e.leavesResults cfg = true) : Commanded cfg c d (before ++ start) since := by
  refine ⟨?_, fun e he => by rw [← leavesResults_seen]; exact hl _ (List.mem_map_of_mem he)⟩
  rw [List.append_assoc, List.singleton_append] at hs
  obtain ⟨a, b, rfl, -, hb⟩ := List.map_eq_append_iff.1 hs
  obtain ⟨flush, b1, rfl, h1, hb1⟩ := List.map_eq_cons_iff.1 hb
  obtain ⟨loads, b2, rfl, h2, hb2⟩ := List.map_eq_append_iff.1 hb1
  obtain ⟨issue, b3, rfl, h3, rfl⟩ := List.map_eq_cons_iff.1 hb2
  have hd : (∀ e ∈ loads.map Event.seen, e.leavesCommand cfg = true ∧ e.pops cfg = 0) ∧
      d = (loads.map Event.seen).flatMap (Event.pushes cfg) := by
    rw [h2]; by_cases hd : d = [] <;> simp [hd]
  refine ⟨before ++ a, flush, loads, issue, b3, by simp, by rw [← flushes_seen, h1]; simp, fun e he => ?_, ?_,
    by rw [← issues_seen, h3]; simp, hu.of_seen⟩
  · have := hd.1 _ (List.mem_map_of_mem he)
    rwa [leavesCommand_seen, pops_seen] at this
  · rw [hd.2, List.flatMap_map]; simp only [pushes_seen]

/-! ### The antenna (R40, R140, R288) -/

/-- Events that neither reset the chip nor write TxControlReg leave the driver bits. -/
theorem drivers_keep (henv : ConformingEnv cfg env) {past since : List Event}
    (h : ∀ e ∈ since.map Event.seen, e.resetsChip cfg = false ∧ e.writes cfg .txControl = false ∧ ∀ level, e ≠ .reset level) :
    env.value (past ++ since) .txControl &&& txDrivers cfg = env.value past .txControl &&& txDrivers cfg := by
  induction since generalizing past with
  | nil => simp
  | cons e es ih =>
    obtain ⟨⟨hr, hw, hl⟩, hes⟩ := List.forall_mem_cons.1 h
    rw [← List.singleton_append, ← List.append_assoc, ih hes]
    exact (henv.drivers past e (by rwa [resetsChip_seen] at hr) fun level he => hl level (by rw [he]; rfl)).1 (by rwa [writes_seen] at hw)

/-! ### The position of a collision (R39, R218) -/

/-- The CollReg value of the abstraction holds the position. -/
theorem collPos_collRegOf {p : Nat} (chip : Byte) (h1 : 1 ≤ p) (h2 : p ≤ 32) :
    collPosNotValid cfg (collRegOf cfg chip p) = false ∧ collPos cfg (collRegOf cfg chip p) = p := by
  obtain ⟨-, -, -, -, -, -, hc, hv⟩ := of_decide_eq_true cfg.parts.2.2.2.1
  unfold collPosNotValid collPos collRegOf collFields
  generalize cfg.fields.collPos = a at *
  generalize cfg.fields.collPosNotValid = b at *
  have rest : ∀ a b : BitVec 3, ∀ c : Byte, anyBit (c &&& ~~~((0x1F#8 <<< a.toNat) ||| bit b)) (bit b) = false ∧
      (((c &&& ~~~((0x1F#8 <<< a.toNat) ||| bit b)) >>> a.toNat).setWidth 5 : BitVec 5) = 0 := by decide +kernel
  have all : ∀ a b : BitVec 3, a.toNat ≤ 3 → (b.toNat < a.toNat ∨ a.toNat + 5 ≤ b.toNat) → ∀ x : BitVec 5,
      anyBit (x.setWidth 8 <<< a.toNat) (bit b) = false ∧ (((x.setWidth 8 <<< a.toNat : Byte) >>> a.toNat).setWidth 5 : BitVec 5) = x := by
    decide +kernel
  have any_or : ∀ x y m : Byte, anyBit x m = false → anyBit y m = false → anyBit (x ||| y) m = false := fun x y m hx hy => by
    simp only [anyBit, bne_eq_false_iff_eq] at *
    rw [BitVec.and_or_distrib_right, hx, hy]; rfl
  have hr := rest a b chip
  have h := all a b hc hv (BitVec.ofNat 5 p)
  rw [show (BitVec.ofNat 8 (p % 32) : Byte) = (BitVec.ofNat 5 p).setWidth 8 from BitVec.eq_of_toNat_eq (by simp)]
  refine ⟨any_or _ _ _ hr.1 h.1, ?_⟩
  rw [BitVec.ushiftRight_or_distrib, BitVec.setWidth_or, hr.2, h.2, show (0 : BitVec 5) ||| BitVec.ofNat 5 p = BitVec.ofNat 5 p from BitVec.zero_or]
  simp only [BitVec.toNat_ofNat]
  by_cases h32 : p = 32
  · subst h32; rfl
  · rw [Nat.mod_eq_of_lt (by omega), if_neg (by omega)]

end Sys2Proof.Machine
end

