-- ==== Sys2Proof/Laws/Chip.lean ====
section
/-! SUPPORT. A chip and cards that meet the conforming-environment premise (R49): the premise has models, with cards that are silent, that
answer, and that collide. -/

namespace Sys2Proof.Machine

/-- The reference configuration with `n + 1` as `RESET_POLL_LIMIT`. -/
def limited (n : Nat) : Cfg where
  toParams := { Reference.params with resetPollLimit := n + 1 }
  legal :=
    let ⟨h1, h2, h3, h4, h5, h6, h7, _, h8⟩ := Cfg.reference.parts
    decide_eq_true ⟨h1, h2, h3, h4, h5, h6, h7, Nat.le_add_left 1 _, h8⟩

/-! ### What a trace has done to the chip -/

/-- A chip: the FIFO's contents, the command it took up and the contents that found there, the cards' reply to it, how much of it is popped,
the flags of ComIrqReg and DivIrqReg cleared since, the deadline queries since its last reset, and TxControlReg. -/
structure Chip where
  fifo    : List Byte
  taken   : Option (PcdCommand × List Byte)
  reply   : Reply
  popped  : Nat
  com     : Byte
  div     : Byte
  asks    : Nat
  drivers : Byte

/-- The command an event issues, if any. -/
def issued (cfg : Cfg) (e : Event) : Option PcdCommand :=
  [PcdCommand.idle, .calcCrc, .transceive, .mfAuthent, .softReset].find? fun c => e.issues cfg c

/-- The cards' reply to a command that starts: none without the field (R140), and none to a command that sends nothing. -/
def heard (cfg : Cfg) (answer : PiccCommand → List Byte → Reply) (drivers : Byte) (c : PcdCommand) (d : List Byte) : Reply :=
  if drivers &&& txDrivers cfg = 0 then .silent
  else match c with
    | .transceive => answer .transceive d
    | .mfAuthent  => answer .mfAuthent d
    | .idle | .calcCrc | .softReset => .silent

/-- The command a chip has taken up: a written one, with what the FIFO holds; none behind an event that disturbs it. -/
def Chip.takes (cfg : Cfg) (c : Chip) (e : Event) : Option (PcdCommand × List Byte) :=
  match issued cfg e with
  | some p => some (p, c.fifo)
  | none   => if e.leavesResults cfg || e.startsSend cfg then c.taken else none

/-- The reply behind an event: heard where a transmission starts, with StartSend for Transceive (R73), gone where the command is. -/
def Chip.hears (cfg : Cfg) (answer : PiccCommand → List Byte → Reply) (c : Chip) (e : Event) : Reply :=
  match issued cfg e with
  | some p => if p = .transceive then .silent else heard cfg answer c.drivers p c.fifo
  | none   =>
    if e.startsSend cfg then
      match c.taken with
      | some (.transceive, d) => heard cfg answer c.drivers .transceive d
      | _ => .silent
    else if e.leavesResults cfg then c.reply else .silent

/-- Whether an event starts something: a command, or a transmission. -/
def Event.begins (cfg : Cfg) (e : Event) : Bool := (issued cfg e).isSome || e.startsSend cfg

/-- The cleared flags behind an event: those a write marks with its Set bit clear (R73), none once something starts. -/
def cleared (cfg : Cfg) (r : Reg) (set : BitVec 3) (held : Byte) (e : Event) : Byte :=
  match e.sets cfg r with
  | some v => if anyBit v (bit set) then held else held ||| v
  | none   => if e.begins cfg then 0 else held

/-- The chip behind an event. -/
def Chip.next (cfg : Cfg) (answer : PiccCommand → List Byte → Reply) (c : Chip) (e : Event) : Chip where
  fifo    := e.fifo cfg c.fifo
  taken   := c.takes cfg e
  reply   := c.hears cfg answer e
  popped  := if e.begins cfg then 0 else c.popped + e.pops cfg
  com     := cleared cfg .comIrq cfg.fields.set1 c.com e
  div     := cleared cfg .divIrq cfg.fields.set2 c.div e
  asks    := if e.resetsChip cfg then 0 else c.asks + (if e.isAsk then 1 else 0)
  drivers := (e.sets cfg .txControl).getD c.drivers

/-- The chip behind a trace, the antenna on at its start. -/
def Chip.behind (cfg : Cfg) (answer : PiccCommand → List Byte → Reply) (past : List Event) : Chip :=
  past.foldl (Chip.next cfg answer) ⟨[], none, .silent, 0, 0, 0, 0, txDrivers cfg⟩

/-! ### What it answers -/

/-- The response not yet popped. -/
def Chip.left (c : Chip) : List Byte :=
  match c.reply with
  | .reply bytes _ _ => bytes.drop c.popped
  | _                => []

/-- The values of the registers. -/
def Chip.value (limit : Nat) (c : Chip) : Reg → Byte
  | .command    => if c.asks + 1 < limit then 0x10 else 0x00
  | .comIrq     => (if c.reply = .silent then 0x00 else 0x30) &&& ~~~c.com
  | .divIrq     => 0x04 &&& ~~~c.div
  | .crcResultL => crcLow ((c.taken.map Prod.snd).getD [])
  | .crcResultH => crcHigh ((c.taken.map Prod.snd).getD [])
  | .error      => match c.reply with
    | .garbled e          => e
    | .reply _ _ (some _) => 0x08
    | _                   => 0x00
  | .fifoLevel  => BitVec.ofNat 8 c.left.length
  | .control    => match c.reply with
    | .reply _ vb _ => vb.setWidth 8
    | _             => 0x00
  | .coll       => match c.reply with
    | .reply _ _ (some p) => BitVec.ofNat 8 (p % 32)
    | _                   => 0x20
  | .txControl  => c.drivers
  | _ => 0x00

/-- A chip in the configuration `limited n`, with cards that answer each frame so. A deadline passes where no card answers. -/
def chip (n : Nat) (answer : PiccCommand → List Byte → Reply) (cards : List (Vector Byte 4)) : Env where
  values past r k :=
    let c := Chip.behind (limited n) answer past
    if r = .fifoData then (c.left ++ List.replicate k 0).take k else List.replicate k (c.value (n + 1) r)
  passed past _ := (Chip.behind (limited n) answer past).reply == .silent
  reply past := (Chip.behind (limited n) answer past).reply
  cards _ := cards

/-! ### The chip behind a command -/

variable {cfg : Cfg}

theorem issued_none {e : Event} (h : ∀ c, e.issues cfg c = false) : issued cfg e = none :=
  List.find?_eq_none.2 fun c _ => by simp [h c]

/-- A write of one register is no write of another. -/
theorem not_issued {e : Event} (h : e.writes cfg .command = false) : issued cfg e = none := by
  refine issued_none fun c => ?_
  rcases e with ⟨_ | ⟨a, _ | ⟨b, _ | _⟩⟩, _⟩ | _ | _ | _ <;> try rfl
  simp only [Event.writes, beq_eq_false_iff_ne] at h
  simp [Event.issues, h]

theorem bytesTo_writes {e : Event} {r : Reg} (h : e.writes cfg r = false) : e.bytesTo cfg r = [] := by
  rcases e with ⟨_ | ⟨a, bs⟩, _⟩ | _ | _ | _ <;> try rfl
  simp only [Event.writes, beq_eq_false_iff_ne] at h
  simp [Event.bytesTo, h]

theorem writes_other {e : Event} {r q : Reg} (h : e.writes cfg r = true) (hn : r ≠ q) : e.writes cfg q = false := by
  rcases e with ⟨_ | ⟨a, bs⟩, _⟩ | _ | _ | _ <;> try rfl
  simp only [Event.writes, beq_iff_eq] at h
  subst h; simp [Event.writes, beq_eq_decide, hn]

theorem issues_writes {e : Event} {c : PcdCommand} (h : e.issues cfg c = true) : e.writes cfg .command = true := by
  rcases e with ⟨_ | ⟨a, _ | ⟨b, _ | _⟩⟩, _⟩ | _ | _ | _ <;> try cases h
  simp only [Event.issues, Bool.and_eq_true, beq_iff_eq] at h
  simp [Event.writes, h.1]

theorem startsSend_writes {e : Event} (h : e.startsSend cfg = true) : e.writes cfg .bitFraming = true := by
  by_contra hc
  rw [Event.startsSend, bytesTo_writes (by simpa using hc)] at h; cases h

theorem issued_of {e : Event} {c : PcdCommand} (h : e.issues cfg c = true) : issued cfg e = some c := by
  rcases e with ⟨_ | ⟨a, _ | ⟨b, _ | _⟩⟩, _⟩ | _ | _ | _ <;> try cases h
  simp only [Event.issues, Bool.and_eq_true, beq_iff_eq] at h
  obtain ⟨rfl, rfl⟩ := h
  refine find_unique (by cases c <;> decide) (by simp [Event.issues]) fun x _ hx => ?_
  exact (cfg.byte_inj (by simpa [Event.issues] using hx)).symm

/-- An event that leaves a command issues none, flushes nothing and starts nothing. -/
theorem leaves {e : Event} (h : e.leavesCommand cfg = true) :
    issued cfg e = none ∧ e.flushes cfg = false ∧ e.startsSend cfg = false ∧ e.begins cfg = false := by
  have : e.writes cfg .command = false ∧ e.flushes cfg = false ∧ e.startsSend cfg = false := by
    cases e <;> simp [Event.leavesCommand] at h <;> exact ⟨h.1.1, h.1.2, h.2⟩
  exact ⟨not_issued this.1, this.2.1, this.2.2, by rw [Event.begins, not_issued this.1, this.2.2]; rfl⟩

theorem leavesResults_iff {e : Event} : e.leavesResults cfg = true ↔ e.leavesCommand cfg = true ∧ e.writes cfg .fifoData = false := by
  simp [Event.leavesResults]

theorem Event.sets_quiet {e : Event} {r : Reg} (h : e.writes cfg r = false) : e.sets cfg r = none := by
  rcases e with ⟨_ | ⟨a, _ | ⟨b, _ | _⟩⟩, _⟩ | _ | _ | _ <;> try rfl
  simp only [Event.writes, beq_eq_false_iff_ne] at h
  simp [Event.sets, h]

variable {answer : PiccCommand → List Byte → Reply}

theorem Chip.next_quiet {e : Event} (h : e.leavesResults cfg = true) (c : Chip) :
    (c.next cfg answer e).fifo = c.fifo ∧ (c.next cfg answer e).taken = c.taken ∧ (c.next cfg answer e).reply = c.reply ∧
      (c.next cfg answer e).popped = c.popped + e.pops cfg := by
  obtain ⟨hl, hw⟩ := leavesResults_iff.1 h
  obtain ⟨hi, hf, hs, hb⟩ := leaves hl
  refine ⟨?_, ?_, ?_, ?_⟩
  · simp [Chip.next, Event.fifo, hf, Event.pushes, bytesTo_writes hw]
  · simp [Chip.next, Chip.takes, hi, h]
  · simp [Chip.next, Chip.hears, hi, hs, h]
  · simp [Chip.next, hb]

theorem Chip.quiet {es : List Event} (h : ∀ e ∈ es, e.leavesResults cfg = true) (c : Chip) :
    (es.foldl (Chip.next cfg answer) c).fifo = c.fifo ∧ (es.foldl (Chip.next cfg answer) c).taken = c.taken ∧
      (es.foldl (Chip.next cfg answer) c).reply = c.reply ∧
      (es.foldl (Chip.next cfg answer) c).popped = c.popped + (es.map (Event.pops cfg)).sum := by
  induction es generalizing c with
  | nil => exact ⟨rfl, rfl, rfl, rfl⟩
  | cons e es ih =>
    obtain ⟨h0, h1, h2, h3⟩ := ih (fun e he => h e (List.mem_cons_of_mem _ he)) (c.next cfg answer e)
    obtain ⟨g0, g1, g2, g3⟩ := Chip.next_quiet (answer := answer) (h e List.mem_cons_self) c
    rw [List.foldl_cons, h0, h1, h2, h3, g0, g1, g2, g3]
    exact ⟨rfl, rfl, rfl, by simp [Nat.add_assoc]⟩

/-- Loads push their bytes. -/
theorem Chip.loaded {es : List Event} (h : ∀ e ∈ es, e.leavesCommand cfg = true) (c : Chip) :
    (es.foldl (Chip.next cfg answer) c).fifo = c.fifo ++ es.flatMap (Event.pushes cfg) := by
  induction es generalizing c with
  | nil => simp
  | cons e es ih =>
    rw [List.foldl_cons, ih fun e he => h e (List.mem_cons_of_mem _ he)]
    simp [Chip.next, Event.fifo, (leaves (h e List.mem_cons_self)).2.1]

/-- Behind a command the chip holds what the command found and the cards' reply to it. -/
theorem Chip.commanded {c : PcdCommand} {d : List Byte} {start since : List Event} (h : Commanded cfg c d start since) :
    (Chip.behind cfg answer (start ++ since)).taken = some (c, d) ∧
      (Chip.behind cfg answer (start ++ since)).reply = (Chip.behind cfg answer start).reply ∧
      (Chip.behind cfg answer (start ++ since)).popped = (since.map (Event.pops cfg)).sum ∧
      (Chip.behind cfg answer start).reply = heard cfg answer (Chip.behind cfg answer start).drivers c d := by
  obtain ⟨⟨pre, flush, loads, issue, upTo, rfl, hf, hl, rfl, hi, hu⟩, hs⟩ := h
  have hw := issues_writes hi
  have hns : issue.startsSend cfg = false := by
    by_contra hc
    have := writes_other (startsSend_writes (by simpa using hc)) (show Reg.bitFraming ≠ .command by decide)
    rw [hw] at this; cases this
  have hd : issue.sets cfg .txControl = none := Event.sets_quiet (writes_other hw (by decide))
  have e0 : Chip.behind cfg answer (pre ++ flush :: (loads ++ issue :: upTo)) = upTo.foldl (Chip.next cfg answer)
      ((Chip.behind cfg answer (pre ++ flush :: loads)).next cfg answer issue) := by simp [Chip.behind]
  have hfifo : (Chip.behind cfg answer (pre ++ flush :: loads)).fifo = loads.flatMap (Event.pushes cfg) := by
    have : Chip.behind cfg answer (pre ++ flush :: loads) = loads.foldl (Chip.next cfg answer)
      ((Chip.behind cfg answer pre).next cfg answer flush) := by simp [Chip.behind]
    rw [this, Chip.loaded fun e he => (hl e he).1]
    simp [Chip.next, Event.fifo, hf]
  generalize hc0 : (Chip.behind cfg answer (pre ++ flush :: loads)).next cfg answer issue = c0 at e0
  have ht : c0.taken = some (c, loads.flatMap (Event.pushes cfg)) := by rw [← hc0]; simp [Chip.next, Chip.takes, issued_of hi, hfifo]
  have hp : c0.popped = 0 := by rw [← hc0]; simp [Chip.next, Event.begins, issued_of hi]
  have key : (Chip.behind cfg answer (pre ++ flush :: (loads ++ issue :: upTo))).taken = some (c, loads.flatMap (Event.pushes cfg)) ∧
      (Chip.behind cfg answer (pre ++ flush :: (loads ++ issue :: upTo))).popped = 0 ∧
      (Chip.behind cfg answer (pre ++ flush :: (loads ++ issue :: upTo))).reply =
        heard cfg answer (Chip.behind cfg answer (pre ++ flush :: (loads ++ issue :: upTo))).drivers c (loads.flatMap (Event.pushes cfg)) := by
    rw [e0]
    unfold Started at hu
    split at hu
    · rename_i hct
      obtain ⟨between, send, rfl, hb, hsend⟩ := hu
      obtain ⟨-, q1, -, -⟩ := Chip.quiet (answer := answer) (fun e he => (hb e he).1) c0
      rw [List.foldl_append, List.foldl_cons, List.foldl_nil]
      generalize between.foldl (Chip.next cfg answer) c0 = c1 at q1
      rw [ht] at q1
      have hsw := startsSend_writes hsend
      have hni : issued cfg send = none := not_issued (writes_other hsw (by decide))
      have hnd : send.sets cfg .txControl = none := Event.sets_quiet (writes_other hsw (by decide))
      subst hct
      simp [Chip.next, Chip.takes, Chip.hears, Event.begins, hni, hsend, q1, hnd]
    · rename_i hct
      subst hu
      refine ⟨ht, hp, ?_⟩
      show c0.reply = heard cfg answer c0.drivers c _
      rw [← hc0]
      simp [Chip.next, Chip.hears, issued_of hi, hct, hfifo, hd]
  obtain ⟨-, h1, h2, h3⟩ := Chip.quiet (answer := answer) hs (Chip.behind cfg answer (pre ++ flush :: (loads ++ issue :: upTo)))
  have e : ∀ st : List Event, Chip.behind cfg answer (st ++ since) = since.foldl (Chip.next cfg answer) (Chip.behind cfg answer st) :=
    fun st => by simp [Chip.behind]
  rw [e, h1, h2, h3, key.1, key.2.1]
  exact ⟨rfl, rfl, Nat.zero_add _, key.2.2⟩

theorem Chip.reads {e : Event} {r : Reg} (hr : r ≠ .fifoData) (h : e.reads cfg r = true) (c : Chip) : c.next cfg answer e = c := by
  rcases e with ⟨_ | ⟨a, bs⟩, miso⟩ | _ | _ | _ <;> try cases h
  obtain rfl : a = cfg.ra r := by simpa [Event.reads] using h
  have hw : ∀ q, (Event.spi (cfg.ra r :: bs) miso).writes cfg q = false := fun q => by simp [Event.writes, cfg.ra_ne_wa]
  have hq : (Event.spi (cfg.ra r :: bs) miso).leavesResults cfg = true := by
    rw [leavesResults_iff]
    refine ⟨?_, hw _⟩
    show (_ && _ && _) = true
    rw [hw]; simp [Event.flushes, Event.startsSend, bytesTo_writes (hw _)]
  have hr' : (Event.spi (cfg.ra r :: bs) miso).resetsChip cfg = false := by
    by_contra hc
    have := issues_writes (c := .softReset) (by simpa [Event.resetsChip] using hc)
    rw [hw] at this; cases this
  obtain ⟨h0, h1, h2, h3⟩ := Chip.next_quiet (answer := answer) hq c
  have hp : (Event.spi (cfg.ra r :: bs) miso).pops cfg = 0 := by simp [Event.pops, Event.reads, hr]
  obtain ⟨f, t, rp, p, cm, dv, a, dr⟩ := c
  simp only [Chip.next, Chip.mk.injEq] at h0 h1 h2 h3 ⊢
  refine ⟨h0, h1, h2, by rw [h3, hp]; rfl, ?_, ?_, ?_, ?_⟩
  · simp [cleared, Event.sets_quiet (hw _), (leaves (leavesResults_iff.1 hq).1).2.2.2]
  · simp [cleared, Event.sets_quiet (hw _), (leaves (leavesResults_iff.1 hq).1).2.2.2]
  · simp [hr', Event.isAsk]
  · simp [Event.sets_quiet (hw _)]

theorem Chip.asked {pre since : List Event} {e : Event} (he : e.resetsChip cfg = true)
    (h : ∀ x ∈ since, x.isAsk = true ∨ x.reads cfg .command = true) :
    (Chip.behind cfg answer (pre ++ e :: since)).asks = since.countP Event.isAsk := by
  have key : ∀ (es : List Event) (c : Chip), (∀ x ∈ es, x.isAsk = true ∨ x.reads cfg .command = true) →
      (es.foldl (Chip.next cfg answer) c).asks = c.asks + es.countP Event.isAsk := by
    intro es
    induction es with
    | nil => intro c _; rfl
    | cons x es ih =>
      intro c hx
      rw [List.foldl_cons, ih _ fun y hy => hx y (List.mem_cons_of_mem _ hy), List.countP_cons]
      rcases hx x List.mem_cons_self with ha | hr
      · have hn : x.resetsChip cfg = false := by cases x <;> first | rfl | cases ha
        rw [Chip.next, hn, ha]; simp; omega
      · rw [Chip.reads (by decide) hr]
        have : x.isAsk = false := by cases x <;> first | cases hr | rfl
        rw [this]; simp
  rw [Chip.behind, List.foldl_append, List.foldl_cons, key _ _ h]; simp only [Chip.next, if_pos he, Nat.zero_add]

/-! ### It conforms -/

variable {n : Nat} {cards : List (Vector Byte 4)}

theorem cardReply_silent (cmd : PiccCommand) (tx : List Byte) : CardReply cfg cards cmd tx .silent := by
  constructor <;> intros <;> first | rfl | contradiction

theorem cardReply_garbled {tx : List Byte} {e : Byte} : CardReply cfg cards .transceive tx (.garbled e) := by
  constructor <;> intros <;> contradiction

/-- Any clean whole-byte answer to REQA. -/
theorem cardReply_reqa (b : Byte) (bytes : List Byte) (vb : BitVec 3) : CardReply cfg cards .transceive [b] (.reply bytes vb none) where
  collision _ _ _ _ _ _ h := by cases h
  anticoll _ _ _ l k bits _ _ h := by obtain ⟨-, -, h⟩ := h; simp at h
  sak _ _ l u lo hi _ _ h := by simp [selectBytes] at h
  auth := by intros; contradiction
  authAddress := by intros; contradiction
  read _ _ _ _ _ h := by simp at h
  write _ _ body _ _ h hb := by
    have := congrArg List.length h
    simp [crcBytes] at this

theorem chip_value (past : List Event) (r : Reg) (hr : r ≠ .fifoData) :
    (chip n answer cards).value past r = (Chip.behind (limited n) answer past).value (n + 1) r := by
  simp [Env.value, chip, hr]

theorem chip_reply (past : List Event) : (chip n answer cards).reply past = (Chip.behind (limited n) answer past).reply := rfl

theorem Commanded.start {c : PcdCommand} {d : List Byte} {start since : List Event} (h : Commanded cfg c d start since) :
    Commanded cfg c d start [] := ⟨h.1, fun e he => by cases he⟩

theorem Commanded.left {c : PcdCommand} {d : List Byte} {start a b : List Event} (h : Commanded cfg c d start (a ++ b)) :
    Commanded cfg c d start a := ⟨h.1, fun e he => h.2 e (List.mem_append_left _ he)⟩

theorem Chip.reply_of {c : PcdCommand} {d : List Byte} {start since : List Event} (h : Commanded cfg c d start since) :
    (Chip.behind cfg answer (start ++ since)).reply = (Chip.behind cfg answer start).reply := (Chip.commanded h).2.1

theorem heard_cases (cmd : PiccCommand) (drivers : Byte) (d : List Byte) :
    heard cfg answer drivers cmd.pcd d = .silent ∨ heard cfg answer drivers cmd.pcd d = answer cmd d := by
  unfold heard; split
  · exact .inl rfl
  · cases cmd <;> exact .inr rfl

/-- A reply the chip has is the cards' to the frame. -/
theorem chip_hears {cmd : PiccCommand} {d : List Byte} {start since : List Event} {r : Reply} (h : Commanded (limited n) cmd.pcd d start since)
    (hr : (chip n answer cards).reply start = r) (hs : r ≠ .silent) : answer cmd d = r := by
  have hh := (Chip.commanded (answer := answer) h).2.2.2
  rw [chip_reply, hh] at hr
  rcases heard_cases (cfg := limited n) (answer := answer) cmd (Chip.behind (limited n) answer start).drivers d with h | h
  · exact absurd (hr.symm.trans h) hs
  · rw [← h]; exact hr

theorem chip_comIrq {cmd : PiccCommand} {d : List Byte} {start since : List Event} (h : Commanded (limited n) cmd.pcd d start since) :
    (commandDone (limited n) cmd ((chip n answer cards).value (start ++ since) .comIrq) = true → (chip n answer cards).reply start ≠ .silent) ∧
      timerIrq (limited n) ((chip n answer cards).value (start ++ since) .comIrq) = false := by
  rw [chip_value _ _ (by decide), Chip.value, Chip.reply_of h, chip_reply]
  have key : ∀ v : Byte, commandDone (limited 0) cmd (0x00 &&& v) = false ∧ timerIrq (limited 0) (0x00 &&& v) = false ∧
      timerIrq (limited 0) (0x30 &&& v) = false := by cases cmd <;> decide
  split
  · rename_i hs
    refine ⟨fun hd => ?_, (key _).2.1⟩
    have := (key (~~~(Chip.behind (limited n) answer (start ++ since)).com)).1
    exact absurd (hd.symm.trans this) (by simp)
  · rename_i hs
    exact ⟨fun _ => hs, (key _).2.2⟩

/-- The premise holds of a chip whose cards answer as cards can: an error of a garbled reply is an early one, a response fits the FIFO
count, a collision has a position, and each reply is one that cards can give. -/
theorem chip_conforms (hg : ∀ cmd d e, answer cmd d = .garbled e → earlyError (limited n) e = true)
    (hb : ∀ cmd d bytes vb coll, answer cmd d = .reply bytes vb coll → bytes.length ≤ 127 ∧ ∀ p, coll = some p → 1 ≤ p ∧ p ≤ 32)
    (hc : ∀ cmd d, CardReply (limited n) cards cmd d (answer cmd d)) :
    ConformingEnv (limited n) (chip n answer cards) where
  crc d start since more h _ := by
    rw [chip_value _ _ (by decide), chip_value _ _ (by decide), List.append_assoc]
    simp [Chip.value, (Chip.commanded h).1]
  silent cmd tx start since h hs := by
    by_contra hd; exact (chip_comIrq h).1 (by simpa using hd) hs
  inTime cmd tx start since h hs := by
    refine ⟨fun _ => (chip_comIrq h).2, ?_⟩
    · show ((Chip.behind _ _ _).reply == Reply.silent) = false
      rw [Chip.reply_of h]; simpa [chip_reply] using hs
  garbled cmd tx start since more e h hr := by
    refine ⟨hg _ _ _ (chip_hears h.1 hr (by simp)), ?_⟩
    rw [chip_reply] at hr
    rw [chip_value _ _ (by decide), List.append_assoc]
    simp [Chip.value, Chip.reply_of h.1, hr]
  error cmd tx start since more bytes vb coll h hr := by
    rw [chip_reply] at hr
    rw [chip_value _ _ (by decide), List.append_assoc]
    have : (earlyError (limited 0) 0x00 = false ∧ collError (limited 0) 0x00 = false) ∧ earlyError (limited 0) 0x08 = false ∧
        collError (limited 0) 0x08 = true := by decide
    cases coll <;> simp only [Chip.value, Chip.reply_of h.1, hr]
    · exact this.1
    · exact this.2
  fifo cmd tx start since more bytes vb coll h hr := by
    have h127 := (hb _ _ _ _ _ (chip_hears h.1 hr (by simp))).1
    rw [chip_reply] at hr
    have hl : (Chip.behind (limited n) answer (start ++ (since ++ more))).left =
        bytes.drop (((since ++ more).map (Event.pops (limited n))).sum) := by
      rw [Chip.left, Chip.reply_of h.1, hr, (Chip.commanded h.1).2.2.1]
    intro left
    refine ⟨?_, fun k h1 h2 => ?_, ?_⟩
    · rw [chip_value _ _ (by decide), List.append_assoc, Chip.value, hl]
      have : ∀ k ≤ 127, fifoCount (limited n) (BitVec.ofNat 8 k) = k := by
        have : ∀ k ≤ 127, ((BitVec.ofNat 8 k) &&& 0x7F#8).toNat = k := by decide
        exact this
      exact this _ (by simp; omega)
    · simp only [chip, if_true, List.append_assoc, hl]
      rw [List.take_append_of_le_length h2]
    · rw [chip_value _ _ (by decide), List.append_assoc]
      simp only [Chip.value, Chip.reply_of h.1, hr]
      have : ∀ v : BitVec 3, ((v.setWidth 8 : Byte) >>> 0).setWidth 3 = v := by decide
      exact this vb
  coll cmd tx start since more bytes vb p h hr := by
    obtain ⟨h1, h32⟩ := (hb _ _ _ _ _ (chip_hears h.1 hr (by simp))).2 p rfl
    rw [chip_reply] at hr
    have hv : (chip n answer cards).value (start ++ since ++ more) .coll = BitVec.ofNat 8 (p % 32) := by
      rw [chip_value _ _ (by decide), List.append_assoc]
      simp [Chip.value, Chip.reply_of h.1, hr]
    rw [hv]
    have : ∀ p ≤ 32, 1 ≤ p → collPosNotValid (limited 0) (BitVec.ofNat 8 (p % 32)) = false ∧
        collPos (limited 0) (BitVec.ofNat 8 (p % 32)) = p := by decide
    exact this p h32 h1
  card cmd tx start h := by
    rw [chip_reply]
    have hh := (Chip.commanded (answer := answer) h).2.2.2
    rw [hh]
    rcases heard_cases (cfg := limited n) (answer := answer) cmd (Chip.behind (limited n) answer start).drivers tx with h | h <;> rw [h]
    · exact cardReply_silent _ _
    · exact hc _ _
  reads pre e post r hr h := by
    have : Chip.behind (limited n) answer (pre ++ e :: post) = Chip.behind (limited n) answer (pre ++ post) := by
      simp [Chip.behind, Chip.reads hr h]
    refine ⟨?_, ?_, rfl⟩
    · show (fun r k => _) = _
      simp only [chip, this]
    · simp only [chip, this]
  powerUp pre e since he hs hl := by
    rw [chip_value _ _ (by decide), Chip.value, Chip.asked he hs, if_neg (by simpa [limited] using hl)]
    have : powerDown (limited 0) 0x00 = false := by decide
    exact this
  flags pre e v := by
    have zero : ∀ x y v : Byte, (x &&& ~~~(y ||| v)) &&& v = 0 := fun x y v => by ext i; simp
    simp only [chip_value _ _ (show Reg.comIrq ≠ .fifoData by decide), chip_value _ _ (show Reg.divIrq ≠ .fifoData by decide), Chip.value]
    have hb : Chip.behind (limited n) answer (pre ++ [e]) = (Chip.behind (limited n) answer pre).next (limited n) answer e := by
      simp [Chip.behind]
    rw [hb]
    exact ⟨fun h hn => by simp only [Chip.next, cleared, h, hn]; exact zero _ _ _, fun h hn => by simp only [Chip.next, cleared, h, hn]; exact zero _ _ _⟩
  crypto pre e v _ _ := by
    rw [chip_value _ _ (by decide)]
    exact BitVec.zero_and
  drivers pre e _ _ := by
    have hd : (Chip.behind (limited n) answer (pre ++ [e])).drivers =
        (e.sets (limited n) .txControl).getD (Chip.behind (limited n) answer pre).drivers := by
      rw [Chip.behind, List.foldl_append]; rfl
    simp only [chip_value _ _ (show Reg.txControl ≠ .fifoData by decide), Chip.value, hd]
    exact ⟨fun hw => by rw [Event.sets_quiet hw]; rfl, fun v hv _ => by rw [hv]; rfl⟩
  unpowered cmd tx start h hd := by
    rw [chip_value _ _ (by decide)] at hd
    rw [chip_reply, (Chip.commanded (answer := answer) h).2.2.2]; exact if_pos hd

end Sys2Proof.Machine
end

