-- ==== Sys2Proof/Laws/Encoding.lean ====
section
/-! SUPPORT. The parts of an encoding read back: addresses, bytes as text, the tokens of a program line and its operands. -/

namespace Sys2Proof

/-! ### Addresses, bytes and words -/

@[simp] theorem Operation.ofWord_word (o : Operation) : Operation.ofWord o.word = some o := by cases o <;> decide +kernel
@[simp] theorem CardType.ofWord_word (t : CardType) : CardType.ofWord t.word = some t := by cases t <;> decide +kernel

@[simp] theorem readHexByte_hexByte (b : Byte) : readHexByte (hexByte b) = some b := by revert b; decide +kernel
@[simp] theorem readByteWord_byteWord (b : Byte) : readByteWord (byteWord b) = some b := by revert b; decide +kernel

/-- A word of a program line: at least one byte, and only bytes a word may hold. -/
def IsWord (w : List Byte) : Prop := w ≠ [] ∧ w.all isWordByte = true

theorem isWord_hexByte (b : Byte) : IsWord (hexByte b) := ⟨by simp [hexByte], by revert b; decide +kernel⟩
theorem isWord_byteWord (b : Byte) : IsWord (byteWord b) := ⟨by simp [byteWord], by revert b; decide +kernel⟩
theorem isWord_operation (o : Operation) : IsWord o.word := by cases o <;> exact ⟨by decide +kernel, by decide +kernel⟩
theorem isWord_cardType (t : CardType) : IsWord t.word := by cases t <;> exact ⟨by decide +kernel, by decide +kernel⟩
theorem isWord_bool (b : Bool) : IsWord (boolWord b) := by cases b <;> exact ⟨by decide +kernel, by decide +kernel⟩
theorem isWord_keyType (k : KeyType) : IsWord k.word := by cases k <;> exact ⟨by decide +kernel, by decide +kernel⟩

theorem validName_parts {n : Name} (h : validName n = true) :
    IsWord n ∧ n ∉ reservedWords ∧ ∃ c cs, n = c :: cs ∧ isLetter c = true := by
  cases n with
  | nil => cases h
  | cons c cs =>
    have h' : (isLetter c && (c :: cs).all isWordByte && !reservedWords.contains (c :: cs)) = true := h
    rw [Bool.and_eq_true, Bool.and_eq_true] at h'
    exact ⟨⟨by simp, h'.1.2⟩, by simpa using h'.2, c, cs, rfl, h'.1.1⟩

theorem readByteWord_name {n : Name} (h : validName n = true) : readByteWord n = none := by
  obtain ⟨_, _, c, cs, rfl, hc⟩ := validName_parts h
  have h0 : (c == 0x30#8) = false := by
    rcases hx : c == 0x30#8 with _ | _
    · rfl
    · rw [eq_of_beq hx] at hc; exact absurd hc (by decide)
  cases cs with
  | nil => rfl
  | cons x ds =>
    show (if (c == 0x30#8 && x == 0x78#8) = true then readHexByte ds else none) = none
    rw [h0]; rfl

/-! ### Tokens (R109) -/

/-- A text that ends a word: none, or one that starts with no word byte. -/
def Breaks (t : List Byte) : Prop := ∀ c cs, t = c :: cs → isWordByte c = false

theorem lexFrom_append {w : List Byte} (h : w.all isWordByte = true) (acc rest : List Byte) :
    lexFrom acc (w ++ rest) = lexFrom (acc ++ w) rest := by
  induction w generalizing acc with
  | nil => simp
  | cons c cs ih =>
    rw [List.all_cons, Bool.and_eq_true] at h
    rw [List.cons_append, lexFrom, if_pos h.1, ih h.2]
    simp

theorem lexFrom_breaks {rest : List Byte} (h : Breaks rest) (w : List Byte) :
    lexFrom w rest = (lexFrom [] rest).map (flushWord w) := by
  cases rest with
  | nil => rfl
  | cons c cs =>
    have hc := h c cs rfl
    have key : ∀ acc, lexFrom acc (c :: cs) = if c == 0x3B#8 then some (flushWord acc [])
        else if c == 0x20#8 || c == 0x09#8 then (lexFrom [] cs).map (flushWord acc)
        else match punctuation c with
          | some t => (lexFrom [] cs).map fun ts => flushWord acc (t :: ts)
          | none   => none := fun acc => by rw [lexFrom]; exact if_neg (by simp [hc])
    rw [key w, key []]
    rcases h1 : c == 0x3B#8 with _ | _
    · rcases h2 : c == 0x20#8 || c == 0x09#8 with _ | _
      · rcases punctuation c with _ | t
        · rfl
        · simp [flushWord, Function.comp_def]
      · show Option.map (flushWord w) (lexFrom [] cs) = Option.map (flushWord w) (Option.map (flushWord []) (lexFrom [] cs))
        rw [Option.map_map]; rfl
    · simp [flushWord]

/-- A text that gives these tokens in front of what breaks words. -/
def Lexes (t : List Byte) (ts : List Token) : Prop := ∀ rest, Breaks rest → lexFrom [] (t ++ rest) = (lexFrom [] rest).map (ts ++ ·)

theorem Lexes.whole {t : List Byte} {ts : List Token} (h : Lexes t ts) : lexFrom [] t = some ts := by
  have := h [] fun c cs hc => by cases hc
  simpa [lexFrom, flushWord] using this

theorem lexes_nil : Lexes [] [] := fun rest _ => by simp

theorem lexes_word {w : List Byte} (h : IsWord w) : Lexes w [.word w] := fun rest hr => by
  rw [lexFrom_append h.2, List.nil_append, lexFrom_breaks hr]
  congr 1
  funext ts
  cases w with
  | nil => exact absurd rfl h.1
  | cons c cs => rfl

/-- A separator or a punctuation mark, whatever follows it. -/
theorem lexes_mark {c : Byte} {ts : List Token} (h : ∀ rest, lexFrom [] (c :: rest) = (lexFrom [] rest).map (ts ++ ·)) {t : List Byte}
    {us : List Token} (ht : Lexes t us) : Lexes (c :: t) (ts ++ us) := fun rest hr => by
  rw [List.cons_append, h, ht rest hr, Option.map_map]
  congr 1; funext x; simp

theorem lex_space (rest : List Byte) : lexFrom [] (0x20#8 :: rest) = (lexFrom [] rest).map ([] ++ ·) := rfl
theorem lex_open (rest : List Byte) : lexFrom [] (0x5B#8 :: rest) = (lexFrom [] rest).map ([.open_] ++ ·) := rfl
theorem lex_close (rest : List Byte) : lexFrom [] (0x5D#8 :: rest) = (lexFrom [] rest).map ([.close_] ++ ·) := rfl
theorem lex_comma (rest : List Byte) : lexFrom [] (0x2C#8 :: rest) = (lexFrom [] rest).map ([.comma] ++ ·) := rfl
theorem lex_equals (rest : List Byte) : lexFrom [] (0x3D#8 :: rest) = (lexFrom [] rest).map ([.equals] ++ ·) := rfl

theorem Lexes.append {t u : List Byte} {ts us : List Token} (ht : Lexes t ts) (hu : Lexes u us) (hb : ∀ rest, Breaks rest → Breaks (u ++ rest)) :
    Lexes (t ++ u) (ts ++ us) := fun rest hr => by
  rw [List.append_assoc, ht _ (hb rest hr), hu rest hr, Option.map_map]
  congr 1; funext x; simp

theorem breaks_cons {c : Byte} (h : isWordByte c = false) (t : List Byte) : Breaks (c :: t) := fun _ _ he => by cases he; exact h

/-! ### Operands (R109) -/

/-- The tokens of an operand. -/
def Operand.tokens : Operand → List Token
  | .word w      => [.word w]
  | .bytes bs    => [.open_] ++ bs.map (fun b => .word (hexByte b)) ++ [.close_]
  | .tagged t bs => [.word t, .open_] ++ bs.map (fun b => .word (hexByte b)) ++ [.close_]

/-- An operand whose words are words. -/
def Operand.proper : Operand → Prop
  | .word w     => IsWord w
  | .bytes _    => True
  | .tagged t _ => IsWord t

/-- The tokens of operands, commas between them. -/
def operandTokens : List Operand → List Token
  | []      => []
  | [x]     => x.tokens
  | x :: xs => x.tokens ++ [.comma] ++ operandTokens xs

theorem lexes_hexBytes (bs : List Byte) : Lexes (joinWith [0x20] (bs.map hexByte)) (bs.map fun b => .word (hexByte b)) := by
  induction bs with
  | nil => exact lexes_nil
  | cons b bs ih =>
    cases bs with
    | nil => exact lexes_word (isWord_hexByte b)
    | cons c cs =>
      have h := (lexes_word (isWord_hexByte b)).append (lexes_mark lex_space ih) fun _ _ => breaks_cons (by decide) _
      simpa [joinWith] using h

theorem lexes_bracketed (bs : List Byte) : Lexes (bracketed bs) ([.open_] ++ bs.map (fun b => .word (hexByte b)) ++ [.close_]) := by
  have h := lexes_mark lex_open ((lexes_hexBytes bs).append (lexes_mark lex_close lexes_nil) fun _ _ => breaks_cons (by decide) _)
  simpa [bracketed] using h

theorem Operand.lexes {o : Operand} (h : o.proper) : Lexes o.text o.tokens := by
  cases o with
  | word w => exact lexes_word h
  | bytes bs => exact lexes_bracketed bs
  | tagged t bs =>
    have := (lexes_word h).append (lexes_bracketed bs) fun _ _ => breaks_cons (by decide) _
    simpa [Operand.text, Operand.tokens] using this

theorem lexes_operands {os : List Operand} (h : ∀ o ∈ os, o.proper) :
    Lexes (joinWith (ascii ", ") (os.map Operand.text)) (operandTokens os) := by
  induction os with
  | nil => exact lexes_nil
  | cons o os ih =>
    have ho := Operand.lexes (h o (by simp))
    cases os with
    | nil => exact ho
    | cons p ps =>
      have hs := ih fun q hq => h q (by simp [hq])
      have := ho.append (lexes_mark lex_comma (lexes_mark lex_space hs)) fun _ _ => breaks_cons (by decide) _
      have e : ascii ", " = [0x2C#8, 0x20#8] := by decide +kernel
      simpa [joinWith, operandTokens, e] using this

theorem readOperands_list (tag : Option (List Byte)) (cs : List Byte) (bs : List Byte) (ts : List Token) :
    readOperands (.inList tag bs) (cs.map (fun b => Token.word (hexByte b)) ++ [.close_] ++ ts) =
      (readOperands .closed ts).map fun os => listOperand tag (bs ++ cs) :: os := by
  induction cs generalizing bs with
  | nil => simp [readOperands]
  | cons c cs ih =>
    simp only [List.map_cons, List.cons_append, readOperands, readHexByte_hexByte]
    rw [ih (bs ++ [c])]
    simp

theorem readOperands_last (o : Operand) : readOperands .want o.tokens = some [o] := by
  cases o with
  | word w => rfl
  | bytes bs =>
    have := readOperands_list none bs [] []
    simpa [Operand.tokens, readOperands, listOperand] using this
  | tagged t bs =>
    have := readOperands_list (some t) bs [] []
    simpa [Operand.tokens, readOperands, listOperand] using this

theorem readOperands_comma (o : Operand) (ts : List Token) :
    readOperands .want (o.tokens ++ [.comma] ++ ts) = (readOperands .want ts).map (o :: ·) := by
  cases o with
  | word w => rfl
  | bytes bs =>
    have := readOperands_list none bs [] (.comma :: ts)
    simpa [Operand.tokens, readOperands, listOperand] using this
  | tagged t bs =>
    have := readOperands_list (some t) bs [] (.comma :: ts)
    simpa [Operand.tokens, readOperands, listOperand] using this

theorem readOperands_operandTokens (o : Operand) (os : List Operand) : readOperands .want (operandTokens (o :: os)) = some (o :: os) := by
  induction os generalizing o with
  | nil => exact readOperands_last o
  | cons p ps ih =>
    show readOperands .want (o.tokens ++ [.comma] ++ operandTokens (p :: ps)) = _
    rw [readOperands_comma, ih]; rfl

theorem operandTokens_ne_nil (o : Operand) (os : List Operand) : operandTokens (o :: os) ≠ [] := by
  intro h
  have := readOperands_operandTokens o os
  rw [h] at this
  cases this

@[simp] theorem operandsOf_operandTokens (os : List Operand) : operandsOf (operandTokens os) = some os := by
  cases os with
  | nil => rfl
  | cons o os =>
    unfold operandsOf
    rw [if_neg (by simpa using operandTokens_ne_nil o os), readOperands_operandTokens]

/-! ### Operands as arguments -/

@[simp] theorem byteArg_operand {a : Arg Byte} (h : a.wf = true) : byteArg (a.operand fun x => .word (byteWord x)) = some a := by
  cases a with
  | lit b => simp [Arg.operand, byteArg]
  | name n =>
    have hn : validName n = true := h
    simp [Arg.operand, byteArg, readByteWord_name hn, hn]

@[simp] theorem bytesArg_operand {a : Arg (List Byte)} (h : a.wf = true) : bytesArg (a.operand .bytes) = some a := by
  cases a with
  | lit b => rfl
  | name n =>
    have hn : validName n = true := h
    simp [Arg.operand, bytesArg, hn]

@[simp] theorem boolArg_operand {a : Arg Bool} (h : a.wf = true) : boolArg (a.operand fun b => .word (boolWord b)) = some a := by
  cases a with
  | lit b => cases b <;> decide +kernel
  | name n =>
    have hn : validName n = true := h
    obtain ⟨_, hr, _⟩ := validName_parts hn
    have h1 : (n == ascii "on") = false := beq_eq_false_iff_ne.2 fun e => hr (by rw [e]; decide +kernel)
    have h2 : (n == ascii "off") = false := beq_eq_false_iff_ne.2 fun e => hr (by rw [e]; decide +kernel)
    simp [Arg.operand, boolArg, h1, h2, hn]

@[simp] theorem typeArg_operand {a : Arg CardType} (h : a.wf = true) : typeArg (a.operand fun x => .word x.word) = some a := by
  cases a with
  | lit t => simp [Arg.operand, typeArg]
  | name n =>
    have hn : validName n = true := h
    obtain ⟨_, hr, _⟩ := validName_parts hn
    have h1 : CardType.ofWord n = none := by
      rw [CardType.ofWord, List.find?_eq_none]
      intro t ht e
      exact hr (List.mem_append_right _ (List.mem_map.2 ⟨t, ht, eq_of_beq e⟩))
    simp [Arg.operand, typeArg, h1, hn]

theorem sixBytes_toList (v : Vector Byte 6) : sixBytes v.toList = some v := by
  rcases v with ⟨⟨l⟩, hl⟩
  match l, hl with
  | [_, _, _, _, _, _], _ => rfl

theorem keyArg_operand (k : Key) : keyArg (.tagged k.kind.word k.bytes.toList) = some k := by
  rcases k with ⟨kind, bytes⟩
  cases kind
  · simp [keyArg, sixBytes_toList]
  · have h : ¬ (KeyType.b.word = KeyType.a.word) := by decide +kernel
    simp [keyArg, h, sixBytes_toList]


theorem sixteenAndCrc_append (d : Vector Byte 16) (lo hi : Byte) : sixteenAndCrc (d.toList ++ [lo, hi]) = some (d, lo, hi) := by
  rcases d with ⟨⟨l⟩, hl⟩
  match l, hl with
  | [_, _, _, _, _, _, _, _, _, _, _, _, _, _, _, _], _ => rfl

end Sys2Proof
end

