-- ==== Sys2Proof/Laws/Position.lean ====
section
/-! SUPPORT. The sequencer position decides nothing (R29): procedures that differ in the positions their loops go back to do the same, but for
the position, wherever each starts. With this a call made inside another, at its own position, does what the call itself does. -/

namespace Sys2Proof.Machine

variable {α β : Type} {cfg : Cfg}

/-- From states that differ in the position only the two procedures end alike, in states that differ in the position only. -/
def Proc.Alike (p p' : Proc α) : Prop :=
  ∀ (s : State) (q q' : Pos), ∃ (x : Except Stop α) (t : State) (r r' : Pos),
    p.exec { s with pos := q } = (x, { t with pos := r }) ∧ p'.exec { s with pos := q' } = (x, { t with pos := r' })

/-! ### How two procedures stay alike -/

theorem alike_pure (a : α) : (pure a : Proc α).Alike (pure a) := fun s q q' => ⟨.ok a, s, q, q', rfl, rfl⟩
theorem alike_raise (e : Err) : (Proc.raise e : Proc α).Alike (Proc.raise e) := fun s q q' => ⟨.error (.raise e), s, q, q', rfl, rfl⟩

theorem alike_look {f : State → α} (h : ∀ s q, f { s with pos := q } = f s) : (Proc.look f).Alike (Proc.look f) := fun s q q' =>
  ⟨.ok (f s), s, q, q', by simp [h], by simp [h]⟩

theorem alike_update {f : State → State} (h : ∀ s q, ∃ r, f { s with pos := q } = { f s with pos := r }) :
    (Proc.update f).Alike (Proc.update f) := fun s q q' => by
  obtain ⟨r, hr⟩ := h s q
  obtain ⟨r', hr'⟩ := h s q'
  exact ⟨.ok (), f s, r, r', by simp [hr], by simp [hr']⟩

theorem alike_primitive {f : State → α × State} (h : ∀ s q, ∃ r, f { s with pos := q } = ((f s).1, { (f s).2 with pos := r })) :
    (Proc.primitive f).Alike (Proc.primitive f) := fun s q q' => by
  obtain ⟨r, hr⟩ := h s q
  obtain ⟨r', hr'⟩ := h s q'
  exact ⟨.ok (f s).1, (f s).2, r, r', by simp [hr], by simp [hr']⟩

theorem Proc.Alike.bind {x x' : Proc α} {f f' : α → Proc β} (hx : x.Alike x') (hf : ∀ a, (f a).Alike (f' a)) :
    (x >>= f).Alike (x' >>= f') := fun s q q' => by
  obtain ⟨y, t, r, r', h, h'⟩ := hx s q q'
  cases y with
  | error e => exact ⟨.error e, t, r, r', Proc.exec_bind_error h, Proc.exec_bind_error h'⟩
  | ok a =>
    rw [Proc.exec_bind_ok h, Proc.exec_bind_ok h']
    exact hf a t r r'

/-- Procedures that note the position to go back to it. -/
theorem alike_head {f f' : Pos → Proc α} (h : ∀ q q', (f q).Alike (f' q')) :
    (do let head ← Proc.look State.pos; f head : Proc α).Alike (do let head ← Proc.look State.pos; f' head) := fun s q q' => by
  rw [Proc.exec_bind_ok (Proc.exec_look _ _), Proc.exec_bind_ok (Proc.exec_look _ _)]
  exact h q q' s q q'

theorem alike_jump (head head' : Pos) : (jump head).Alike (jump head') := fun s _ _ => ⟨.ok (), s, head, head', rfl, rfl⟩

theorem alike_ite {c : Prop} [Decidable c] {x x' y y' : Proc α} (hx : x.Alike x') (hy : y.Alike y') :
    (if c then x else y).Alike (if c then x' else y') := by split <;> assumption

/-! ### The primitives and the poll loops -/

theorem alike_regWrite (r : Reg) (v : Byte) : (regWrite cfg r v).Alike (regWrite cfg r v) := alike_primitive fun _ _ => ⟨_, rfl⟩
theorem alike_regRead (r : Reg) : (regRead cfg r).Alike (regRead cfg r) := alike_primitive fun _ _ => ⟨_, rfl⟩
theorem alike_regWriteN (r : Reg) (bs : List Byte) : (regWriteN cfg r bs).Alike (regWriteN cfg r bs) :=
  alike_ite (alike_pure _) (alike_primitive fun _ _ => ⟨_, rfl⟩)
theorem alike_regReadN (r : Reg) (n : Nat) (a : BitVec 3) : (regReadN cfg r n a).Alike (regReadN cfg r n a) :=
  alike_ite (alike_pure _) (alike_primitive fun _ _ => ⟨_, rfl⟩)
theorem alike_setBits (r : Reg) (m : Byte) : (setBits cfg r m).Alike (setBits cfg r m) := (alike_regRead r).bind fun _ => alike_regWrite r _
theorem alike_clearBits (r : Reg) (m : Byte) : (clearBits cfg r m).Alike (clearBits cfg r m) :=
  (alike_regRead r).bind fun _ => alike_regWrite r _
theorem alike_ask (kind : WaitKind) (a : Bool) : (askDeadline kind a).Alike (askDeadline kind a) := alike_primitive fun _ _ => ⟨_, rfl⟩

theorem alike_drawBudget : drawBudget.Alike drawBudget := fun s q q' =>
  ⟨.ok s.nextBudget.1, s.nextBudget.2, q, q', by simp only [drawBudget, Proc.exec_internal, State.nextBudget]; split <;> rfl,
    by simp only [drawBudget, Proc.exec_internal, State.nextBudget]; split <;> rfl⟩

theorem alike_pollAgain {kind : WaitKind} {head head' : Pos} {check : Nat → Proc (Option β)} {od : Proc β}
    (hc : ∀ i, (check i).Alike (check i)) (ho : od.Alike od) (budget i : Nat) :
    (pollAgain kind head check od budget i).Alike (pollAgain kind head' check od budget i) := by
  induction budget generalizing i with
  | zero => exact (alike_ask kind true).bind fun _ => ho
  | succ n ih =>
    refine (alike_ask kind false).bind fun _ => (alike_jump head head').bind fun _ => (hc i).bind fun o => ?_
    cases o with
    | some b => exact alike_pure b
    | none => exact ih (i + 1)

theorem alike_poll {kind : WaitKind} {check : Nat → Proc (Option β)} {od : Proc β} (hc : ∀ i, (check i).Alike (check i)) (ho : od.Alike od) :
    (poll kind check od).Alike (poll kind check od) := by
  refine alike_head fun q q' => (hc 0).bind fun o => ?_
  cases o with
  | some b => exact alike_pure b
  | none => exact alike_drawBudget.bind fun budget => alike_pollAgain hc ho budget 1

/-! ### The two transactions -/

theorem alike_crc (d : List Byte) : (crcTransaction cfg d).Alike (crcTransaction cfg d) :=
  ((alike_regWrite _ _).bind fun _ => (alike_regWrite _ _).bind fun _ => (alike_regWrite _ _).bind fun _ =>
    (alike_regWriteN _ _).bind fun _ => alike_regWrite _ _).bind fun _ =>
  (alike_poll (fun _ => (alike_regRead _).bind fun _ => alike_pure _) (alike_raise _)).bind fun _ => (alike_regRead _).bind fun _ =>
  (alike_regRead _).bind fun _ => (alike_update fun _ q => ⟨q, rfl⟩).bind fun _ => alike_pure _

theorem alike_issueCommand (cmd : PiccCommand) : (issueCommand cfg cmd).Alike (issueCommand cfg cmd) := by
  refine (alike_regWrite _ _).bind fun _ => ?_
  cases cmd
  · exact alike_setBits _ _
  · exact alike_pure _

theorem alike_transceive (cmd : PiccCommand) (tx : List Byte) (tl al : BitVec 3) (want : Bool) :
    (transceive cfg .registers cmd tx tl al want).Alike (transceive cfg .registers cmd tx tl al want) := by
  have hr : (readResponse cfg al).Alike (readResponse cfg al) := (alike_regRead _).bind fun _ => (alike_regReadN _ _ _).bind fun _ =>
    (alike_regRead _).bind fun _ => alike_update fun _ q => ⟨q, rfl⟩
  rw [transceive_eq]
  refine Proc.Alike.bind ?_ fun _ => ?_
  · exact (alike_regWrite _ _).bind fun _ => (alike_regWrite _ _).bind fun _ => (alike_regWrite _ _).bind fun _ =>
      (alike_regWrite _ _).bind fun _ => (alike_regWriteN _ _).bind fun _ => (alike_issueCommand _).bind fun _ =>
      (alike_poll (fun _ => (alike_regRead _).bind fun _ => alike_pure _) (alike_pure _)).bind fun _ => (alike_clearBits _ _).bind fun _ =>
      alike_pure _
  · exact alike_ite (alike_pure _) ((alike_regRead _).bind fun _ => alike_ite (alike_pure _)
      (alike_ite (hr.bind fun _ => alike_pure _) (alike_pure _)))

/-! ### Blocks of a card -/

theorem alike_raiseOn (o : XactOutcome) : (raiseOn o).Alike (raiseOn o) := by
  cases o <;> first | exact alike_pure _ | exact alike_raise _

theorem alike_authSector (a : Byte) : (authSector cfg .registers a).Alike (authSector cfg .registers a) :=
  (alike_look fun _ _ => rfl).bind fun _ => alike_ite (alike_pure _) <|
    ((alike_look fun _ _ => rfl).bind fun _ => (alike_transceive _ _ _ _ _).bind fun _ => alike_raiseOn _).bind fun _ =>
      alike_update fun _ q => ⟨q, rfl⟩

theorem alike_readCardBlock (a : Byte) : (readCardBlock cfg .registers a).Alike (readCardBlock cfg .registers a) :=
  (alike_crc _).bind fun _ => (alike_transceive _ _ _ _ _).bind fun _ => (alike_raiseOn _).bind fun _ => (alike_look fun _ _ => rfl).bind fun _ =>
    alike_ite ((alike_crc _).bind fun _ => alike_ite (alike_pure _) (alike_raise _)) (alike_raise _)

theorem alike_writePhase (frame : List Byte) : (writePhase cfg .registers frame).Alike (writePhase cfg .registers frame) :=
  (alike_transceive _ _ _ _ _).bind fun _ => (alike_raiseOn _).bind fun _ => (alike_look fun _ _ => rfl).bind fun _ =>
    alike_ite (alike_pure _) (alike_raise _)

theorem alike_writeCardBlock (a : Byte) (data : List Byte) :
    (writeCardBlock cfg .registers a data).Alike (writeCardBlock cfg .registers a data) :=
  (alike_crc _).bind fun _ => (alike_writePhase _).bind fun _ => (alike_crc _).bind fun _ => alike_writePhase _

theorem alike_readThrough (a : Byte) : (readThrough cfg .registers a).Alike (readThrough cfg .registers a) :=
  (alike_authSector a).bind fun _ => alike_readCardBlock a

theorem alike_writeThrough (a : Byte) (data : List Byte) : (writeThrough cfg .registers a data).Alike (writeThrough cfg .registers a data) :=
  (alike_authSector a).bind fun _ => alike_writeCardBlock a data

end Sys2Proof.Machine
end

