-- ==== Sys2Proof/Laws/Whole.lean ====
section
/-! SUPPORT. What any instruction may do, whatever the chip answers: the changes of a host call by its kind, the changes of an internal
row, the values given, and that internal rows leave an idle sequencer idle. -/

namespace Sys2Proof.Machine

variable {cfg : Cfg}

/-! ### Host calls -/

/-- The store operations that may authenticate. -/
def storeAccess : Instr → Bool
  | .authenticate _ _ | .readBlock _ _ | .writeBlock _ _ _ | .readBytes _ | .writeBytes _ _ => true
  | _ => false

theorem host_then {α β : Type} {p : Proc α} (h : p.Keeps (HostMoves cfg)) (f : α → β) : (do let a ← p; pure (f a) : Proc β).Keeps (HostMoves cfg) :=
  hostPath.bind h fun _ => hostPath.pure _

theorem cache_then {α β : Type} {p : Proc α} (h : p.Keeps (CacheMoves cfg)) (f : α → β) : (do let a ← p; pure (f a) : Proc β).Keeps (CacheMoves cfg) :=
  cachePath.bind h fun _ => cachePath.pure _

/-- Every host call but init, select and the store's accesses makes no change but the transport's. -/
theorem call_host {i : Instr} {s : State} {op : HostOp} {p : Proc Value} (h : callProc cfg .registers s i = some (op, p)) (hi : i ≠ .init)
    (hs : i ≠ .select) (ha : storeAccess i = false) : p.Keeps (HostMoves cfg) := by
  cases i
  case init => exact absurd rfl hi
  case select => exact absurd rfl hs
  case authenticate | readBlock | writeBlock | readBytes | writeBytes => cases ha
  case antennaOn | antennaOff =>
    obtain ⟨rfl, rfl⟩ := Prod.mk.inj (Option.some.inj h); exact host_then (host_antennaSet _) _
  case isCardPresent => obtain ⟨rfl, rfl⟩ := Prod.mk.inj (Option.some.inj h); exact host_then host_cardPresent _
  case mifareStopCrypto1 | endSession => obtain ⟨rfl, rfl⟩ := Prod.mk.inj (Option.some.inj h); exact host_then host_stopCrypto1 _
  case makeStore => obtain ⟨rfl, rfl⟩ := Prod.mk.inj (Option.some.inj h); exact host_then host_newStore _
  case setAntennaState =>
    obtain ⟨_, _, h2⟩ := Option.map_eq_some_iff.1 h
    obtain ⟨rfl, rfl⟩ := Prod.mk.inj h2; exact host_then (host_antennaSet _) _
  case mifareAuth =>
    obtain ⟨_, _, h2⟩ := Option.map_eq_some_iff.1 h
    obtain ⟨rfl, rfl⟩ := Prod.mk.inj h2; exact host_then (host_authBlock _ _) _
  case mifareRead =>
    obtain ⟨_, _, h2⟩ := Option.map_eq_some_iff.1 h
    obtain ⟨rfl, rfl⟩ := Prod.mk.inj h2; exact host_then (host_readCardBlock _) _
  case cardType =>
    obtain ⟨_, _, h2⟩ := Option.map_eq_some_iff.1 h
    obtain ⟨rfl, rfl⟩ := Prod.mk.inj h2; exact host_then (host_typeOfSak _) _
  case getSak | getCapacity =>
    obtain ⟨_, _, h2⟩ := Option.map_eq_some_iff.1 h
    obtain ⟨rfl, rfl⟩ := Prod.mk.inj h2; exact hostPath.pure _
  case calculateCrc =>
    obtain ⟨_, _, h2⟩ := Option.map_eq_some_iff.1 h
    obtain ⟨rfl, rfl⟩ := Prod.mk.inj h2; exact hostPath.bind (host_crc _) fun _ => hostPath.pure _
  case mifareWrite =>
    obtain ⟨_, _, h'⟩ := Option.bind_eq_some_iff.1 h
    obtain ⟨_, _, h2⟩ := Option.map_eq_some_iff.1 h'
    obtain ⟨rfl, rfl⟩ := Prod.mk.inj h2; exact host_then (host_writeCardBlock _ _) _
  all_goals cases h

/-- The store's accesses change the transport's fields and the cache. -/
theorem call_store {i : Instr} {s : State} {op : HostOp} {p : Proc Value} (h : callProc cfg .registers s i = some (op, p))
    (ha : storeAccess i = true) : p.Keeps (CacheMoves cfg) := by
  cases i
  case authenticate =>
    obtain ⟨_, _, h'⟩ := Option.bind_eq_some_iff.1 h
    obtain ⟨_, _, h2⟩ := Option.map_eq_some_iff.1 h'
    obtain ⟨rfl, rfl⟩ := Prod.mk.inj h2; exact cache_then (cache_authSector _) _
  case readBlock =>
    obtain ⟨_, _, h'⟩ := Option.bind_eq_some_iff.1 h
    obtain ⟨_, _, h2⟩ := Option.map_eq_some_iff.1 h'
    obtain ⟨rfl, rfl⟩ := Prod.mk.inj h2; exact cache_then (cache_readThrough _) _
  case writeBlock =>
    obtain ⟨_, _, h'⟩ := Option.bind_eq_some_iff.1 h
    obtain ⟨_, _, h''⟩ := Option.bind_eq_some_iff.1 h'
    obtain ⟨_, _, h2⟩ := Option.map_eq_some_iff.1 h''
    obtain ⟨rfl, rfl⟩ := Prod.mk.inj h2; exact cache_then (cache_writeThrough _ _) _
  case readBytes =>
    obtain ⟨_, _, h2⟩ := Option.map_eq_some_iff.1 h
    obtain ⟨rfl, rfl⟩ := Prod.mk.inj h2; exact cache_then cache_readStore _
  case writeBytes =>
    obtain ⟨_, _, h'⟩ := Option.bind_eq_some_iff.1 h
    obtain ⟨_, _, h2⟩ := Option.map_eq_some_iff.1 h'
    obtain ⟨rfl, rfl⟩ := Prod.mk.inj h2; exact cache_then (cache_writeStore _) _
  all_goals cases ha

/-- A store access that is not refused is in a session (R238). -/
theorem storeAccess_session {i : Instr} {s : State} {op : HostOp} {p : Proc Value} (h : callProc cfg .registers s i = some (op, p))
    (ha : storeAccess i = true) (hr : refusalOf s i.needsReady (ownReason s i) = none) : s.uidValid = true := by
  have own : ownReason s i = none := by
    revert hr; unfold refusalOf; split
    · intro h; cases h
    · split
      · intro h; cases h
      · exact id
  have stale_none : ∀ {st : Store} {x : Option RefuseReason}, (staleRefusal s st).or x = none → s.uidValid = true := by
    intro st x hx
    have := (Option.or_eq_none_iff.1 hx).1
    unfold staleRefusal at this; split at this
    · rename_i hc; simp at hc; exact hc.1
    · cases this
  cases i
  case authenticate | readBlock | writeBytes =>
    obtain ⟨st, h1, h'⟩ := Option.bind_eq_some_iff.1 h
    simp only [ownReason, h1, Option.bind_some] at own
    first | exact stale_none own | exact stale_none (x := none) (by rw [own]; rfl)
  case writeBlock =>
    obtain ⟨st, h1, h'⟩ := Option.bind_eq_some_iff.1 h
    simp only [ownReason, h1, Option.bind_some] at own
    exact stale_none (Option.or_eq_none_iff.1 own).1
  case readBytes =>
    obtain ⟨st, h1, h2⟩ := Option.map_eq_some_iff.1 h
    simp only [ownReason, h1, Option.bind_some] at own
    exact stale_none (x := none) (by rw [own]; rfl)
  all_goals cases ha

/-! ### Values -/

/-- What a procedure gives. -/
def Proc.Gives {α : Type} (p : Proc α) (Q : State → α → Prop) : Prop := ∀ s a t, p.exec s = (.ok a, t) → Q s a

theorem gives_then {α β : Type} {p : Proc α} {f : α → β} {Q : State → β → Prop} (h : ∀ s a, Q s (f a)) :
    (do let a ← p; pure (f a) : Proc β).Gives Q := fun s b t hx => by
  rw [Proc.exec_bind] at hx
  rcases hp : p.exec s with ⟨e | a, u⟩ <;> rw [hp] at hx
  · cases hx
  · obtain ⟨rfl, rfl⟩ : f a = b ∧ u = t := by simpa using hx
    exact h s a

/-- The only value that is a store is makeStore's, of the current session (R226). -/
theorem newStore_gives : (newStore cfg).Gives fun s st =>
    st = { gen := s.gen, uid := s.uidBytes, uidSize := s.uidSize, capacity := Config.capacity } ∧ s.sak = 0x08 := fun s st t h => by
  unfold newStore at h
  rw [Proc.exec_bind_ok (Proc.exec_look _ _), Proc.exec_bind] at h
  rcases ho : cfg.typeOf s.sak with _ | c
  · have : (typeOfSak cfg s.sak).exec s = (.error (.raise (.unsupportedCard s.sak)), s) := by unfold typeOfSak; rw [ho]; rfl
    rw [this] at h; cases h
  · have ht : (typeOfSak cfg s.sak).exec s = (.ok c, s) := by unfold typeOfSak; rw [ho]; rfl
    rw [ht] at h
    simp only at h
    by_cases hc : c = .mifareClassic1K
    · rw [if_pos hc] at h
      obtain ⟨rfl, rfl⟩ : _ = st ∧ s = t := by simpa using h
      exact ⟨rfl, cfg.typeOf_classic_iff.1 (hc ▸ ho)⟩
    · rw [if_neg hc] at h; cases h

/-- A value that is no store object. -/
def notStore : Value → Bool
  | .store _ => false
  | _ => true

/-- Every host call but makeStore gives a value that is no store. -/
theorem call_gives {i : Instr} {s : State} {op : HostOp} {p : Proc Value} (h : callProc cfg .registers s i = some (op, p)) (hi : i ≠ .makeStore) :
    p.Gives fun _ v => notStore v = true := by
  cases i
  case makeStore => exact absurd rfl hi
  case select =>
    obtain ⟨rfl, rfl⟩ := Prod.mk.inj (Option.some.inj h)
    intro s v t hx
    obtain ⟨t0, _, _, ⟨e, _, h1⟩ | ⟨sak, _, h1⟩⟩ := selectCard_ends s
    · rw [h1] at hx; cases hx
    · rw [h1] at hx; obtain ⟨rfl, rfl⟩ : _ = v ∧ _ = t := by simpa using hx
      rfl
  case init | antennaOn | antennaOff | isCardPresent | mifareStopCrypto1 | endSession =>
    obtain ⟨rfl, rfl⟩ := Prod.mk.inj (Option.some.inj h); exact gives_then fun _ _ => rfl
  case setAntennaState | mifareAuth | mifareRead | cardType | calculateCrc | readBytes =>
    obtain ⟨_, _, h2⟩ := Option.map_eq_some_iff.1 h
    obtain ⟨rfl, rfl⟩ := Prod.mk.inj h2; exact gives_then fun _ _ => rfl
  case getSak | getCapacity =>
    obtain ⟨_, _, h2⟩ := Option.map_eq_some_iff.1 h
    obtain ⟨rfl, rfl⟩ := Prod.mk.inj h2
    intro s v t hx; obtain ⟨rfl, rfl⟩ : _ = v ∧ s = t := by simpa using hx
    rfl
  case mifareWrite | authenticate | readBlock | writeBytes =>
    obtain ⟨_, _, h'⟩ := Option.bind_eq_some_iff.1 h
    obtain ⟨_, _, h2⟩ := Option.map_eq_some_iff.1 h'
    obtain ⟨rfl, rfl⟩ := Prod.mk.inj h2; exact gives_then fun _ _ => rfl
  case writeBlock =>
    obtain ⟨_, _, h'⟩ := Option.bind_eq_some_iff.1 h
    obtain ⟨_, _, h''⟩ := Option.bind_eq_some_iff.1 h'
    obtain ⟨_, _, h2⟩ := Option.map_eq_some_iff.1 h''
    obtain ⟨rfl, rfl⟩ := Prod.mk.inj h2; exact gives_then fun _ _ => rfl
  all_goals cases h

/-! ### Internal rows -/

/-- What an internal row can change: the transport's fields, the reset line, the response (by a response row, `rsp` at most so long),
and the select fields the response rows write. -/
def RowMoves (cfg : Cfg) (n : Nat) (s t : State) : Prop :=
  ∃ l b k u r c evs rd dr q, (∀ e ∈ evs, e.wf cfg) ∧ (k = s.k ∨ k = 32) ∧ (r = s.rsp ∨ r.n ≤ 127 ∨ r.n ≤ n) ∧
    t = { s with resetLine := l, selBuf := b, k := k, uid := u, rsp := r, crcOut := c, trace := s.trace ++ evs, answers := rd, draws := dr, pos := q }

theorem rowPath (n : Nat) : Path (RowMoves cfg n) where
  refl s := ⟨s.resetLine, s.selBuf, s.k, s.uid, s.rsp, s.crcOut, [], s.answers, s.draws, s.pos, by simp, .inl rfl, .inl rfl,
    by simp⟩
  trans := by
    rintro s t u ⟨l, b, k, v, r, c, evs, rd, dr, q, h1, h2, h3, rfl⟩ ⟨l', b', k', v', r', c', evs', rd', dr', q', h1', h2', h3', rfl⟩
    refine ⟨l', b', k', v', r', c', evs ++ evs', rd', dr', q', ?_, ?_, ?_, by simp⟩
    · intro e he; rcases List.mem_append.1 he with h | h
      · exact h1 e h
      · exact h1' e h
    · rcases h2' with rfl | h
      · exact h2
      · exact .inr h
    · rcases h3' with rfl | h
      · exact h3
      · exact .inr h

theorem Moves.rowMoves {E : Event → Prop} {s t : State} (n : Nat) (h : Moves E s t) (i : ∀ e, E e → e.wf cfg) : RowMoves cfg n s t := by
  obtain ⟨evs, rd, dr, q, r, c, h1, h2, rfl⟩ := h
  exact ⟨s.resetLine, s.selBuf, s.k, s.uid, r, c, evs, rd, dr, q, fun e he => i e (h1 e he), .inl rfl,
    h2.elim .inl fun h => .inr (.inl h), rfl⟩

theorem Proc.Keeps.rowMoves {α : Type} {p : Proc α} (n : Nat) (h : p.Keeps (HostMoves cfg)) : p.Keeps (RowMoves cfg n) :=
  h.imp fun _ _ h => Moves.rowMoves n h fun _ he => he.1

theorem row_receive (bytes : List Byte) (v : BitVec 3) : (receive bytes v).Keeps (RowMoves cfg bytes.length) := fun s =>
  ⟨s.resetLine, s.selBuf, s.k, s.uid, ⟨bytes, v⟩, s.crcOut, [], s.answers, s.draws, s.pos, by simp, .inl rfl,
    .inr (.inr (Nat.le_refl _)), by simp [receive]⟩

theorem row_sel {n : Nat} {f : State → State} (h : ∀ s, ∃ b u k, (k = s.k ∨ k = 32) ∧ f s = { s with selBuf := b, uid := u, k := k }) :
    (Proc.update f).Keeps (RowMoves cfg n) := fun s => by
  obtain ⟨b, u, k, hk, h⟩ := h s
  exact ⟨s.resetLine, b, k, u, s.rsp, s.crcOut, [], s.answers, s.draws, s.pos, by simp, hk, .inl rfl, by simp [h]⟩

/-- The length of the response a row receives. -/
def rowLength : Instr → Nat
  | .anticollResponse bytes _ => bytes.length
  | .atqa _ _ => 2
  | .sak _ _ _ => 3
  | .mfReadResponse _ _ _ => 18
  | .mfAck _ => 1
  | _ => 0

theorem row_then {α β : Type} {n : Nat} {p : Proc α} (h : p.Keeps (RowMoves cfg n)) (f : α → β) : (do let a ← p; pure (f a) : Proc β).Keeps (RowMoves cfg n) :=
  (rowPath n).bind h fun _ => (rowPath n).pure _

theorem row_write (n : Nat) (r : Reg) (v : Byte) : (regWrite cfg r v).Keeps (RowMoves cfg n) :=
  (keeps_regWrite (E := Event.wf cfg) r v fun _ hm => ⟨hm, r, .inl rfl⟩).imp fun _ _ h => h.rowMoves n fun _ he => he

theorem row_readN (k : Nat) (r : Reg) (n : Nat) (a : BitVec 3) : (regReadN cfg r n a).Keeps (RowMoves cfg k) :=
  (keeps_regReadN (E := Event.wf cfg) r n a fun hn _ hm => ⟨by simpa using hm, r, .inr (by
    obtain ⟨m, rfl⟩ : ∃ m, n = m + 1 := ⟨n - 1, by omega⟩; simp [List.replicate_succ])⟩).imp fun _ _ h => h.rowMoves k fun _ he => he

/-- Every internal row. -/
theorem row_moves {i : Instr} {p : Proc Value} (h : rowProc cfg .registers i = some p) : p.Keeps (RowMoves cfg (rowLength i)) := by
  have x : ∀ (c : PiccCommand) tx t a w n, (transceive cfg .registers c tx t a w).Keeps (RowMoves cfg n) := fun c tx t a w n => (host_transceive c tx t a w).rowMoves n
  cases i
  case init | setAntennaState | isCardPresent | select | mifareAuth | mifareStopCrypto1 | mifareRead | mifareWrite | calculateCrc |
      cardType | getSak | makeStore | getCapacity | authenticate | readBlock | writeBlock | readBytes | writeBytes | antennaOn | antennaOff |
      endSession => cases h
  all_goals obtain rfl := Option.some.inj h
  case regWrite => exact row_then (row_write _ _ _) _
  case regWriteN r bs => exact row_then ((keeps_regWriteN (E := Event.wf cfg) r bs fun _ _ hm => ⟨by simpa using hm, r, .inl rfl⟩).imp
    fun _ _ h => h.rowMoves _ fun _ he => he) _
  case regRead r => exact row_then ((keeps_regRead (E := Event.wf cfg) r fun _ hm => ⟨hm, r, .inr rfl⟩).imp fun _ _ h => h.rowMoves _ fun _ he => he) _
  case regReadN => exact row_then (row_readN _ _ _ _) _
  case resetLine l => exact row_then (fun s => ⟨l, s.selBuf, s.k, s.uid, s.rsp, s.crcOut, [.reset l], s.answers, s.draws,
    s.pos.advance, by simp [Event.wf], .inl rfl, .inl rfl, rfl⟩) _
  case pcdIdle | pcdCalcCrc | pcdSoftReset => exact row_then (row_write _ _ _) _
  case pcdTransceive | pcdMfAuthent => exact row_then ((host_issueCommand _).rowMoves _) _
  case reqa | wupa | hlta | anticollCL1 | anticollCL2 | anticollCL3 | selectCL1 | selectCL2 | selectCL3 | mfAuthA | mfAuthB | mfRead |
      mfWrite | mfWriteData | transceivePicc => exact row_then (x _ _ _ _ _ _) _
  case atqa => exact (rowPath _).bind (row_receive [_, _] _) fun _ => (rowPath _).bind ((rowPath _).look _) fun _ => (rowPath _).pure _
  case anticollResponse bs v =>
    exact (rowPath _).bind (row_receive bs v) fun _ => (rowPath _).bind ((rowPath _).look _) fun k => (rowPath _).bind
      ((rowPath _).bind ((rowPath _).look _) fun _ => Proc.keeps_ite ((rowPath _).raise _)
        (row_sel fun s => ⟨_, s.uid, s.k, .inl rfl, rfl⟩)) fun _ => (rowPath _).bind
      (row_sel fun s => ⟨s.selBuf, s.uid, 32, .inr rfl, rfl⟩) fun _ => (rowPath _).pure _
  case sak b lo hi =>
    exact (rowPath _).bind (row_receive [b, lo, hi] 0) fun _ => (rowPath _).bind ((rowPath _).bind ((rowPath _).look _) fun _ =>
      Proc.keeps_ite ((rowPath _).pure _) ((rowPath _).raise _)) fun _ => row_then ((rowPath _).bind ((rowPath _).look _) fun _ =>
      (rowPath _).bind ((host_crc _).rowMoves _) fun _ => Proc.keeps_ite ((rowPath _).pure _) ((rowPath _).raise _)) _
  case cascadeTag =>
    exact (rowPath _).bind (row_sel fun s => ⟨_, s.uid, s.k, .inl rfl, rfl⟩) fun _ => (rowPath _).bind ((rowPath _).look _) fun _ =>
      (rowPath _).bind (row_sel fun s => ⟨s.selBuf, _, s.k, .inl rfl, rfl⟩) fun _ => (rowPath _).pure _
  case mfReadResponse d lo hi =>
    refine (rowPath _).bind ((row_receive (cfg := cfg) (d.toList ++ [lo, hi]) 0).imp fun _ _ h => ?_) fun _ => row_then (host_checkRead.rowMoves _) _
    rwa [show (d.toList ++ [lo, hi]).length = 18 by simp] at h
  case mfAck high => exact (rowPath _).bind (row_receive [high ++ Config.mfAck] 4) fun _ => row_then (host_ackCheck.rowMoves _) _

/-! ### The sequencer of an internal row (log entry 10) -/

/-- An idle sequencer stays idle. -/
def IdleKept (s t : State) : Prop := s.pos = .idle → t.pos = .idle

theorem idlePath : Path IdleKept := ⟨fun _ h => h, fun h1 h2 h => h2 (h1 h)⟩

theorem idle_update {f : State → State} (h : ∀ s, (f s).pos = s.pos) : (Proc.update f).Keeps IdleKept := fun s hs => (h s).trans hs

theorem advance_idle {q : Pos} (h : q = .idle) : q.advance = .idle := by subst h; rfl

theorem idle_regWrite (r : Reg) (v : Byte) : (regWrite cfg r v).Keeps IdleKept := fun _ h => advance_idle h
theorem idle_regWriteN (r : Reg) (bs : List Byte) : (regWriteN cfg r bs).Keeps IdleKept := fun s h => by
  unfold regWriteN; split
  · exact h
  · exact advance_idle h
theorem idle_regRead (r : Reg) : (regRead cfg r).Keeps IdleKept := fun _ h => advance_idle h
theorem idle_regReadN (r : Reg) (n : Nat) (a : BitVec 3) : (regReadN cfg r n a).Keeps IdleKept := fun s h => by
  unfold regReadN; split
  · exact h
  · exact advance_idle h
theorem idle_setBits (r : Reg) (m : Byte) : (setBits cfg r m).Keeps IdleKept := idlePath.bind (idle_regRead r) fun _ => idle_regWrite r _
theorem idle_clearBits (r : Reg) (m : Byte) : (clearBits cfg r m).Keeps IdleKept := idlePath.bind (idle_regRead r) fun _ => idle_regWrite r _
theorem idle_drawBudget : drawBudget.Keeps IdleKept := fun s h => by
  show s.nextBudget.2.pos = .idle
  unfold State.nextBudget; split <;> exact h

theorem idle_poll {β : Type} {kind : WaitKind} {check : Nat → Proc (Option β)} {od : Proc β} (hc : ∀ i, (check i).Keeps IdleKept)
    (ho : od.Keeps IdleKept) : (poll kind check od).Keeps IdleKept := fun s hs => by
  have h : (do match ← check 0 with
               | some b => pure b
               | none   => do let budget ← drawBudget; pollAgain kind Pos.idle check od budget 1 : Proc β).Keeps IdleKept := by
    refine idlePath.bind (hc 0) fun o => ?_
    cases o with
    | some b => exact idlePath.pure b
    | none => exact idlePath.bind idle_drawBudget fun b => keeps_pollAgain idlePath (fun _ => fun _ h => advance_idle h) (fun _ _ => rfl) hc ho b 1
  unfold poll
  rw [Proc.exec_bind_ok (Proc.exec_look _ _), hs]
  exact h s hs

theorem idle_crc (d : List Byte) : (crcTransaction cfg d).Keeps IdleKept :=
  idlePath.bind (idlePath.bind (idle_regWrite _ _) fun _ => idlePath.bind (idle_regWrite _ _) fun _ => idlePath.bind (idle_regWrite _ _)
    fun _ => idlePath.bind (idle_regWriteN _ _) fun _ => idle_regWrite _ _) fun _ => idlePath.bind
    (idle_poll (fun _ => idlePath.bind (idle_regRead _) fun _ => idlePath.pure _) (idlePath.raise _)) fun _ => idlePath.bind (idle_regRead _)
    fun _ => idlePath.bind (idle_regRead _) fun _ => idlePath.bind (idle_update fun _ => rfl) fun _ => idlePath.pure _

theorem idle_issueCommand (cmd : PiccCommand) : (issueCommand cfg cmd).Keeps IdleKept := by
  unfold issueCommand
  refine idlePath.bind (idle_regWrite _ _) fun _ => ?_
  cases cmd
  · exact idle_setBits _ _
  · exact idlePath.pure _

theorem idle_transceive (cmd : PiccCommand) (tx : List Byte) (tl al : BitVec 3) (want : Bool) :
    (transceive cfg .registers cmd tx tl al want).Keeps IdleKept := by
  rw [transceive_eq]
  refine idlePath.bind ?_ fun _ => ?_
  · exact idlePath.bind (idle_regWrite _ _) fun _ => idlePath.bind (idle_regWrite _ _) fun _ => idlePath.bind (idle_regWrite _ _) fun _ =>
      idlePath.bind (idle_regWrite _ _) fun _ => idlePath.bind (idle_regWriteN _ _) fun _ => idlePath.bind (idle_issueCommand _) fun _ =>
      idlePath.bind (idle_poll (fun _ => idlePath.bind (idle_regRead _) fun _ => idlePath.pure _) (idlePath.pure _)) fun _ =>
      idlePath.bind (idle_clearBits _ _) fun _ => idlePath.pure _
  · have hr : (readResponse cfg al).Keeps IdleKept := idlePath.bind (idle_regRead _) fun _ => idlePath.bind (idle_regReadN _ _ _) fun _ =>
      idlePath.bind (idle_regRead _) fun _ => idle_update fun _ => rfl
    exact Proc.keeps_ite (idlePath.pure _) (idlePath.bind (idle_regRead _) fun _ => Proc.keeps_ite (idlePath.pure _)
      (Proc.keeps_ite (idlePath.bind hr fun _ => idlePath.pure _) (idlePath.pure _)))

theorem idle_then {α β : Type} {p : Proc α} (h : p.Keeps IdleKept) (f : α → β) : (do let a ← p; pure (f a) : Proc β).Keeps IdleKept :=
  idlePath.bind h fun _ => idlePath.pure _

/-- An internal row run on an idle sequencer leaves it idle. -/
theorem row_idle {i : Instr} {p : Proc Value} (h : rowProc cfg .registers i = some p) : p.Keeps IdleKept := by
  have look {α : Type} {f : State → α} : (Proc.look f).Keeps IdleKept := idlePath.look f
  have recv : ∀ bs v, (receive bs v).Keeps IdleKept := fun _ _ => idle_update fun _ => rfl
  cases i
  case init | setAntennaState | isCardPresent | select | mifareAuth | mifareStopCrypto1 | mifareRead | mifareWrite | calculateCrc |
      cardType | getSak | makeStore | getCapacity | authenticate | readBlock | writeBlock | readBytes | writeBytes | antennaOn | antennaOff |
      endSession => cases h
  all_goals obtain rfl := Option.some.inj h
  case regWrite => exact idle_then (idle_regWrite _ _) _
  case regWriteN => exact idle_then (idle_regWriteN _ _) _
  case regRead => exact idle_then (idle_regRead _) _
  case regReadN => exact idle_then (idle_regReadN _ _ _) _
  case resetLine l => exact idle_then (p := resetLine l) (fun _ h => advance_idle h) _
  case pcdIdle | pcdCalcCrc | pcdSoftReset => exact idle_then (idle_regWrite _ _) _
  case pcdTransceive | pcdMfAuthent => exact idle_then (idle_issueCommand _) _
  case reqa | wupa | hlta | anticollCL1 | anticollCL2 | anticollCL3 | selectCL1 | selectCL2 | selectCL3 | mfAuthA | mfAuthB | mfRead |
      mfWrite | mfWriteData | transceivePicc => exact idle_then (idle_transceive _ _ _ _ _) _
  case atqa => exact idlePath.bind (recv _ _) fun _ => idlePath.bind look fun _ => idlePath.pure _
  case anticollResponse =>
    exact idlePath.bind (recv _ _) fun _ => idlePath.bind look fun _ => idlePath.bind (idlePath.bind look fun _ => Proc.keeps_ite
      (idlePath.raise _) (idle_update fun _ => rfl)) fun _ => idlePath.bind (idle_update fun _ => rfl) fun _ => idlePath.pure _
  case sak =>
    exact idlePath.bind (recv _ _) fun _ => idlePath.bind (idlePath.bind look fun _ => Proc.keeps_ite (idlePath.pure _) (idlePath.raise _))
      fun _ => idle_then (idlePath.bind look fun _ => idlePath.bind (idle_crc _) fun _ => Proc.keeps_ite (idlePath.pure _) (idlePath.raise _)) _
  case cascadeTag =>
    exact idlePath.bind (idle_update fun _ => rfl) fun _ => idlePath.bind look fun _ => idlePath.bind (idle_update fun _ => rfl) fun _ =>
      idlePath.pure _
  case mfReadResponse =>
    exact idlePath.bind (recv _ _) fun _ => idle_then (idlePath.bind look fun _ => Proc.keeps_ite (idlePath.bind (idle_crc _) fun _ =>
      Proc.keeps_ite (idlePath.pure _) (idlePath.raise _)) (idlePath.raise _)) _
  case mfAck =>
    exact idlePath.bind (recv _ _) fun _ => idle_then (idlePath.bind look fun _ => Proc.keeps_ite (idlePath.pure _) (idlePath.raise _)) _

/-! ### How an internal row ends -/

/-- A stop that is an error. -/
def IsError (x : Stop) : Prop := ∃ e, x = .raise e

theorem stops_then {α β : Type} {Q : Stop → Prop} {p : Proc α} (h : p.Stops Q) (f : α → β) : (do let a ← p; pure (f a) : Proc β).Stops Q :=
  stops_bind h fun _ => stops_pure _

/-- An internal row never faults. -/
theorem row_stops {i : Instr} {p : Proc Value} (h : rowProc cfg .registers i = some p) : p.Stops IsError := by
  have err : ∀ e, IsError (.raise e) := fun e => ⟨e, rfl⟩
  cases i
  case init | setAntennaState | isCardPresent | select | mifareAuth | mifareStopCrypto1 | mifareRead | mifareWrite | calculateCrc |
      cardType | getSak | makeStore | getCapacity | authenticate | readBlock | writeBlock | readBytes | writeBytes | antennaOn | antennaOff |
      endSession => cases h
  all_goals obtain rfl := Option.some.inj h
  case regWrite => exact stops_then (stops_regWrite _ _) _
  case regWriteN => exact stops_then (stops_regWriteN _ _) _
  case regRead => exact stops_then (stops_regRead _) _
  case regReadN => exact stops_then (stops_regReadN _ _ _) _
  case resetLine => exact stops_then (fun s e t h => by simp [resetLine] at h) _
  case pcdIdle | pcdCalcCrc | pcdSoftReset => exact stops_then (stops_regWrite _ _) _
  case pcdTransceive => exact stops_then (stops_bind (stops_regWrite _ _) fun _ => stops_setBits _ _) _
  case pcdMfAuthent => exact stops_then (stops_bind (stops_regWrite _ _) fun _ => stops_pure _) _
  case reqa | wupa | hlta | anticollCL1 | anticollCL2 | anticollCL3 | selectCL1 | selectCL2 | selectCL3 | mfAuthA | mfAuthB | mfRead |
      mfWrite | mfWriteData | transceivePicc => exact stops_then (stops_transceive _ _ _ _ _) _
  case atqa => exact stops_bind (stops_update _) fun _ => stops_bind (stops_look _) fun _ => stops_pure _
  case anticollResponse =>
    exact stops_bind (stops_update _) fun _ => stops_bind (stops_look _) fun _ => stops_bind (stops_bind (stops_look _) fun _ => stops_ite
      (stops_raise (err _)) (stops_update _)) fun _ => stops_bind (stops_update _) fun _ => stops_pure _
  case sak =>
    exact stops_bind (stops_update _) fun _ => stops_bind (stops_bind (stops_look _) fun _ => stops_ite (stops_pure _) (stops_raise (err _)))
      fun _ => stops_then (stops_bind (stops_look _) fun _ => stops_bind (stops_crc (err _) _) fun _ => stops_ite (stops_pure _) (stops_raise (err _))) _
  case cascadeTag =>
    exact stops_bind (stops_update _) fun _ => stops_bind (stops_look _) fun _ => stops_bind (stops_update _) fun _ => stops_pure _
  case mfReadResponse =>
    exact stops_bind (stops_update _) fun _ => stops_then (stops_bind (stops_look _) fun _ => stops_ite (stops_bind (stops_crc (err _) _) fun _ =>
      stops_ite (stops_pure _) (stops_raise (err _))) (stops_raise (err _))) _
  case mfAck =>
    exact stops_bind (stops_update _) fun _ => stops_then (stops_bind (stops_look _) fun _ => stops_ite (stops_pure _) (stops_raise (err _))) _

/-- A value of an internal row is no store. -/
theorem row_gives {i : Instr} {p : Proc Value} (h : rowProc cfg .registers i = some p) : p.Gives fun _ v => notStore v = true := by
  have two : ∀ {α : Type} {x : Proc α} {f : α → Proc Value}, (∀ a, (f a).Gives fun _ v => notStore v = true) →
      (x >>= f).Gives fun _ v => notStore v = true := fun hf s v t hx => by
    rw [Proc.exec_bind] at hx
    split at hx
    · exact hf _ _ _ _ hx
    · cases hx
  have one : ∀ {v : Value}, notStore v = true → (pure v : Proc Value).Gives fun _ v => notStore v = true := fun hv s v t hx => by
    obtain ⟨rfl, rfl⟩ : _ = v ∧ s = t := by simpa using hx
    exact hv
  cases i
  case init | setAntennaState | isCardPresent | select | mifareAuth | mifareStopCrypto1 | mifareRead | mifareWrite | calculateCrc |
      cardType | getSak | makeStore | getCapacity | authenticate | readBlock | writeBlock | readBytes | writeBytes | antennaOn | antennaOff |
      endSession => cases h
  all_goals obtain rfl := Option.some.inj h
  case sak => exact two fun _ => two fun _ => two fun _ => one rfl
  case atqa => exact two fun _ => two fun _ => one rfl
  case anticollResponse => exact two fun _ => two fun _ => two fun _ => two fun _ => one rfl
  case cascadeTag => exact two fun _ => two fun _ => two fun _ => one rfl
  case mfReadResponse | mfAck => exact two fun _ => two fun _ => one rfl
  all_goals exact two fun _ => one rfl

end Sys2Proof.Machine
end

