-- ==== Sys2Proof/Laws/Refusals.lean ====
section
/-! SUPPORT. The reason exec refuses a host call for is the one of rule R263's table, and a call whose operands have values runs. -/

namespace Sys2Proof.Machine

variable {cfg : Cfg} {s : State}

theorem staleRefusal_some {n : Name} {st : Store} (h : storeOf s n = some st) (m : RefuseReason) :
    staleRefusal s st = some m ↔ m = .staleSession ∧ stale s n := by
  have hs : stale s n ↔ ¬ (s.uidValid = true ∧ st.gen = s.gen) :=
    ⟨fun ⟨o, h1, h2⟩ => by rw [h] at h1; cases h1; exact h2, fun h2 => ⟨st, h, h2⟩⟩
  rw [hs]
  unfold staleRefusal
  by_cases hc : s.uidValid = true ∧ st.gen = s.gen
  · rw [if_pos (by simp [hc.1, hc.2])]
    exact ⟨(fun h => by cases h), fun h => absurd hc h.2⟩
  · rw [if_neg (by simpa using hc)]
    exact ⟨fun h => by cases h; exact ⟨rfl, hc⟩, fun h => by rw [h.1]⟩

theorem staleRefusal_none {n : Name} {st : Store} (h : storeOf s n = some st) : staleRefusal s st = none ↔ ¬ stale s n := by
  have := staleRefusal_some h .staleSession
  rcases hx : staleRefusal s st with _ | m
  · rw [hx] at this; exact ⟨(fun _ hs => by have := this.2 ⟨rfl, hs⟩; cases this), fun _ => rfl⟩
  · exact ⟨(fun h => by cases h), fun hs => absurd ((staleRefusal_some h m).1 hx).2 hs⟩

theorem offLimits_iff (cfg : Cfg) (a : Byte) : offLimits cfg a = true ↔ a ∈ cfg.forbidden ∨ 63 < a.toNat := by
  simp only [offLimits, forbidden, Bool.or_eq_true, decide_eq_true_eq, List.contains_iff_mem]
  exact ⟨fun h => h.symm, fun h => h.symm⟩

theorem blockRefusal_some {b : Arg Byte} {a : Byte} (h : byteOf s b = some a) (m : RefuseReason) :
    blockRefusal s.cfg a = some m ↔ m = .forbiddenBlock ∧ forbiddenOperand s b := by
  have hs : forbiddenOperand s b ↔ offLimits s.cfg a = true :=
    ⟨fun ⟨o, h1, h2⟩ => by rw [h] at h1; cases h1; exact (offLimits_iff _ _).2 h2, fun h2 => ⟨a, h, (offLimits_iff _ a).1 h2⟩⟩
  rw [hs]
  unfold blockRefusal
  by_cases hc : offLimits s.cfg a = true
  · rw [if_pos hc]; exact ⟨fun h => by cases h; exact ⟨rfl, hc⟩, fun h => by rw [h.1]⟩
  · rw [if_neg hc]; exact ⟨(fun h => by cases h), fun h => absurd h.2 hc⟩

theorem longerThan_iff {n : Nat} {d : Arg (List Byte)} {bs : List Byte} (h : bytesOf s d = some bs) : longerThan n s d ↔ n < bs.length :=
  ⟨fun ⟨o, h1, h2⟩ => by rw [h] at h1; cases h1; exact h2, fun h2 => ⟨bs, h, h2⟩⟩

theorem payloadRefusal_some {d : Arg (List Byte)} {bs : List Byte} (h : bytesOf s d = some bs) (m : RefuseReason) :
    payloadRefusal bs = some m ↔ m = .payloadTooLong ∧ longerThan 16 s d := by
  rw [longerThan_iff h]
  unfold payloadRefusal
  by_cases hc : Config.blockLen < bs.length
  · rw [if_pos hc]; exact ⟨fun h => by cases h; exact ⟨rfl, hc⟩, fun h => by rw [h.1]⟩
  · rw [if_neg hc]; exact ⟨(fun h => by cases h), fun h => absurd h.2 hc⟩

theorem payloadRefusal_none {d : Arg (List Byte)} {bs : List Byte} (h : bytesOf s d = some bs) :
    payloadRefusal bs = none ↔ ¬ longerThan 16 s d := by
  rcases hx : payloadRefusal bs with _ | m
  · exact ⟨(fun _ hs => by have := (payloadRefusal_some h .payloadTooLong).2 ⟨rfl, hs⟩; rw [hx] at this; cases this), fun _ => rfl⟩
  · exact ⟨(fun h => by cases h), fun hs => absurd ((payloadRefusal_some h m).1 hx).2 hs⟩

theorem or_some {a b : Option RefuseReason} {m : RefuseReason} : a.or b = some m ↔ a = some m ∨ (a = none ∧ b = some m) := by
  cases a <;> simp

/-- The operation's own reason, for a call whose operands have values. -/
theorem ownReason_some {i : Instr} {op : HostOp} {p : Proc Value} (h : callProc cfg .registers s i = some (op, p)) (m : RefuseReason) :
    ownReason s i = some m ↔ i.OwnRefusal s m := by
  cases i
  case mifareAuth k b =>
    show (if s.uidValid then none else some .noSession) = some m ↔ _
    cases hv : s.uidValid
    · exact ⟨fun h => by cases h; exact .noSessionAuth k b hv, fun h => by cases h; rfl⟩
    · exact ⟨fun h => by simp at h, fun h => by cases h with | noSessionAuth k b h => rw [hv] at h; cases h⟩
  case makeStore =>
    show (if s.uidValid then none else some .noSession) = some m ↔ _
    cases hv : s.uidValid
    · exact ⟨fun h => by cases h; exact .noSessionStore hv, fun h => by cases h; rfl⟩
    · exact ⟨fun h => by simp at h, fun h => by cases h with | noSessionStore h => rw [hv] at h; cases h⟩
  case mifareWrite b d =>
    obtain ⟨_, _, h'⟩ := Option.bind_eq_some_iff.1 h
    obtain ⟨bs, h2, _⟩ := Option.map_eq_some_iff.1 h'
    simp only [ownReason, h2, Option.bind_some]
    rw [payloadRefusal_some h2]
    exact ⟨fun ⟨h1, h2⟩ => h1 ▸ .longMifareWrite b d h2, fun h => by cases h with | longMifareWrite _ _ h => exact ⟨rfl, h⟩⟩
  case calculateCrc d =>
    obtain ⟨bs, h2, _⟩ := Option.map_eq_some_iff.1 h
    simp only [ownReason, h2, Option.bind_some]
    have hl := longerThan_iff (n := s.cfg.fifoSize) h2
    by_cases hc : s.cfg.fifoSize < bs.length
    · rw [if_pos hc]; exact ⟨fun h => by cases h; exact .longCalculateCrc d (hl.2 hc), fun h => by cases h; rfl⟩
    · rw [if_neg hc]; exact ⟨(fun h => by cases h), fun h => by cases h with | longCalculateCrc _ h => exact absurd (hl.1 h) hc⟩
  case authenticate st b =>
    obtain ⟨o, h1, h'⟩ := Option.bind_eq_some_iff.1 h
    obtain ⟨a, h2, _⟩ := Option.map_eq_some_iff.1 h'
    simp only [ownReason, h1, h2, Option.bind_some]
    rw [or_some, staleRefusal_some h1, staleRefusal_none h1, blockRefusal_some h2]
    refine ⟨?_, fun h => ?_⟩
    · rintro (⟨rfl, h⟩ | ⟨h3, rfl, h⟩)
      · exact .staleAuthenticate st b h
      · exact .forbiddenAuthenticate st b h3 h
    · cases h with
      | staleAuthenticate _ _ h => exact .inl ⟨rfl, h⟩
      | forbiddenAuthenticate _ _ h1 h2 => exact .inr ⟨h1, rfl, h2⟩
  case readBlock st b =>
    obtain ⟨o, h1, h'⟩ := Option.bind_eq_some_iff.1 h
    obtain ⟨a, h2, _⟩ := Option.map_eq_some_iff.1 h'
    simp only [ownReason, h1, h2, Option.bind_some]
    rw [or_some, staleRefusal_some h1, staleRefusal_none h1, blockRefusal_some h2]
    refine ⟨?_, fun h => ?_⟩
    · rintro (⟨rfl, h⟩ | ⟨h3, rfl, h⟩)
      · exact .staleReadBlock st b h
      · exact .forbiddenReadBlock st b h3 h
    · cases h with
      | staleReadBlock _ _ h => exact .inl ⟨rfl, h⟩
      | forbiddenReadBlock _ _ h1 h2 => exact .inr ⟨h1, rfl, h2⟩
  case writeBlock st b d =>
    obtain ⟨o, h1, h'⟩ := Option.bind_eq_some_iff.1 h
    obtain ⟨a, h2, h''⟩ := Option.bind_eq_some_iff.1 h'
    obtain ⟨bs, h3, _⟩ := Option.map_eq_some_iff.1 h''
    simp only [ownReason, h1, h2, h3, Option.bind_some]
    rw [or_some, or_some, Option.or_eq_none_iff, staleRefusal_some h1, staleRefusal_none h1, blockRefusal_some h2, payloadRefusal_some h3,
      payloadRefusal_none h3]
    refine ⟨?_, fun h => ?_⟩
    · rintro ((⟨rfl, h⟩ | ⟨h4, rfl, h⟩) | ⟨⟨h4, h5⟩, rfl, h⟩)
      · exact .staleWriteBlock st b d h
      · exact .longWriteBlock st b d h4 h
      · exact .forbiddenWriteBlock st b d h4 h5 h
    · cases h with
      | staleWriteBlock _ _ _ h => exact .inl (.inl ⟨rfl, h⟩)
      | longWriteBlock _ _ _ h1 h2 => exact .inl (.inr ⟨h1, rfl, h2⟩)
      | forbiddenWriteBlock _ _ _ h1 h2 h3 => exact .inr ⟨⟨h1, h2⟩, rfl, h3⟩
  case readBytes st =>
    obtain ⟨o, h1, _⟩ := Option.map_eq_some_iff.1 h
    simp only [ownReason, h1, Option.bind_some]
    rw [staleRefusal_some h1]
    exact ⟨fun ⟨h1, h2⟩ => h1 ▸ .staleReadBytes st h2, fun h => by cases h with | staleReadBytes _ h => exact ⟨rfl, h⟩⟩
  case writeBytes st d =>
    obtain ⟨o, h1, _⟩ := Option.bind_eq_some_iff.1 h
    simp only [ownReason, h1, Option.bind_some]
    rw [staleRefusal_some h1]
    exact ⟨fun ⟨h1, h2⟩ => h1 ▸ .staleWriteBytes st d h2, fun h => by cases h with | staleWriteBytes _ _ h => exact ⟨rfl, h⟩⟩
  all_goals exact ⟨(fun h => by cases h), fun h => by cases h⟩

theorem hostCall_of_call {i : Instr} {op : HostOp} {p : Proc Value} (h : callProc cfg .registers s i = some (op, p)) : i.hostCall = true := by
  cases i
  case init | setAntennaState | isCardPresent | select | mifareAuth | mifareStopCrypto1 | mifareRead | mifareWrite | calculateCrc |
      cardType | getSak | makeStore | getCapacity | authenticate | readBlock | writeBlock | readBytes | writeBytes | antennaOn | antennaOff |
      endSession => rfl
  all_goals cases h

/-- An internal row is no host call. -/
theorem hostCall_of_row {i : Instr} {p : Proc Value} (h : rowProc cfg .registers i = some p) : i.hostCall = false := by
  cases i
  case init | setAntennaState | isCardPresent | select | mifareAuth | mifareStopCrypto1 | mifareRead | mifareWrite | calculateCrc |
      cardType | getSak | makeStore | getCapacity | authenticate | readBlock | writeBlock | readBytes | writeBytes | antennaOn | antennaOff |
      endSession => cases h
  all_goals rfl

/-- The reason a call whose operands have values is refused for is the table's (R263). -/
theorem refusalOf_some {i : Instr} {op : HostOp} {p : Proc Value} (h : callProc cfg .registers s i = some (op, p)) (m : RefuseReason) :
    refusalOf s i.needsReady (ownReason s i) = some m ↔ i.Refusal s m := by
  have hh := hostCall_of_call h
  unfold refusalOf
  cases hb : s.busy
  · rw [if_neg (by simp)]
    by_cases hr : (i.needsReady && !s.ready) = true
    · rw [if_pos hr]
      simp only [Bool.and_eq_true, Bool.not_eq_true'] at hr
      refine ⟨fun h => ?_, fun h => ?_⟩
      · cases h; exact .notReady hh hb hr.1 hr.2
      · cases h with
        | busy _ h => rw [hb] at h; cases h
        | notReady => rfl
        | own _ _ h1 _ => rw [h1 hr.1] at hr; cases hr.2
    · rw [if_neg hr, ownReason_some h]
      simp only [Bool.and_eq_true, Bool.not_eq_true', not_and, Bool.not_eq_false] at hr
      refine ⟨fun h => .own _ hb hr h, fun h => ?_⟩
      cases h with
      | busy _ h => rw [hb] at h; cases h
      | notReady _ _ h1 h2 => rw [hr h1] at h2; cases h2
      | own _ _ _ h => exact h
  · rw [if_pos rfl]
    refine ⟨fun h => ?_, fun h => ?_⟩
    · cases h; exact .busy hh hb
    · cases h with
      | busy => rfl
      | notReady _ h => rw [hb] at h; cases h
      | own _ h => rw [hb] at h; cases h

theorem refusalOf_none_iff {i : Instr} {op : HostOp} {p : Proc Value} (h : callProc cfg .registers s i = some (op, p)) :
    refusalOf s i.needsReady (ownReason s i) = none ↔ ∀ m, ¬ i.Refusal s m := by
  rw [Option.eq_none_iff_forall_ne_some]
  exact ⟨fun hn m hm => hn m ((refusalOf_some h m).2 hm), fun hn m hm => hn m ((refusalOf_some h m).1 hm)⟩

/-- An instruction whose operands have values is an internal row or a host call (R109). -/
theorem row_or_call_of_callable {i : Instr} (h : i.callable s) :
    (∃ p, rowProc cfg .registers i = some p) ∨ ∃ op p, callProc cfg .registers s i = some (op, p) := by
  have some1 : ∀ {α : Type} {o : Option α} (f : α → HostOp × Proc Value), o.isSome = true → ∃ op p, o.map f = some (op, p) := fun f h => by
    obtain ⟨x, rfl⟩ := Option.isSome_iff_exists.1 h; exact ⟨_, _, rfl⟩
  cases i
  case setAntennaState | mifareAuth | mifareRead | calculateCrc | cardType | getSak | getCapacity | readBytes => exact .inr (some1 _ h)
  case mifareWrite b d =>
    obtain ⟨a, h1⟩ := Option.isSome_iff_exists.1 h.1
    obtain ⟨bs, h2⟩ := Option.isSome_iff_exists.1 h.2
    refine .inr ?_
    simp only [callProc, h1, h2, Option.bind_some, Option.map_some]
    exact ⟨_, _, rfl⟩
  case authenticate st b | readBlock st b =>
    obtain ⟨a, h1⟩ := Option.isSome_iff_exists.1 h.1
    obtain ⟨bs, h2⟩ := Option.isSome_iff_exists.1 h.2
    refine .inr ?_
    simp only [callProc, h1, h2, Option.bind_some, Option.map_some]
    exact ⟨_, _, rfl⟩
  case writeBytes st d =>
    obtain ⟨a, h1⟩ := Option.isSome_iff_exists.1 h.1
    obtain ⟨bs, h2⟩ := Option.isSome_iff_exists.1 h.2
    refine .inr ?_
    simp only [callProc, h1, h2, Option.bind_some, Option.map_some]
    exact ⟨_, _, rfl⟩
  case writeBlock st b d =>
    obtain ⟨o, h1⟩ := Option.isSome_iff_exists.1 h.1
    obtain ⟨a, h2⟩ := Option.isSome_iff_exists.1 h.2.1
    obtain ⟨bs, h3⟩ := Option.isSome_iff_exists.1 h.2.2
    refine .inr ?_
    simp only [callProc, h1, h2, h3, Option.bind_some, Option.map_some]
    exact ⟨_, _, rfl⟩
  case init | isCardPresent | select | mifareStopCrypto1 | makeStore | antennaOn | antennaOff | endSession => exact .inr ⟨_, _, rfl⟩
  all_goals exact .inl ⟨_, rfl⟩

/-! ### How a host call ends -/

theorem isError (e : Err) : IsError (.raise e) := ⟨e, rfl⟩

theorem err_raiseOn (o : XactOutcome) : (raiseOn o).Stops IsError := by
  cases o <;> first | exact stops_raise (isError _) | exact stops_pure _

theorem err_authBlock (key : Key) (a : Byte) : (authBlock cfg .registers key a).Stops IsError :=
  stops_bind (stops_look _) fun _ => stops_bind (stops_transceive _ _ _ _ _) err_raiseOn

theorem err_readCardBlock (a : Byte) : (readCardBlock cfg .registers a).Stops IsError :=
  stops_bind (stops_crc (isError _) _) fun _ => stops_bind (stops_transceive _ _ _ _ _) fun o => stops_bind (err_raiseOn o) fun _ =>
    stops_bind (stops_look _) fun _ => stops_ite (stops_bind (stops_crc (isError _) _) fun _ => stops_ite (stops_pure _)
      (stops_raise (isError _))) (stops_raise (isError _))

theorem err_writePhase (frame : List Byte) : (writePhase cfg .registers frame).Stops IsError :=
  stops_bind (stops_transceive _ _ _ _ _) fun o => stops_bind (err_raiseOn o) fun _ => stops_bind (stops_look _) fun _ =>
    stops_ite (stops_pure _) (stops_raise (isError _))

theorem err_writeCardBlock (a : Byte) (data : List Byte) : (writeCardBlock cfg .registers a data).Stops IsError :=
  stops_bind (stops_crc (isError _) _) fun _ => stops_bind (err_writePhase _) fun _ => stops_bind (stops_crc (isError _) _) fun _ =>
    err_writePhase _

theorem err_authSector (a : Byte) : (authSector cfg .registers a).Stops IsError :=
  stops_bind (stops_look _) fun _ => stops_ite (stops_pure _) (stops_bind (err_authBlock _ _) fun _ => stops_update _)

theorem err_readAll (head : Pos) (bs : List Byte) : (readAll cfg .registers head bs).Stops IsError := by
  induction bs with
  | nil => exact stops_pure _
  | cons b bs ih =>
    exact stops_bind (stops_jump _) fun _ => stops_ite ih (stops_bind (stops_bind (err_authSector b) fun _ => err_readCardBlock b) fun _ => stops_bind ih fun _ => stops_pure _)

theorem err_writeAll (head : Pos) (bs : List Byte) (chunks : List (List Byte)) : (writeAll cfg .registers head bs chunks).Stops IsError := by
  induction bs generalizing chunks with
  | nil =>
    cases chunks
    · exact stops_pure _
    · exact stops_raise (isError _)
  | cons b bs ih =>
    cases chunks with
    | nil => exact stops_pure _
    | cons c cs => exact stops_bind (stops_jump _) fun _ => stops_ite (ih _) (stops_bind (stops_bind (err_authSector b) fun _ => err_writeCardBlock b c) fun _ => ih _)

theorem err_typeOfSak (b : Byte) : (typeOfSak cfg b).Stops IsError := by
  unfold typeOfSak; split
  · exact stops_pure _
  · exact stops_raise (isError _)

/-- Every host call but select ends with a value or an error (R164, R251). -/
theorem call_stops {i : Instr} {op : HostOp} {p : Proc Value} (h : callProc cfg .registers s i = some (op, p)) (hi : i ≠ .select) : p.Stops IsError := by
  cases i
  case select => exact absurd rfl hi
  case init =>
    obtain ⟨rfl, rfl⟩ := Prod.mk.inj (Option.some.inj h)
    refine stops_then (fun s x t hx => ?_) _
    obtain ⟨u, _, h1 | h1⟩ := bringUp_ends s <;> rw [h1] at hx
    · cases hx; exact isError _
    · cases hx
  case antennaOn | antennaOff => obtain ⟨rfl, rfl⟩ := Prod.mk.inj (Option.some.inj h); exact stops_then (stops_antennaSet _) _
  case isCardPresent =>
    obtain ⟨rfl, rfl⟩ := Prod.mk.inj (Option.some.inj h)
    refine stops_then (stops_bind (stops_transceive _ _ _ _ _) fun o => ?_) _
    cases o
    · exact stops_bind (stops_look _) fun _ => stops_pure _
    all_goals exact stops_pure _
  case mifareStopCrypto1 | endSession => obtain ⟨rfl, rfl⟩ := Prod.mk.inj (Option.some.inj h); exact stops_then (stops_clearBits _ _) _
  case makeStore =>
    obtain ⟨rfl, rfl⟩ := Prod.mk.inj (Option.some.inj h)
    exact stops_then (stops_bind (stops_look _) fun b => stops_bind (err_typeOfSak b) fun _ => stops_ite (stops_look _)
      (stops_raise (isError _))) _
  case setAntennaState =>
    obtain ⟨_, _, h2⟩ := Option.map_eq_some_iff.1 h
    obtain ⟨rfl, rfl⟩ := Prod.mk.inj h2; exact stops_then (stops_antennaSet _) _
  case mifareAuth =>
    obtain ⟨_, _, h2⟩ := Option.map_eq_some_iff.1 h
    obtain ⟨rfl, rfl⟩ := Prod.mk.inj h2; exact stops_then (err_authBlock _ _) _
  case mifareRead =>
    obtain ⟨_, _, h2⟩ := Option.map_eq_some_iff.1 h
    obtain ⟨rfl, rfl⟩ := Prod.mk.inj h2; exact stops_then (err_readCardBlock _) _
  case cardType =>
    obtain ⟨_, _, h2⟩ := Option.map_eq_some_iff.1 h
    obtain ⟨rfl, rfl⟩ := Prod.mk.inj h2; exact stops_then (err_typeOfSak _) _
  case getSak | getCapacity =>
    obtain ⟨_, _, h2⟩ := Option.map_eq_some_iff.1 h
    obtain ⟨rfl, rfl⟩ := Prod.mk.inj h2; exact stops_pure _
  case calculateCrc =>
    obtain ⟨_, _, h2⟩ := Option.map_eq_some_iff.1 h
    obtain ⟨rfl, rfl⟩ := Prod.mk.inj h2; exact stops_bind (stops_crc (isError _) _) fun _ => stops_pure _
  case readBytes =>
    obtain ⟨_, _, h2⟩ := Option.map_eq_some_iff.1 h
    obtain ⟨rfl, rfl⟩ := Prod.mk.inj h2; exact stops_then (stops_bind (stops_look _) fun _ => err_readAll _ _) _
  case mifareWrite =>
    obtain ⟨_, _, h'⟩ := Option.bind_eq_some_iff.1 h
    obtain ⟨_, _, h2⟩ := Option.map_eq_some_iff.1 h'
    obtain ⟨rfl, rfl⟩ := Prod.mk.inj h2; exact stops_then (err_writeCardBlock _ _) _
  case authenticate =>
    obtain ⟨_, _, h'⟩ := Option.bind_eq_some_iff.1 h
    obtain ⟨_, _, h2⟩ := Option.map_eq_some_iff.1 h'
    obtain ⟨rfl, rfl⟩ := Prod.mk.inj h2; exact stops_then (err_authSector _) _
  case readBlock =>
    obtain ⟨_, _, h'⟩ := Option.bind_eq_some_iff.1 h
    obtain ⟨_, _, h2⟩ := Option.map_eq_some_iff.1 h'
    obtain ⟨rfl, rfl⟩ := Prod.mk.inj h2; exact stops_then (stops_bind (err_authSector _) fun _ => err_readCardBlock _) _
  case writeBytes =>
    obtain ⟨_, _, h'⟩ := Option.bind_eq_some_iff.1 h
    obtain ⟨_, _, h2⟩ := Option.map_eq_some_iff.1 h'
    obtain ⟨rfl, rfl⟩ := Prod.mk.inj h2; exact stops_then (stops_ite (stops_raise (isError _)) (stops_bind (stops_look _) fun _ => err_writeAll _ _ _)) _
  case writeBlock =>
    obtain ⟨_, _, h'⟩ := Option.bind_eq_some_iff.1 h
    obtain ⟨_, _, h''⟩ := Option.bind_eq_some_iff.1 h'
    obtain ⟨_, _, h2⟩ := Option.map_eq_some_iff.1 h''
    obtain ⟨rfl, rfl⟩ := Prod.mk.inj h2; exact stops_then (stops_bind (err_authSector _) fun _ => err_writeCardBlock _ _) _
  all_goals cases h

/-- What every run of a host call leaves alone. -/
structure Kept (s t : State) : Prop where
  faultMark  : t.faultMark = s.faultMark
  refuseMark : t.refuseMark = s.refuseMark
  cfg        : t.cfg = s.cfg
  pending    : t.pending = s.pending
  bindings   : t.bindings = s.bindings
  result     : t.result = s.result

theorem hostMoves_kept {s t : State} (h : HostMoves cfg s t) : Kept s t := by
  obtain ⟨_, _, _, _, _, _, _, _, rfl⟩ := h; exact ⟨rfl, rfl, rfl, rfl, rfl, rfl⟩

theorem call_kept {i : Instr} {s : State} {op : HostOp} {p : Proc Value} (h : callProc cfg .registers s i = some (op, p)) (s0 : State) : Kept s0 (p.exec s0).2 := by
  by_cases hi : i = .init
  · subst hi; obtain ⟨rfl, rfl⟩ := Prod.mk.inj (Option.some.inj h)
    obtain ⟨t, hm, hx | hx⟩ := bringUp_ends s0
    · rw [Proc.exec_bind_error hx]; have := hostMoves_kept hm; exact ⟨this.1, this.2, this.3, this.4, this.5, this.6⟩
    · rw [Proc.exec_bind_ok hx]; have := hostMoves_kept hm; exact ⟨this.1, this.2, this.3, this.4, this.5, this.6⟩
  by_cases hs : i = .select
  · subst hs; obtain ⟨rfl, rfl⟩ := Prod.mk.inj (Option.some.inj h)
    obtain ⟨t, ⟨_, _, _, _, _, _, hm⟩, _, ⟨e, _, hx⟩ | ⟨sak, _, hx⟩⟩ := selectCard_ends s0
    · rw [hx]; have := hostMoves_kept hm; exact ⟨this.1, this.2, this.3, this.4, this.5, this.6⟩
    · rw [hx]; have := hostMoves_kept hm; exact ⟨this.1, this.2, this.3, this.4, this.5, this.6⟩
  by_cases ha : storeAccess i = true
  · obtain ⟨c, _, hm⟩ := call_store h ha s0
    have := hostMoves_kept hm; exact ⟨this.1, this.2, this.3, this.4, this.5, this.6⟩
  · exact hostMoves_kept (call_host h hi hs (by simpa using ha) s0)

/-- A host call's next state: a refusal, or the end of its procedure. -/
theorem hostCall_next {i : Instr} {s t : State} (hi : i.hostCall = true) (h : exec i s = .next t) :
    s.faultMark = none ∧ ∃ op p, callProc s.cfg .registers s i = some (op, p) ∧
      ((∃ m, i.Refusal s m ∧ t = s.refuse m) ∨ ((∀ m, ¬ i.Refusal s m) ∧ t = finishCall (p.exec (s.startCall op)))) := by
  obtain ⟨hf, ⟨p, hp, rfl⟩ | ⟨op, p, hp, ⟨m, hm, rfl⟩ | ⟨hn, rfl⟩⟩⟩ := exec_next h
  · rw [hostCall_of_row hp] at hi; cases hi
  · exact ⟨hf, op, p, hp, .inl ⟨m, (refusalOf_some hp m).1 hm, rfl⟩⟩
  · exact ⟨hf, op, p, hp, .inr ⟨(refusalOf_none_iff hp).1 hn, rfl⟩⟩

/-- The end of a call sets the call's own fields only. -/
theorem finish_fields {x : Except Stop Value} {u : State} : ∃ b q r f, finishCall (x, u) = { u with busy := b, pos := q, result := r, faultMark := f } := by
  rcases x with (e | r) | v
  · exact ⟨_, _, _, u.faultMark, rfl⟩
  · exact ⟨u.busy, u.pos, u.result, _, rfl⟩
  · exact ⟨_, _, _, u.faultMark, rfl⟩

/-- How the procedure of a host call ends and what it changes, whatever the chip answers. -/
theorem call_state {i : Instr} {s : State} {op : HostOp} {p : Proc Value} (h : callProc cfg .registers s i = some (op, p)) (s0 : State) :
    (i = .init ∧ ∃ t, HostMoves cfg { s0.endSessionForInit with resetLine := .high } t ∧
      ((p.exec s0) = (.error (.raise (.timeout .reset)), t) ∨ (p.exec s0) = (.ok .unit, { t with ready := true }))) ∨
    (i = .select ∧ ∃ t, SelMoves cfg s0.endSessionForSelect t ∧ t.iter ≤ 32 ∧ ((∃ e, SelectStop e ∧ p.exec s0 = (.error e, t)) ∨
        ∃ sak, cascadeBit sak = false ∧ p.exec s0 = (.ok (.selected (t.completeSelect sak).uidBytes sak), t.completeSelect sak))) ∨
    (i ≠ .init ∧ i ≠ .select ∧ ∃ c, (c = s0.lastAuthSector ∨ (c.isSome = true ∧ storeAccess i = true)) ∧
      HostMoves cfg { s0 with lastAuthSector := c } (p.exec s0).2) := by
  by_cases hi1 : i = .init
  · subst hi1; obtain ⟨rfl, rfl⟩ := Prod.mk.inj (Option.some.inj h)
    obtain ⟨t, hm, hx | hx⟩ := bringUp_ends s0
    · exact .inl ⟨rfl, t, hm, .inl (Proc.exec_bind_error hx)⟩
    · exact .inl ⟨rfl, t, hm, .inr (Proc.exec_bind_ok hx)⟩
  by_cases hs : i = .select
  · subst hs; obtain ⟨rfl, rfl⟩ := Prod.mk.inj (Option.some.inj h)
    exact .inr (.inl ⟨rfl, selectCard_ends s0⟩)
  refine .inr (.inr ⟨hi1, hs, ?_⟩)
  by_cases ha : storeAccess i = true
  · obtain ⟨c, hc, hm⟩ := call_store h ha s0; exact ⟨c, hc.imp_right fun h => ⟨h, ha⟩, hm⟩
  · exact ⟨s0.lastAuthSector, .inl rfl, call_host h hi1 hs (by simpa using ha) s0⟩

end Sys2Proof.Machine
end

