-- ==== Sys2Proof/Laws/Select.lean ====
section
/-! SUPPORT. What select does with a conforming script (R146 to R168), level by level: collisions resolved to one card, or one card from
the start. -/

namespace Sys2Proof.Machine

variable {cfg : Cfg} {s : State} {r : List Answer}

/-- A level's UID field byte by byte. -/
theorem field_cases (f : Vector Byte 4) : ∃ a b c d, f = #v[a, b, c, d] :=
  ⟨f[0], f[1], f[2], f[3], by ext i hi; rcases i with _ | _ | _ | _ | i <;> first | rfl | omega⟩

/-- The scratch buffer at the entry of a level. -/
theorem enterLevel_buf (l : CascadeLevel) : (s.enterLevel cfg l).selBuf = #v[cfg.sel l, 0, 0, 0, 0, 0, 0, 0, 0] := rfl

theorem knows_entry (l : CascadeLevel) (f : Vector Byte 4) : Knows cfg l f 0 (s.enterLevel cfg l).selBuf :=
  ⟨rfl, fun p h1 h2 => absurd h1 (by omega)⟩

/-- A state in the middle of select: its working registers, the last response and CRC, and the UID bytes so far. -/
def State.sel (s : State) (l : CascadeLevel) (buf : Vector Byte 9) (k iter : Nat) (rsp : PiccResponse) (crc : Byte × Byte)
    (uid : Vector Byte 10) : State :=
  { s with level := l, selBuf := buf, k := k, iter := iter, rsp := rsp, crcOut := crc, uid := uid }

theorem State.sel_self (s : State) : s.sel s.level s.selBuf s.k s.iter s.rsp s.crcOut s.uid = s := rfl

/-! ### UID bits (R49 (d), R66) -/

/-- Cards that answer a frame agree on its known bits, so the first bit in which they differ is behind those. -/
theorem firstDifference_gt {cards : List (Vector Byte 4)} {known : List Byte} {k p : Nat}
    (h : FirstDifference (cards.filter (matchesBits known k)) p) : k < p := by
  obtain ⟨h1, -, ⟨u, hu, w, hw, hd⟩, -⟩ := h
  by_contra hc
  have m : ∀ v ∈ cards.filter (matchesBits known k), fieldBitOf v p = (known.getD ((p - 1) / 8) 0).getLsbD ((p - 1) % 8) := fun v hv => by
    have := (List.mem_filter.1 hv).2
    simp only [matchesBits, List.all_eq_true, List.mem_range, beq_iff_eq] at this
    have := this (p - 1) (by omega)
    rwa [show p - 1 + 1 = p by omega] at this
  exact hd ((m u hu).trans (m w hw).symm)

section

variable {l : CascadeLevel} {iter : Nat} {rsp : PiccResponse} {crc : Byte × Byte} {uid : Vector Byte 10}

/-! ### Anti-collision passes (R150 to R156) -/

/-- The anti-collision frame goes out, NVB written first (R150). -/
theorem sends_knownBits {buf : Vector Byte 9} {k : Nat} {reply : Reply} {x : List Answer}
    (hx : XactAnswers cfg .transceive true reply x) :
    (sendKnownBits cfg .registers k).Sends cfg (s.sel l buf k iter rsp crc uid) (x ++ r) (.ok reply.outcome)
      (s.sel l (buf.setIfInBounds 1 (nvb (fieldIndex k) (k % 8))) k iter (reply.rspAfter true (tailBits k) rsp) crc uid)
      [(bitFraming (tailBits k) (tailBits k), slice (buf.setIfInBounds 1 (nvb (fieldIndex k) (k % 8))) 0 (usedBytes k))] r := by
  unfold sendKnownBits
  refine Proc.Sends.bind (f1 := []) (f2 := [_]) (a := ()) (u := s.sel l (buf.setIfInBounds 1 (nvb (fieldIndex k) (k % 8))) k iter rsp crc uid)
    (sends_update fun _ _ _ => rfl) (Proc.Sends.bind (f1 := []) (f2 := [_]) (sends_look fun _ _ _ => rfl)
    (sends_transceive (s := s.sel l (buf.setIfInBounds 1 (nvb (fieldIndex k) (k % 8))) k iter rsp crc uid) _ _ _ hx))

/-- A response of a level put behind the known bits, where it fits (R151). -/
theorem sends_merge {buf : Vector Byte 9} {k : Nat} {bytes : List Byte} {vb : BitVec 3} (hl : bytes.length ≤ 7 - k / 8) :
    (merge (fieldIndex k) (tailBits k)).Sends cfg (s.sel l buf k iter ⟨alignFirst (tailBits k) bytes, vb⟩ crc uid) r (.ok ())
      (s.sel l (mergeBytes buf (fieldIndex k) (tailBits k) bytes) k iter ⟨alignFirst (tailBits k) bytes, vb⟩ crc uid) [] r := by
  unfold merge
  refine Proc.Sends.bind (f1 := []) (f2 := []) (a := ⟨alignFirst (tailBits k) bytes, vb⟩) (sends_look fun _ _ _ => rfl) ?_
  rw [if_neg (by simp [fieldIndex, PiccResponse.n]; omega)]
  exact sends_update fun _ _ _ => by rw [mergeBytes_alignFirst]; rfl

/-- A response that does not fit ends the pass (R151). -/
theorem sends_merge_tooLong {buf : Vector Byte 9} {k : Nat} {rsp : PiccResponse} (hl : 9 - fieldIndex k < rsp.n) :
    (merge (fieldIndex k) (tailBits k)).Sends cfg (s.sel l buf k iter rsp crc uid) r (.error (.raise (.communication .responseTooLong)))
      (s.sel l buf k iter rsp crc uid) [] r := by
  unfold merge
  refine Proc.Sends.bind (f1 := []) (f2 := []) (a := rsp) (sends_look fun _ _ _ => rfl) ?_
  rw [if_pos hl]
  exact sends_raise _

/-- The SEL byte and the known bits stay when a response is merged, and the bits it gives of the field become known (R151). -/
theorem knows_merge {f : Vector Byte 4} {buf : Vector Byte 9} {k p : Nat} {bytes : List Byte} (hb : Knows cfg l f k buf)
    (hl : bytes.length ≤ 7 - k / 8) (hp : p ≤ 32)
    (h : ∀ q, k < q → q ≤ p → (q - 1) / 8 < k / 8 + bytes.length ∧
      (bytes.getD ((q - 1) / 8 - k / 8) 0).getLsbD ((q - 1) % 8) = fieldBitOf f q) :
    Knows cfg l f p (mergeBytes (buf.setIfInBounds 1 (nvb (fieldIndex k) (k % 8))) (fieldIndex k) (tailBits k) bytes) := by
  refine ⟨?_, fun q h1 h2 => ?_⟩
  · rw [byteAt_mergeBytes _ _ _ _ (by unfold fieldIndex; omega), byteAt_set, if_neg (by omega), hb.1]
  · rw [show fieldIndex k = 2 + k / 8 from rfl, fieldBit_mergeBytes _ _ _ hl h1 (by omega)]
    by_cases hq : q ≤ k
    · rw [if_pos (Or.inl hq), fieldBit_eq, byteAt_set, if_neg (by omega), ← fieldBit_eq, hb.2 q h1 hq]
    · have := h q (by omega) h2
      rw [if_neg (by omega), this.2]

/-- A pass that one card answers whole: all 32 bits are known (R150 to R152). -/
theorem sends_cleanAnticoll {f : Vector Byte 4} {buf : Vector Byte 9} {k : Nat} {bytes : List Byte} {x : List Answer}
    (hb : Knows cfg l f k buf) (hk : k ≤ 31)
    (he : alignFirst (tailBits k) bytes = alignFirst (tailBits k) ((f.toList ++ [bccOf f]).drop (k / 8)))
    (hx : XactAnswers cfg .transceive true (.reply bytes 0 none) x) :
    ∃ frame buf' rsp', KnownFrame cfg l f k frame ∧ Knows cfg l f 32 buf' ∧ ∀ r,
      (anticollPass cfg .registers k).Sends cfg (s.sel l buf k iter rsp crc uid) (x ++ r) (.ok ())
        (s.sel l buf' 32 iter rsp' crc uid) [frame] r := by
  have hlen : bytes.length = 5 - k / 8 := by
    have := congrArg List.length he
    simpa using this
  have hmerge := mergeBytes_alignFirst (buf.setIfInBounds 1 (nvb (fieldIndex k) (k % 8))) (fieldIndex k) (tailBits k)
  refine ⟨_, _, _, hb.frame hk, ?_, fun r => Proc.Sends.bind (f2 := []) (sends_knownBits hx) (Proc.Sends.bind (a := ()) (f1 := [])
    (f2 := []) (sends_merge (by omega)) (sends_update fun _ _ _ => rfl))⟩
  rw [← hmerge, he, hmerge]
  refine knows_merge hb (by simp; omega) (by omega) fun q h1 h2 => ⟨by simp; omega, ?_⟩
  rw [fieldBitOf_eq]
  congr 1
  simp only [List.getD, List.getElem?_drop, byteAt]
  rw [show k / 8 + ((q - 1) / 8 - k / 8) = (q - 1) / 8 by omega, List.getElem?_append_left (by simp; omega)]

/-- A pass in which cards collide at a bit behind the known ones: that bit is set and is the last known one (R153 to R156). -/
theorem sends_collidedAnticoll {cards : List (Vector Byte 4)} {f : Vector Byte 4} {buf : Vector Byte 9} {k p : Nat} {bytes : List Byte}
    {vb : BitVec 3} {c : Byte} {x : List Answer} (hb : Knows cfg l f k buf) (hk : k ≤ 31) (hl : bytes.length ≤ 7 - k / 8)
    (hin : (p - 1) / 8 < k / 8 + bytes.length)
    (hr : ∀ q, k < q → q < p → (bytes.getD ((q - 1) / 8 - k / 8) 0).getLsbD ((q - 1) % 8) = fieldBitOf f q)
    (hf : fieldBitOf f p = true) (hx : XactAnswers cfg .transceive true (.reply bytes vb (some p)) x)
    (hc : CollAnswer cfg cards f.toList k p c) :
    ∃ frame buf' rsp', KnownFrame cfg l f k frame ∧ Knows cfg l f p buf' ∧ ∀ r,
      (anticollPass cfg .registers k).Sends cfg (s.sel l buf k iter rsp crc uid) (x ++ .value c :: r) (.ok ())
        (s.sel l buf' p iter rsp' crc uid) [frame] r := by
  obtain ⟨hv, hp, hd⟩ := hc
  have hkp := firstDifference_gt hd
  have h32 := hd.2.1
  refine ⟨_, setFieldBit (mergeBytes (buf.setIfInBounds 1 (nvb (fieldIndex k) (k % 8))) (fieldIndex k) (tailBits k) bytes) p,
    ⟨alignFirst (tailBits k) bytes, vb⟩, hb.frame hk, ?_, fun r => Proc.Sends.bind (f2 := []) (sends_knownBits hx)
    (Proc.Sends.bind (a := ()) (f1 := []) (f2 := []) (sends_merge hl) (Proc.Sends.bind (f1 := []) (f2 := []) (r1 := r) (a := c)
    ((goes_regRead .coll c).sends_nothing (by simp)) ?_))⟩
  · have hm := knows_merge (p := p - 1) hb hl (by omega) fun q h1 h2 => ⟨by omega, hr q h1 (by omega)⟩
    refine ⟨by rw [byteAt_setFieldBit _ (by omega), hm.1], fun q h1 h2 => ?_⟩
    rw [fieldBit_setFieldBit _ (by omega) ⟨h1, by omega⟩]
    by_cases hq : q = p
    · subst hq; simp [hf]
    · rw [hm.2 q h1 (by omega)]; simp [hq]
  · rw [if_neg (by simp [hv])]
    refine Proc.Sends.bind (f1 := []) (f2 := []) (a := k) (sends_look fun _ _ _ => rfl) ?_
    rw [hp, if_neg (by omega)]
    exact sends_update fun _ _ _ => rfl

/-- The anti-collision passes of a level, in front of the passes that are left (R149 to R156). -/
theorem sends_anticoll {cards : List (Vector Byte 4)} {f : Vector Byte 4} {k : Nat} {ks : List Nat} {answers : List Answer}
    (h : AnticollAnswers cfg cards f k ks answers) : ∀ {buf : Vector Byte 9} {iter : Nat} {rsp : PiccResponse}, Knows cfg l f k buf →
    ∃ frames buf' rsp', List.Forall₂ (KnownFrame cfg l f) ks frames ∧ Knows cfg l f 32 buf' ∧
      ∀ (head : Pos) (m : Nat) {x : Except Stop Unit} {v : State} {fr : List (Byte × List Byte)} {r r' : List Answer},
        (levelLoop cfg .registers head m).Sends cfg (s.sel l buf' 32 (iter + ks.length) rsp' crc uid) r x v fr r' →
        (levelLoop cfg .registers head (m + ks.length)).Sends cfg (s.sel l buf k iter rsp crc uid) (answers ++ r) x v (frames ++ fr) r' := by
  induction h with
  | known => exact fun {buf iter rsp} hb => ⟨[], buf, rsp, .nil, hb, fun head m {_ _ _ _ _} hn => hn⟩
  | clean k bytes y hk he hy =>
    intro buf iter rsp hb
    obtain ⟨frame, buf', rsp', hf, hb', hp⟩ := sends_cleanAnticoll (s := s) (iter := iter + 1) (rsp := rsp) (crc := crc) (uid := uid)
      hb hk he hy
    refine ⟨[frame], buf', rsp', .cons hf .nil, hb', fun head m {x v fr r r'} hn => ?_⟩
    refine Proc.Sends.bind (f1 := []) (sends_jump _) (Proc.Sends.bind (a := false) (f1 := [frame]) (r1 := r)
      (u := s.sel l buf' 32 (iter + 1) rsp' crc uid) ?_ hn)
    refine Proc.Sends.bind (f1 := []) (a := ()) (u := s.sel l buf k (iter + 1) rsp crc uid) (sends_update fun _ _ _ => rfl)
      (Proc.Sends.bind (f1 := []) (a := k) (sends_look fun _ _ _ => rfl) ?_)
    rw [if_neg (by omega)]
    exact Proc.Sends.bind (f2 := []) (hp r) (sends_pure _)
  | collided k p ks bytes vb c y more hk hl hin hr hf hy hc _ ih =>
    intro buf iter rsp hb
    obtain ⟨frame, buf', rsp', hfr, hb', hp⟩ := sends_collidedAnticoll (s := s) (iter := iter + 1) (rsp := rsp) (crc := crc)
      (uid := uid) hb hk hl hin hr hf hy hc
    obtain ⟨frames, buf2, rsp2, hfs, hb2, hs⟩ := ih (rsp := rsp') (iter := iter + 1) hb'
    refine ⟨frame :: frames, buf2, rsp2, .cons hfr hfs, hb2, fun head m {x v fr r r'} hn => ?_⟩
    rw [List.append_assoc, List.cons_append]
    refine Proc.Sends.bind (f1 := []) (sends_jump _) (Proc.Sends.bind (a := false) (f1 := [frame]) (r1 := more ++ r)
      (u := s.sel l buf' p (iter + 1) rsp' crc uid) ?_ (hs head m ?_))
    · refine Proc.Sends.bind (f1 := []) (a := ()) (u := s.sel l buf k (iter + 1) rsp crc uid) (sends_update fun _ _ _ => rfl)
        (Proc.Sends.bind (f1 := []) (a := k) (sends_look fun _ _ _ => rfl) ?_)
      rw [if_neg (by omega)]
      exact Proc.Sends.bind (f2 := []) (hp _) (sends_pure _)
    · rwa [List.length_cons, show iter + (ks.length + 1) = iter + 1 + ks.length by omega] at hn

/-! ### SELECT (R157, R158) -/

/-- The buffer of a level once its SELECT frame is built (R157). -/
def selectBuf (cfg : Cfg) (l : CascadeLevel) (a b c d lo hi : Byte) : Vector Byte 9 := #v[cfg.sel l, 0x70, a, b, c, d, bcc a b c d, lo, hi]

/-- The bytes of a SELECT frame its CRC is computed over (R97). -/
def selectBody (cfg : Cfg) (l : CascadeLevel) (a b c d : Byte) : List Byte := [cfg.sel l, 0x70, a, b, c, d, bcc a b c d]

/-- The buffer with the SELECT frame and its CRC_A in it. -/
abbrev selectedBuf (cfg : Cfg) (l : CascadeLevel) (a b c d : Byte) : Vector Byte 9 :=
  selectBuf cfg l a b c d (crcLow (selectBody cfg l a b c d)) (crcHigh (selectBody cfg l a b c d))

/-- The CRC_A of a SELECT frame. -/
abbrev selectCrc (cfg : Cfg) (l : CascadeLevel) (a b c d : Byte) : Byte × Byte :=
  (crcLow (selectBody cfg l a b c d), crcHigh (selectBody cfg l a b c d))

/-- The SELECT frame. -/
abbrev selectFrame (cfg : Cfg) (l : CascadeLevel) (a b c d : Byte) : Byte × List Byte :=
  (0x00, selectBody cfg l a b c d ++ crcBytes (selectBody cfg l a b c d))

/-- The response of a SAK with its CRC_A. -/
abbrev sakRsp (sak : Byte) : PiccResponse := ⟨[sak, crcLow [sak], crcHigh [sak]], 0⟩

/-- The SELECT frame goes out with its CRC_A (R157), whatever its bytes held behind the UID field. -/
theorem sends_selectFrame (a b c d n p q t : Byte) {reply : Reply} {c1 y : List Answer} (h1 : CrcAnswers cfg (selectBody cfg l a b c d) c1)
    (hy : XactAnswers cfg .transceive true reply y) :
    (sendSelectFromBuffer cfg .registers).Sends cfg (s.sel l #v[cfg.sel l, n, a, b, c, d, p, q, t] 32 iter rsp crc uid) (c1 ++ (y ++ r))
      (.ok reply.outcome) (s.sel l (selectedBuf cfg l a b c d) 32 iter (reply.rspAfter true 0 rsp) (selectCrc cfg l a b c d) uid)
      [selectFrame cfg l a b c d] r := by
  unfold sendSelectFromBuffer
  refine Proc.Sends.bind (f1 := []) (f2 := [_]) (a := ()) (u := s.sel l (selectBuf cfg l a b c d q t) 32 iter rsp crc uid)
    (sends_update fun _ _ _ => rfl) ?_
  refine Proc.Sends.bind (f1 := []) (f2 := [_]) (a := selectBody cfg l a b c d) (sends_look fun _ _ _ => rfl) ?_
  refine Proc.Sends.bind (f1 := []) (f2 := [_]) (sends_crc _ h1) ?_
  refine Proc.Sends.bind (f1 := []) (f2 := [_]) (a := ()) (sends_update
    (u := s.sel l (selectedBuf cfg l a b c d) 32 iter rsp (selectCrc cfg l a b c d) uid) fun _ _ _ => rfl) ?_
  refine Proc.Sends.bind (f1 := []) (f2 := [_]) (a := (selectFrame cfg l a b c d).2) (sends_look fun _ _ _ => rfl) ?_
  exact sends_transceive (selectFrame cfg l a b c d).2 0 0 hy

/-- The SELECT pass, answered by the SAK: the level is complete (R157, R158). -/
theorem sends_cleanSelect (a b c d n p q t sak : Byte) {c1 y : List Answer} (h1 : CrcAnswers cfg (selectBody cfg l a b c d) c1)
    (hy : XactAnswers cfg .transceive true (.reply [sak, crcLow [sak], crcHigh [sak]] 0 none) y) :
    (selectPass cfg .registers).Sends cfg (s.sel l #v[cfg.sel l, n, a, b, c, d, p, q, t] 32 iter rsp crc uid) (c1 ++ (y ++ r)) (.ok true)
      (s.sel l (selectedBuf cfg l a b c d) 32 iter (sakRsp sak) (selectCrc cfg l a b c d) uid) [selectFrame cfg l a b c d] r := by
  unfold selectPass
  refine Proc.Sends.bind (f2 := []) (sends_selectFrame a b c d n p q t h1 hy) ?_
  refine Proc.Sends.bind (a := ()) (f1 := []) (f2 := []) ?_ (sends_pure _)
  unfold checkSakShape
  refine Proc.Sends.bind (f1 := []) (f2 := []) (a := sakRsp sak) (sends_look fun _ _ _ => by simp [State.did, State.sel, Reply.rspAfter]) ?_
  rw [if_pos (by simp [sakShape, PiccResponse.n])]
  simp only [Reply.rspAfter, if_true, show (0 : BitVec 3) = 0#3 from rfl, alignFirst_zero]
  exact sends_pure ()

/-! ### The end of a level (R161 to R167) -/

/-- The bytes of a level that go into the UID (R163). -/
def contribution (l : CascadeLevel) (a b c d : Byte) : List Byte := if l ≠ .cl3 ∧ a = 0x88 then [b, c, d] else [a, b, c, d]

/-- The state after a level in `iter` passes: what later levels and completion see of it. -/
def State.levelDone (s : State) (cfg : Cfg) (l : CascadeLevel) (f : Vector Byte 4) (sak : Byte) (iter : Nat) : State :=
  s.sel l (selectedBuf cfg l f[0] f[1] f[2] f[3]) 32 iter (sakRsp sak) (crcLow [sak], crcHigh [sak])
    (writeAt s.uid l.offset (contribution l f[0] f[1] f[2] f[3]))

/-- How a level with the SAK's CRC right ends: at the cascade bit of CL3, at a tag that disagrees with the cascade bit, else well
(R164, R167). -/
def levelEnd (l : CascadeLevel) (f : Vector Byte 4) (sak : Byte) : Except Stop Byte :=
  if cascadeBit sak && l == .cl3 then .error (.raise (.protocolFailure .cascadeBitAtCL3))
  else if (decide (l ≠ .cl3) && f[0] == 0x88) != cascadeBit sak then .error (.unmodelled .cascadeTagMismatch)
  else .ok sak

theorem levelEnd_ok {f : Vector Byte 4} {sak : Byte} (h : cascadeBit sak = (decide (l ≠ .cl3) && f[0] == 0x88)) :
    levelEnd l f sak = .ok sak := by
  have h1 : ¬ (cascadeBit sak && l == .cl3) = true := by rw [h]; cases l <;> simp
  rw [levelEnd, if_neg h1, if_neg (by simp [h])]

theorem sends_finishLevel (f : Vector Byte 4) (sak : Byte) {z : List Answer} {crc : Byte × Byte} (hz : CrcAnswers cfg [sak] z) :
    (finishLevel cfg).Sends cfg (s.sel l (selectedBuf cfg l f[0] f[1] f[2] f[3]) 32 iter (sakRsp sak) crc s.uid) (z ++ r)
      (levelEnd l f sak) (s.levelDone cfg l f sak iter) [] r := by
  obtain ⟨a, b, c, d, rfl⟩ := field_cases f
  have htag : ∀ (t : State), t.level = l → t.selBuf = selectedBuf cfg l a b c d →
      t.hasCascadeTag = (decide (l ≠ .cl3) && a == 0x88) := by
    intro t h1 h2; simp only [State.hasCascadeTag, h1, h2]; cases l <;> rfl
  unfold finishLevel
  refine Proc.Sends.bind (f1 := []) (f2 := []) (a := sak) (r1 := r)
    (u := s.sel l (selectedBuf cfg l a b c d) 32 iter (sakRsp sak) (crcLow [sak], crcHigh [sak]) s.uid) ?_ ?_
  · unfold checkSakCrc
    refine Proc.Sends.bind (f1 := []) (f2 := []) (a := sakRsp sak) (sends_look fun _ _ _ => rfl) ?_
    refine Proc.Sends.bind (f1 := []) (f2 := []) (sends_crc [sak] hz) ?_
    show (if _ ∧ _ then _ else _ : Proc Byte).Sends cfg _ _ _ _ _ _
    rw [if_pos ⟨rfl, rfl⟩]
    exact sends_pure sak
  refine Proc.Sends.bind (f1 := []) (f2 := []) (a := decide (l ≠ .cl3) && a == 0x88) (sends_look fun _ _ _ => htag _ rfl rfl) ?_
  refine Proc.Sends.bind (f1 := []) (f2 := []) (a := ()) (u := s.levelDone cfg l #v[a, b, c, d] sak iter) (sends_update fun evs dr q => ?_) ?_
  · have h := htag ((s.sel l (selectedBuf cfg l a b c d) 32 iter (sakRsp sak) (crcLow [sak], crcHigh [sak]) s.uid).did evs r dr q) rfl rfl
    simp only [State.takeUidBytes, h]
    simp only [State.did, State.sel, State.levelDone, contribution]
    congr 2
    by_cases h3 : l = .cl3 <;> by_cases h8 : a = 0x88 <;> simp [h3, h8] <;> rfl
  refine Proc.Sends.bind (f1 := []) (f2 := []) (a := l) (sends_look fun _ _ _ => rfl) ?_
  unfold levelEnd
  split
  · exact sends_raise _
  · show (if (decide (l ≠ .cl3) && a == 0x88) != cascadeBit sak then _ else _ : Proc Byte).Sends cfg _ _ _ _ _ _
    split
    · rw [if_pos ‹_›]; exact sends_unmodelled _
    · rw [if_neg ‹_›]; exact sends_pure sak

/-! ### One level (R146 to R164) -/

/-- A level in which collisions are resolved to one card. -/
theorem sends_resolvedLevel {cards : List (Vector Byte 4)} {f : Vector Byte 4} {sak : Byte} {ks : List Nat} {answers : List Answer}
    (h : ResolvedAnswers cfg l cards f sak ks answers) :
    ∃ frames, List.Forall₂ (KnownFrame cfg l f) ks frames ∧ ∀ r,
      (runLevel cfg .registers l).Sends cfg s (answers ++ r) (levelEnd l f sak) (s.levelDone cfg l f sak (ks.length + 1))
        (frames ++ [selectFrame cfg l f[0] f[1] f[2] f[3]]) r := by
  obtain ⟨x, c1, y, z, hx, hlen, h1, hy, hz, rfl⟩ := h
  obtain ⟨a, b, c, d, rfl⟩ := field_cases f
  obtain ⟨m, hm⟩ : ∃ m, Config.maxSubIter = m + 1 + ks.length := ⟨31 - ks.length, by simp [Config.maxSubIter]; omega⟩
  obtain ⟨frames, buf', rsp', hf, hb, hs⟩ := sends_anticoll (s := s) (crc := s.crcOut) (uid := s.uid) (iter := 0) (rsp := s.rsp) hx
    (knows_entry (s := s) l _)
  obtain ⟨n, p, q, t, rfl⟩ := hb.all
  refine ⟨frames, hf, fun r => ?_⟩
  unfold runLevel
  rw [show x ++ c1 ++ y ++ z ++ r = x ++ (c1 ++ (y ++ (z ++ r))) by simp, hm]
  refine Proc.Sends.bind (f1 := []) (a := ()) (u := s.enterLevel cfg l) (sends_update fun _ _ _ => rfl) (sends_head fun head => ?_)
  show Proc.Sends cfg _ _ _ _ _ (frames ++ [selectFrame cfg l a b c d]) r
  rw [← List.append_nil (frames ++ _)]
  refine Proc.Sends.bind (a := ()) (f := fun _ => finishLevel cfg) (f2 := []) (r1 := z ++ r) (u := s.sel l (selectedBuf cfg l a b c d) 32 (ks.length + 1) (sakRsp sak)
    (selectCrc cfg l a b c d) s.uid) (hs head (m + 1) ?_) (sends_finishLevel (s := s) (l := l) (iter := ks.length + 1) #v[a, b, c, d] sak hz)
  rw [Nat.zero_add]
  refine Proc.Sends.bind (f1 := []) (f2 := [_]) (sends_jump _) (Proc.Sends.bind (a := true) (f1 := [_]) (f2 := []) ?_ (sends_pure _))
  refine Proc.Sends.bind (f1 := []) (f2 := [_]) (a := ())
    (u := s.sel l #v[cfg.sel l, n, a, b, c, d, p, q, t] 32 (ks.length + 1) rsp' s.crcOut s.uid) (sends_update fun _ _ _ => rfl)
    (Proc.Sends.bind (f1 := []) (f2 := [_]) (a := 32) (sends_look fun _ _ _ => rfl) ?_)
  exact sends_cleanSelect a b c d n p q t sak h1 hy

/-- A level that one card answers is one in which nothing collides. -/
theorem LevelAnswers.resolved {f : Vector Byte 4} {sak : Byte} {answers : List Answer} (h : LevelAnswers cfg l f sak answers) :
    ResolvedAnswers cfg l [] f sak [0] answers := by
  obtain ⟨x, c1, y, c2, hx, h1, hy, h2, rfl⟩ := h
  exact ⟨x, c1, y, c2, .clean 0 _ x (by omega) rfl hx, by simp, h1, hy, h2, rfl⟩

/-- The frame with no known bit. -/
theorem knownFrame_zero {f : Vector Byte 4} {frame : Byte × List Byte} (h : KnownFrame cfg l f 0 frame) : frame = (0x00, [cfg.sel l, 0x20]) := by
  obtain ⟨hb, bits, -, -, hl, hx⟩ := h
  obtain rfl : bits = [] := List.length_eq_zero_iff.1 hl
  exact Prod.ext hb hx

/-- The two frames of a level that one card answers. -/
abbrev levelFrames (cfg : Cfg) (l : CascadeLevel) (f : Vector Byte 4) : List (Byte × List Byte) :=
  [(0x00, [cfg.sel l, 0x20]), selectFrame cfg l f[0] f[1] f[2] f[3]]

/-- One whole level that one card answers, however it ends (R148 to R167). -/
theorem sends_runLevel {f : Vector Byte 4} {sak : Byte} {answers : List Answer} (h : LevelAnswers cfg l f sak answers) :
    (runLevel cfg .registers l).Sends cfg s (answers ++ r) (levelEnd l f sak) (s.levelDone cfg l f sak 2) (levelFrames cfg l f) r := by
  obtain ⟨frames, hf, hs⟩ := sends_resolvedLevel (s := s) h.resolved
  cases hf with
  | cons h1 h2 =>
    cases h2
    obtain rfl := knownFrame_zero h1
    exact hs r

/-! ### The levels (R165 to R168) -/

/-- The last level of a selection. -/
theorem runLevels_last {f : Vector Byte 4} {sak : Byte} {it : Nat} {r1 r2 : List Answer} {frames : List (Byte × List Byte)} (ls : List CascadeLevel)
    (head : Pos) (h : (runLevel cfg .registers l).Sends cfg s r1 (levelEnd l f sak) (s.levelDone cfg l f sak it) frames r2)
    (hct : cascadeBit sak = (decide (l ≠ .cl3) && f[0] == 0x88)) (hs : cascadeBit sak = false) :
    (runLevels cfg .registers head (l :: ls)).Sends cfg s r1 (.ok ()) ((s.levelDone cfg l f sak it).completeSelect sak) frames r2 := by
  rw [levelEnd_ok hct] at h
  rw [← List.append_nil frames]
  refine Proc.Sends.bind (f1 := []) (sends_jump _) (Proc.Sends.bind (f2 := []) h ?_)
  rw [if_neg (by simp [hs])]
  exact sends_update fun _ _ _ => rfl

/-- A level that another follows. -/
theorem runLevels_next {f : Vector Byte 4} {sak : Byte} {it : Nat} {r1 r2 r3 : List Answer} {ls : List CascadeLevel} {head : Pos}
    {x : Except Stop Unit} {v : State} {frames more : List (Byte × List Byte)}
    (h : (runLevel cfg .registers l).Sends cfg s r1 (levelEnd l f sak) (s.levelDone cfg l f sak it) frames r2)
    (hct : cascadeBit sak = (decide (l ≠ .cl3) && f[0] == 0x88)) (hs : cascadeBit sak = true)
    (hn : (runLevels cfg .registers head ls).Sends cfg (s.levelDone cfg l f sak it) r2 x v more r3) :
    (runLevels cfg .registers head (l :: ls)).Sends cfg s r1 x v (frames ++ more) r3 := by
  rw [levelEnd_ok hct] at h
  refine Proc.Sends.bind (f1 := []) (sends_jump _) (Proc.Sends.bind h ?_)
  rw [if_pos hs]
  exact hn

/-- A level that stops the selection. -/
theorem runLevels_stop {e : Stop} {u : State} {r1 r2 : List Answer} {ls : List CascadeLevel} {head : Pos} {frames : List (Byte × List Byte)}
    (h : (runLevel cfg .registers l).Sends cfg s r1 (.error e) u frames r2) :
    (runLevels cfg .registers head (l :: ls)).Sends cfg s r1 (.error e) u frames r2 :=
  Proc.Sends.bind (f1 := []) (sends_jump _) h.bind_error

/-- The last part of select: its value is the UID and the SAK (R166, R168). -/
theorem sends_selectCard {frames : List (Byte × List Byte)} {v : State} {r1 r2 : List Answer}
    (h : ∀ head, (runLevels cfg .registers head [.cl1, .cl2, .cl3]).Sends cfg s.endSessionForSelect r1 (.ok ()) v frames r2) :
    (selectCard cfg .registers).Sends cfg s r1 (.ok (.selected v.uidBytes v.sak)) v frames r2 := by
  unfold selectCard
  refine Proc.Sends.bind (f1 := []) (a := ()) (u := s.endSessionForSelect) (sends_update fun _ _ _ => rfl) ?_
  refine sends_head fun head => ?_
  exact List.append_nil frames ▸ Proc.Sends.bind (f2 := []) (h head) (sends_look fun _ _ _ => rfl)

/-- A selection that a level stops. -/
theorem sends_selectCard_stop {frames : List (Byte × List Byte)} {e : Stop} {v : State} {r1 r2 : List Answer}
    (h : ∀ head, (runLevels cfg .registers head [.cl1, .cl2, .cl3]).Sends cfg s.endSessionForSelect r1 (.error e) v frames r2) :
    (selectCard cfg .registers).Sends cfg s r1 (.error e) v frames r2 := by
  unfold selectCard
  refine Proc.Sends.bind (f1 := []) (a := ()) (u := s.endSessionForSelect) (sends_update fun _ _ _ => rfl) ?_
  exact sends_head fun head => (h head).bind_error

end

end Sys2Proof.Machine
end

