-- ==== Sys2Proof/Laws/Shows.lean ====
section
/-! SUPPORT. What a procedure shows whatever the chip answers: its events apart from the bytes no rule reads, and what it leaves in
`rsp` and `crcOut`. -/

namespace Sys2Proof.Machine

variable {α β : Type} {cfg : Cfg} {r : PiccResponse} {c : Byte × Byte}

/-- The state after some transport, the last response and CRC put in. -/
def State.ran (s : State) (evs : List Event) (rd : List Answer) (d : Nat) (q : Pos) (r : PiccResponse) (c : Byte × Byte) : State :=
  { s with trace := s.trace ++ evs, answers := rd, draws := d, pos := q, rsp := r, crcOut := c }

theorem State.ran_ran (s : State) (e1 e2 : List Event) (r1 r2 : List Answer) (d1 d2 : Nat) (q1 q2 : Pos)
    (p1 p2 : PiccResponse) (c1 c2 : Byte × Byte) :
    (s.ran e1 r1 d1 q1 p1 c1).ran e2 r2 d2 q2 p2 c2 = s.ran (e1 ++ e2) r2 d2 q2 p2 c2 := by simp [State.ran]

/-- From any state with this response and CRC the procedure only moves the transport, and ends, shows and leaves what `Q` says. -/
def Proc.Shows (p : Proc α) (r : PiccResponse) (c : Byte × Byte)
    (Q : Except Stop α → List Event → PiccResponse → Byte × Byte → Prop) : Prop :=
  ∀ s : State, s.rsp = r → s.crcOut = c → ∃ x evs rd d q r' c',
    p.exec s = (x, s.ran evs rd d q r' c') ∧ Q x (evs.map Event.seen) r' c'

section

variable {Q R : Except Stop α → List Event → PiccResponse → Byte × Byte → Prop}

theorem Proc.Shows.imp {p : Proc α} (h : p.Shows r c Q) (i : ∀ x e r' c', Q x e r' c' → R x e r' c') : p.Shows r c R := fun s h1 h2 => by
  obtain ⟨x, evs, rd, d, q, r', c', hx, hq⟩ := h s h1 h2
  exact ⟨x, evs, rd, d, q, r', c', hx, i _ _ _ _ hq⟩

theorem Proc.Shows.bind {x : Proc β} {f : β → Proc α} {P : Except Stop β → List Event → PiccResponse → Byte × Byte → Prop}
    (hx : x.Shows r c P) (hf : ∀ b e r' c', P (.ok b) e r' c' → (f b).Shows r' c' fun y e' => R y (e ++ e'))
    (he : ∀ z e r' c', P (.error z) e r' c' → R (.error z) e r' c') : (x >>= f).Shows r c R := fun s h1 h2 => by
  obtain ⟨y, evs, rd, d, q, r', c', hy, hp⟩ := hx s h1 h2
  cases y with
  | error z => exact ⟨_, evs, rd, d, q, r', c', Proc.exec_bind_error hy, he _ _ _ _ hp⟩
  | ok b =>
    obtain ⟨y2, evs2, rd2, d2, q2, r2, c2, hy2, hq⟩ := hf b _ _ _ hp (s.ran evs rd d q r' c') rfl rfl
    exact ⟨y2, evs ++ evs2, rd2, d2, q2, r2, c2, by rw [Proc.exec_bind_ok hy, hy2, State.ran_ran], by simpa using hq⟩

theorem shows_pure {a : α} (h : Q (.ok a) [] r c) : (pure a : Proc α).Shows r c Q := fun s h1 h2 =>
  ⟨_, [], s.answers, s.draws, s.pos, r, c, by simp [State.ran, ← h1, ← h2], h⟩

theorem shows_raise {e : Err} (h : Q (.error (.raise e)) [] r c) : (Proc.raise e : Proc α).Shows r c Q := fun s h1 h2 =>
  ⟨_, [], s.answers, s.draws, s.pos, r, c, by simp [State.ran, ← h1, ← h2], h⟩

theorem shows_ite {b : Prop} [Decidable b] {x y : Proc α} (hx : b → x.Shows r c Q) (hy : ¬ b → y.Shows r c Q) :
    (if b then x else y).Shows r c Q := by split <;> simp_all

end

/-- The value of a read. -/
def ReadOf (cfg : Cfg) (g : Reg) (r : PiccResponse) (c : Byte × Byte) (x : Except Stop Byte) (e : List Event) (r' : PiccResponse) (c' : Byte × Byte) :
    Prop := r' = r ∧ c' = c ∧ ∃ b, x = .ok b ∧ e = [gave cfg g [b]]

theorem shows_regRead (g : Reg) : (regRead cfg g).Shows r c (ReadOf cfg g r c) := fun s h1 h2 => by
  obtain ⟨b, hb⟩ : ∃ b, s.nextReads 1 = [b] := List.length_eq_one_iff.1 (nextReads_length s 1)
  refine ⟨.ok b, [.spi [(cfg.ra g), 0x00] [Config.freeIgnored s.draws, b]], (takeValues 1 s.answers).2, s.draws + 1 + (1 - (takeValues 1 s.answers).1.length),
    s.pos.advance, r, c, ?_, rfl, rfl, b, rfl, by simp [seen_read, gave]⟩
  show ((Except.ok ((s.nextReads 1).getD 0 0), s.readFrame [(cfg.ra g), 0x00] 1) : Except Stop Byte × State) = _
  rw [hb]
  simp [State.readFrame, State.emit, State.ran, ignoredBytes, hb, ← h1, ← h2]

/-- A procedure that shows fixed events and leaves the rest. -/
def Did (ev : List Event) (r : PiccResponse) (c : Byte × Byte) (x : Except Stop Unit) (e : List Event) (r' : PiccResponse)
    (c' : Byte × Byte) : Prop := x = .ok () ∧ e = ev ∧ r' = r ∧ c' = c

theorem shows_regWrite (g : Reg) (v : Byte) : (regWrite cfg g v).Shows r c (Did [wrote cfg g [v]] r c) := fun s h1 h2 =>
  ⟨.ok (), [.spi [(cfg.wa g), v] (ignoredBytes s.draws 2)], s.answers, s.draws + 2, s.pos.advance, r, c,
    by simp [regWrite, State.writeFrame, State.emit, State.ran, ← h1, ← h2], rfl, by simp, rfl, rfl⟩

theorem shows_regWriteN (g : Reg) (bs : List Byte) :
    (regWriteN cfg g bs).Shows r c (Did (if bs = [] then [] else [wrote cfg g bs]) r c) := fun s h1 h2 => by
  by_cases h : bs = []
  · subst h
    exact ⟨.ok (), [], s.answers, s.draws, s.pos, r, c, by simp [regWriteN, State.ran, ← h1, ← h2], rfl, by simp, rfl, rfl⟩
  · have hb : bs.isEmpty = false := by simp [h]
    refine ⟨.ok (), [.spi ((cfg.wa g) :: bs) (ignoredBytes s.draws (bs.length + 1))], s.answers, s.draws + (bs.length + 1),
      s.pos.advance, r, c, ?_, rfl, by simp [h], rfl, rfl⟩
    simp [regWriteN, hb, State.writeFrame, State.emit, State.ran, ← h1, ← h2]

/-- A FIFO read of `n` bytes (R120, R123). -/
theorem shows_regReadN (g : Reg) (n : Nat) (al : BitVec 3) :
    (regReadN cfg g n al).Shows r c fun x e r' c' => r' = r ∧ c' = c ∧ ∃ ms, ms.length = n ∧ x = .ok (alignFirst al ms) ∧
      e = if ms = [] then [] else [gave cfg g ms] := fun s h1 h2 => by
  by_cases h : n = 0
  · subst h
    exact ⟨.ok [], [], s.answers, s.draws, s.pos, r, c, by rw [← h1, ← h2]; simp [regReadN, State.ran], rfl, rfl, [],
      rfl, rfl, by simp⟩
  · have hl := nextReads_length s n
    have hn : s.nextReads n ≠ [] := fun h0 => h (by rw [← hl, h0]; rfl)
    refine ⟨.ok (alignFirst al (s.nextReads n)), [.spi (List.replicate n (cfg.ra g) ++ [0x00]) (Config.freeIgnored s.draws :: s.nextReads n)],
      (takeValues n s.answers).2, s.draws + 1 + (n - (takeValues n s.answers).1.length), s.pos.advance, r, c, ?_, rfl, rfl, _, hl, rfl, ?_⟩
    · rw [regReadN, if_neg h, Proc.exec_primitive]
      simp [State.readFrame, State.emit, State.ran, ignoredBytes, ← h1, ← h2]
    · rw [if_neg hn]
      have := seen_gave (cfg := cfg) g hn (Config.freeIgnored s.draws)
      rw [hl] at this
      simpa using this

theorem shows_setBits (g : Reg) (m : Byte) :
    (setBits cfg g m).Shows r c fun x e r' c' => ∃ b, Did [gave cfg g [b], wrote cfg g [b ||| m]] r c x e r' c' :=
  (shows_regRead g).bind (fun v _ _ _ ⟨h1, h2, b, h3, h4⟩ => by
      cases h3; subst h1 h2 h4
      exact (shows_regWrite g _).imp fun _ _ _ _ ⟨h1, h2, h3, h4⟩ => ⟨v, h1, by rw [h2]; rfl, h3, h4⟩)
    fun _ _ _ _ ⟨_, _, _, h, _⟩ => by cases h

theorem shows_clearBits (g : Reg) (m : Byte) :
    (clearBits cfg g m).Shows r c fun x e r' c' => ∃ b, Did [gave cfg g [b], wrote cfg g [b &&& ~~~m]] r c x e r' c' :=
  (shows_regRead g).bind (fun v _ _ _ ⟨h1, h2, b, h3, h4⟩ => by
      cases h3; subst h1 h2 h4
      exact (shows_regWrite g _).imp fun _ _ _ _ ⟨h1, h2, h3, h4⟩ => ⟨v, h1, by rw [h2]; rfl, h3, h4⟩)
    fun _ _ _ _ ⟨_, _, _, h, _⟩ => by cases h

/-- A procedure that shows fixed events, in front of another. -/
theorem Proc.Shows.then {R : Except Stop α → List Event → PiccResponse → Byte × Byte → Prop} {x : Proc Unit} {f : Unit → Proc α}
    {ev : List Event} (hx : x.Shows r c (Did ev r c)) (hf : (f ()).Shows r c fun y e' => R y (ev ++ e')) : (x >>= f).Shows r c R :=
  hx.bind (fun _ _ _ _ ⟨_, h2, h3, h4⟩ => by subst h2 h3 h4; exact hf) fun _ _ _ _ ⟨h, _⟩ => by cases h

/-! ### Poll loops (R43) -/

theorem shows_ask (kind : WaitKind) (a : Bool) : (askDeadline kind a).Shows r c (Did [.ask kind a] r c) := fun s h1 h2 =>
  ⟨.ok (), [.ask kind a], s.answers, s.draws, s.pos.advance, r, c,
    by simp [askDeadline, State.emit, State.ran, ← h1, ← h2], rfl, by simp, rfl, rfl⟩

theorem shows_jump (head : Pos) : (jump head).Shows r c (Did [] r c) := fun s h1 h2 =>
  ⟨.ok (), [], s.answers, s.draws, head, r, c, by simp [jump, State.ran, ← h1, ← h2], rfl, rfl, rfl, rfl⟩

theorem shows_drawBudget : drawBudget.Shows r c fun x e r' c' => (∃ n, x = .ok n) ∧ e = [] ∧ r' = r ∧ c' = c := fun s h1 h2 => by
  show ∃ x evs rd d q r' c', ((Except.ok s.nextBudget.1, s.nextBudget.2) : Except Stop Nat × State) = _ ∧ _
  unfold State.nextBudget
  split
  · rename_i b as _
    exact ⟨.ok b, [], as, s.draws, s.pos, r, c, by simp [State.ran, ← h1, ← h2], ⟨_, rfl⟩, rfl, rfl, rfl⟩
  · exact ⟨.ok (Config.freeBudget s.draws), [], s.answers, s.draws + 1, s.pos, r, c, by simp [State.ran, ← h1, ← h2], ⟨_, rfl⟩, rfl, rfl, rfl⟩

/-- How a poll loop on one register ends: by a reading that ends it, with that reading's value, or by its deadline. -/
def Polled (cfg : Cfg) (kind : WaitKind) (g : Reg) (test : Byte → Option β) (late : Except Stop β) (r : PiccResponse) (c : Byte × Byte)
    (x : Except Stop β) (e : List Event) (r' : PiccResponse) (c' : Byte × Byte) : Prop :=
  r' = r ∧ c' = c ∧ ∃ last, PollRun cfg kind g (fun v => (test v).isSome = true) e last ∧
    ((∃ v b, last = some v ∧ test v = some b ∧ x = .ok b) ∨ (last = none ∧ x = late))

theorem shows_check (g : Reg) (test : Byte → Option β) :
    (do let v ← regRead cfg g; pure (test v) : Proc (Option β)).Shows r c fun x e r' c' =>
      r' = r ∧ c' = c ∧ ∃ v, x = .ok (test v) ∧ e = [gave cfg g [v]] :=
  (shows_regRead g).bind (fun _ _ _ _ ⟨h1, h2, b, h3, h4⟩ => by
      cases h3; subst h1 h2 h4
      exact shows_pure ⟨rfl, rfl, _, rfl, by simp⟩)
    fun _ _ _ _ ⟨_, _, _, h, _⟩ => by cases h

theorem shows_pollAgain {kind : WaitKind} {head : Pos} {g : Reg} {test : Byte → Option β} {od : Proc β} {late : Except Stop β}
    (ho : od.Shows r c fun x e r' c' => x = late ∧ e = [] ∧ r' = r ∧ c' = c) (budget i : Nat) {v : Byte} (hv : test v = none) :
    (pollAgain kind head (fun _ => do let v ← regRead cfg g; pure (test v)) od budget i).Shows r c
      fun x e => Polled cfg kind g test late r c x (gave cfg g [v] :: e) := by
  induction budget generalizing i v with
  | zero =>
    refine (shows_ask kind true).then (ho.imp fun x e r' c' ⟨h1, h2, h3, h4⟩ => ?_)
    subst h1 h2 h3 h4
    exact ⟨rfl, rfl, none, by simpa using PollRun.deadline v (by simp [hv]), .inr ⟨rfl, rfl⟩⟩
  | succ n ih =>
    refine (shows_ask kind false).then ((shows_jump head).then ((shows_check g test).bind ?_ fun _ _ _ _ ⟨_, _, _, h, _⟩ => by cases h))
    rintro o e r' c' ⟨rfl, rfl, w, h, rfl⟩
    cases h
    rcases hw : test w with _ | b
    · refine (ih (i + 1) hw).imp fun x e r' c' ⟨h1, h2, last, h3, h4⟩ => ⟨h1, h2, last, ?_, h4⟩
      exact PollRun.again v (by simp [hv]) h3
    · exact shows_pure ⟨rfl, rfl, some w, PollRun.again v (by simp [hv]) (.done w (by simp [hw])), .inl ⟨w, b, rfl, hw, rfl⟩⟩

/-- A poll loop on one register, whatever the chip and the deadline answer. -/
theorem shows_poll {kind : WaitKind} {g : Reg} {test : Byte → Option β} {od : Proc β} {late : Except Stop β}
    (ho : od.Shows r c fun x e r' c' => x = late ∧ e = [] ∧ r' = r ∧ c' = c) :
    (poll kind (fun _ => do let v ← regRead cfg g; pure (test v)) od).Shows r c (Polled cfg kind g test late r c) := fun s h1 h2 => by
  have h : ∀ head, (do
      match ← (do let v ← regRead cfg g; pure (test v) : Proc (Option β)) with
      | some b => pure b
      | none   => do
        let budget ← drawBudget
        pollAgain kind head (fun _ => do let v ← regRead cfg g; pure (test v)) od budget 1 : Proc β).Shows r c
          (Polled cfg kind g test late r c) := by
    intro head
    refine (shows_check g test).bind ?_ fun _ _ _ _ ⟨_, _, _, h, _⟩ => by cases h
    rintro o e r' c' ⟨rfl, rfl, w, h, rfl⟩
    cases h
    rcases hw : test w with _ | b
    · refine shows_drawBudget.bind ?_ fun _ _ _ _ ⟨⟨_, h⟩, _⟩ => by cases h
      rintro n e r' c' ⟨_, rfl, rfl, rfl⟩
      exact shows_pollAgain ho n 1 hw
    · exact shows_pure ⟨rfl, rfl, some w, .done w (by simp [hw]), .inl ⟨w, b, rfl, hw, rfl⟩⟩
  obtain ⟨x, evs, rd, d, q, r', c', hx, hq⟩ := h s.pos s h1 h2
  refine ⟨x, evs, rd, d, q, r', c', ?_, hq⟩
  unfold poll
  rw [Proc.exec_bind_ok (Proc.exec_look _ _)]
  exact hx

end Sys2Proof.Machine
end

