-- ==== Sys2Proof/Laws/Starts.lean ====
section
/-! SUPPORT. How many transactions a procedure starts, whatever the chip answers (R172). -/

namespace Sys2Proof.Machine

variable {α β : Type} {cfg : Cfg}

/-- At most `n` transactions are started. -/
def StartsBy (cfg : Cfg) (n : Nat) (s t : State) : Prop := ∃ evs, t.trace = s.trace ++ evs ∧ evs.countP (Event.starts cfg) ≤ n

theorem StartsBy.trans {m n : Nat} {s t u : State} (h1 : StartsBy cfg m s t) (h2 : StartsBy cfg n t u) : StartsBy cfg (m + n) s u := by
  obtain ⟨e1, h1, c1⟩ := h1
  obtain ⟨e2, h2, c2⟩ := h2
  exact ⟨e1 ++ e2, by rw [h2, h1, List.append_assoc], by rw [List.countP_append]; omega⟩

theorem StartsBy.mono {m n : Nat} {s t : State} (h : StartsBy cfg m s t) (hmn : m ≤ n) : StartsBy cfg n s t :=
  ⟨h.choose, h.choose_spec.1, h.choose_spec.2.trans hmn⟩

theorem startsPath : Path (StartsBy cfg 0) where
  refl s := ⟨[], by simp, by simp⟩
  trans h1 h2 := h1.trans h2

theorem starts_bind {x : Proc α} {f : α → Proc β} {m n : Nat} (hx : x.Keeps (StartsBy cfg m)) (hf : ∀ a, (f a).Keeps (StartsBy cfg n)) :
    (x >>= f).Keeps (StartsBy cfg (m + n)) := fun s => by
  have h1 := hx s
  rw [Proc.exec_bind]
  rcases hs : x.exec s with ⟨_ | a, t⟩ <;> rw [hs] at h1
  · exact h1.mono (by omega)
  · exact h1.trans (hf a t)

theorem Proc.Keeps.starts {n : Nat} {p : Proc α} (h : p.Keeps (StartsBy cfg 0)) : p.Keeps (StartsBy cfg n) := h.imp fun _ _ h => h.mono (by omega)

theorem starts_update {f : State → State} (h : ∀ s, (f s).trace = s.trace) : (Proc.update f).Keeps (StartsBy cfg 0) :=
  fun s => ⟨[], by simp [h], by simp⟩

/-- Transport whose events start nothing. -/
theorem Proc.Keeps.startsNone {p : Proc α} (h : p.Keeps (Moves fun e => e.starts cfg = false)) : p.Keeps (StartsBy cfg 0) := fun s => by
  obtain ⟨evs, _, _, _, _, _, he, _, ht⟩ := h s
  exact ⟨evs, by rw [ht], by rw [List.countP_eq_zero.2 fun e hx => by rw [he e hx]; simp]⟩

/-- A read frame starts no transmission. -/
theorem starts_readAddr (r : Reg) (bs miso : List Byte) : Event.starts cfg (.spi (cfg.ra r :: bs) miso) = false := by
  have hi : Event.issues cfg .mfAuthent (.spi (cfg.ra r :: bs) miso) = false := by
    rcases bs with _ | ⟨b, _ | _⟩ <;> simp [Event.issues, cfg.ra_ne_wa]
  show (_ || _) = _
  rw [hi]; simp [Event.startsSend, Event.bytesTo, cfg.ra_ne_wa]

theorem starts_write (r : Reg) (v : Byte) (h : (wrote cfg r [v]).starts cfg = false) : (regWrite cfg r v).Keeps (StartsBy cfg 0) :=
  (keeps_regWrite r v fun miso _ => by rw [← starts_seen, seen_write]; exact h).startsNone

theorem starts_other (r : Reg) (v : Byte) (h : r ≠ .command ∧ r ≠ .bitFraming) : (regWrite cfg r v).Keeps (StartsBy cfg 0) :=
  starts_write r v (starts_wrote_other h.1 h.2 _)

theorem starts_command (c : PcdCommand) (h : c ≠ .mfAuthent) : (regWrite cfg .command (cfg.byte c)).Keeps (StartsBy cfg 0) :=
  starts_write _ _ (by simpa using h)

theorem starts_writeN (bs : List Byte) : (regWriteN cfg .fifoData bs).Keeps (StartsBy cfg 0) :=
  (keeps_regWriteN .fifoData bs fun _ miso _ => by rw [← starts_seen, seen_write]; exact starts_wrote_other (by decide) (by decide) _).startsNone

theorem starts_read (r : Reg) : (regRead cfg r).Keeps (StartsBy cfg 0) :=
  (keeps_regRead r fun _ _ => starts_readAddr r _ _).startsNone

theorem starts_readN (r : Reg) (n : Nat) (a : BitVec 3) : (regReadN cfg r n a).Keeps (StartsBy cfg 0) := by
  refine (keeps_regReadN r n a fun hn miso _ => ?_).startsNone
  obtain ⟨m, rfl⟩ : ∃ m, n = m + 1 := ⟨n - 1, by omega⟩
  rw [List.replicate_succ, List.cons_append]
  exact starts_readAddr r _ _

theorem starts_poll {kind : WaitKind} {check : Nat → Proc (Option β)} {od : Proc β} (hc : ∀ i, (check i).Keeps (StartsBy cfg 0))
    (ho : od.Keeps (StartsBy cfg 0)) : (poll kind check od).Keeps (StartsBy cfg 0) :=
  keeps_poll startsPath (fun _ => (keeps_askDeadline (E := fun e => e.starts cfg = false) _ _ rfl).startsNone) (fun _ => (keeps_jump _).startsNone) keeps_drawBudget.startsNone hc ho

theorem starts_clearStart : (clearBits cfg .bitFraming (startSend cfg)).Keeps (StartsBy cfg 0) :=
  startsPath.bind (starts_read _) fun _ => starts_write _ _ (by simp)

/-- A CRC transaction starts none (R202). -/
theorem starts_crc (d : List Byte) : (crcTransaction cfg d).Keeps (StartsBy cfg 0) :=
  startsPath.bind (startsPath.bind (starts_command _ (by decide)) fun _ => startsPath.bind (starts_other _ _ (by decide)) fun _ =>
    startsPath.bind (starts_other _ _ (by decide)) fun _ => startsPath.bind (starts_writeN d) fun _ =>
    starts_command _ (by decide)) fun _ => startsPath.bind
    (starts_poll (fun _ => startsPath.bind (starts_read _) fun _ => startsPath.pure _) (startsPath.raise _)) fun _ =>
    startsPath.bind (starts_read _) fun _ => startsPath.bind (starts_read _) fun _ => startsPath.bind (starts_update fun _ => rfl) fun _ =>
    startsPath.pure _

/-- The command starts one transmission: MFAuthent at its write, Transceive at StartSend (R210). -/
theorem starts_issueCommand (cmd : PiccCommand) : (issueCommand cfg cmd).Keeps (StartsBy cfg 1) := by
  have one : ∀ (r : Reg) (v : Byte), (regWrite cfg r v).Keeps (StartsBy cfg 1) := fun r v s =>
    ⟨[.spi [cfg.wa r, v] (ignoredBytes s.draws 2)], rfl, List.countP_le_length⟩
  unfold issueCommand
  cases cmd
  · exact starts_bind (m := 0) (n := 1) (starts_command _ (by decide)) fun _ => starts_bind (m := 0) (n := 1) (starts_read _) fun _ => one _ _
  · exact starts_bind (n := 0) (one _ _) fun _ => startsPath.pure _

/-- A transaction starts one. -/
theorem starts_transceive (cmd : PiccCommand) (tx : List Byte) (tl al : BitVec 3) (want : Bool) :
    (transceive cfg .registers cmd tx tl al want).Keeps (StartsBy cfg 1) := by
  rw [transceive_eq]
  refine starts_bind (n := 0) ?_ fun timedOut => ?_
  · refine starts_bind (m := 0) (n := 1) (starts_command _ (by decide)) fun _ => starts_bind (m := 0) (n := 1)
      (starts_other _ _ (by decide)) fun _ => starts_bind (m := 0) (n := 1) (starts_write _ _ (by simp)) fun _ =>
      starts_bind (m := 0) (n := 1) (starts_other _ _ (by decide)) fun _ => starts_bind (m := 0) (n := 1) (starts_writeN tx) fun _ =>
      starts_bind (n := 0) (starts_issueCommand cmd) fun _ => startsPath.bind
      (starts_poll (fun _ => startsPath.bind (starts_read _) fun _ => startsPath.pure _) (startsPath.pure _)) fun _ =>
      startsPath.bind starts_clearStart fun _ => startsPath.pure _
  · have hr : (readResponse cfg al).Keeps (StartsBy cfg 0) := startsPath.bind (starts_read _) fun _ => startsPath.bind (starts_readN _ _ _) fun _ =>
      startsPath.bind (starts_read _) fun _ => starts_update fun _ => rfl
    exact Proc.keeps_ite (startsPath.pure _) (startsPath.bind (starts_read _) fun _ => Proc.keeps_ite (startsPath.pure _)
      (Proc.keeps_ite (startsPath.bind hr fun _ => startsPath.pure _) (startsPath.pure _)))

/-! ### select -/

theorem starts_afterFailedPass (o : XactOutcome) : (afterFailedPass cfg .registers o).Keeps (StartsBy cfg 0) := by
  cases o
  · exact startsPath.pure _
  · exact startsPath.raise _
  · exact startsPath.raise _
  · exact startsPath.bind (starts_read _) fun _ => Proc.keeps_ite (startsPath.raise _) (startsPath.bind (startsPath.look _) fun _ =>
      Proc.keeps_ite (startsPath.raise _) (starts_update fun _ => rfl))

theorem starts_merge (idx : Nat) (tb : BitVec 3) : (merge idx tb).Keeps (StartsBy cfg 0) :=
  startsPath.bind (startsPath.look _) fun _ => Proc.keeps_ite (startsPath.raise _) (starts_update fun _ => rfl)

theorem starts_pass : (pass cfg .registers).Keeps (StartsBy cfg 1) := by
  refine starts_bind (m := 0) (n := 1) (starts_update fun _ => rfl) fun _ => starts_bind (m := 0) (n := 1) (startsPath.look _) fun k =>
    Proc.keeps_ite (starts_bind (n := 0) ?_ fun o => ?_) (starts_bind (n := 0) (starts_bind (n := 0) ?_ fun o => ?_) fun _ => startsPath.pure _)
  · exact starts_bind (m := 0) (n := 1) (starts_update fun _ => rfl) fun _ => starts_bind (m := 0) (n := 1) (startsPath.look _) fun _ =>
      starts_bind (m := 0) (n := 1) (starts_crc _) fun _ => starts_bind (m := 0) (n := 1) (starts_update fun _ => rfl) fun _ =>
      starts_bind (m := 0) (n := 1) (startsPath.look _) fun _ => starts_transceive _ _ _ _ _
  · cases o
    · exact startsPath.bind (startsPath.bind (startsPath.look _) fun _ => Proc.keeps_ite (startsPath.pure _) (startsPath.raise _))
        fun _ => startsPath.pure _
    all_goals exact startsPath.bind (starts_afterFailedPass _) fun _ => startsPath.pure _
  · exact starts_bind (m := 0) (n := 1) (starts_update fun _ => rfl) fun _ => starts_bind (m := 0) (n := 1) (startsPath.look _) fun _ =>
      starts_transceive _ _ _ _ _
  · cases o
    · exact startsPath.bind (starts_merge _ _) fun _ => starts_update fun _ => rfl
    · exact starts_afterFailedPass .timeout
    · exact starts_afterFailedPass (.comm _)
    · exact startsPath.bind (starts_merge _ _) fun _ => starts_afterFailedPass _

theorem starts_levelLoop (head : Pos) (n : Nat) : (levelLoop cfg .registers head n).Keeps (StartsBy cfg n) := by
  induction n with
  | zero => exact startsPath.raise _
  | succ n ih =>
    have h : (levelLoop cfg .registers head (n + 1)).Keeps (StartsBy cfg (0 + (1 + n))) :=
      starts_bind (keeps_jump head).startsNone fun _ => starts_bind starts_pass fun c => Proc.keeps_ite (startsPath.pure _).starts ih
    rwa [show 0 + (1 + n) = n + 1 by omega] at h

/-- A level starts at most 32 (R149). -/
theorem starts_runLevel (l : CascadeLevel) : (runLevel cfg .registers l).Keeps (StartsBy cfg 32) := by
  refine starts_bind (m := 0) (n := 32) (starts_update fun _ => rfl) fun _ => starts_bind (m := 0) (n := 32) (startsPath.look _) fun head =>
    starts_bind (m := 32) (n := 0) (starts_levelLoop head 32) fun _ => ?_
  exact startsPath.bind (startsPath.bind (startsPath.look _) fun _ => startsPath.bind (starts_crc _) fun _ =>
    Proc.keeps_ite (startsPath.pure _) (startsPath.raise _)) fun _ => startsPath.bind (startsPath.look _) fun _ =>
    startsPath.bind (starts_update fun _ => rfl) fun _ => startsPath.bind (startsPath.look _) fun _ =>
    Proc.keeps_ite (startsPath.raise _) (Proc.keeps_ite (startsPath.unmodelled _) (startsPath.pure _))

theorem starts_runLevels (head : Pos) (ls : List CascadeLevel) : (runLevels cfg .registers head ls).Keeps (StartsBy cfg (32 * ls.length)) := by
  induction ls with
  | nil => exact startsPath.raise _
  | cons l ls ih =>
    have h : (runLevels cfg .registers head (l :: ls)).Keeps (StartsBy cfg (0 + (32 + 32 * ls.length))) :=
      starts_bind (keeps_jump head).startsNone fun _ => starts_bind (starts_runLevel l) fun _ =>
        Proc.keeps_ite ih (starts_update fun _ => rfl).starts
    rwa [show 0 + (32 + 32 * ls.length) = 32 * (l :: ls).length by simp; omega] at h

/-- A selection starts at most 96. -/
theorem starts_selectCard : (selectCard cfg .registers).Keeps (StartsBy cfg 96) :=
  starts_bind (m := 0) (n := 96) (starts_update fun _ => rfl) fun _ => starts_bind (m := 0) (n := 96) (startsPath.look _) fun head =>
    starts_bind (m := 96) (n := 0) (starts_runLevels head [.cl1, .cl2, .cl3]) fun _ => startsPath.look _

end Sys2Proof.Machine
end

