-- ==== Sys2Proof/Tests/Slice0.lean ====
section
/-! SUPPORT. Tests: ill-formed terms refused, words written out from the encodings of 30_encoding.md decoded, single steps with the
expected results of 95_test_vectors.md, and for every obligation with hypotheses a witness that meets them. -/

namespace Sys2Proof.Machine.Tests

open Sys2Proof Sys2Proof.Machine Host

/-! ### Ill-formed terms, one for each check of WellFormed -/

theorem test_wf_write_nothing : (Instr.regWriteN .fifoData []).wf = false := by decide
theorem test_wf_read_nothing : (Instr.regReadN .fifoData 0 0).wf = false := by decide
theorem test_wf_nvb_too_few : (Instr.anticollCL1 0x10 []).wf = false := by decide
theorem test_wf_nvb_too_many : (Instr.anticollCL2 0x60 [0, 0, 0, 0]).wf = false := by decide
theorem test_wf_nvb_extra : (Instr.anticollCL3 0x28 [0]).wf = false := by decide
theorem test_wf_anticoll_length :
    (Instr.anticollCL1 0x41 [0x11, 0x22]).wf = false ∧ (Instr.anticollCL2 0x40 [0x11, 0x22, 0x01]).wf = false ∧
    (Instr.anticollCL3 0x20 [0x11]).wf = false := by decide
theorem test_wf_anticoll_response : (Instr.anticollResponse (List.replicate 128 0) 0).wf = false := by decide +kernel
theorem test_wf_names : validName [] = false ∧ validName (ascii "1st") = false ∧ validName (ascii "a-b") = false ∧
    validName (ascii "on") = false ∧ validName (ascii "off") = false ∧ validName (ascii "MIFARE_MINI") = false := by decide
theorem test_wf_operands :
    (Instr.setAntennaState (.name (ascii "on"))).wf = false ∧ (Instr.mifareAuth ⟨.a, Vector.replicate 6 0⟩ (.name [])).wf = false ∧
    (Instr.mifareRead (.name [])).wf = false ∧ (Instr.mifareWrite (.name []) (.lit [])).wf = false ∧
    (Instr.mifareWrite (.lit 1) (.name [])).wf = false ∧ (Instr.calculateCrc (.name [])).wf = false ∧
    (Instr.cardType (.name [])).wf = false ∧ (Instr.getSak (.name [])).wf = false := by decide
theorem test_wf_stores :
    (Instr.getCapacity []).wf = false ∧ (Instr.authenticate [] (.lit 1)).wf = false ∧
    (Instr.authenticate (ascii "st") (.name [])).wf = false ∧ (Instr.readBlock [] (.lit 1)).wf = false ∧
    (Instr.readBlock (ascii "st") (.name [])).wf = false ∧ (Instr.writeBlock [] (.lit 1) (.lit [])).wf = false ∧
    (Instr.writeBlock (ascii "st") (.name []) (.lit [])).wf = false ∧ (Instr.writeBlock (ascii "st") (.lit 1) (.name [])).wf = false ∧
    (Instr.readBytes []).wf = false ∧ (Instr.writeBytes [] (.lit [])).wf = false ∧
    (Instr.writeBytes (ascii "st") (.name [])).wf = false := by decide
theorem test_wf_bound_name : (⟨some (ascii "off"), .select⟩ : Line).wf = false := by decide

/-! ### Decoding: every constructor, from bytes written out from the spec's encoding -/

/-- R117 to R121; the bytes are those of vectors TR-1, TR-2, TR-4, TR-6 and TR-9 (log entry 12 for the last). -/
theorem test_decode_transport :
    decode .reference ⟨.spiWrite, 0x00, [0x02, 0x0F]⟩ = .ok ⟨none, .regWrite .command 0x0F⟩ ∧
    decode .reference ⟨.spiWrite, 0x00, [0x12, 0x93, 0x20]⟩ = .ok ⟨none, .regWriteN .fifoData [0x93, 0x20]⟩ ∧
    decode .reference ⟨.spiRead, 0x00, [0x88, 0x00]⟩ = .ok ⟨none, .regRead .comIrq⟩ ∧
    decode .reference ⟨.spiRead, 0x10, [0x92, 0x92, 0x92, 0x00]⟩ = .ok ⟨none, .regReadN .fifoData 3 1⟩ ∧
    decode .reference ⟨.resetLine, 0x00, [0x01]⟩ = .ok ⟨none, .resetLine .high⟩ ∧
    decode .reference ⟨.resetLine, 0x00, [0x00]⟩ = .ok ⟨none, .resetLine .low⟩ := by decide

/-- The table of rule R31, both addresses of each register: index, write address, read address. -/
theorem test_register_addresses : Reg.all.map (fun r => ((Cfg.reference.index r).toNat, Cfg.reference.wa r, Cfg.reference.ra r)) =
    [(0x01, 0x02, 0x82), (0x04, 0x08, 0x88), (0x05, 0x0A, 0x8A), (0x06, 0x0C, 0x8C), (0x08, 0x10, 0x90), (0x09, 0x12, 0x92),
     (0x0A, 0x14, 0x94), (0x0C, 0x18, 0x98), (0x0D, 0x1A, 0x9A), (0x0E, 0x1C, 0x9C)] ++
    [(0x11, 0x22, 0xA2), (0x14, 0x28, 0xA8), (0x15, 0x2A, 0xAA), (0x21, 0x42, 0xC2), (0x22, 0x44, 0xC4), (0x2A, 0x54, 0xD4),
     (0x2B, 0x56, 0xD6), (0x2C, 0x58, 0xD8), (0x2D, 0x5A, 0xDA)] := by decide

/-- R92. -/
theorem test_decode_pcd_commands :
    decode .reference ⟨.pcdCommand, 0x00, [0x00]⟩ = .ok ⟨none, .pcdIdle⟩ ∧
    decode .reference ⟨.pcdCommand, 0x00, [0x03]⟩ = .ok ⟨none, .pcdCalcCrc⟩ ∧
    decode .reference ⟨.pcdCommand, 0x00, [0x0C]⟩ = .ok ⟨none, .pcdTransceive⟩ ∧
    decode .reference ⟨.pcdCommand, 0x00, [0x0E]⟩ = .ok ⟨none, .pcdMfAuthent⟩ ∧
    decode .reference ⟨.pcdCommand, 0x00, [0x0F]⟩ = .ok ⟨none, .pcdSoftReset⟩ := by decide

/-- R94 to R97: short frames with BitFraming 0x07, HLTA, the anti-collision frames of vectors SE-2, SE-9 and SE-10, and the SELECT
frames of SE-1, SE-3 and SE-4. -/
theorem test_decode_selection :
    decode .reference ⟨.piccShortFrame, 0x07, [0x26]⟩ = .ok ⟨none, .reqa⟩ ∧
    decode .reference ⟨.piccShortFrame, 0x07, [0x52]⟩ = .ok ⟨none, .wupa⟩ ∧
    decode .reference ⟨.piccFrame, 0x00, [0x50, 0x00, 0x57, 0xCD]⟩ = .ok ⟨none, .hlta 0x57 0xCD⟩ ∧
    decode .reference ⟨.piccFrame, 0x11, [0x93, 0x41, 0x11, 0x22, 0x01]⟩ = .ok ⟨none, .anticollCL1 0x41 [0x11, 0x22, 0x01]⟩ ∧
    decode .reference ⟨.piccFrame, 0x00, [0x95, 0x20]⟩ = .ok ⟨none, .anticollCL2 0x20 []⟩ ∧
    decode .reference ⟨.piccFrame, 0x11, [0x97, 0x21, 0x01]⟩ = .ok ⟨none, .anticollCL3 0x21 [0x01]⟩ ∧
    decode .reference ⟨.piccFrame, 0x00, [0x93, 0x70, 0x11, 0x22, 0x33, 0x44, 0x44, 0x51, 0x9C]⟩ =
      .ok ⟨none, .selectCL1 #v[0x11, 0x22, 0x33, 0x44] 0x51 0x9C⟩ ∧
    decode .reference ⟨.piccFrame, 0x00, [0x95, 0x70, 0xC3, 0xD4, 0xE5, 0xF6, 0x04, 0x9E, 0x03]⟩ =
      .ok ⟨none, .selectCL2 #v[0xC3, 0xD4, 0xE5, 0xF6] 0x9E 0x03⟩ ∧
    decode .reference ⟨.piccFrame, 0x00, [0x97, 0x70, 0x66, 0x77, 0x88, 0x99, 0x00, 0xCE, 0x25]⟩ =
      .ok ⟨none, .selectCL3 #v[0x66, 0x77, 0x88, 0x99] 0xCE 0x25⟩ := by decide

/-- R101 to R103; the frames of vectors AU-3, AU-1, RD-1 and WR-1. -/
theorem test_decode_mifare :
    decode .reference ⟨.piccFrame, 0x00, [0x60, 0x04, 0xFF, 0xFF, 0xFF, 0xFF, 0xFF, 0xFF, 0x11, 0x22, 0x33, 0x44]⟩ =
      .ok ⟨none, .mfAuthA 0x04 #v[0xFF, 0xFF, 0xFF, 0xFF, 0xFF, 0xFF] #v[0x11, 0x22, 0x33, 0x44]⟩ ∧
    decode .reference ⟨.piccFrame, 0x00, [0x61, 0x04, 0xFF, 0xFF, 0xFF, 0xFF, 0xFF, 0xFF, 0x11, 0x22, 0x33, 0x44]⟩ =
      .ok ⟨none, .mfAuthB 0x04 #v[0xFF, 0xFF, 0xFF, 0xFF, 0xFF, 0xFF] #v[0x11, 0x22, 0x33, 0x44]⟩ ∧
    decode .reference ⟨.piccFrame, 0x00, [0x30, 0x04, 0x26, 0xEE]⟩ = .ok ⟨none, .mfRead 0x04 0x26 0xEE⟩ ∧
    decode .reference ⟨.piccFrame, 0x00, [0xA0, 0x01, 0xD6, 0xA0]⟩ = .ok ⟨none, .mfWrite 0x01 0xD6 0xA0⟩ ∧
    decode .reference ⟨.piccFrame, 0x00, [0x01, 0x02, 0x03, 0x04, 0x05, 0x06, 0x07, 0x08, 0x09, 0x0A, 0, 0, 0, 0, 0, 0, 0xC6, 0x49]⟩ =
      .ok ⟨none, .mfWriteData #v[0x01, 0x02, 0x03, 0x04, 0x05, 0x06, 0x07, 0x08, 0x09, 0x0A, 0, 0, 0, 0, 0, 0] 0xC6 0x49⟩ := by decide

/-- R91 and R98 to R103: the replies of vectors TX-1, SE-2, SE-1, RD-1 and WR-6, and the cascade tag. -/
theorem test_decode_responses :
    decode .reference ⟨.piccResponse .reqa, 0x00, [0x04, 0x00]⟩ = .ok ⟨none, .atqa 0x04 0x00⟩ ∧
    decode .reference ⟨.piccResponse .anticoll, 0x00, [0x32, 0x44, 0x44]⟩ = .ok ⟨none, .anticollResponse [0x32, 0x44, 0x44] 0⟩ ∧
    decode .reference ⟨.piccResponse .select, 0x00, [0x08, 0xB6, 0xDD]⟩ = .ok ⟨none, .sak 0x08 0xB6 0xDD⟩ ∧
    decode .reference ⟨.uidFieldByte, 0x00, [0x88]⟩ = .ok ⟨none, .cascadeTag⟩ ∧
    decode .reference ⟨.piccResponse .read, 0x00, [0, 0, 0, 0, 0, 0, 0, 0, 0, 0, 0, 0, 0, 0, 0, 0, 0x37, 0x49]⟩ =
      .ok ⟨none, .mfReadResponse #v[0, 0, 0, 0, 0, 0, 0, 0, 0, 0, 0, 0, 0, 0, 0, 0] 0x37 0x49⟩ ∧
    decode .reference ⟨.piccResponse .write, 0x04, [0xFA]⟩ = .ok ⟨none, .mfAck 0xF⟩ := by decide

/-- A program line. -/
def lineOf (t : String) : Encoded := ⟨.hostOp, 0x00, ascii t⟩

/-- R108 to R110: the operations without operands, with a comment and a bound name (program P1). -/
theorem test_decode_plain_operations :
    decode .reference (lineOf "init                       ; BR-1") = .ok ⟨none, .init⟩ ∧
    decode .reference (lineOf "present = isCardPresent    ; TX-1") = .ok ⟨some (ascii "present"), .isCardPresent⟩ ∧
    decode .reference (lineOf "card = select") = .ok ⟨some (ascii "card"), .select⟩ ∧
    decode .reference (lineOf "mifareStopCrypto1") = .ok ⟨none, .mifareStopCrypto1⟩ ∧
    decode .reference (lineOf "st = makeStore") = .ok ⟨some (ascii "st"), .makeStore⟩ ∧
    decode .reference (lineOf "antennaOn") = .ok ⟨none, .antennaOn⟩ ∧ decode .reference (lineOf "antennaOff") = .ok ⟨none, .antennaOff⟩ ∧
    decode .reference (lineOf "endSession") = .ok ⟨none, .endSession⟩ := by decide +kernel

/-- R108 and R109: the operations with operands (programs P2 and P3). -/
theorem test_decode_operations_with_operands :
    decode .reference (lineOf "setAntennaState off") = .ok ⟨none, .setAntennaState (.lit false)⟩ ∧
    decode .reference (lineOf "mifareAuth keyB[FF FF FF FF FF FF], 0x04") = .ok ⟨none, .mifareAuth ⟨.b, Vector.replicate 6 0xFF⟩ (.lit 0x04)⟩ ∧
    decode .reference (lineOf "mifareRead 0x04") = .ok ⟨none, .mifareRead (.lit 0x04)⟩ ∧
    decode .reference (lineOf "mifareWrite 0x04, [DE AD BE EF]") = .ok ⟨none, .mifareWrite (.lit 0x04) (.lit [0xDE, 0xAD, 0xBE, 0xEF])⟩ ∧
    decode .reference (lineOf "calculateCrc [08]") = .ok ⟨none, .calculateCrc (.lit [0x08])⟩ ∧
    decode .reference (lineOf "cardType 0x08") = .ok ⟨none, .cardType (.lit 0x08)⟩ ∧
    decode .reference (lineOf "getSak MIFARE_CLASSIC_1K") = .ok ⟨none, .getSak (.lit .mifareClassic1K)⟩ := by decide +kernel

/-- R108. -/
theorem test_decode_store_operations :
    decode .reference (lineOf "cap = getCapacity st") = .ok ⟨some (ascii "cap"), .getCapacity (ascii "st")⟩ ∧
    decode .reference (lineOf "authenticate st, 0x04") = .ok ⟨none, .authenticate (ascii "st") (.lit 0x04)⟩ ∧
    decode .reference (lineOf "readBlock st, 0x04") = .ok ⟨none, .readBlock (ascii "st") (.lit 0x04)⟩ ∧
    decode .reference (lineOf "writeBlock st, 0x04, [01]") = .ok ⟨none, .writeBlock (ascii "st") (.lit 0x04) (.lit [0x01])⟩ ∧
    decode .reference (lineOf "back = readBytes st") = .ok ⟨some (ascii "back"), .readBytes (ascii "st")⟩ ∧
    decode .reference (lineOf "writeBytes st, data") = .ok ⟨none, .writeBytes (ascii "st") (.name (ascii "data"))⟩ := by decide +kernel

/-- R108: `transceivePicc` is no line of a program; R206 and log entry 13: its own encoding, with any number of bytes. -/
theorem test_decode_transaction :
    decode .reference ⟨.transaction, 0x07, [0x0C, 0x01, 0x26]⟩ = .ok ⟨none, .transceivePicc .transceive [0x26] 7 0 true⟩ ∧
    decode .reference ⟨.transaction, 0x00, [0x0E, 0x00]⟩ = .ok ⟨none, .transceivePicc .mfAuthent [] 0 0 false⟩ ∧
    decode .reference ⟨.transaction, 0x00, [0x03, 0x00]⟩ = .error .reservedCommand ∧
    decode .reference ⟨.transaction, 0x00, [0x0C, 0x02]⟩ = .error .badTransaction ∧
    decode .reference (lineOf "transceivePicc Transceive, [26], 0x07, 0x00, on") = .error .unknownOperation := by decide +kernel

/-- R106, R61 and R89: what no rule gives a meaning is rejected by name. -/
theorem test_decode_rejects :
    decode .reference ⟨.pcdCommand, 0x00, [0x01]⟩ = .error .reservedCommand ∧
    decode .reference ⟨.spiWrite, 0x00, [0x04, 0x00]⟩ = .error .unknownRegister ∧
    decode .reference ⟨.spiRead, 0x00, [0x88]⟩ = .error .badTransportFrame ∧ decode .reference ⟨.resetLine, 0x00, [0x02]⟩ = .error .badLevel ∧
    decode .reference ⟨.piccFrame, 0x00, [0xC0, 0x00, 0x00, 0x00]⟩ = .error .reservedFrame ∧
    decode .reference ⟨.piccFrame, 0x00, [0x93, 0x70, 0x11, 0x22, 0x33, 0x44, 0x45, 0x51, 0x9C]⟩ = .error .badBcc ∧
    decode .reference ⟨.piccShortFrame, 0x00, [0x26]⟩ = .error .badFraming ∧
    decode .reference ⟨.piccResponse .select, 0x00, [0x08]⟩ = .error .badResponse ∧
    decode .reference (lineOf "init !") = .error .badCharacter ∧ decode .reference (lineOf "launch") = .error .unknownOperation ∧
    decode .reference (lineOf "mifareRead") = .error .badOperands ∧
    decode .reference (lineOf "on = select") = .error .badName := by decide +kernel

/-- R87, R88 and R89: the worked values. -/
theorem test_framing_bytes : bitFraming 0 7 = 0x07 ∧ bitFraming 1 1 = 0x11 ∧ nvb 4 1 = 0x41 ∧ nvb 2 0 = 0x20 ∧
    bcc 0x11 0x22 0x33 0x44 = 0x44 ∧ bcc 0x88 0x04 0xA1 0xB2 = 0x9F := by decide

/-! ### One step -/

/-- What a call shows: its events apart from the bytes no rule reads, and what it gives back. -/
def shows (i : Instr) (s : State) : Option (List Event × Option CallResult) :=
  match exec i s with
  | .next t => some (t.trace.map Event.seen, t.result)
  | _ => none

/-- One part of the state a call leaves. -/
def leaves {α : Type} (f : State → α) (i : Instr) (s : State) : Option α :=
  match exec i s with
  | .next t => some (f t)
  | _ => none

/-- How many events a call leaves, and what it gives back. -/
def tally (i : Instr) (s : State) : Option (Nat × Option CallResult) := (shows i s).map fun x => (x.1.length, x.2)

/-- The frames a call sends to the card, each with its BitFraming byte. -/
def frames (i : Instr) (s : State) : Option (List (Byte × List Byte)) := leaves (fun t => framesSent t.cfg t.trace) i s

/-- A controller brought up (RS-2), and what the environment is about to answer. -/
def told (answers : List Answer) : State := { State.reset with ready := true, resetLine := .high, gen := 1, answers := answers }

/-- The same, the chip about to answer these values. -/
def up (values : List Byte) : State := told (values.map .value)

/-- The session of vector SE-1, with the store `st` made in it. -/
def sessionTold (answers : List Answer) : State :=
  { told answers with
    uidValid := true, uid := #v[0x11, 0x22, 0x33, 0x44, 0, 0, 0, 0, 0, 0], sak := 0x08, gen := 2, k := 32, iter := 2,
    bindings := [(ascii "st", .store ⟨2, [0x11, 0x22, 0x33, 0x44], 4, 704⟩)] }

/-- The same, the chip about to answer these values. -/
def session (values : List Byte) : State := sessionTold (values.map .value)

/-- A Transceive reply in register values: StartSend's read, ComIrqReg, BitFramingReg, ErrorReg, and the response. -/
def replied (error : Byte) (bytes : List Byte) (validBits : Byte) : List Byte :=
  [0x00, 0x60, 0x80, error, BitVec.ofNat 8 bytes.length] ++ bytes ++ [validBits]

/-- TR-1 to TR-9. -/
theorem test_reg_write : shows (.regWrite .command 0x0F) (up []) = some ([.spi [0x02, 0x0F] []], some (.value .unit)) := by decide +kernel
theorem test_reg_write_n : shows (.regWriteN .fifoData [0x93, 0x20]) (up []) = some ([.spi [0x12, 0x93, 0x20] []], some (.value .unit)) := by
  decide
theorem test_reg_write_n_empty : shows (.regWriteN .fifoData []) (up []) = some ([], some (.value .unit)) := by decide +kernel
theorem test_reg_read : shows (.regRead .comIrq) (up [0x30]) = some ([.spi [0x88, 0x00] [0x30]], some (.value (.byte 0x30))) := by decide +kernel
theorem test_reg_read_n : shows (.regReadN .fifoData 3 1) (up [0x33, 0x44, 0x44]) =
    some ([.spi [0x92, 0x92, 0x92, 0x00] [0x33, 0x44, 0x44]], some (.value (.bytes [0x32, 0x44, 0x44]))) := by decide +kernel
theorem test_reg_read_n_align7 : shows (.regReadN .fifoData 1 7) (up [0xFF]) =
    some ([.spi [0x92, 0x00] [0xFF]], some (.value (.bytes [0x80]))) := by decide +kernel
theorem test_reset_line : leaves (fun t => (t.resetLine, t.trace)) (.resetLine .high) { up [] with resetLine := .low } =
    some (.high, [.reset .high]) := by decide +kernel

/-- TR-10 to TR-12. -/
theorem test_set_bits : ((setBits .reference .bitFraming 0x80).exec (up [0x07])).2.trace.map Event.seen =
    [.spi [0x9A, 0x00] [0x07], .spi [0x1A, 0x87] []] := by decide +kernel
theorem test_clear_bits : ((clearBits .reference .status2 0x08).exec (up [0x0C])).2.trace.map Event.seen =
    [.spi [0x90, 0x00] [0x0C], .spi [0x10, 0x04] []] := by decide +kernel

/-- R92 and R210. -/
theorem test_pcd_idle : shows .pcdIdle (up []) = some ([.spi [0x02, 0x00] []], some (.value .unit)) := by decide +kernel
theorem test_pcd_calc_crc : shows .pcdCalcCrc (up []) = some ([.spi [0x02, 0x03] []], some (.value .unit)) := by decide +kernel
theorem test_pcd_transceive : shows .pcdTransceive (up [0x07]) =
    some ([.spi [0x02, 0x0C] [], .spi [0x9A, 0x00] [0x07], .spi [0x1A, 0x87] []], some (.value .unit)) := by decide +kernel
theorem test_pcd_mf_authent : shows .pcdMfAuthent (up []) = some ([.spi [0x02, 0x0E] []], some (.value .unit)) := by decide +kernel
theorem test_pcd_soft_reset : shows .pcdSoftReset (up []) = some ([.spi [0x02, 0x0F] []], some (.value .unit)) := by decide +kernel

/-- R13 and R29: the states an antenna call stands in between its two primitives. -/
theorem test_passes : (passes .antennaOn (up [0x80])).map (fun u => (u.busy, u.pos, u.trace.length)) =
    [(true, .running .setAntennaState 1, 1), (true, .running .setAntennaState 2, 2)] := by decide +kernel

/-- TX-1, event by event. -/
theorem test_reqa : shows .reqa (up [0x07, 0x60, 0x87, 0x00, 0x02, 0x04, 0x00, 0x10]) =
    some ([.spi [0x02, 0x00] [], .spi [0x08, 0x7F] [], .spi [0x1A, 0x07] [], .spi [0x14, 0x80] [], .spi [0x12, 0x26] [],
      .spi [0x02, 0x0C] [], .spi [0x9A, 0x00] [0x07], .spi [0x1A, 0x87] [], .spi [0x88, 0x00] [0x60], .spi [0x9A, 0x00] [0x87],
      .spi [0x1A, 0x07] [], .spi [0x8C, 0x00] [0x00], .spi [0x94, 0x00] [0x02], .spi [0x92, 0x92, 0x00] [0x04, 0x00],
      .spi [0x98, 0x00] [0x10]], some (.value (.outcome .ok))) := by decide +kernel

/-- TX-4: the deadline ends the poll; 12 events. -/
theorem test_reqa_deadline : tally .reqa (told [.value 0x07, .value 0x00, .deadline 0, .value 0x87]) = some (12, some (.value (.outcome .timeout))) := by
  decide

/-- R95: WUPA is a short frame, BitFraming 0x07. -/
theorem test_wupa : frames .wupa (up [0x07, 0x41, 0x87]) = some [(0x07, [0x52])] := by decide +kernel

/-- R95: HLTA's answer is not read, so the read of ErrorReg is the twelfth event and the last. -/
theorem test_hlta : tally (.hlta 0x57 0xCD) (up [0x00, 0x60, 0x80, 0x00]) = some (12, some (.value (.outcome .ok))) := by decide +kernel

/-- SE-2's second pass: BitFraming 0x11, and the first received byte masked with 0xFE. -/
theorem test_anticoll_cl1 : leaves (fun t => (t.rsp, (t.trace.map Event.seen)[2]?)) (.anticollCL1 0x41 [0x11, 0x22, 0x01])
    (up (replied 0x00 [0x33, 0x44, 0x44] 0x00)) = some (⟨[0x32, 0x44, 0x44], 0⟩, some (.spi [0x1A, 0x11] [])) := by decide +kernel

theorem test_anticoll_cl2 : frames (.anticollCL2 0x20 []) (up (replied 0x00 [0xC3, 0xD4, 0xE5, 0xF6, 0x04] 0x00)) =
    some [(0x00, [0x95, 0x20])] := by decide +kernel
theorem test_anticoll_cl3 : frames (.anticollCL3 0x21 [0x01]) (up (replied 0x00 [0x66, 0x77, 0x88, 0x99, 0x01] 0x00)) =
    some [(0x11, [0x97, 0x21, 0x01])] := by decide +kernel

/-- The SELECT frames of SE-1, SE-3 and SE-4, their BCC among the bytes. -/
theorem test_select_cl1 : frames (.selectCL1 #v[0x11, 0x22, 0x33, 0x44] 0x51 0x9C) (up (replied 0x00 [0x08, 0xB6, 0xDD] 0x00)) =
    some [(0x00, [0x93, 0x70, 0x11, 0x22, 0x33, 0x44, 0x44, 0x51, 0x9C])] := by decide +kernel
theorem test_select_cl2 : frames (.selectCL2 #v[0xC3, 0xD4, 0xE5, 0xF6] 0x9E 0x03) (up (replied 0x00 [0x08, 0xB6, 0xDD] 0x00)) =
    some [(0x00, [0x95, 0x70, 0xC3, 0xD4, 0xE5, 0xF6, 0x04, 0x9E, 0x03])] := by decide +kernel
theorem test_select_cl3 : frames (.selectCL3 #v[0x66, 0x77, 0x88, 0x99] 0xCE 0x25) (up (replied 0x00 [0x08, 0xB6, 0xDD] 0x00)) =
    some [(0x00, [0x97, 0x70, 0x66, 0x77, 0x88, 0x99, 0x00, 0xCE, 0x25])] := by decide +kernel

/-- AU-3 and AU-1: no StartSend, 10 events. -/
theorem test_mf_auth_a : frames (.mfAuthA 0x04 (Vector.replicate 6 0xFF) #v[0x11, 0x22, 0x33, 0x44]) (up [0x10, 0x00, 0x00]) =
    some [(0x00, [0x60, 0x04, 0xFF, 0xFF, 0xFF, 0xFF, 0xFF, 0xFF, 0x11, 0x22, 0x33, 0x44])] := by decide +kernel
theorem test_mf_auth_b : tally (.mfAuthB 0x04 (Vector.replicate 6 0xFF) #v[0x11, 0x22, 0x33, 0x44]) (up [0x10, 0x00, 0x00]) =
    some (10, some (.value (.outcome .ok))) := by decide +kernel

/-- RD-3's frame and reply, WR-2's, and WR-1's second phase. -/
theorem test_mf_read : frames (.mfRead 0x04 0x26 0xEE) (up (replied 0x00 (List.replicate 16 0 ++ [0x37, 0x48]) 0x00)) =
    some [(0x00, [0x30, 0x04, 0x26, 0xEE])] := by decide +kernel
theorem test_mf_write : leaves (fun t => (framesSent .reference t.trace, t.rsp)) (.mfWrite 0x01 0xD6 0xA0) (up (replied 0x00 [0x04] 0x04)) =
    some ([(0x00, [0xA0, 0x01, 0xD6, 0xA0])], ⟨[0x04], 4⟩) := by decide +kernel
theorem test_mf_write_data : frames (.mfWriteData #v[0x01, 0x02, 0x03, 0x04, 0x05, 0x06, 0x07, 0x08, 0x09, 0x0A, 0, 0, 0, 0, 0, 0] 0xC6 0x49)
    (up (replied 0x00 [0x0A] 0x04)) =
    some [(0x00, [0x01, 0x02, 0x03, 0x04, 0x05, 0x06, 0x07, 0x08, 0x09, 0x0A, 0, 0, 0, 0, 0, 0, 0xC6, 0x49])] := by decide +kernel

/-- TX-8: an early error wins over a collision, and the FIFO is not read. -/
theorem test_transceive_early_error : tally (.transceivePicc .transceive [0x26] 7 0 true) (up [0x07, 0x60, 0x87, 0x0A]) =
    some (12, some (.value (.outcome (.comm 0x0A)))) := by decide +kernel

/-- TX-10: an empty response is no FIFO frame; 14 events. -/
theorem test_transceive_empty : tally (.transceivePicc .transceive [0x26] 7 0 true) (up [0x07, 0x60, 0x87, 0x00, 0x00, 0x10]) =
    some (14, some (.value (.outcome .ok))) := by decide +kernel

/-- The responses of TX-1, SE-2, SE-18, SE-3, RD-3 and WR-6. -/
theorem test_atqa : shows (.atqa 0x04 0x00) (up []) = some ([], some (.value (.bool true))) := by decide +kernel
theorem test_anticoll_response : leaves (fun t => (t.selBuf, t.k)) (.anticollResponse [0x32, 0x44, 0x44] 0)
    { up [] with k := 17, selBuf := #v[0x93, 0x41, 0x11, 0x22, 0x01, 0, 0, 0, 0] } =
    some (#v[0x93, 0x41, 0x11, 0x22, 0x33, 0x44, 0x44, 0, 0], 32) := by decide +kernel
theorem test_sak : leaves State.result (.sak 0x08 0xB6 0xDD) (up [0x04, 0xB6, 0xDD]) = some (some (.value (.byte 0x08))) := by decide +kernel
theorem test_sak_checksum : leaves State.result (.sak 0x08 0xB6 0xDC) (up [0x04, 0xB6, 0xDD]) = some (some (.error (.checksum .sak))) := by
  decide
theorem test_cascade_tag : leaves (fun t => (t.uid.toList.take 3, t.result)) .cascadeTag
    { up [] with selBuf := #v[0x93, 0x70, 0x88, 0x04, 0xA1, 0xB2, 0x9F, 0xAE, 0x4B] } =
    some ([0x04, 0xA1, 0xB2], some (.value (.bool true))) := by decide +kernel
theorem test_mf_read_response : leaves State.result (.mfReadResponse (Vector.replicate 16 0) 0x37 0x48) (up [0x04, 0x37, 0x49]) =
    some (some (.error (.checksum .read))) := by decide +kernel
theorem test_mf_ack : leaves (fun t => (t.rsp, t.result)) (.mfAck 0xF) (up []) = some (⟨[0xFA], 4⟩, some (.value .unit)) := by decide +kernel

/-- BR-1, event by event, with `RESET_POLL_LIMIT` 2. -/
theorem test_init : (match exec .init { State.reset with
      cfg := limited 1, resetLine := .low,
      answers := [.value 0x30, .deadline 9, .value 0x20, .value 0x00, .value 0x80] } with
      | .next t => some (t.trace.map Event.seen, t.result, t.ready, t.gen)
      | _ => none) =
    some ([.reset .high, .spi [0x82, 0x00] [0x30], .ask .reset false, .spi [0x82, 0x00] [0x20], .spi [0x90, 0x00] [0x00],
      .spi [0x10, 0x00] [], .spi [0x54, 0x90] [], .spi [0x56, 0xA9] [], .spi [0x58, 0x03] [], .spi [0x5A, 0xE8] [],
      .spi [0x2A, 0x40] [], .spi [0x22, 0x3D] [], .spi [0xA8, 0x00] [0x80], .spi [0x28, 0x83] []],
      some (.value .unit), true, 1) := by decide +kernel

/-- BR-3, with its `RESET_POLL_LIMIT` 3: the third poll ends it without a third query. -/
theorem test_init_limit : (match exec .init { State.reset with
      cfg := limited 2, resetLine := .low, answers := [.value 0x30, .deadline 9, .value 0x30, .value 0x30] } with
      | .next t => some (t.trace.map Event.seen, t.result, t.ready, t.gen)
      | _ => none) =
    some ([.reset .high, .spi [0x82, 0x00] [0x30], .ask .reset false, .spi [0x82, 0x00] [0x30], .ask .reset false,
      .spi [0x82, 0x00] [0x30]], some (.error (.timeout .reset)), false, 1) := by decide +kernel

/-- BR-12, BR-13, BR-8, BR-10, BR-15 and BR-16. -/
theorem test_antenna_state_on : shows (.setAntennaState (.lit true)) (up [0x81]) =
    some ([.spi [0xA8, 0x00] [0x81], .spi [0x28, 0x83] []], some (.value .unit)) := by decide +kernel
theorem test_antenna_state_off : shows (.setAntennaState (.lit false)) (up [0x81]) =
    some ([.spi [0xA8, 0x00] [0x81], .spi [0x28, 0x80] []], some (.value .unit)) := by decide +kernel
theorem test_antenna_on : shows .antennaOn (up [0x83]) = some ([.spi [0xA8, 0x00] [0x83]], some (.value .unit)) := by decide +kernel
theorem test_antenna_off : shows .antennaOff (up [0x80]) = some ([.spi [0xA8, 0x00] [0x80]], some (.value .unit)) := by decide +kernel
theorem test_stop_crypto1 : shows .mifareStopCrypto1 (up [0x08]) =
    some ([.spi [0x90, 0x00] [0x08], .spi [0x10, 0x00] []], some (.value .unit)) := by decide +kernel
theorem test_end_session : shows .endSession (up [0x00]) =
    some ([.spi [0x90, 0x00] [0x00], .spi [0x10, 0x00] []], some (.value .unit)) := by decide +kernel

/-- IP-3 and IP-6. -/
theorem test_card_present_collision : tally .isCardPresent (up (replied 0x08 [0x04, 0x00] 0x10)) = some (15, some (.value (.bool true))) := by
  decide
theorem test_card_present_partial : leaves State.result .isCardPresent (up (replied 0x00 [0x04, 0x00] 0x04)) =
    some (some (.value (.bool false))) := by decide +kernel

/-- SE-2: the collision at bit 17; 62 events, the CollReg read among them. -/
theorem test_select_collision : leaves (fun t => (t.trace.length, framesSent .reference t.trace, t.result, t.iter)) .select
    (up (replied 0x08 [0x11, 0x22, 0x00, 0x00, 0x00] 0x00 ++ [0x91] ++ replied 0x00 [0x33, 0x44, 0x44] 0x00 ++ [0x04, 0x51, 0x9C] ++
      replied 0x00 [0x08, 0xB6, 0xDD] 0x00 ++ [0x04, 0xB6, 0xDD])) =
    some (62, [(0x00, [0x93, 0x20]), (0x11, [0x93, 0x41, 0x11, 0x22, 0x01]), (0x00, [0x93, 0x70, 0x11, 0x22, 0x33, 0x44, 0x44, 0x51, 0x9C])],
      some (.value (.selected [0x11, 0x22, 0x33, 0x44] 0x08)), 3) := by decide +kernel

/-- SE-2 at the transaction grain: three `Xact` events, the read of CollReg between (0x91, with ValuesAfterColl as
the chip has it), and the two CRC transactions. -/
theorem test_select_collision_xact : (match execXact .select (told
      [.reply (.reply [0x11, 0x22, 0x00, 0x00, 0x00] 0 (some 17)), .value 0x80, .reply (.reply [0x32, 0x44, 0x44] 0 none), .value 0x04, .value 0x51,
        .value 0x9C, .reply (.reply [0x08, 0xB6, 0xDD] 0 none), .value 0x04, .value 0xB6, .value 0xDD]) with
      | .next t => some ((t.trace.take 3).map Event.seen, t.trace.countP (Event.starts .reference), t.result, t.iter)
      | _ => none) =
    some ([.xact .transceive [0x93, 0x20] 0 0 (.reply [0x11, 0x22, 0x00, 0x00, 0x00] 0 (some 17)), .spi [0x9C, 0x00] [0x91],
      .xact .transceive [0x93, 0x41, 0x11, 0x22, 0x01] 1 1 (.reply [0x32, 0x44, 0x44] 0 none)], 3,
      some (.value (.selected [0x11, 0x22, 0x33, 0x44] 0x08)), 3) := by decide +kernel

/-- SE-20: the cascade tag without the cascade bit is the model's fault. -/
theorem test_select_mismatch : leaves (fun t => (t.faultMark, t.uidValid, t.result)) .select
    (up (replied 0x00 [0x88, 0x04, 0xA1, 0xB2, 0x9F] 0x00 ++ [0x04, 0xAE, 0x4B] ++ replied 0x00 [0x08, 0xB6, 0xDD] 0x00 ++
      [0x04, 0xB6, 0xDD])) = some (some .cascadeTagMismatch, false, none) := by decide +kernel

/-- AU-5: a 7-byte UID gives its last four bytes; AU-4: no session. -/
theorem test_mifare_auth : frames (.mifareAuth ⟨.b, Vector.replicate 6 0xFF⟩ (.lit 0x08))
    { session [0x10, 0x00, 0x00] with uid := #v[0x04, 0xA1, 0xB2, 0xC3, 0xD4, 0xE5, 0xF6, 0, 0, 0], uidSize := 7 } =
    some [(0x00, [0x61, 0x08, 0xFF, 0xFF, 0xFF, 0xFF, 0xFF, 0xFF, 0xC3, 0xD4, 0xE5, 0xF6])] := by decide +kernel
theorem test_mifare_auth_no_session : shows (.mifareAuth ⟨.b, Vector.replicate 6 0xFF⟩ (.lit 0x04)) (up []) =
    some ([], some (.refused .noSession)) := by decide +kernel

/-- RD-1 and RD-5. -/
theorem test_mifare_read : tally (.mifareRead (.lit 0x04))
    (session ([0x04, 0x26, 0xEE] ++ replied 0x00 (List.replicate 16 0 ++ [0x37, 0x49]) 0x10 ++ [0x04, 0x37, 0x49])) =
    some (31, some (.value (.bytes (List.replicate 16 0)))) := by decide +kernel
theorem test_mifare_read_shape : leaves State.result (.mifareRead (.lit 0x04))
    (session ([0x04, 0x26, 0xEE] ++ replied 0x00 (List.replicate 17 0) 0x00)) = some (some (.error (.communication .readShape))) := by decide +kernel

/-- WR-6 and WR-4. -/
theorem test_mifare_write : tally (.mifareWrite (.lit 0x01) (.lit [1, 2, 3, 4, 5, 6, 7, 8, 9, 10]))
    (session ([0x04, 0xD6, 0xA0] ++ replied 0x00 [0xFA] 0x04 ++ [0x04, 0xC6, 0x49] ++ replied 0x00 [0xFA] 0x04)) =
    some (46, some (.value .unit)) := by decide +kernel
theorem test_mifare_write_rejected : leaves State.result (.mifareWrite (.lit 0x01) (.lit []))
    (session ([0x04, 0xD6, 0xA0] ++ replied 0x00 [0x0A] 0x04 ++ [0x04, 0x37, 0x49] ++ replied 0x00 [0x01] 0x04)) =
    some (some (.error (.writeRejected ⟨[0x01], 4⟩))) := by decide +kernel

/-- CR-3, and CR-7. -/
theorem test_calculate_crc : shows (.calculateCrc (.lit [0x08])) (told [.value 0x00, .deadline 1, .value 0x04, .value 0xB6, .value 0xDD]) =
    some ([.spi [0x02, 0x00] [], .spi [0x0A, 0x04] [], .spi [0x14, 0x80] [], .spi [0x12, 0x08] [], .spi [0x02, 0x03] [],
      .spi [0x8A, 0x00] [0x00], .ask .crc false, .spi [0x8A, 0x00] [0x04], .spi [0xC4, 0x00] [0xB6], .spi [0xC2, 0x00] [0xDD]],
      some (.value (.bytes [0xB6, 0xDD]))) := by decide +kernel
theorem test_calculate_crc_too_long : shows (.calculateCrc (.lit (List.replicate 65 0))) (up []) =
    some ([], some (.refused .tooLong)) := by decide +kernel

/-- The CRC table of 95_test_vectors.md, some of its rows. -/
theorem test_crc_values : crcBytes [0x30, 0x04] = [0x26, 0xEE] ∧ crcBytes [0xA0, 0x01] = [0xD6, 0xA0] ∧
    crcBytes [0x93, 0x70, 0x11, 0x22, 0x33, 0x44, 0x44] = [0x51, 0x9C] ∧ crcBytes (List.replicate 16 0xFF) = [0x37, 0xCB] := by decide +kernel

/-- CT-4, CT-2, ST-9 and ST-11. -/
theorem test_card_type_unmasked : shows (.cardType (.lit 0x88)) State.reset = some ([], some (.error (.unsupportedCard 0x88))) := by decide +kernel
theorem test_get_sak : CardType.all.map (fun t => leaves State.result (.getSak (.lit t)) State.reset) =
    [0x08, 0x09, 0x18, 0x00, 0x20, 0x40].map fun b : Byte => some (some (.value (.byte b))) := by decide +kernel
theorem test_make_store : shows .makeStore (session []) =
    some ([], some (.value (.store ⟨2, [0x11, 0x22, 0x33, 0x44], 4, 704⟩))) := by decide +kernel
theorem test_make_store_unsupported : shows .makeStore { session [] with sak := 0x18 } =
    some ([], some (.error (.unsupportedCard 0x18))) := by decide +kernel
theorem test_get_capacity_stale : shows (.getCapacity (ascii "st")) { session [] with gen := 3, uidValid := false } =
    some ([], some (.value (.capacity 704))) := by decide +kernel

/-- ST-2 and ST-10. -/
theorem test_authenticate_forbidden : [0, 3, 7, 63, 64, 255].map (fun a => shows (.authenticate (ascii "st") (.lit a)) (session [])) =
    List.replicate 6 (some ([], some (.refused .forbiddenBlock))) := by decide +kernel
theorem test_authenticate_failed : leaves (fun t => (t.lastAuthSector, t.result)) (.authenticate (ascii "st") (.lit 0x04))
    (session [0x01, 0x00]) = some (none, some (.error (.timeout .picc))) := by decide +kernel

/-- ST-1's second call: block 5 behind block 4, no authentication. -/
theorem test_read_block_cached : leaves (fun t => (framesSent .reference t.trace, t.lastAuthSector)) (.readBlock (ascii "st") (.lit 0x05))
    { session ([0x04, 0xAF, 0xFF] ++ replied 0x00 (List.replicate 16 0 ++ [0x37, 0x49]) 0x00 ++ [0x04, 0x37, 0x49]) with
      lastAuthSector := some 1 } = some ([(0x00, [0x30, 0x05, 0xAF, 0xFF])], some 1) := by decide +kernel

/-- ST-7 and ST-15. -/
theorem test_read_block_stale : shows (.readBlock (ascii "st") (.lit 0x01)) { session [] with gen := 3, uidValid := false } =
    some ([], some (.refused .staleSession)) := by decide +kernel
theorem test_write_block_length_first : shows (.writeBlock (ascii "st") (.lit 0x03) (.lit (List.replicate 17 0))) (session []) =
    some ([], some (.refused .payloadTooLong)) := by decide +kernel
theorem test_write_block_forbidden : shows (.writeBlock (ascii "st") (.lit 0x03) (.lit [])) (session []) =
    some ([], some (.refused .forbiddenBlock)) := by decide +kernel

/-- ST-10 through readBytes: the first authentication fails, nothing else is sent. -/
theorem test_read_bytes_failed : leaves (fun t => (framesSent .reference t.trace, t.result)) (.readBytes (ascii "st")) (session [0x01, 0x00]) =
    some ([(0x00, [0x61, 0x01, 0xFF, 0xFF, 0xFF, 0xFF, 0xFF, 0xFF, 0x11, 0x22, 0x33, 0x44])], some (.error (.timeout .picc))) := by decide +kernel

/-- ST-3: 40 bytes, 158 events, 8 transactions, the last payload zero-padded. -/
theorem test_write_bytes : leaves (fun t => (t.trace.length, (framesSent .reference t.trace).length, t.result, t.lastAuthSector))
    (.writeBytes (ascii "st") (.lit ((List.range 40).map (BitVec.ofNat 8))))
    (session ([0x10, 0x00, 0x00] ++
      [0x04, 0xD6, 0xA0] ++ replied 0x00 [0x0A] 0x04 ++ [0x04, 0x77, 0xF5] ++ replied 0x00 [0x0A] 0x04 ++
      [0x04, 0x4D, 0x92] ++ replied 0x00 [0x0A] 0x04 ++ [0x04, 0x22, 0xE8] ++ replied 0x00 [0x0A] 0x04 ++
      [0x10, 0x00, 0x00] ++
      [0x04, 0x7B, 0xF7] ++ replied 0x00 [0x0A] 0x04 ++ [0x04, 0xCD, 0x79] ++ replied 0x00 [0x0A] 0x04)) =
    some (158, 8, some (.value .unit), some 1) := by decide +kernel

/-- ST-4. -/
theorem test_write_bytes_capacity : shows (.writeBytes (ascii "st") (.lit (List.replicate 705 0))) (session []) =
    some ([], some (.error (.capacityExceeded (.length 705)))) := by decide +kernel

/-- R109: a step runs the host's next call, binds its result, and an error ends the program. -/
theorem test_step_binds : (match step { up [0x81] with pending := [lineOf "t = cardType 0x08", lineOf "antennaOn"] } with
      | .next t => some (t.bindings, t.pending)
      | _ => none) = some ([(ascii "t", .cardType .mifareClassic1K)], [lineOf "antennaOn"]) := by decide +kernel
theorem test_step_error_ends : (match step { up [] with pending := [lineOf "cardType 0x28", lineOf "antennaOn"] } with
      | .next t => some (t.result, t.pending)
      | _ => none) = some (some (.error (.unsupportedCard 0x28)), []) := by decide +kernel

/-- R262: a marked state is stuck. -/
theorem test_step_stuck : step { up [] with faultMark := some .cascadeTagMismatch } = .fault (.stuck .cascadeTagMismatch) := by rfl

/-! ### Witnesses: what a conforming environment can answer -/

theorem poll_meets {ends : Byte → Bool} {v : Byte} (h : ends v = true) : PollAnswers ends (some v) [.value v] :=
  ⟨[], 0, by simp, h, Nat.le_refl _, rfl⟩

theorem poll_slow_meets {ends : Byte → Bool} {x v : Byte} (hx : ends x = false) (h : ends v = true) :
    PollAnswers ends (some v) [.value x, .deadline 1, .value v] := ⟨[x], 1, by simpa using hx, h, Nat.le_refl _, rfl⟩

theorem poll_late_meets {ends : Byte → Bool} {x : Byte} (hx : ends x = false) : PollAnswers ends none [.value x, .deadline 0] :=
  ⟨[x], 0, by simpa using hx, rfl, rfl⟩

theorem crc_meets (d : List Byte) : CrcAnswers .reference d [.value 0x04, .value (crcLow d), .value (crcHigh d)] :=
  ⟨0x04, _, poll_meets (by decide), rfl⟩

theorem crc_slow_meets (d : List Byte) :
    CrcAnswers .reference d [.value 0x00, .deadline 1, .value 0x04, .value (crcLow d), .value (crcHigh d)] :=
  ⟨0x04, _, poll_slow_meets (x := 0x00) (by decide) (by decide), rfl⟩

/-- A conforming chip can give any reply a FIFO count can express. -/
theorem xact_meets (cmd : PiccCommand) (want : Bool) (bytes : List Byte) (vb : BitVec 3) (coll : Option Nat) (h : bytes.length ≤ 127) :
    ∃ answers, XactAnswers .reference cmd want (.reply bytes vb coll) answers := by
  refine ⟨_, 0, some 0x10, _, 0, _, poll_meets (by cases cmd <;> decide), rfl, ⟨0x10, rfl, by cases cmd <;> decide⟩,
    if coll.isSome then 0x08 else 0x00,
    if want then (BitVec.ofNat 8 bytes.length :: bytes ++ [vb.setWidth 8]).map .value else [], ?_, ?_, rfl, ?_⟩
  · cases coll
    · exact show earlyError .reference 0x00 = false by decide
    · exact show earlyError .reference 0x08 = false by decide
  · cases coll
    · exact show collError .reference 0x00 = false by decide
    · exact show collError .reference 0x08 = true by decide
  · cases want
    · rfl
    · refine ⟨BitVec.ofNat 8 bytes.length, vb.setWidth 8, ?_, by revert vb; decide, rfl⟩
      have : ∀ n ≤ 127, fifoCount .reference (BitVec.ofNat 8 n) = n := by decide
      exact this _ h

/-- `Silent`, by the chip's timer and by the deadline. -/
theorem xact_silent_meets (cmd : PiccCommand) (want : Bool) : ∃ answers, XactAnswers .reference cmd want .silent answers :=
  ⟨_, 0, some 0x01, _, 0, [], poll_meets (by cases cmd <;> decide), rfl,
    ⟨fun v hv => by cases hv; exact (by cases cmd <;> decide : commandDone .reference cmd 0x01 = false), rfl⟩⟩

theorem xact_late_meets (cmd : PiccCommand) (want : Bool) : ∃ answers, XactAnswers .reference cmd want .silent answers :=
  ⟨_, 0, none, _, 0, [], poll_late_meets (x := 0x00) (by cases cmd <;> decide), rfl,
    ⟨fun _ (hv : none = some _) => (nomatch hv), rfl⟩⟩

theorem xact_garbled_meets (cmd : PiccCommand) (want : Bool) : ∃ answers, XactAnswers .reference cmd want (.garbled 0x02) answers :=
  ⟨_, 0, some 0x10, _, 0, [.value 0x02], poll_meets (by cases cmd <;> decide), rfl, ⟨0x10, rfl, by cases cmd <;> decide⟩,
    by decide, rfl⟩

theorem level_meets (l : CascadeLevel) (field : Vector Byte 4) (sak : Byte) : ∃ answers, LevelAnswers .reference l field sak answers := by
  obtain ⟨x, hx⟩ := xact_meets .transceive true (field.toList ++ [bccOf field]) 0 none (by simp)
  obtain ⟨y, hy⟩ := xact_meets .transceive true ([sak] ++ crcBytes [sak]) 0 none (by simp [crcBytes])
  exact ⟨_, x, _, y, _, hx, crc_meets _, hy, crc_meets _, rfl⟩

/-- The passes of a level, its SELECT behind them. -/
theorem passes_meet {l : CascadeLevel} {cards : List (Vector Byte 4)} {field : Vector Byte 4} {ks : List Nat} (sak : Byte)
    (h : ∃ x, AnticollAnswers .reference cards field 0 ks x) (hk : ks.length ≤ 31) :
    ∃ answers, ResolvedAnswers .reference l cards field sak ks answers := by
  obtain ⟨x, hx⟩ := h
  obtain ⟨y, hy⟩ := xact_meets .transceive true ([sak] ++ crcBytes [sak]) 0 none (by simp [crcBytes])
  exact ⟨_, x, _, y, _, hx, hk, crc_meets _, hy, crc_meets _, rfl⟩

/-- A clean answer from `k` known bits on. -/
theorem clean_meets (cards : List (Vector Byte 4)) (field : Vector Byte 4) (k : Nat) (h : k ≤ 31) :
    ∃ x, AnticollAnswers .reference cards field k [k] x := by
  obtain ⟨x, hx⟩ := xact_meets .transceive true ((field.toList ++ [bccOf field]).drop (k / 8)) 0 none (by simp; omega)
  exact ⟨x, .clean k _ x h rfl hx⟩

/-- A card alone. -/
theorem alone_meets (l : CascadeLevel) (field : Vector Byte 4) (sak : Byte) :
    ∃ answers, ResolvedAnswers .reference l [field] field sak [0] answers := passes_meet sak (clean_meets _ _ 0 (by decide)) (by simp)

/-- Two cards that differ in the first bit: a pass with no bit known, one with one bit. -/
theorem two_meet (l : CascadeLevel) (field other : Vector Byte 4) (sak : Byte) (h1 : fieldBitOf field 1 = true) (h0 : fieldBitOf other 1 = false) :
    ∃ answers, ResolvedAnswers .reference l [field, other] field sak [0, 1] answers := by
  obtain ⟨x, hx⟩ := xact_meets .transceive true [0x01] 0 (some 1) (by decide +kernel)
  obtain ⟨y, hy⟩ := clean_meets [field, other] field 1 (by decide +kernel)
  refine passes_meet sak ⟨_, .collided 0 1 [1] [0x01] 0 0x01 x y (by decide) (by decide) (by decide) (fun q _ _ => by omega) h1 hx ⟨by decide, by decide, ?_⟩ hy⟩
    (by simp)
  have : ([field, other].filter (matchesBits field.toList 0)) = [field, other] := by simp [matchesBits]
  rw [this]
  exact ⟨by decide, by decide, ⟨field, by simp, other, by simp, by rw [h1, h0]; decide⟩, fun q _ _ => by omega⟩

/-- SE-2: two cards whose UIDs differ first in bit 17. -/
def se2 : List (Vector Byte 4) := [#v[0x11, 0x22, 0x33, 0x44], #v[0x11, 0x22, 0x32, 0x44]]

theorem se2_differ : FirstDifference se2 17 := by
  have key : ∀ q < 17, 1 ≤ q → (se2.all fun u => se2.all fun w => fieldBitOf u q == fieldBitOf w q) = true := by decide
  exact ⟨by decide, by decide, ⟨_, List.mem_cons_self, _, List.mem_cons_of_mem _ List.mem_cons_self, by decide⟩, fun q h1 h2 u hu w hw => by
    simpa using List.all_eq_true.1 (List.all_eq_true.1 (key q h2 h1) u hu) w hw⟩

theorem se2_meets : ∃ answers, ResolvedAnswers .reference .cl1 se2 #v[0x11, 0x22, 0x33, 0x44] 0x08 [0, 17] answers := by
  obtain ⟨x, hx⟩ := xact_meets .transceive true [0x11, 0x22, 0x00, 0x00, 0x00] 0 (some 17) (by decide +kernel)
  obtain ⟨y, hy⟩ := clean_meets se2 #v[0x11, 0x22, 0x33, 0x44] 17 (by decide +kernel)
  have bits : ∀ q < 17, 0 < q → (([0x11, 0x22, 0x00, 0x00, 0x00] : List Byte).getD ((q - 1) / 8 - 0 / 8) 0).getLsbD ((q - 1) % 8) =
      fieldBitOf #v[0x11, 0x22, 0x33, 0x44] q := by decide
  exact passes_meet 0x08 ⟨_, .collided 0 17 [17] [0x11, 0x22, 0x00, 0x00, 0x00] 0 0x11 x y (by decide) (by decide) (by decide +kernel)
    (fun q h1 h2 => bits q h2 h1) (by decide) hx ⟨by decide, by decide, se2_differ⟩ hy⟩ (by simp)

theorem read_meets (a : Byte) (data : Vector Byte 16) : ∃ answers, ReadAnswers .reference a data.toList answers := by
  obtain ⟨x, hx⟩ := xact_meets .transceive true (data.toList ++ crcBytes data.toList) 0 none (by simp [crcBytes])
  exact ⟨_, _, x, _, crc_slow_meets _, hx, crc_meets _, rfl⟩

theorem ack_meets : ∃ x, XactAnswers .reference .transceive true (ackReply 0x0) x := xact_meets .transceive true [0x0#4 ++ Config.mfAck] 4 none (by simp)

theorem write_meets (a : Byte) (data : List Byte) : ∃ answers, WriteAnswers .reference a data answers := by
  obtain ⟨x, hx⟩ := ack_meets
  exact ⟨_, _, x, _, x, 0, 0, crc_meets _, hx, crc_meets _, hx, rfl⟩

theorem auth_meets : ∃ answers, AuthAnswers .reference answers := xact_meets .mfAuthent false [] 0 none (by simp)

theorem sector_meets (cached : Option (Fin 16)) (a : Byte) : ∃ answers, SectorAnswers .reference cached a answers := by
  unfold SectorAnswers
  split
  · exact ⟨[], rfl⟩
  · exact auth_meets

theorem read_all_meets (content : Byte → Vector Byte 16) (bs : List Byte) (cached : Option (Fin 16)) :
    ∃ answers, ReadAllAnswers .reference content cached bs answers := by
  induction bs generalizing cached with
  | nil => exact ⟨[], rfl⟩
  | cons b bs ih =>
    unfold ReadAllAnswers
    split
    · exact ih cached
    · obtain ⟨x, hx⟩ := sector_meets cached b
      obtain ⟨y, hy⟩ := read_meets b (content b)
      obtain ⟨z, hz⟩ := ih (some (sectorOf b))
      exact ⟨_, x, y, z, hx, hy, hz, rfl⟩

theorem write_all_meets (bs : List Byte) (cs : List (List Byte)) (cached : Option (Fin 16))
    (h : cs.length ≤ (bs.filter fun b => !forbidden .reference b).length) : ∃ answers, WriteAllAnswers .reference cached bs cs answers := by
  induction bs generalizing cs cached with
  | nil =>
    cases cs with
    | nil => exact ⟨[], rfl⟩
    | cons c cs => simp at h
  | cons b bs ih =>
    cases cs with
    | nil => exact ⟨[], rfl⟩
    | cons c cs =>
      cases hb : forbidden .reference b
      · obtain ⟨x, hx⟩ := sector_meets cached b
        obtain ⟨y, hy⟩ := write_meets b c
        obtain ⟨z, hz⟩ := ih cs (some (sectorOf b)) (by simp [List.filter, hb] at h; exact h)
        exact ⟨_, by unfold WriteAllAnswers; rw [if_neg (by simp [hb])]; exact ⟨x, y, z, hx, hy, hz, rfl⟩⟩
      · obtain ⟨z, hz⟩ := ih (c :: cs) cached (by simpa [List.filter, hb] using h)
        exact ⟨z, by unfold WriteAllAnswers; rw [if_pos hb]; exact hz⟩

/-! ### Witnesses: conforming environments (R49) -/

/-- No card in the field. -/
def noCard : PiccCommand → List Byte → Reply := fun _ _ => .silent
/-- Every frame of Transceive garbled. -/
def noisy : PiccCommand → List Byte → Reply
  | .transceive, _ => .garbled 0x02
  | .mfAuthent, _  => .silent
/-- Cards that answer REQA alike, and the first anti-collision frame with a collision at bit 17 (SE-2). -/
def twoCards : PiccCommand → List Byte → Reply
  | .transceive, d => if d = [0x26] then .reply [0x04, 0x00] 0 none else
    if d = [0x93, 0x20] then .reply [0x11, 0x22, 0x00, 0x00, 0x00] 0 (some 17) else .silent
  | .mfAuthent, _ => .silent
/-- The card of SE-1. -/
def oneCard : PiccCommand → List Byte → Reply
  | .transceive, d => if d = [0x26] then .reply [0x04, 0x00] 0 none else
    if d = [0x93, 0x20] then .reply [0x11, 0x22, 0x33, 0x44, 0x44] 0 none else
    if d = [0x93, 0x70, 0x11, 0x22, 0x33, 0x44, 0x44, 0x51, 0x9C] then .reply [0x08, 0xB6, 0xDD] 0 none else .silent
  | .mfAuthent, _ => .silent

theorem noCard_conforms (n : Nat) : ConformingEnv (limited n) (chip n noCard []) :=
  chip_conforms (fun _ _ _ h => by cases h) (fun _ _ _ _ _ h => by cases h) fun _ _ => cardReply_silent _ _

theorem noisy_conforms (n : Nat) : ConformingEnv (limited n) (chip n noisy []) := by
  refine chip_conforms (fun cmd _ _ h => ?_) (fun cmd _ _ _ _ h => ?_) fun cmd d => ?_
  · cases cmd <;> cases h
    exact (by decide : earlyError (limited 0) 0x02 = true)
  · cases cmd <;> cases h
  · cases cmd
    · exact cardReply_garbled
    · exact cardReply_silent _ _

/-- An anti-collision frame of two bytes has no known bits. -/
theorem isAnticoll_pair {cfg : Cfg} {l : CascadeLevel} {k : Nat} {bits : List Byte} {a b : Byte} (h : IsAnticoll cfg l k bits [a, b]) : k = 0 := by
  obtain ⟨-, hb, hx⟩ := h
  have := congrArg List.length hx
  simp only [List.length_append, List.length_cons, List.length_nil] at this
  omega

/-- The first anti-collision frame of a level answered with a collision, or by one card. -/
theorem cardReply_first {cfg : Cfg} {cards : List (Vector Byte 4)} {sel nvb : Byte} {bytes : List Byte} {coll : Option Nat}
    (hl : bytes.length ≤ 5) (hc : ∀ p, coll = some p → FirstDifference cards p)
    (hn : coll = none → ∃ u ∈ cards, bytes = u.toList ++ [bccOf u]) :
    CardReply cfg cards .transceive [sel, nvb] (.reply bytes 0 coll) where
  collision bytes' vb p l k bits hr _ h := by
    obtain ⟨-, -, rfl⟩ := Reply.reply.inj hr
    obtain rfl := isAnticoll_pair h
    have : cards.filter (matchesBits bits 0) = cards := List.filter_eq_self.2 fun u _ => rfl
    rw [this]; exact hc p rfl
  anticoll bytes' vb coll' l k bits hr _ h := by
    obtain ⟨rfl, rfl, rfl⟩ := Reply.reply.inj hr
    obtain rfl := isAnticoll_pair h
    refine ⟨hl, fun h0 => ?_⟩
    obtain ⟨u, hu, rfl⟩ := hn h0
    exact ⟨by simp, rfl, u, hu, rfl, rfl⟩
  sak _ _ _ _ _ _ _ _ h := by have := congrArg List.length h; simp [selectBytes] at this
  auth _ _ _ h := by cases h
  authAddress _ _ _ _ h := by cases h
  read _ _ _ _ _ h := by simp [crcBytes] at h
  write _ _ body _ _ h hb := by
    have hl := congrArg List.length h
    simp [crcBytes_length] at hl
    subst hl
    rcases hb with ⟨_, h⟩ | h <;> cases h

theorem twoCards_conforms (n : Nat) : ConformingEnv (limited n) (chip n twoCards se2) := by
  refine chip_conforms (fun cmd d e h => ?_) (fun cmd d bytes vb coll h => ?_) fun cmd d => ?_
  · cases cmd <;> simp only [twoCards] at h
    · split at h <;> [cases h; (split at h <;> cases h)]
    · cases h
  · cases cmd <;> simp only [twoCards] at h
    · split at h
      · cases h; decide
      · split at h <;> cases h; decide
    · cases h
  · cases cmd <;> simp only [twoCards]
    · split
      · subst d; exact cardReply_reqa _ _ _
      · split
        · subst d
          exact cardReply_first (by decide) (fun p h => by cases h; exact se2_differ) fun h => by cases h
        · exact cardReply_silent _ _
    · exact cardReply_silent _ _

theorem oneCard_conforms (n : Nat) : ConformingEnv (limited n) (chip n oneCard [#v[0x11, 0x22, 0x33, 0x44]]) := by
  refine chip_conforms (fun cmd d e h => ?_) (fun cmd d bytes vb coll h => ?_) fun cmd d => ?_
  · cases cmd <;> simp only [oneCard] at h
    · split at h <;> [cases h; (split at h <;> [cases h; (split at h <;> cases h)])]
    · cases h
  · cases cmd <;> simp only [oneCard] at h
    · split at h
      · cases h; decide
      · split at h
        · cases h; decide
        · split at h <;> cases h; decide
    · cases h
  · cases cmd <;> simp only [oneCard]
    · split
      · subst d; exact cardReply_reqa _ _ _
      · split
        · subst d
          exact cardReply_first (by decide) (fun p h => by cases h) fun _ => ⟨_, List.mem_singleton.2 rfl, by decide⟩
        · split
          · subst d
            refine ⟨fun _ _ _ _ _ _ h => (by cases h), fun _ _ _ _ k bits _ _ h => ?_, fun bytes vb l u lo hi hr _ h => ?_,
              fun _ _ _ h => (by cases h), fun _ _ _ _ h => (by cases h), fun _ _ _ _ _ h => ?_, fun _ _ body _ _ h hb => ?_⟩
            · obtain ⟨hk, hb, hx⟩ := h
              have := congrArg List.length hx
              simp [hb] at this; omega
            · obtain ⟨rfl, rfl, -⟩ := Reply.reply.inj hr
              obtain ⟨a, b, c, e, rfl⟩ := field_cases u
              simp [selectBytes] at h
              obtain rfl := h.2.2.1
              exact ⟨0x08, by decide, rfl, fun _ => by simp [Config.cascadeTag, cascadeBit, anyBit]⟩
            · simp [crcBytes] at h
            · have hl := congrArg List.length h
              simp [crcBytes_length] at hl
              rcases hb with ⟨_, rfl⟩ | h16
              · simp at hl
              · omega
          · exact cardReply_silent _ _
    · exact cardReply_silent _ _

/-- Whether a procedure runs in an environment, its scripted answers those of the environment, and how it ends. -/
def runsIn {α : Type} [DecidableEq α] (p : Proc α) (env : Env) (s : State) (a : α) : Bool :=
  match p.exec s with
  | (.ok b, t) => decide (b = a) && env.answered s.cfg s.trace (t.trace.drop s.trace.length) && decide (t.trace.take s.trace.length = s.trace)
  | _ => false

theorem of_runsIn {α : Type} [DecidableEq α] {p : Proc α} {env : Env} {s : State} {a : α} (h : runsIn p env s a = true) :
    ∃ t evs, p.exec s = (.ok a, t) ∧ t.trace = s.trace ++ evs ∧ env.answered s.cfg s.trace evs = true := by
  unfold runsIn at h
  rcases hx : p.exec s with ⟨_ | b, t⟩ <;> rw [hx] at h
  · cases h
  · obtain ⟨⟨h1, h2⟩, h3⟩ : (b = a ∧ _) ∧ t.trace.take s.trace.length = s.trace := by simpa using h
    exact ⟨t, _, by rw [h1], (List.take_append_drop _ t.trace).symm.trans (congrArg (· ++ _) h3), h2⟩

/-! ### Witnesses: for every obligation with hypotheses, states and operands that meet them -/

theorem next_of_leaves {α : Type} {f : State → α} {i : Instr} {s : State} {a : α} (h : leaves f i s = some a) :
    ∃ t, exec i s = .next t ∧ f t = a := by
  unfold leaves at h
  rcases hx : exec i s with t | r | r <;> rw [hx] at h
  · exact ⟨t, rfl, Option.some.inj h⟩
  · cases h
  · cases h

theorem told_accepts (a : List Answer) : (told a).accepts := ⟨rfl, rfl, rfl⟩
theorem session_accepts (a : List Answer) : (sessionTold a).accepts := ⟨rfl, rfl, rfl⟩
theorem session_in (a : List Answer) : inSession (sessionTold a) (ascii "st") :=
  ⟨⟨2, [0x11, 0x22, 0x33, 0x44], 4, 704⟩, by rfl, rfl, rfl⟩

/-- The first and the last usable block, and one between. -/
theorem usable : (1 : Byte) ∉ Cfg.reference.forbidden ∧ (4 : Byte) ∉ Cfg.reference.forbidden ∧
(62 : Byte) ∉ Cfg.reference.forbidden := by decide

theorem session_inv : (session []).Inv where
  uidSize := by decide
  k := by decide
  iter := by decide
  rsp := by decide
  idle := fun _ => ⟨rfl, rfl⟩
  session := fun _ => ⟨rfl, rfl, by decide⟩
  cache := fun h => by cases h
  trace := fun e h => by cases h
  bindings := fun b h => by
    cases h with
    | head => exact ⟨by decide, rfl, rfl, by decide⟩
    | tail _ h => cases h
  result := fun v h => by cases h

theorem no_refusal {i : Instr} {s : State} {op : HostOp} {p : Proc Value} (h : callProc s.cfg .registers s i = some (op, p))
    (hn : refusalOf s i.needsReady (ownReason s i) = none) : ∀ m, ¬ i.Refusal s m := (refusalOf_none_iff h).1 hn

theorem test_witness_RegisterAddressBits : (0 : Nat) < 6 ∧ (5 : Nat) < 6 := by decide

theorem test_witness_DecodeOfEncode : ∃ l m : Line, (l.wf = true ∧ l.bindable = true ∧ l.bind.isSome = true) ∧
    m.wf = true ∧ m.bindable = true ∧ m.instr.call = none :=
  ⟨⟨some (ascii "st"), .makeStore⟩, ⟨none, .regReadN .fifoData 3 1⟩, ⟨by decide, by decide, by decide⟩, by decide, by decide, rfl⟩

theorem test_witness_StepRunsTheDecodedLine :
    (∃ s : State, s.faultMark = some .cascadeTagMismatch) ∧ (State.reset.faultMark = none ∧ State.reset.pending = []) ∧
    (∃ e, decode .reference e = .error .reservedCommand) ∧
    (∃ e l m, decode .reference e = .ok l ∧ exec l.instr (up []) = .refused m) ∧
    (∃ e l t v n, decode .reference e = .ok l ∧ exec l.instr (up []) = .next t ∧ t.result = some (.value v) ∧ l.bind = some n) ∧
    (∃ e l t v, decode .reference e = .ok l ∧ exec l.instr (up []) = .next t ∧ t.result = some (.value v) ∧ l.bind = none) ∧
    (∃ e l t x, decode .reference e = .ok l ∧ exec l.instr (up []) = .next t ∧ t.result = some (.error x)) ∧
    (∃ e l t m, decode .reference e = .ok l ∧ exec l.instr (up []) = .next t ∧ t.result = some (.refused m)) ∧
    (∃ e l s t, decode .reference e = .ok l ∧ exec l.instr s = .next t ∧ t.result = none) := by
  refine ⟨⟨{ up [] with faultMark := some .cascadeTagMismatch }, rfl⟩, ⟨rfl, rfl⟩, ⟨⟨.pcdCommand, 0, [0x01]⟩, by decide⟩,
    ⟨lineOf "getCapacity st", ⟨none, .getCapacity (ascii "st")⟩, .badOperand, by decide +kernel, by rfl⟩, ?_, ?_, ?_, ?_, ?_⟩
  · obtain ⟨t, h1, h2⟩ := next_of_leaves (f := State.result) (i := .cardType (.lit 0x08)) (s := up [])
      (a := some (.value (.cardType .mifareClassic1K))) (by decide +kernel)
    exact ⟨lineOf "t = cardType 0x08", ⟨some (ascii "t"), _⟩, t, _, _, by decide +kernel, h1, h2, rfl⟩
  · obtain ⟨t, h1, h2⟩ := next_of_leaves (f := State.result) (i := .cardType (.lit 0x08)) (s := up [])
      (a := some (.value (.cardType .mifareClassic1K))) (by decide +kernel)
    exact ⟨lineOf "cardType 0x08", ⟨none, _⟩, t, _, by decide +kernel, h1, h2, rfl⟩
  · obtain ⟨t, h1, h2⟩ := next_of_leaves (f := State.result) (i := .cardType (.lit 0x28)) (s := up [])
      (a := some (.error (.unsupportedCard 0x28))) (by decide +kernel)
    exact ⟨lineOf "cardType 0x28", ⟨none, _⟩, t, _, by decide +kernel, h1, h2⟩
  · obtain ⟨t, h1, h2⟩ := next_of_leaves (f := State.result) (i := .makeStore) (s := up [])
      (a := some (.refused .noSession)) (by decide +kernel)
    exact ⟨lineOf "makeStore", ⟨none, _⟩, t, _, by decide +kernel, h1, h2⟩
  · obtain ⟨t, h1, h2⟩ := next_of_leaves test_select_mismatch
    exact ⟨lineOf "select", ⟨none, _⟩, _, t, by decide +kernel, h1, (Prod.mk.inj (Prod.mk.inj h2).2).2⟩

theorem test_witness_PrimitivesAreAtomicSteps : ∃ (i : Instr) (s t u : State) (op : HostOp) (p : Proc Value), exec i s = .next t ∧
    callProc s.cfg .registers s i = some (op, p) ∧ u ∈ passes i s := by
  obtain ⟨t, h1, -⟩ := next_of_leaves (f := State.gen) (i := .antennaOn) (s := up [0x80]) (a := 1) (by decide +kernel)
  rcases hp : passes .antennaOn (up [0x80]) with _ | ⟨u, us⟩
  · have := test_passes; rw [hp] at this; cases this
  · exact ⟨.antennaOn, _, t, u, _, _, h1, rfl, by rw [hp]; exact List.mem_cons_self⟩

theorem test_witness_CalculateCrcProtocol :
    ((up []).accepts ∧ bytesOf (up []) (.lit []) = some [] ∧ ([] : List Byte).length ≤ Cfg.reference.fifoSize) ∧
    bytesOf (up []) (.lit (List.replicate 64 0)) = some (List.replicate 64 0) ∧
      (List.replicate 64 (0 : Byte)).length ≤ Cfg.reference.fifoSize :=
  ⟨⟨told_accepts _, rfl, by decide⟩, rfl, by decide⟩

/-- CR-4 and CR-1: both endings are reached. -/
theorem test_witness_CalculateCrcProtocol_endings :
    shows (.calculateCrc (.lit [0x08])) (told [.value 0x00, .deadline 0]) =
      some ([.spi [0x02, 0x00] [], .spi [0x0A, 0x04] [], .spi [0x14, 0x80] [], .spi [0x12, 0x08] [], .spi [0x02, 0x03] [],
        .spi [0x8A, 0x00] [0x00], .ask .crc true], some (.error (.timeout .crc))) ∧
    leaves State.result (.calculateCrc (.lit [0x08])) (up [0x04, 0xB6, 0xDD]) = some (some (.value (.bytes [0xB6, 0xDD]))) := by decide

/-- A script, and a chip that answers it. -/
theorem test_witness_CalculateCrcGivesCrcA :
    (∃ (s : State) (d : Arg (List Byte)) (bs : List Byte) (answers rest : List Answer), s.accepts ∧ bytesOf s d = some bs ∧
      bs.length ≤ s.cfg.fifoSize ∧ CrcAnswers s.cfg bs answers ∧ s.answers = answers ++ rest) ∧
    ∃ (s : State) (env : Env) (t : State), s.accepts ∧ ConformingEnv s.cfg env ∧ exec (.calculateCrc (.lit [0x08])) s = .next t ∧
      env.answered s.cfg s.trace t.trace = true ∧ s.trace = [] := by
  refine ⟨⟨told [.value 0x00, .deadline 1, .value 0x04, .value (crcLow [0x08]), .value (crcHigh [0x08])], .lit [0x08], [0x08], _, [],
    told_accepts _, rfl, by decide, crc_slow_meets _, rfl⟩, ?_⟩
  obtain ⟨t, h1, h2⟩ := next_of_leaves (f := fun t => (chip 0 noCard []).answered (limited 0) [] t.trace) (i := .calculateCrc (.lit [0x08]))
    (s := { up [0x04, 0xB6, 0xDD] with cfg := limited 0 }) (a := true) (by decide +kernel)
  exact ⟨_, _, t, ⟨rfl, rfl, rfl⟩, noCard_conforms 0, h1, h2, rfl⟩

theorem test_witness_TransportRowsRun : ∃ s : State, s.faultMark = none ∧ (∃ x xs, s.answers = .value x :: xs) ∧
    (∃ (n : Nat) (xs : List Byte) (ys : List Answer), 1 ≤ n ∧ s.answers = xs.map .value ++ ys ∧ xs.length = n) ∧
    ∃ bytes : List Byte, bytes ≠ [] :=
  ⟨up [0x30], rfl, ⟨0x30, [], rfl⟩, ⟨1, [0x30], [], by decide, rfl, rfl⟩, ⟨[0x93], by decide⟩⟩

/-- The flag clears of R202 and R207, crypto off, and the drivers on, in a conforming environment. -/
theorem test_witness_TransportRowsRun_conforming : ∀ row : Reg × Byte, row ∈ [(Reg.comIrq, 0x7F), (.divIrq, 0x04), (.status2, 0x00), (.txControl, 0x83)] →
    ∃ (s t : State) (env : Env), s.faultMark = none ∧ ConformingEnv s.cfg env ∧ exec (.regWrite row.1 row.2) s = .next t ∧
      anyBit row.2 (bit s.cfg.fields.set1) = (row.1 == .txControl) ∧ anyBit row.2 (bit s.cfg.fields.set2) = (row.1 == .txControl) ∧
      row.2 &&& crypto1On s.cfg = (if row.1 = .comIrq then 0x08 else 0) ∧ powerDown s.cfg (env.value s.trace .command) = false :=
  fun row h => ⟨{ told [] with cfg := limited 0 }, _, _, rfl, oneCard_conforms 0, rfl, by revert row; decide +kernel⟩

theorem test_witness_PcdCommandRowsRun : ∃ (s : State) (i : Instr) (c : PcdCommand) (b : Byte) (rest : List Answer), s.faultMark = none ∧
    (i, c) ∈ [(Instr.pcdIdle, PcdCommand.idle), (.pcdCalcCrc, .calcCrc), (.pcdMfAuthent, .mfAuthent), (.pcdSoftReset, .softReset)] ∧
    s.answers = .value b :: rest :=
  ⟨up [0x07], .pcdIdle, .idle, 0x07, [], rfl, by decide, rfl⟩

/-- Every ending of a transaction is reached: the deadline (TX-4), the chip's timer (TX-2), an early error (TX-3), a clean end with
and without a response, and a collision. -/
theorem test_witness_TransactionProtocol : ([0x26] : List Byte) ≠ [] ∧
    (let run := fun (want : Bool) (a : List Answer) => match
        ((transceive .reference .registers .transceive [0x26] 7 0 want).exec (told a)).1 with
      | .ok o => some o
      | .error _ => none
    run true [.value 0x07, .value 0x00, .deadline 0, .value 0x87] = some .timeout ∧
    run true ([0x07, 0x41, 0x87].map .value) = some .timeout ∧ run true ([0x07, 0x60, 0x87, 0x02].map .value) = some (.comm 0x02) ∧
    run true ([0x07, 0x60, 0x87, 0x00, 0x01, 0x04, 0x00].map .value) = some .ok ∧
    run false ([0x07, 0x60, 0x87, 0x00].map .value) = some .ok ∧
    run true ([0x07, 0x60, 0x87, 0x08, 0x01, 0x04, 0x00].map .value) = some .coll) := by decide

/-- A reply of each kind, in a conforming environment that gives it: none, a garbled one, a clean one and a collision. -/
theorem test_witness_TransactionAbstraction :
    ∀ o : XactOutcome, o ∈ [XactOutcome.timeout, .comm 0x02, .ok, .coll] →
      ∃ (tx : List Byte) (s t : State) (evs : List Event) (env : Env), ConformingEnv s.cfg env ∧
        (transceive s.cfg .registers .transceive tx 0 0 true).exec s = (.ok o, t) ∧ t.trace = s.trace ++ evs ∧
        env.answered s.cfg s.trace evs = true := by
  have go : ∀ (tx : List Byte) (env : Env) (answers : List Answer) (o : XactOutcome), ConformingEnv (limited 0) env →
      runsIn (transceive (limited 0) .registers .transceive tx 0 0 true) env { told answers with cfg := limited 0 } o = true →
      ∃ (tx : List Byte) (s t : State) (evs : List Event) (env : Env), ConformingEnv s.cfg env ∧
        (transceive s.cfg .registers .transceive tx 0 0 true).exec s = (.ok o, t) ∧ t.trace = s.trace ++ evs ∧
        env.answered s.cfg s.trace evs = true := fun tx env answers o he hr =>
    let ⟨t, evs, h1, h2, h3⟩ := of_runsIn hr
    ⟨tx, { told answers with cfg := limited 0 }, t, evs, env, he, h1, h2, h3⟩
  intro o ho
  simp only [List.mem_cons, List.not_mem_nil, or_false] at ho
  rcases ho with rfl | rfl | rfl | rfl
  · exact go [0x26] _ [.value 0, .value 0, .deadline 0, .value 0] _ (noCard_conforms 0) (by decide +kernel)
  · exact go [0x26] _ ([0, 0x30, 0, 0x02].map .value) _ (noisy_conforms 0) (by decide +kernel)
  · exact go [0x26] _ ([0, 0x30, 0, 0x00, 0x02, 0x04, 0x00, 0x00].map .value) _ (twoCards_conforms 0) (by decide +kernel)
  · exact go [0x93, 0x20] _ ([0, 0x30, 0, 0x08, 0x05, 0x11, 0x22, 0x00, 0x00, 0x00, 0x00].map .value) _ (twoCards_conforms 0)
      (by decide +kernel)

/-- TxControlReg written with both driver bits clear: what comes behind it in a conforming environment is IP-8. -/
def dark (answers : List Answer) : State := { told answers with cfg := limited 0, trace := [.spi [0x28, 0x80] [0x00, 0x00]] }

/-- A transaction with the antenna off, the card of SE-1 in the field. -/
theorem test_witness_TransactionAbstraction_antennaOff : ∃ (s t : State) (evs : List Event) (env : Env), ConformingEnv s.cfg env ∧
    (transceive s.cfg .registers .transceive [0x26] 7 0 true).exec s = (.ok .timeout, t) ∧ t.trace = s.trace ++ evs ∧
    env.answered s.cfg s.trace evs = true ∧ env.value s.trace .txControl &&& txDrivers s.cfg = 0 := by
  obtain ⟨t, evs, h1, h2, h3⟩ := of_runsIn (p := transceive (limited 0) .registers .transceive [0x26] 7 0 true)
    (env := chip 0 oneCard [#v[0x11, 0x22, 0x33, 0x44]]) (s := dark [.value 0, .value 0, .deadline 0, .value 0]) (a := .timeout)
    (by decide +kernel)
  exact ⟨dark [.value 0, .value 0, .deadline 0, .value 0], t, evs, _, oneCard_conforms 0, h1, h2, h3, by decide +kernel⟩

/-- Frames whose answer is read and not read, of MFAuthent, and a transceivePicc of no bytes. -/
theorem test_witness_FrameRowsRun : ∀ row : Instr × Byte × Nat, row ∈ [(Instr.reqa, 0x07, 1), (.hlta 0x57 0xCD, 0x00, 4),
    (.anticollCL1 0x41 [0x11, 0x22, 0x01], 0x11, 5), (.mfAuthB 0x04 (Vector.replicate 6 0xFF) #v[0x11, 0x22, 0x33, 0x44], 0x00, 12),
    (.transceivePicc .transceive [] 0 0 true, 0x00, 0)] →
    ∃ (cmd : PiccCommand) (tx : List Byte) (txLastBits rxAlign : BitVec 3) (want : Bool) (s : State) (reply : Reply)
      (answers rest : List Answer), row.1.frame s.cfg = some (cmd, tx, txLastBits, rxAlign, want) ∧ s.faultMark = none ∧
      XactAnswers s.cfg cmd want reply answers ∧ s.answers = answers ++ rest ∧
      (rxAlign.setWidth 8 <<< 4) ||| txLastBits.setWidth 8 = row.2.1 ∧ tx.length = row.2.2 := by
  have go : ∀ (row : Instr × Byte × Nat) (cmd : PiccCommand) (tx : List Byte) (txLastBits rxAlign : BitVec 3) (want : Bool),
      row.1.frame .reference = some (cmd, tx, txLastBits, rxAlign, want) → (rxAlign.setWidth 8 <<< 4) ||| txLastBits.setWidth 8 = row.2.1 →
      tx.length = row.2.2 → _ := fun row cmd tx tl al want hf hb hl =>
    let ⟨x, hx⟩ := xact_meets cmd want [0x04, 0x00] 0 none (by decide)
    (⟨cmd, tx, tl, al, want, told x, _, x, [], hf, rfl, hx, by simp [told], hb, hl⟩ : ∃ (cmd : PiccCommand) (tx : List Byte)
      (txLastBits rxAlign : BitVec 3) (want : Bool) (s : State) (reply : Reply)
      (answers rest : List Answer), row.1.frame s.cfg = some (cmd, tx, txLastBits, rxAlign, want) ∧ s.faultMark = none ∧
      XactAnswers s.cfg cmd want reply answers ∧ s.answers = answers ++ rest ∧
      (rxAlign.setWidth 8 <<< 4) ||| txLastBits.setWidth 8 = row.2.1 ∧ tx.length = row.2.2)
  intro row h
  simp only [List.mem_cons, List.not_mem_nil, or_false] at h
  rcases h with rfl | rfl | rfl | rfl | rfl <;> exact go _ _ _ _ _ _ rfl (by decide) rfl

theorem test_witness_InitSucceeds : ∀ fails : List Byte, fails ∈ [[], [0x30]] → ∃ (s : State) (v w t : Byte) (answers rest : List Answer),
    s.faultMark = none ∧ s.busy = false ∧ InitAnswers s.cfg fails v w t answers ∧ s.answers = answers ++ rest := by
  intro fails h
  have up : powerDown (limited 1) 0x20 = false := by decide
  have h : (∀ x ∈ fails, powerDown (limited 1) x = true) ∧ fails.length < (limited 1).resetPollLimit ∧ fails.length ≤ 1 := by
    revert fails; decide
  exact ⟨{ State.reset with cfg := limited 1, answers := polled 1 fails ++ [.value 0x20, .value 0x00, .value 0x80] }, 0x20, 0x00, 0x80,
    _, [], rfl, rfl, ⟨h.1, up, h.2.1, 1, h.2.2, rfl⟩, (List.append_nil _).symm⟩

/-- BR-3 with limit 2; BR-4. -/
theorem test_witness_InitGivesUp :
    (∃ (s : State) (fails : List Byte) (v : Byte) (budget : Nat) (rest : List Answer), s.faultMark = none ∧ s.busy = false ∧
      (∀ x ∈ fails ++ [v], powerDown s.cfg x = true) ∧ s.answers = polled budget (fails ++ [v]) ++ rest ∧
      fails.length + 1 = s.cfg.resetPollLimit ∧ fails.length ≤ budget) ∧
    ∃ (s : State) (fails : List Byte) (v : Byte) (budget : Nat) (rest : List Answer), s.faultMark = none ∧ s.busy = false ∧
      (∀ x ∈ fails ++ [v], powerDown s.cfg x = true) ∧ s.answers = polled budget (fails ++ [v]) ++ rest ∧
      fails.length + 1 < s.cfg.resetPollLimit ∧ fails.length = budget :=
  ⟨⟨{ State.reset with cfg := limited 1, answers := [.value 0x30, .deadline 9, .value 0x30] }, [0x30], 0x30, 9, [], rfl, rfl, by decide, rfl,
      rfl, by decide⟩,
    { State.reset with cfg := limited 1, answers := [.value 0x30, .deadline 0] }, [], 0x30, 0, [], rfl, rfl, by decide, rfl, by decide, rfl⟩

/-- A conforming environment in which init fails, its limit 2: the deadline passes first. -/
theorem test_witness_InitOutcomes : (State.reset.faultMark = none ∧ State.reset.busy = false) ∧
    ∃ (s t : State) (env : Env) (evs : List Event), s.faultMark = none ∧ s.busy = false ∧ exec .init s = .next t ∧ ConformingEnv s.cfg env ∧
      t.trace = s.trace ++ evs ∧ env.answered s.cfg s.trace evs = true ∧ t.ready = false := by
  obtain ⟨t, h1, h2⟩ := next_of_leaves (f := fun t => ((chip 1 noCard []).answered (limited 1) [] t.trace, t.ready)) (i := .init)
    (s := { State.reset with cfg := limited 1, resetLine := .low, answers := [.value 0x10, .deadline 0] }) (a := (true, false))
    (by decide +kernel)
  obtain ⟨h2, h3⟩ := Prod.mk.inj h2
  exact ⟨⟨rfl, rfl⟩, _, t, _, t.trace, rfl, rfl, h1, noCard_conforms 1, rfl, h2, h3⟩

theorem test_witness_AntennaRuns : ∃ (s : State) (v : Byte) (rest : List Answer) (i j : Instr), s.accepts ∧ s.answers = .value v :: rest ∧
    (i = .antennaOn ∨ ∃ on, i = .setAntennaState on ∧ boolOf s on = some true) ∧
    (j = .antennaOff ∨ ∃ on, j = .setAntennaState on ∧ boolOf s on = some false) :=
  ⟨up [0x81], 0x81, [], .setAntennaState (.lit true), .setAntennaState (.lit false), told_accepts _, rfl,
    .inr ⟨.lit true, rfl, rfl⟩, .inr ⟨.lit false, rfl, rfl⟩⟩

/-- The antenna switched off and on in a conforming environment. -/
theorem test_witness_AntennaRuns_conforming : ∀ on : Bool, ∃ (s : State) (i : Instr) (env : Env) (t : State), s.accepts ∧
    (i = (if on then Instr.antennaOn else .antennaOff) ∨ ∃ a, i = .setAntennaState a ∧ boolOf s a = some on) ∧ ConformingEnv s.cfg env ∧
    powerDown s.cfg (env.value s.trace .command) = false ∧ exec i s = .next t ∧ env.answered s.cfg s.trace t.trace = true ∧ s.trace = [] := by
  intro on
  obtain ⟨t, h1, h2⟩ := next_of_leaves (f := fun t => (chip 0 oneCard [#v[0x11, 0x22, 0x33, 0x44]]).answered (limited 0) [] t.trace)
    (i := .setAntennaState (.lit on)) (s := { up [0x03] with cfg := limited 0 }) (a := true) (by cases on <;> decide +kernel)
  exact ⟨_, _, _, t, ⟨rfl, rfl, rfl⟩, .inr ⟨.lit on, rfl, rfl⟩, oneCard_conforms 0, by decide +kernel, h1, h2, rfl⟩

theorem test_witness_StopCryptoRuns : ∃ (i : Instr) (s : State) (v : Byte) (rest : List Answer),
    (i = .mifareStopCrypto1 ∨ i = .endSession) ∧ s.accepts ∧ s.answers = .value v :: rest :=
  ⟨.endSession, up [0x08], 0x08, [], .inr rfl, told_accepts _, rfl⟩

theorem test_witness_StopCryptoRuns_conforming : ∃ (i : Instr) (s : State) (env : Env), (i = .mifareStopCrypto1 ∨ i = .endSession) ∧ s.accepts ∧
    ConformingEnv s.cfg env := ⟨.mifareStopCrypto1, { up [0x08] with cfg := limited 0 }, _, .inl rfl, ⟨rfl, rfl, rfl⟩, oneCard_conforms 0⟩

theorem test_witness_CardPresenceRuns : ∃ (s : State) (reply : Reply) (answers rest : List Answer), s.accepts ∧
    XactAnswers s.cfg .transceive true reply answers ∧ s.answers = answers ++ rest := by
  obtain ⟨x, hx⟩ := xact_meets .transceive true [0x04, 0x00] 0 (some 1) (by decide +kernel)
  exact ⟨told x, _, x, [], told_accepts _, hx, by simp [told]⟩

/-- IP-8: the antenna off, the card of SE-1 in the field. -/
theorem test_witness_CardPresenceRuns_antennaOff : ∃ (s t : State) (env : Env) (evs : List Event), s.accepts ∧ ConformingEnv s.cfg env ∧
    env.value s.trace .txControl &&& txDrivers s.cfg = 0 ∧ exec .isCardPresent s = .next t ∧ t.trace = s.trace ++ evs ∧
    env.answered s.cfg s.trace evs = true ∧ t.result = some (.value (.bool false)) := by
  obtain ⟨t, h1, h2⟩ := next_of_leaves (f := fun t => ((chip 0 oneCard [#v[0x11, 0x22, 0x33, 0x44]]).answered (limited 0) (dark []).trace
    (t.trace.drop 1), t.trace.take 1, t.result)) (i := .isCardPresent) (s := dark [.value 0, .value 0, .deadline 0, .value 0])
    (a := (true, (dark []).trace, some (.value (.bool false)))) (by decide +kernel)
  simp only [Prod.mk.injEq] at h2
  exact ⟨_, t, _, t.trace.drop 1, ⟨rfl, rfl, rfl⟩, oneCard_conforms 0, by decide +kernel, h1,
    by rw [← List.take_append_drop 1 t.trace, h2.2.1]; rfl, h2.1, h2.2.2⟩

/-- A card alone (SE-1), and two that collide (SE-2). -/
theorem test_witness_SelectFourByteUid : ∃ (u : Vector Byte 4) (sak : Byte), u[0] ≠ 0x88 ∧ sak &&& 0x04 = 0 ∧
    (∃ (s : State) (answers rest : List Answer), s.accepts ∧ s.answers = answers ++ rest ∧ LevelAnswers s.cfg .cl1 u sak answers) ∧
    ∃ (s : State) (answers rest : List Answer) (cards : List (Vector Byte 4)) (ks : List Nat), s.accepts ∧ s.answers = answers ++ rest ∧
      ResolvedAnswers s.cfg .cl1 cards u sak ks answers ∧ 2 ≤ ks.length := by
  obtain ⟨x, hx⟩ := level_meets .cl1 #v[0x11, 0x22, 0x33, 0x44] 0x08
  obtain ⟨y, hy⟩ := se2_meets
  exact ⟨#v[0x11, 0x22, 0x33, 0x44], 0x08, by decide, by decide, ⟨told x, x, [], told_accepts _, by simp [told], hx⟩,
    told y, y, [], se2, [0, 17], told_accepts _, by simp [told], hy, by decide⟩

/-- A collision at CL2. -/
theorem test_witness_SelectSevenByteUid : ∃ (s : State) (u : Vector Byte 7) (sak1 sak : Byte) (cards1 cards2 : List (Vector Byte 4))
    (ks1 ks2 : List Nat) (a1 a2 rest : List Answer), s.accepts ∧ u[3] ≠ 0x88 ∧ sak1 &&& 0x04 ≠ 0 ∧ sak &&& 0x04 = 0 ∧
    ResolvedAnswers s.cfg .cl1 cards1 #v[0x88, u[0], u[1], u[2]] sak1 ks1 a1 ∧
    ResolvedAnswers s.cfg .cl2 cards2 #v[u[3], u[4], u[5], u[6]] sak ks2 a2 ∧ s.answers = a1 ++ a2 ++ rest ∧ 2 ≤ ks2.length := by
  obtain ⟨x, hx⟩ := alone_meets .cl1 #v[0x88, 0x04, 0xA1, 0xB2] 0x04
  obtain ⟨y, hy⟩ := two_meet .cl2 #v[0xC3, 0xD4, 0xE5, 0xF6] #v[0xC2, 0xD4, 0xE5, 0xF6] 0x08 (by decide) (by decide +kernel)
  exact ⟨told (x ++ y), #v[0x04, 0xA1, 0xB2, 0xC3, 0xD4, 0xE5, 0xF6], 0x04, 0x08, _, _, _, _, x, y, [], told_accepts _, by decide, by decide,
    by decide, hx, hy, by simp [told], by decide⟩

theorem test_witness_SelectTenByteUid : ∃ (s : State) (u : Vector Byte 10) (sak1 sak2 sak : Byte) (cards1 cards2 cards3 : List (Vector Byte 4))
    (ks1 ks2 ks3 : List Nat) (a1 a2 a3 rest : List Answer), s.accepts ∧ sak1 &&& 0x04 ≠ 0 ∧ sak2 &&& 0x04 ≠ 0 ∧ sak &&& 0x04 = 0 ∧
    ResolvedAnswers s.cfg .cl1 cards1 #v[0x88, u[0], u[1], u[2]] sak1 ks1 a1 ∧
    ResolvedAnswers s.cfg .cl2 cards2 #v[0x88, u[3], u[4], u[5]] sak2 ks2 a2 ∧
    ResolvedAnswers s.cfg .cl3 cards3 #v[u[6], u[7], u[8], u[9]] sak ks3 a3 ∧ s.answers = a1 ++ a2 ++ a3 ++ rest := by
  obtain ⟨x, hx⟩ := alone_meets .cl1 #v[0x88, 0x04, 0x11, 0x22] 0x04
  obtain ⟨y, hy⟩ := alone_meets .cl2 #v[0x88, 0x33, 0x44, 0x55] 0x04
  obtain ⟨z, hz⟩ := two_meet .cl3 #v[0x67, 0x77, 0x88, 0x99] #v[0x66, 0x77, 0x88, 0x99] 0x08 (by decide) (by decide +kernel)
  exact ⟨told (x ++ y ++ z), #v[0x04, 0x11, 0x22, 0x33, 0x44, 0x55, 0x67, 0x77, 0x88, 0x99], 0x04, 0x04, 0x08, _, _, _, _, _, _, x, y, z, [],
    told_accepts _, by decide, by decide, by decide, hx, hy, hz, by simp [told]⟩

/-- Each clause at its edge: position not valid, `p = k`, `p = k + 1`, and the remap of 0 to 32. -/
theorem test_witness_CollisionResolution :
    collPosNotValid .reference 0xA0 = true ∧ (collPosNotValid .reference 0x91 = false ∧ collPos .reference 0x91 ≤ 17) ∧
    (collPosNotValid .reference 0x92 = false ∧ 17 < collPos .reference 0x92) ∧
    (collPosNotValid .reference 0x80 = false ∧ collPos .reference 0x80 = 32) ∧ ∃ s : State, s.answers = [.value 0x91] ∧ s.k = 17 :=
  ⟨by decide, by decide, by decide, by decide, { up [0x91] with k := 17 }, rfl, rfl⟩

/-- No known bit and 31 known bits, a response that just fits and one that does not. -/
theorem test_witness_MergeKeepsKnownBits :
    (∃ s : State, s.rsp.bytes.length ≤ 9 - (2 + 0 / 8) ∧ s.rsp.bytes.length = 7) ∧ (∃ s : State, 9 - (2 + 0 / 8) < s.rsp.bytes.length) ∧
    (∃ s : State, s.rsp.bytes.length ≤ 9 - (2 + 31 / 8) ∧ s.rsp.bytes.length = 4) ∧ ∃ s : State, 9 - (2 + 31 / 8) < s.rsp.bytes.length :=
  ⟨⟨{ up [] with rsp := ⟨List.replicate 7 0, 0⟩ }, by decide, by decide⟩, ⟨{ up [] with rsp := ⟨List.replicate 8 0, 0⟩ }, by decide⟩,
    ⟨{ up [] with rsp := ⟨List.replicate 4 0, 0⟩ }, by decide, by decide⟩, { up [] with rsp := ⟨List.replicate 5 0, 0⟩ }, by decide⟩

theorem test_witness_IndexArithmetic : (1 ≤ 1 ∧ 1 ≤ 8) ∧ (9 ≤ 9 ∧ 16 ≤ 16) ∧ (17 ≤ 17 ∧ 24 ≤ 24) ∧ 25 ≤ 32 ∧ 32 ≤ 32 ∧ 31 ≤ 31 := by decide

theorem test_witness_SelectOutcomes : (up []).accepts := told_accepts _

/-- SE-1 in a conforming environment. -/
theorem test_witness_SelectOutcomes_conforming : ∃ (s t : State) (env : Env), s.accepts ∧ ConformingEnv s.cfg env ∧ s.trace = [] ∧
    exec .select s = .next t ∧ env.answered s.cfg s.trace t.trace = true ∧
    t.result = some (.value (.selected [0x11, 0x22, 0x33, 0x44] 0x08)) := by
  obtain ⟨t, h1, h2⟩ := next_of_leaves
    (f := fun t => ((chip 0 oneCard [#v[0x11, 0x22, 0x33, 0x44]]).answered (limited 0) [] t.trace, t.result)) (i := .select)
    (s := { up ([0, 0x30, 0, 0x00, 0x05, 0x11, 0x22, 0x33, 0x44, 0x44, 0x00, 0x04, 0x51, 0x9C, 0, 0x30, 0, 0x00, 0x03, 0x08, 0xB6, 0xDD,
      0x00, 0x04, 0xB6, 0xDD]) with cfg := limited 0 }) (a := (true, some (.value (.selected [0x11, 0x22, 0x33, 0x44] 0x08))))
    (by decide +kernel)
  obtain ⟨h2, h3⟩ := Prod.mk.inj h2
  exact ⟨_, t, _, ⟨rfl, rfl, rfl⟩, oneCard_conforms 0, rfl, h1, h2, h3⟩

theorem test_witness_SelectIsBounded : (up []).accepts ∧ (up []).k ≤ 32 ∧ (session []).accepts ∧ (session []).k = 32 :=
  ⟨told_accepts _, by decide, session_accepts _, rfl⟩

/-- A tag without the cascade bit at CL1 and at CL2, the bit without a tag at both, and the bit at CL3. -/
theorem test_witness_CascadeMismatchFaults :
    (∀ p : Vector Byte 4 × Byte, p ∈ [(#v[0x88, 0x04, 0xA1, 0xB2], 0x08), (#v[0x11, 0x22, 0x33, 0x44], 0x04)] →
      ∃ (s : State) (cards : List (Vector Byte 4)) (ks : List Nat) (answers rest : List Answer), s.accepts ∧
        ResolvedAnswers s.cfg .cl1 cards p.1 p.2 ks answers ∧ s.answers = answers ++ rest ∧ ¬ (p.1[0] = 0x88 ↔ p.2 &&& 0x04 ≠ 0)) ∧
    (∀ p : Vector Byte 4 × Byte, p ∈ [(#v[0x88, 0x04, 0xA1, 0xB2], 0x08), (#v[0x11, 0x22, 0x33, 0x44], 0x04)] →
      ∃ (s : State) (cards1 cards2 : List (Vector Byte 4)) (u : Vector Byte 4) (sak1 : Byte) (ks1 ks2 : List Nat) (a1 a2 rest : List Answer),
        s.accepts ∧ ResolvedAnswers s.cfg .cl1 cards1 u sak1 ks1 a1 ∧ u[0] = 0x88 ∧ sak1 &&& 0x04 ≠ 0 ∧
        ResolvedAnswers s.cfg .cl2 cards2 p.1 p.2 ks2 a2 ∧ s.answers = a1 ++ a2 ++ rest ∧ ¬ (p.1[0] = 0x88 ↔ p.2 &&& 0x04 ≠ 0)) ∧
    ∃ (s : State) (cards1 cards2 cards3 : List (Vector Byte 4)) (u v w : Vector Byte 4) (sak1 sak2 sak3 : Byte) (ks1 ks2 ks3 : List Nat)
      (a1 a2 a3 rest : List Answer), s.accepts ∧ ResolvedAnswers s.cfg .cl1 cards1 u sak1 ks1 a1 ∧ u[0] = 0x88 ∧ sak1 &&& 0x04 ≠ 0 ∧
      ResolvedAnswers s.cfg .cl2 cards2 v sak2 ks2 a2 ∧ v[0] = 0x88 ∧ sak2 &&& 0x04 ≠ 0 ∧
      ResolvedAnswers s.cfg .cl3 cards3 w sak3 ks3 a3 ∧ s.answers = a1 ++ a2 ++ a3 ++ rest ∧ sak3 &&& 0x04 ≠ 0 := by
  have bad : ∀ p : Vector Byte 4 × Byte, p ∈ [(#v[0x88, 0x04, 0xA1, 0xB2], 0x08), (#v[0x11, 0x22, 0x33, 0x44], 0x04)] →
      ¬ (p.1[0] = 0x88 ↔ p.2 &&& 0x04 ≠ 0) := by decide
  obtain ⟨x, hx⟩ := alone_meets .cl1 #v[0x88, 0x04, 0xA1, 0xB2] 0x04
  obtain ⟨y, hy⟩ := alone_meets .cl2 #v[0x88, 0x33, 0x44, 0x55] 0x04
  obtain ⟨z, hz⟩ := alone_meets .cl3 #v[0x66, 0x77, 0x88, 0x99] 0x04
  refine ⟨fun p hp => ?_, fun p hp => ?_, told (x ++ y ++ z), _, _, _, _, _, _, _, _, _, _, _, _, x, y, z, [], told_accepts _, hx, by decide,
    by decide, hy, by decide, by decide, hz, by simp [told], by decide⟩
  · obtain ⟨w, hw⟩ := alone_meets .cl1 p.1 p.2
    exact ⟨told w, _, _, w, [], told_accepts _, hw, by simp [told], bad p hp⟩
  · obtain ⟨w, hw⟩ := alone_meets .cl2 p.1 p.2
    exact ⟨told (x ++ w), _, _, _, _, _, _, x, w, [], told_accepts _, hx, by decide, by decide, hw, by simp [told], bad p hp⟩

theorem test_witness_MifareAuthRuns : ∃ (s : State) (_ : Key) (block : Arg Byte) (a : Byte) (reply : Reply) (answers rest : List Answer),
    s.accepts ∧ s.uidValid = true ∧ byteOf s block = some a ∧ XactAnswers s.cfg .mfAuthent false reply answers ∧
    s.answers = answers ++ rest := by
  obtain ⟨x, hx⟩ := xact_late_meets .mfAuthent false
  exact ⟨sessionTold x, ⟨.b, Vector.replicate 6 0xFF⟩, .lit 0x04, 0x04, _, x, [], session_accepts _, rfl, rfl, hx,
    by simp [sessionTold, told]⟩

theorem test_witness_MifareReadRuns : ∃ (s : State) (block : Arg Byte) (a : Byte) (data : Vector Byte 16) (answers rest : List Answer), s.accepts ∧
    byteOf s block = some a ∧ ReadAnswers s.cfg a data.toList answers ∧ s.answers = answers ++ rest := by
  obtain ⟨x, hx⟩ := read_meets 0x04 (Vector.replicate 16 0)
  exact ⟨told x, .lit 0x04, 0x04, _, x, [], told_accepts _, rfl, hx, by simp [told]⟩

/-- A reply for each of the four first checks, and one for the CRC check. -/
theorem test_witness_MifareReadFails :
    (∀ reply : Reply, reply = .silent ∨ reply = .garbled 0x02 ∨ reply = .reply [] 0 (some 1) ∨ reply = .reply (List.replicate 17 0) 0 none →
      ∃ (s : State) (block : Arg Byte) (a : Byte) (c1 x rest : List Answer), s.accepts ∧ byteOf s block = some a ∧
        CrcAnswers s.cfg [s.cfg.picc.read, a] c1 ∧ XactAnswers s.cfg .transceive true reply x ∧ s.answers = c1 ++ x ++ rest) ∧
    ∃ (s : State) (block : Arg Byte) (a : Byte) (bytes : List Byte) (c1 x polls rest : List Answer) (v lo hi : Byte), s.accepts ∧
      byteOf s block = some a ∧ CrcAnswers s.cfg [s.cfg.picc.read, a] c1 ∧ XactAnswers s.cfg .transceive true (.reply bytes 0 none) x ∧
      bytes.length = 18 ∧ PollAnswers (crcIrq s.cfg) (some v) polls ∧ bytes.drop 16 ≠ [lo, hi] ∧
      s.answers = c1 ++ x ++ polls ++ .value lo :: .value hi :: rest := by
  have start : ∀ {reply : Reply}, (∃ x, XactAnswers .reference .transceive true reply x) → ∃ (s : State) (block : Arg Byte) (a : Byte)
      (c1 x rest : List Answer), s.accepts ∧ byteOf s block = some a ∧ CrcAnswers s.cfg [s.cfg.picc.read, a] c1 ∧
      XactAnswers s.cfg .transceive true reply x ∧ s.answers = c1 ++ x ++ rest :=
    fun ⟨x, hx⟩ => ⟨told ([.value 0x04, .value (crcLow [0x30, 0x04]), .value (crcHigh [0x30, 0x04])] ++ x), .lit 0x04, 0x04, _, x, [],
      told_accepts _, rfl, crc_meets _, hx, (List.append_nil _).symm⟩
  have set : crcIrq .reference 0x04 = true := by decide
  refine ⟨?_, ?_⟩
  · rintro reply (rfl | rfl | rfl | rfl)
    · exact start (xact_silent_meets _ _)
    · exact start (xact_garbled_meets _ _)
    · exact start (xact_meets _ _ _ _ _ (by decide))
    · exact start (xact_meets _ _ _ _ _ (by decide))
  · obtain ⟨x, hx⟩ := xact_meets .transceive true (List.replicate 18 0) 0 none (by decide +kernel)
    exact ⟨told ([.value 0x04, .value (crcLow [0x30, 0x04]), .value (crcHigh [0x30, 0x04])] ++ x ++ [.value 0x04] ++ [.value 0x37, .value 0x49]),
      .lit 0x04, 0x04, _, _, x, _, [], 0x04, 0x37, 0x49, told_accepts _, rfl, crc_meets _, hx, by decide, poll_meets set, by decide,
      rfl⟩

/-- The deadline of either CRC of a read. -/
theorem test_witness_MifareReadFails_late :
    (∃ (s : State) (block : Arg Byte) (a : Byte) (polls rest : List Answer), s.accepts ∧ byteOf s block = some a ∧
      PollAnswers (crcIrq s.cfg) none polls ∧ s.answers = polls ++ rest) ∧
    ∃ (s : State) (block : Arg Byte) (a : Byte) (bytes : List Byte) (c1 x polls rest : List Answer), s.accepts ∧ byteOf s block = some a ∧
      CrcAnswers s.cfg [s.cfg.picc.read, a] c1 ∧ XactAnswers s.cfg .transceive true (.reply bytes 0 none) x ∧ bytes.length = 18 ∧
      PollAnswers (crcIrq s.cfg) none polls ∧ s.answers = c1 ++ x ++ polls ++ rest := by
  have late : PollAnswers (crcIrq .reference) none [.value 0x00, .deadline 0] := poll_late_meets (by decide)
  obtain ⟨x, hx⟩ := xact_meets .transceive true (List.replicate 18 0) 0 none (by decide +kernel)
  exact ⟨⟨told [.value 0x00, .deadline 0], .lit 0x04, 0x04, _, [], told_accepts _, rfl, late, rfl⟩,
    told ([.value 0x04, .value (crcLow [0x30, 0x04]), .value (crcHigh [0x30, 0x04])] ++ x ++ [.value 0x00, .deadline 0]), .lit 0x04, 0x04,
    _, _, x, _, [], told_accepts _, rfl, crc_meets _, hx, by decide, late, (List.append_nil _).symm⟩

theorem test_witness_MifareWriteRuns : ∃ (s : State) (block : Arg Byte) (data : Arg (List Byte)) (a : Byte) (bs : List Byte)
    (answers rest : List Answer), s.accepts ∧ byteOf s block = some a ∧ bytesOf s data = some bs ∧ bs.length ≤ 16 ∧ bs.length = 16 ∧
    WriteAnswers s.cfg a bs answers ∧ s.answers = answers ++ rest := by
  obtain ⟨x, hx⟩ := write_meets 0x01 (List.replicate 16 0xFF)
  exact ⟨told x, .lit 0x01, .lit (List.replicate 16 0xFF), 0x01, _, x, [], told_accepts _, rfl, rfl, by decide, by decide, hx, by simp [told]⟩

/-- How either phase of a write fails, as the statement says it: a reply of each kind, among them a short ACK and a wrong nibble. -/
theorem test_witness_WriteRejected :
    ∀ reply : Reply, reply ∈ [Reply.silent, .garbled 0x02, .reply [0x0A] 4 (some 1), .reply [0x0A] 0 none, .reply [0x04] 4 none] →
    (∃ e : Err, (reply = .silent ∧ e = .timeout .picc) ∨ (∃ b, reply = .garbled b ∧ e = .communication (.errorReg b)) ∨
        (∃ bytes vb p, reply = .reply bytes vb (some p) ∧ e = .collision) ∨
        ∃ (bytes : List Byte) (vb : BitVec 3), reply = .reply bytes vb none ∧ ¬ (vb = 4 ∧ ∃ b, bytes = [b] ∧ b &&& 0x0F = 0x0A) ∧
          e = .writeRejected ⟨bytes, vb⟩) ∧
    (∃ (s : State) (block : Arg Byte) (data : Arg (List Byte)) (a : Byte) (bs : List Byte) (c1 x rest : List Answer), s.accepts ∧
      byteOf s block = some a ∧ bytesOf s data = some bs ∧ bs.length ≤ 16 ∧ CrcAnswers s.cfg [s.cfg.picc.write, a] c1 ∧
      XactAnswers s.cfg .transceive true reply x ∧ s.answers = c1 ++ x ++ rest) ∧
    ∃ (s : State) (block : Arg Byte) (data : Arg (List Byte)) (a : Byte) (bs : List Byte) (c1 x1 c2 x2 rest : List Answer) (high : BitVec 4),
      s.accepts ∧ byteOf s block = some a ∧ bytesOf s data = some bs ∧ bs.length ≤ 16 ∧ CrcAnswers s.cfg [s.cfg.picc.write, a] c1 ∧
      XactAnswers s.cfg .transceive true (ackReply high) x1 ∧ CrcAnswers s.cfg (bs ++ List.replicate (16 - bs.length) 0) c2 ∧
      XactAnswers s.cfg .transceive true reply x2 ∧ s.answers = c1 ++ x1 ++ c2 ++ x2 ++ rest := by
  intro reply hr
  obtain ⟨⟨x, hx⟩, hf⟩ : (∃ x, XactAnswers .reference .transceive true reply x) ∧ ∃ e : Err, (reply = .silent ∧ e = .timeout .picc) ∨
      (∃ b, reply = .garbled b ∧ e = .communication (.errorReg b)) ∨ (∃ bytes vb p, reply = .reply bytes vb (some p) ∧ e = .collision) ∨
        ∃ (bytes : List Byte) (vb : BitVec 3), reply = .reply bytes vb none ∧ ¬ (vb = 4 ∧ ∃ b, bytes = [b] ∧ b &&& 0x0F = 0x0A) ∧
          e = .writeRejected ⟨bytes, vb⟩ := by
    simp only [List.mem_cons, List.not_mem_nil, or_false] at hr
    rcases hr with rfl | rfl | rfl | rfl | rfl
    · exact ⟨xact_silent_meets _ _, _, .inl ⟨rfl, rfl⟩⟩
    · exact ⟨xact_garbled_meets _ _, _, .inr (.inl ⟨_, rfl, rfl⟩)⟩
    · exact ⟨xact_meets _ _ _ _ _ (by decide), _, .inr (.inr (.inl ⟨_, _, _, rfl, rfl⟩))⟩
    · exact ⟨xact_meets _ _ _ _ _ (by decide), _, .inr (.inr (.inr ⟨[0x0A], 0, rfl, fun h => absurd h.1 (by decide), rfl⟩))⟩
    · exact ⟨xact_meets _ _ _ _ _ (by decide), _, .inr (.inr (.inr ⟨[0x04], 4, rfl, fun h => by obtain ⟨_, b, h1, h2⟩ := h; cases h1; exact absurd h2 (by decide), rfl⟩))⟩
  obtain ⟨y, hy⟩ := ack_meets
  have c := crc_meets [0xA0, 0x01]
  exact ⟨hf, ⟨told ([.value 0x04, .value (crcLow [0xA0, 0x01]), .value (crcHigh [0xA0, 0x01])] ++ x), .lit 0x01, .lit [], 0x01, [], _, x, [],
      told_accepts _, rfl, rfl, by decide, c, hx, by simp [told]⟩,
    told (_ ++ y ++ _ ++ x), .lit 0x01, .lit [], 0x01, [], _, y, _, x, [], 0, told_accepts _, rfl, rfl, by decide, c, hy,
      crc_meets (List.replicate 16 0), hx, (List.append_nil _).symm⟩

/-- The deadline of either CRC of a write. -/
theorem test_witness_WriteRejected_late :
    (∃ (s : State) (block : Arg Byte) (data : Arg (List Byte)) (a : Byte) (bs : List Byte) (polls rest : List Answer), s.accepts ∧
      byteOf s block = some a ∧ bytesOf s data = some bs ∧ bs.length ≤ 16 ∧ PollAnswers (crcIrq s.cfg) none polls ∧
      s.answers = polls ++ rest) ∧
    ∃ (s : State) (block : Arg Byte) (data : Arg (List Byte)) (a : Byte) (bs : List Byte) (c1 x1 polls rest : List Answer) (high : BitVec 4),
      s.accepts ∧ byteOf s block = some a ∧ bytesOf s data = some bs ∧ bs.length ≤ 16 ∧ CrcAnswers s.cfg [s.cfg.picc.write, a] c1 ∧
      XactAnswers s.cfg .transceive true (ackReply high) x1 ∧ PollAnswers (crcIrq s.cfg) none polls ∧
      s.answers = c1 ++ x1 ++ polls ++ rest := by
  have late : PollAnswers (crcIrq .reference) none [.value 0x00, .deadline 0] := poll_late_meets (by decide)
  obtain ⟨x, hx⟩ := xact_meets .transceive true [0xFA] 4 none (by decide)
  exact ⟨⟨told [.value 0x00, .deadline 0], .lit 0x04, .lit [], 0x04, [], _, [], told_accepts _, rfl, rfl, by decide, late, rfl⟩,
    told ([.value 0x04, .value (crcLow [0xA0, 0x04]), .value (crcHigh [0xA0, 0x04])] ++ x ++ [.value 0x00, .deadline 0]), .lit 0x04, .lit [],
    0x04, [], _, x, _, [], 0xF, told_accepts _, rfl, rfl, by decide, crc_meets _, hx, late, (List.append_nil _).symm⟩

theorem test_witness_CardTypesRun : State.reset.faultMark = none ∧ State.reset.busy = false ∧
    (byteOf State.reset (.lit 0x08) = some 0x08 ∧ Cfg.reference.typeOf 0x08 = some .mifareClassic1K) ∧
    (byteOf State.reset (.lit 0x88) = some 0x88 ∧ Cfg.reference.typeOf 0x88 = none) ∧
    (typeOf State.reset (.lit .iso18092) = some .iso18092 ∧ Cfg.reference.sakOf .iso18092 = some 0x40) ∧
    ∃ cfg : Cfg, cfg.sakOf .iso18092 = none :=
  ⟨rfl, rfl, ⟨rfl, by decide⟩, ⟨rfl, by decide⟩, ⟨rfl, by decide⟩,
    { limited 0 with cardTypes := [(0x08, .mifareClassic1K)], legal := by decide +kernel }, by decide⟩

theorem test_witness_MakeStoreRuns : ((session []).accepts ∧ (session []).uidValid = true ∧ (session []).sak = 0x08) ∧
    ∃ s : State, s.accepts ∧ s.uidValid = true ∧ s.sak ≠ 0x08 :=
  ⟨⟨session_accepts _, rfl, rfl⟩, { session [] with sak := 0x18 }, ⟨rfl, rfl, rfl⟩, rfl, by decide⟩

theorem test_witness_GetCapacityRuns : ∃ (s : State) (name : Name) (st : Store), s.Inv ∧ s.faultMark = none ∧ storeOf s name = some st :=
  ⟨session [], ascii "st", _, session_inv, rfl, by rfl⟩

/-- The first and the last usable block, the sector cached and not. -/
theorem test_witness_AuthenticateRuns :
    (∃ (s : State) (name : Name) (block : Arg Byte) (a : Byte) (rest answers : List Answer), s.accepts ∧ inSession s name ∧
      byteOf s block = some a ∧ a.toNat < 64 ∧ a ∉ s.cfg.forbidden ∧ s.answers = answers ++ rest ∧
      s.lastAuthSector = some (Fin.ofNat 16 (a.toNat / 4)) ∧ answers = []) ∧
    ∃ (s : State) (name : Name) (block : Arg Byte) (a : Byte) (rest answers : List Answer), s.accepts ∧ inSession s name ∧
      byteOf s block = some a ∧ a.toNat < 64 ∧ a ∉ s.cfg.forbidden ∧ s.answers = answers ++ rest ∧
      s.lastAuthSector ≠ some (Fin.ofNat 16 (a.toNat / 4)) ∧ AuthAnswers s.cfg answers := by
  obtain ⟨x, hx⟩ := auth_meets
  exact ⟨⟨{ session [] with lastAuthSector := some 0 }, ascii "st", .lit 1, 1, [], [], ⟨rfl, rfl, rfl⟩, ⟨_, by rfl, rfl, rfl⟩, rfl, by decide,
    usable.1, rfl, by decide, rfl⟩,
    sessionTold x, ascii "st", .lit 62, 62, [], x, session_accepts _, session_in _, rfl, by decide, usable.2.2, by simp [sessionTold, told],
    (fun h => by cases h), hx⟩

theorem test_witness_FailedAuthKeepsTheCache :
    ∀ reply : Reply, reply = .silent ∨ reply = .garbled 0x02 ∨ reply = .reply [] 0 (some 1) →
    ∃ (s : State) (name : Name) (block : Arg Byte) (a : Byte) (e : Err) (rest answers : List Answer), s.accepts ∧
      inSession s name ∧ byteOf s block = some a ∧ a.toNat < 64 ∧ a ∉ s.cfg.forbidden ∧
      s.lastAuthSector ≠ some (Fin.ofNat 16 (a.toNat / 4)) ∧ XactAnswers s.cfg .mfAuthent false reply answers ∧ s.answers = answers ++ rest ∧
      ((reply = .silent ∧ e = .timeout .picc) ∨ (∃ b, reply = .garbled b ∧ e = .communication (.errorReg b)) ∨
        (∃ bytes vb p, reply = .reply bytes vb (some p) ∧ e = .collision)) := by
  rintro reply (rfl | rfl | rfl)
  · obtain ⟨x, hx⟩ := xact_silent_meets .mfAuthent false
    exact ⟨sessionTold x, ascii "st", .lit 4, 4, _, [], x, session_accepts _, session_in _, rfl, by decide, usable.2.1,
      (fun h => by cases h), hx, by simp [sessionTold, told], .inl ⟨rfl, rfl⟩⟩
  · obtain ⟨x, hx⟩ := xact_garbled_meets .mfAuthent false
    exact ⟨sessionTold x, ascii "st", .lit 4, 4, _, [], x, session_accepts _, session_in _, rfl, by decide, usable.2.1,
      (fun h => by cases h), hx, by simp [sessionTold, told], .inr (.inl ⟨_, rfl, rfl⟩)⟩
  · obtain ⟨x, hx⟩ := xact_meets .mfAuthent false [] 0 (some 1) (by decide +kernel)
    exact ⟨sessionTold x, ascii "st", .lit 4, 4, _, [], x, session_accepts _, session_in _, rfl, by decide, usable.2.1,
      (fun h => by cases h), hx, by simp [sessionTold, told], .inr (.inr ⟨_, _, _, rfl, rfl⟩)⟩

theorem test_witness_ReadBlockRuns : ∃ (s : State) (name : Name) (block : Arg Byte) (a : Byte) (data : Vector Byte 16) (x y rest : List Answer),
    s.accepts ∧ inSession s name ∧ byteOf s block = some a ∧ a.toNat < 64 ∧ a ∉ s.cfg.forbidden ∧ SectorAnswers s.cfg s.lastAuthSector a x ∧
    ReadAnswers s.cfg a data.toList y ∧ s.answers = x ++ y ++ rest := by
  obtain ⟨x, hx⟩ := sector_meets none 62
  obtain ⟨y, hy⟩ := read_meets 62 (Vector.replicate 16 0)
  exact ⟨sessionTold (x ++ y), ascii "st", .lit 62, 62, _, x, y, [], session_accepts _, session_in _, rfl, by decide, usable.2.2, hx, hy,
    by simp [sessionTold, told]⟩

/-- Both endings of the authentication in front of a read: its error is the read's, and behind its success the READ is the raw one. -/
theorem test_witness_ReadBlockRuns_anyChip : (session []).accepts ∧ inSession (session []) (ascii "st") ∧ (62 : Byte).toNat < 64 ∧
    (62 : Byte) ∉ (session []).cfg.forbidden ∧
    leaves State.result (.authenticate (ascii "st") (.lit 62)) (session [0x01, 0x00]) = some (some (.error (.timeout .picc))) ∧
    leaves State.result (.readBlock (ascii "st") (.lit 62)) (session [0x01, 0x00]) = some (some (.error (.timeout .picc))) ∧
    leaves (fun t => (t.result, t.lastAuthSector)) (.readBlock (ascii "st") (.lit 62))
      (session ([0x10, 0x00, 0x00, 0x04, 0x00, 0x00] ++ [0x00, 0x01, 0x80])) = some (some (.error (.timeout .picc)), some 15) :=
  ⟨session_accepts _, session_in _, by decide, usable.2.2, by decide +kernel, by decide +kernel, by decide +kernel⟩

theorem test_witness_WriteBlockRuns : ∃ (s : State) (name : Name) (block : Arg Byte) (data : Arg (List Byte)) (a : Byte)
    (bs : List Byte) (x y rest : List Answer), s.accepts ∧ inSession s name ∧ byteOf s block = some a ∧ bytesOf s data = some bs ∧
    bs.length ≤ 16 ∧ a.toNat < 64 ∧ a ∉ s.cfg.forbidden ∧ SectorAnswers s.cfg s.lastAuthSector a x ∧ WriteAnswers s.cfg a bs y ∧
    s.answers = x ++ y ++ rest := by
  obtain ⟨x, hx⟩ := sector_meets none 1
  obtain ⟨y, hy⟩ := write_meets 1 (List.replicate 16 0xFF)
  exact ⟨sessionTold (x ++ y), ascii "st", .lit 1, .lit (List.replicate 16 0xFF), 1, _, x, y, [], session_accepts _, session_in _, rfl, rfl,
    by decide, by decide, usable.1, hx, hy, by simp [sessionTold, told]⟩

/-- The same in front of a write. -/
theorem test_witness_WriteBlockRuns_anyChip : (session []).accepts ∧ inSession (session []) (ascii "st") ∧ (1 : Byte).toNat < 64 ∧
    (1 : Byte) ∉ (session []).cfg.forbidden ∧
    leaves State.result (.writeBlock (ascii "st") (.lit 1) (.lit [])) (session [0x01, 0x00]) = some (some (.error (.timeout .picc))) ∧
    leaves (fun t => (t.result, t.lastAuthSector)) (.writeBlock (ascii "st") (.lit 1) (.lit []))
      (session ([0x10, 0x00, 0x00, 0x04, 0x00, 0x00] ++ [0x00, 0x01, 0x80])) = some (some (.error (.timeout .picc)), some 0) :=
  ⟨session_accepts _, session_in _, by decide, usable.1, by decide +kernel, by decide +kernel⟩

theorem test_witness_UsableSequence : (63 : Byte).toNat < 64 := by decide

theorem test_witness_ReadBytesRuns : ∃ (s : State) (name : Name) (content : Byte → Vector Byte 16) (answers rest : List Answer), s.accepts ∧
    inSession s name ∧ ReadAllAnswers s.cfg content s.lastAuthSector allBlocks answers ∧ s.answers = answers ++ rest ∧
    s.cfg.forbidden = Cfg.reference.forbidden := by
  obtain ⟨x, hx⟩ := read_all_meets (fun _ => Vector.replicate 16 0) allBlocks none
  exact ⟨sessionTold x, ascii "st", _, x, [], session_accepts _, session_in _, hx, by simp [sessionTold, told], rfl⟩

/-- A full store: 704 bytes. -/
theorem test_witness_WriteBytesRuns : ∃ (s : State) (name : Name) (data : Arg (List Byte)) (bs : List Byte) (answers rest : List Answer), s.accepts ∧
    inSession s name ∧ bytesOf s data = some bs ∧ bs.length ≤ 704 ∧ bs.length = 704 ∧
    WriteAllAnswers s.cfg s.lastAuthSector allBlocks (chunksOf bs) answers ∧ s.answers = answers ++ rest := by
  obtain ⟨bs, hl⟩ : ∃ bs : List Byte, bs.length = 704 := ⟨_, List.length_replicate (a := 0xFF)⟩
  obtain ⟨x, hx⟩ := write_all_meets allBlocks (chunksOf bs) none (by
    have : (chunksOf bs).length = 44 := by unfold chunksOf; rw [List.length_map, List.length_range, hl]; rfl
    rw [this]; decide +kernel)
  exact ⟨sessionTold x, ascii "st", .lit bs, bs, x, [], session_accepts _, session_in _, rfl, le_of_eq hl, hl, hx,
    (List.append_nil x).symm⟩

/-- A write of 20 bytes whose second block fails: the first stays written, the error is the second one's (R240). -/
theorem test_write_bytes_half : leaves (fun t => ((framesSent .reference t.trace).length, t.result, t.lastAuthSector))
    (.writeBytes (ascii "st") (.lit (List.replicate 20 0))) (session ([0x10, 0x00, 0x00] ++
      [0x04, 0x00, 0x00] ++ replied 0x00 [0x0A] 0x04 ++ [0x04, 0x00, 0x00] ++ replied 0x00 [0x0A] 0x04 ++ [0x04, 0x00, 0x00] ++
      replied 0x00 [0x04] 0x04)) = some (4, some (.error (.writeRejected ⟨[0x04], 4⟩)), some 0) := by decide +kernel

/-- 705 bytes, and none. -/
theorem test_witness_WriteBytesLimits : ∃ (s : State) (name : Name), s.accepts ∧ inSession s name ∧
    (bytesOf s (.lit (List.replicate 705 0)) = some (List.replicate 705 0) ∧ 704 < (List.replicate 705 (0 : Byte)).length) ∧
    bytesOf s (.lit []) = some [] :=
  ⟨session [], ascii "st", session_accepts _, session_in _, ⟨rfl, by rw [List.length_replicate]; decide⟩, rfl⟩

/-- The frames of a write of sixteen bytes 0xFF into block 1, its sector not yet cached. -/
def oneBlock : List (Byte × List Byte) :=
  [(0x00, [0x61, 0x01, 0xFF, 0xFF, 0xFF, 0xFF, 0xFF, 0xFF, 0x11, 0x22, 0x33, 0x44]), (0x00, [0xA0, 0x01, 0xD6, 0xA0]),
    (0x00, List.replicate 16 0xFF ++ [0x37, 0xCB])]

/-- A write of one block, and behind it a card whose block 1 holds what was written and whose other blocks hold what they held. -/
theorem test_witness_StoreRoundTrip :
    (∃ (s : State) (name : Name) (data : Arg (List Byte)) (bs : List Byte) (answers more : List Answer) (old content : Byte → Vector Byte 16)
      (rest : List Answer), s.accepts ∧ inSession s name ∧ bytesOf s data = some bs ∧ bs.length ≤ 704 ∧
      s.cfg.forbidden = Cfg.reference.forbidden ∧ WriteAllAnswers s.cfg s.lastAuthSector allBlocks (chunksOf bs) answers ∧
      s.answers = answers ++ more ∧ (∀ b, (content b).toList = holds s.cfg b oneBlock (old b).toList) ∧
      ∃ reads, ReadAllAnswers s.cfg content (some 0) allBlocks reads ∧ more = reads ++ rest) ∧
    leaves (fun t => (framesSent .reference t.trace, t.lastAuthSector)) (.writeBytes (ascii "st") (.lit (List.replicate 16 0xFF)))
      (session ([0x10, 0x00, 0x00] ++ [0x04, 0xD6, 0xA0] ++ replied 0x00 [0x0A] 0x04 ++ [0x04, 0x37, 0xCB] ++ replied 0x00 [0x0A] 0x04)) =
      some (oneBlock, some 0) := by
  refine ⟨?_, by decide +kernel⟩
  let content : Byte → Vector Byte 16 := fun b => if b = 1 then Vector.replicate 16 0xFF else Vector.replicate 16 0x00
  obtain ⟨y, hy⟩ := read_all_meets content allBlocks (some 0)
  obtain ⟨x, hx⟩ := write_all_meets allBlocks (chunksOf (List.replicate 16 0xFF)) none (by decide +kernel)
  have held : ∀ b, (content b).toList = holds .reference b oneBlock (List.replicate 16 0x00) := by decide +kernel
  exact ⟨sessionTold (x ++ y), ascii "st", .lit (List.replicate 16 0xFF), _, x, y, fun _ => Vector.replicate 16 0x00, content, [],
    session_accepts _, session_in _, rfl, by decide, rfl, hx, rfl, held, y, hy, (List.append_nil y).symm⟩

/-- No known bit and 31, a response that just fits and one that does not; the SAK and READ checks passing and failing. -/
theorem test_witness_ResponseRowsRun : ∃ s t : State, (s.faultMark = none ∧ s.k = 0 ∧ t.faultMark = none ∧ t.k = 31) ∧
    ((List.replicate 7 (0 : Byte)).length ≤ 9 - (2 + s.k / 8) ∧ 9 - (2 + s.k / 8) < (List.replicate 8 (0 : Byte)).length) ∧
    ((List.replicate 4 (0 : Byte)).length ≤ 9 - (2 + t.k / 8) ∧ 9 - (2 + t.k / 8) < (List.replicate 5 (0 : Byte)).length) ∧
    (∃ polls, PollAnswers (crcIrq s.cfg) (some 0x04) polls ∧ s.answers = polls ++ .value 0xB6 :: .value 0xDD :: []) ∧
    ¬ (0xB6#8 = 0xB6 ∧ 0xDC#8 = 0xDD) :=
  ⟨up [0x04, 0xB6, 0xDD], { up [] with k := 31 }, by decide, by decide, by decide, ⟨_, poll_meets (by decide), rfl⟩, by decide⟩

/-- The deadline of a response row's CRC. -/
theorem test_witness_ResponseRowsRun_late : ∃ (s : State) (polls rest : List Answer), s.faultMark = none ∧
    PollAnswers (crcIrq s.cfg) none polls ∧ s.answers = polls ++ rest :=
  ⟨told [.value 0x00, .deadline 0], _, [], rfl, poll_late_meets (by decide), rfl⟩

theorem test_witness_EveryCallEnds : (up []).faultMark = none ∧ Instr.callable (up []) .select ∧
    Instr.callable (session []) (.writeBytes (ascii "st") (.lit [])) :=
  ⟨rfl, trivial, by rfl, rfl⟩

theorem test_witness_FaultsAreStuck :
    (∃ s : State, s.faultMark = some .cascadeTagMismatch) ∧ (up []).faultMark = none ∧
    ∃ (s t : State) (i : Instr), exec i s = .next t ∧ t.faultMark ≠ none := by
  obtain ⟨t, h1, h2⟩ := next_of_leaves test_select_mismatch
  exact ⟨⟨{ up [] with faultMark := some .cascadeTagMismatch }, rfl⟩, rfl, _, t, _, h1, by rw [(Prod.mk.inj h2).1]; simp⟩

/-- Every reason of rule R263's table. -/
theorem test_witness_RefusalsTakeNoStep :
    (∃ s : State, s.faultMark = none ∧ Instr.callable s .select ∧ Instr.Refusal s .select .busy) ∧
    (State.reset.faultMark = none ∧ Instr.Refusal State.reset .select .notReady) ∧
    Instr.Refusal (up []) .makeStore .noSession ∧
    (∃ s : State, Instr.Refusal s (.readBytes (ascii "st")) .staleSession) ∧
    (∀ a : Byte, a ∈ [0, 3, 64, 255] → Instr.Refusal (session []) (.readBlock (ascii "st") (.lit a)) .forbiddenBlock) ∧
    Instr.Refusal (up []) (.mifareWrite (.lit 1) (.lit (List.replicate 17 0))) .payloadTooLong ∧
    Instr.Refusal (up []) (.calculateCrc (.lit (List.replicate 65 0))) .tooLong := by
  have notStale : ¬ stale (session []) (ascii "st") := fun ⟨o, h1, h2⟩ => by
    have : storeOf (session []) (ascii "st") = some ⟨2, [0x11, 0x22, 0x33, 0x44], 4, 704⟩ := by rfl
    rw [this] at h1; cases h1; exact h2 ⟨rfl, rfl⟩
  refine ⟨⟨{ up [] with busy := true }, rfl, trivial, .busy rfl rfl⟩, ⟨rfl, .notReady rfl rfl rfl rfl⟩,
    .own _ rfl (fun _ => rfl) (.noSessionStore rfl), ⟨{ session [] with gen := 3 }, .own _ rfl (fun _ => rfl) (.staleReadBytes _ ⟨_, by rfl, ?_⟩)⟩,
    ?_, .own _ rfl (fun _ => rfl) (.longMifareWrite _ _ ⟨_, rfl, by decide⟩), .own _ rfl (fun _ => rfl) (.longCalculateCrc _ ⟨_, rfl, by decide⟩)⟩
  · rintro ⟨_, h⟩; exact absurd h (by decide +kernel)
  · intro a ha
    refine .own _ rfl (fun _ => rfl) (.forbiddenReadBlock _ _ notStale ⟨a, rfl, ?_⟩)
    simp only [List.mem_cons, List.not_mem_nil, or_false] at ha
    rcases ha with rfl | rfl | rfl | rfl <;> decide

theorem test_witness_OnlyTheTableRefuses :
    (∃ t, exec .makeStore (up []) = .next t ∧ t.result = some (.refused .noSession)) ∧ ∃ t, exec .makeStore (session []) = .next t ∧
      ∀ m, ¬ Instr.Refusal (session []) .makeStore m := by
  obtain ⟨t, h1, h2⟩ := next_of_leaves (f := State.result) (i := .makeStore) (s := up [])
      (a := some (.refused .noSession)) (by decide +kernel)
  obtain ⟨u, h3, _⟩ := next_of_leaves (f := State.gen) (i := .makeStore) (s := session []) (a := 2) (by decide +kernel)
  exact ⟨⟨t, h1, h2⟩, u, h3, no_refusal (i := .makeStore) rfl (by decide)⟩

theorem test_witness_CallsGiveBackControl : ∃ (i : Instr) (s t : State), i.hostCall = true ∧ exec i s = .next t ∧
    (∀ m, ¬ i.Refusal s m) ∧ t.faultMark = none := by
  obtain ⟨u, h1, h2⟩ := next_of_leaves (f := State.faultMark) (i := .makeStore) (s := session []) (a := none) (by decide +kernel)
  exact ⟨.makeStore, session [], u, rfl, h1, no_refusal (i := .makeStore) rfl (by decide), h2⟩

/-- A select that fails at once changes the session; so the conclusion is not about calls that change nothing. -/
theorem test_witness_FieldsHaveTheirWriters : ∃ (i : Instr) (s t : State), i.hostCall = true ∧ exec i s = .next t ∧
    t.uidValid ≠ s.uidValid ∧ t.gen ≠ s.gen := by
  obtain ⟨t, h1, h2⟩ := next_of_leaves (f := fun t => (t.uidValid, t.gen)) (i := .select) (s := session [0x00, 0x41, 0x80]) (a := (false, 3))
    (by decide +kernel)
  exact ⟨.select, _, t, rfl, h1, by rw [(Prod.mk.inj h2).1]; exact (by decide : false ≠ true), by rw [(Prod.mk.inj h2).2]; exact (by decide : 3 ≠ 2)⟩

/-- calculateCrc writes the CRC, and isCardPresent the response. -/
theorem test_witness_FieldsHaveTheirWriters_buffers :
    (∃ (s t : State), exec (.calculateCrc (.lit [0x08])) s = .next t ∧ t.crcOut ≠ s.crcOut) ∧
    ∃ (s t : State), exec .isCardPresent s = .next t ∧ t.rsp ≠ s.rsp := by
  obtain ⟨t, h1, h2⟩ := next_of_leaves (f := State.crcOut) (i := .calculateCrc (.lit [0x08])) (s := up [0x04, 0xB6, 0xDD]) (a := (0xB6, 0xDD))
    (by decide +kernel)
  obtain ⟨u, h3, h4⟩ := next_of_leaves (f := State.rsp) (i := .isCardPresent) (s := up (replied 0x00 [0x04, 0x00] 0x00))
    (a := ⟨[0x04, 0x00], 0⟩) (by decide +kernel)
  exact ⟨⟨_, t, h1, by rw [h2]; decide⟩, _, u, h3, by rw [h4]; decide⟩

theorem test_witness_GenerationsCount : ∃ (s t : State) (name : Name) (st : Store) (u : State), Instr.hostCall .select = true ∧
    exec .select s = .next t ∧ (∀ m, ¬ Instr.Refusal s .select m) ∧ storeOf u name = some st ∧ st.gen ≤ s.gen ∧ t.gen ≤ u.gen := by
  obtain ⟨t, h1, h2⟩ := next_of_leaves (f := State.gen) (i := .select) (s := session [0x00, 0x41, 0x80]) (a := 3) (by decide +kernel)
  exact ⟨_, t, ascii "st", ⟨2, [0x11, 0x22, 0x33, 0x44], 4, 704⟩, { session [] with gen := 3 }, rfl, h1,
    no_refusal (i := .select) rfl (by decide), by rfl, by decide, by rw [h2]⟩

/-- A refused call, a select, an authentication that sets the cache and one that fails, and a read that caches its block's sector. -/
theorem test_witness_CacheHasItsWriters :
    (∃ t, exec .makeStore (up []) = .next t ∧ Instr.Refusal (up []) .makeStore .noSession) ∧
    (∃ s t, exec .select s = .next t ∧ ∀ m, ¬ Instr.Refusal s .select m) ∧
    (∃ s t, exec (.authenticate (ascii "st") (.lit 4)) s = .next t ∧ t.lastAuthSector ≠ s.lastAuthSector ∧ t.result = some (.value .unit)) ∧
    (∃ s t, exec (.authenticate (ascii "st") (.lit 4)) s = .next t ∧ t.result = some (.error (.timeout .picc))) ∧
    ∃ s t, exec (.readBlock (ascii "st") (.lit 62)) s = .next t ∧ t.lastAuthSector ≠ s.lastAuthSector := by
  obtain ⟨t, h1, _⟩ := next_of_leaves (f := State.gen) (i := .makeStore) (s := up []) (a := 1) (by decide +kernel)
  obtain ⟨u, h2, _⟩ := next_of_leaves (f := State.gen) (i := .select) (s := session [0x00, 0x41, 0x80]) (a := 3) (by decide +kernel)
  obtain ⟨w, h3, h4⟩ := next_of_leaves (f := fun t => (t.lastAuthSector, t.result)) (i := .authenticate (ascii "st") (.lit 4))
    (s := session [0x10, 0x00, 0x00]) (a := (some 1, some (.value .unit))) (by decide +kernel)
  obtain ⟨x, h5, h6⟩ := next_of_leaves (f := State.result) (i := .authenticate (ascii "st") (.lit 4)) (s := session [0x01, 0x00])
    (a := some (.error (.timeout .picc))) (by decide +kernel)
  obtain ⟨y, h7, h8⟩ := next_of_leaves (f := State.lastAuthSector) (i := .readBlock (ascii "st") (.lit 62))
    (s := session ([0x10, 0x00, 0x00, 0x04, 0x00, 0x00] ++ [0x00, 0x01, 0x80])) (a := some 15) (by decide +kernel)
  obtain ⟨h4, h4'⟩ := Prod.mk.inj h4
  exact ⟨⟨t, h1, .own _ rfl (fun _ => rfl) (.noSessionStore rfl)⟩, ⟨_, u, h2, no_refusal (i := .select) rfl (by decide)⟩,
    ⟨_, w, h3, by rw [h4]; exact (by decide : some (1 : Fin 16) ≠ none), h4'⟩, ⟨_, x, h5, h6⟩, _, y, h7, by rw [h8]; exact (by decide : some (15 : Fin 16) ≠ none)⟩

theorem test_witness_HostCallsKeepTheRegisterRules : ∃ (i : Instr) (s t : State), i.hostCall = true ∧ exec i s = .next t ∧
t.trace ≠ s.trace := by
  obtain ⟨t, h1, h2⟩ := next_of_leaves (f := fun t => t.trace.length) (i := .antennaOn) (s := up [0x83]) (a := 1) (by decide +kernel)
  exact ⟨.antennaOn, _, t, rfl, h1, fun h => by rw [h] at h2; cases h2⟩

theorem test_witness_StepKeepsTheInvariant : ∃ s t : State, s.Inv ∧ step s = .next t ∧ t ≠ s := by
  refine ⟨{ session [] with pending := [lineOf "makeStore"] }, ?_⟩
  obtain ⟨t, h1, h2⟩ : ∃ t, step { session [] with pending := [lineOf "makeStore"] } = .next t ∧ t.pending = [] := by
    rcases hx : step { session [] with pending := [lineOf "makeStore"] } with t | r | r
    · refine ⟨t, rfl, ?_⟩
      have : (match step { session [] with pending := [lineOf "makeStore"] } with | .next t => t.pending | _ => [lineOf ""]) = [] := by
        decide +kernel
      rw [hx] at this; exact this
    · have : (match step { session [] with pending := [lineOf "makeStore"] } with | .next _ => true | _ => false) = true := by decide +kernel
      rw [hx] at this; cases this
    · have : (match step { session [] with pending := [lineOf "makeStore"] } with | .next _ => true | _ => false) = true := by decide +kernel
      rw [hx] at this; cases this
  have i := session_inv
  exact ⟨t, ⟨i.uidSize, i.k, i.iter, i.rsp, i.idle, i.session, i.cache, i.trace, i.bindings, i.result⟩, h1, fun h => by rw [h] at h2; cases h2⟩

end Sys2Proof.Machine.Tests
end

/-! The states between the primitives of an instruction (R13, R29), and the reference configuration (R9). -/

namespace Sys2Proof.Machine

variable {i : Instr} {s t : State} {op : HostOp} {p : Proc Value}

/-! ### The states between the primitives of an instruction -/

/-- The positions of one operation. -/
def Pos.In (op : HostOp) (q : Pos) : Prop := ∃ n, q = .running op n

theorem onward_in (op : HostOp) : Onward (Pos.In op) where
  advance := by rintro _ ⟨n, rfl⟩; exact ⟨n + 1, rfl⟩

theorem onward_true : Onward fun _ => True := ⟨fun _ _ => trivial⟩

/-- Behind a primitive of an operation the step number is above 0. -/
theorem Pos.In.advance_eq {q : Pos} (h : q.In op) : ∃ n, q.advance = .running op (n + 1) := by
  obtain ⟨n, rfl⟩ := h
  exact ⟨n, rfl⟩

@[simp] theorem finishCall_trace (x : Except Stop Value × State) : (finishCall x).trace = x.2.trace := by
  rcases x with ⟨(_ | _) | _, _⟩ <;> rfl

@[simp] theorem finishRow_trace (x : Except Stop Value × State) : (finishRow x).trace = x.2.trace := by
  rcases x with ⟨(_ | _) | _, _⟩ <;> rfl

theorem passes_of_row (hf : s.faultMark = none) (h : rowProc s.cfg .registers i = some p) : passes i s = p.between s := by
  simp [passes, hf, h]

theorem rowProc_of_call (h : callProc s.cfg .registers s i = some (op, p)) : rowProc s.cfg .registers i = none := by
  rcases hr : rowProc s.cfg .registers i with _ | q
  · rfl
  · rw [row_or_call hr] at h; cases h

theorem passes_of_refused {m : RefuseReason} (h : callProc s.cfg .registers s i = some (op, p))
    (hr : refusalOf s i.needsReady (ownReason s i) = some m) : passes i s = [] := by
  simp only [passes, rowProc_of_call h, h, hr, Option.isSome_some, if_true]
  cases s.faultMark <;> rfl

theorem passes_of_call (hf : s.faultMark = none) (h : callProc s.cfg .registers s i = some (op, p))
    (hr : refusalOf s i.needsReady (ownReason s i) = none) : passes i s = p.between (s.startCall op) := by
  simp [passes, hf, rowProc_of_call h, h, hr]

/-- A call that starts walks at positions of its operation (R29). -/
theorem call_walk (h : callProc s.cfg .registers s i = some (op, p)) :
    Walk (Pos.In op) (s.startCall op) (p.between (s.startCall op)) (p.exec (s.startCall op)).2 :=
  call_walks (onward_in op) h _ ⟨0, rfl⟩

/-- The events of an instruction are those its passes show, one event more in each (R13). -/
theorem exec_traces (h : exec i s = .next t) : ∃ evs, t.trace = s.trace ++ evs ∧
    (passes i s).map State.trace = (List.range evs.length).map fun j => s.trace ++ evs.take (j + 1) := by
  obtain ⟨hf, ⟨p, hp, rfl⟩ | ⟨op, p, hp, ⟨m, hm, rfl⟩ | ⟨hn, rfl⟩⟩⟩ := exec_next h
  · rw [passes_of_row hf hp, finishRow_trace]
    exact (row_walks onward_true hp s trivial).traces
  · rw [passes_of_refused hp hm]
    exact ⟨[], by simp, rfl⟩
  · rw [passes_of_call hf hp hn, finishCall_trace]
    exact (call_walk hp).traces

/-- Between its primitives a call is in progress, without a result, at a position of its operation (R29). -/
theorem passes_in_progress (hf : s.faultMark = none) (h : callProc s.cfg .registers s i = some (op, p)) {u : State}
    (hu : u ∈ passes i s) : u.busy = true ∧ u.faultMark = none ∧ u.result = none ∧ ∃ n, u.pos = .running op (n + 1) := by
  rcases hr : refusalOf s i.needsReady (ownReason s i) with _ | m
  · rw [passes_of_call hf h hr] at hu
    obtain ⟨hbusy, hfault, hresult, q, hq, hpos⟩ := (call_walk h).busy u hu
    exact ⟨hbusy, hfault.trans hf, hresult, hpos ▸ hq.advance_eq⟩
  · rw [passes_of_refused h hr] at hu
    cases hu

/-- Settles O6: every procedure is a walk of one event from state to state, and a call starts it busy, at its own position. -/
theorem primitivesAreAtomicSteps : Obligations.PrimitivesAreAtomicSteps := fun _ _ _ h =>
  ⟨exec_traces h, fun _ _ hp _ hu => passes_in_progress (exec_next h).1 hp hu⟩

/-! ### Fields of a register (R32 to R40) -/

/-- A one-bit status query reads the bit at its position. -/
theorem anyBit_bit_eq_getLsbD (n : BitVec 3) (v : Byte) : anyBit v (bit n) = v.getLsbD n.toNat := by revert n v; decide

theorem toNat_setWidth_three (v : Byte) : (v.setWidth 3).toNat = (v &&& 0x07).toNat := by revert v; decide

theorem toNat_setWidth_five (v : Byte) : (v.setWidth 5).toNat = (v &&& 0x1F).toNat := by revert v; decide

/-- CollPos 0 stands for position 32 (R153). -/
theorem collPos_reference (v : Byte) : collPos Cfg.reference v = if v &&& 0x1F = 0 then 32 else (v &&& 0x1F).toNat := by
  have hp : collPos Cfg.reference v = if (v.setWidth 5).toNat = 0 then 32 else (v.setWidth 5).toNat := rfl
  rw [hp, toNat_setWidth_five]
  simp only [BitVec.toNat_eq, BitVec.ofNat_eq_ofNat, BitVec.toNat_ofNat, Nat.zero_mod]

/-- Settles O1: the closed parts evaluate; each status query reads its bits for every register value, and a legal configuration has a
reset limit of at least 1, whatever the OPEN one is. -/
theorem referenceConfiguration : Obligations.ReferenceConfiguration :=
  ⟨rfl, rfl, rfl, rfl, rfl, rfl, rfl, rfl, rfl, rfl, rfl, rfl, rfl,
    fun v => ⟨anyBit_bit_eq_getLsbD 4 v, anyBit_bit_eq_getLsbD 0 v, anyBit_bit_eq_getLsbD 2 v, anyBit_bit_eq_getLsbD 3 v,
      anyBit_bit_eq_getLsbD 5 v, rfl, toNat_setWidth_three v, collPos_reference v⟩,
    rfl, rfl, rfl, rfl, rfl, rfl, rfl, rfl, Cfg.reference.limit_pos⟩

end Sys2Proof.Machine

/-! The decoder receives no response of more than 127 bytes (R21, R91). -/

namespace Sys2Proof

/-- What a decoder reads receives a response of at most 127 bytes, or none (R21, R91). -/
def DecodesShort (x : Except DecodeError Instr) : Prop := ∀ i, x = .ok i → Machine.rowLength i ≤ 127

theorem decodesShort_error (e : DecodeError) : DecodesShort (.error e) := fun _ h => by cases h

theorem decodesShort_ok {i : Instr} (h : Machine.rowLength i ≤ 127) : DecodesShort (.ok i) := fun _ hx => by
  obtain rfl := Except.ok.inj hx
  exact h

/-- A decoder that reads one instruction where a test holds. -/
theorem decodesShort_test {c : Prop} [Decidable c] {i : Instr} {x : Except DecodeError Instr} (h : c → Machine.rowLength i ≤ 127)
    (hx : DecodesShort x) : DecodesShort (if c then .ok i else x) := by
  split
  · exact decodesShort_ok (h ‹_›)
  · exact hx

/-- A decoder that rejects where a test holds. -/
theorem decodesShort_reject {c : Prop} [Decidable c] {e : DecodeError} {x : Except DecodeError Instr} (hx : DecodesShort x) :
    DecodesShort (if c then .error e else x) := by
  split
  · exact decodesShort_error e
  · exact hx

theorem decodesShort_decodeSpiWrite (cfg : Cfg) (bytes : List Byte) : DecodesShort (decodeSpiWrite cfg bytes) := by
  unfold decodeSpiWrite
  split
  · split
    · exact decodesShort_ok (by split <;> exact Nat.zero_le _)
    · exact decodesShort_error _
  · exact decodesShort_error _

theorem decodesShort_decodeSpiRead (cfg : Cfg) (a : BitVec 3) (bytes : List Byte) : DecodesShort (decodeSpiRead cfg a bytes) := by
  unfold decodeSpiRead
  split
  · exact decodesShort_error _
  · split
    · split
      · exact decodesShort_ok (by split <;> exact Nat.zero_le _)
      · exact decodesShort_error _
    · exact decodesShort_error _

theorem decodesShort_decodePcd (cfg : Cfg) (b : Byte) : DecodesShort (decodePcd cfg b) :=
  decodesShort_test (fun _ => Nat.zero_le _) <| decodesShort_test (fun _ => Nat.zero_le _) <|
    decodesShort_test (fun _ => Nat.zero_le _) <| decodesShort_test (fun _ => Nat.zero_le _) <|
    decodesShort_test (fun _ => Nat.zero_le _) (decodesShort_error _)

theorem decodesShort_decodeSel (l : CascadeLevel) (framing : Byte) (bytes : List Byte) : DecodesShort (decodeSel l framing bytes) := by
  unfold decodeSel
  split
  · split
    · split
      · exact decodesShort_reject (decodesShort_test (fun _ => by cases l <;> exact Nat.zero_le _) (decodesShort_error _))
      · exact decodesShort_error _
    · exact decodesShort_test (fun _ => by cases l <;> exact Nat.zero_le _) (decodesShort_error _)
  · exact decodesShort_error _

theorem decodesShort_decodeCommandFrame (cfg : Cfg) (bytes : List Byte) : DecodesShort (decodeCommandFrame cfg bytes) := by
  unfold decodeCommandFrame
  split
  · exact decodesShort_test (fun _ => Nat.zero_le _) <| decodesShort_test (fun _ => Nat.zero_le _) <|
      decodesShort_test (fun _ => Nat.zero_le _) (decodesShort_error _)
  · exact decodesShort_test (fun _ => Nat.zero_le _) <| decodesShort_test (fun _ => Nat.zero_le _) (decodesShort_error _)
  · exact decodesShort_error _

theorem decodesShort_decodeFrame (cfg : Cfg) (framing : Byte) (bytes : List Byte) : DecodesShort (decodeFrame cfg framing bytes) := by
  unfold decodeFrame
  split
  · exact decodesShort_test (fun _ => Nat.zero_le _) (decodesShort_error _)
  · split
    · exact decodesShort_error _
    · split
      · exact decodesShort_decodeSel _ _ _
      · split
        · exact decodesShort_decodeCommandFrame _ _
        · exact decodesShort_error _

theorem decodesShort_decodeResponse (r : ResponseTo) (v : Byte) (bytes : List Byte) : DecodesShort (decodeResponse r v bytes) := by
  unfold decodeResponse
  split
  · split
    · exact decodesShort_test (fun _ => by simp [Machine.rowLength]) (decodesShort_error _)
    · exact decodesShort_error _
  · exact decodesShort_test (fun h => of_decide_eq_true (Bool.and_eq_true_iff.1 h).2) (decodesShort_error _)
  · split
    · exact decodesShort_test (fun _ => by simp [Machine.rowLength]) (decodesShort_error _)
    · exact decodesShort_error _
  · split
    · exact decodesShort_test (fun _ => by simp [Machine.rowLength]) (decodesShort_error _)
    · exact decodesShort_error _
  · split
    · exact decodesShort_test (fun _ => by simp [Machine.rowLength]) (decodesShort_error _)
    · exact decodesShort_error _

theorem decodesShort_decodeTransaction (cfg : Cfg) (framing : Byte) (bytes : List Byte) :
    DecodesShort (decodeTransaction cfg framing bytes) := by
  unfold decodeTransaction
  refine decodesShort_reject ?_
  split
  · split
    · exact decodesShort_test (fun _ => Nat.zero_le _) <| decodesShort_test (fun _ => Nat.zero_le _) (decodesShort_error _)
    · exact decodesShort_error _
  · exact decodesShort_error _

/-- An operation of a program line receives no response. -/
theorem rowLength_of_instrOf {o : Operation} {xs : List Operand} {i : Instr} (h : instrOf o xs = some i) :
    Machine.rowLength i = 0 := by
  unfold instrOf at h
  split at h
  case h_1 | h_3 | h_4 | h_6 | h_12 | h_19 | h_20 | h_21 => cases h; rfl
  case h_2 | h_7 | h_9 | h_10 | h_11 | h_13 | h_17 => obtain ⟨_, _, rfl⟩ := Option.map_eq_some_iff.1 h; rfl
  case h_5 | h_8 | h_14 | h_15 | h_16 | h_18 =>
    split at h
    · cases h; rfl
    · cases h
  case h_22 => cases h

theorem rowLength_of_decodeLine {bytes : List Byte} {l : Line} (h : decodeLine bytes = .ok l) : Machine.rowLength l.instr = 0 := by
  unfold decodeLine at h
  split at h
  · cases h
  split at h
  · split at h
    · cases h
    split at h
    · cases h
    · rename_i hi
      obtain ⟨_, _, hi⟩ := Option.bind_eq_some_iff.1 hi
      rw [ite_eq_iff] at h
      obtain ⟨_, h⟩ | ⟨_, h⟩ := h
      · obtain rfl := Except.ok.inj h
        exact rowLength_of_instrOf hi
      · cases h
  · cases h

theorem decodesShort_decodeBytes (cfg : Cfg) (f : Format) (framing : Byte) (bytes : List Byte) :
    DecodesShort (decodeBytes cfg f framing bytes) := by
  unfold decodeBytes
  split
  case h_1 => split; exacts [decodesShort_decodeSpiWrite _ _, decodesShort_error _]
  case h_2 => dsimp only; split; exacts [decodesShort_decodeSpiRead _ _ _, decodesShort_error _]
  case h_3 =>
    exact decodesShort_test (fun _ => Nat.zero_le _) <| decodesShort_test (fun _ => Nat.zero_le _) (decodesShort_error _)
  case h_4 => split; exacts [decodesShort_decodePcd _ _, decodesShort_error _]
  case h_5 =>
    exact decodesShort_reject <| decodesShort_test (fun _ => Nat.zero_le _) <| decodesShort_test (fun _ => Nat.zero_le _)
      (decodesShort_error _)
  case h_6 => exact decodesShort_decodeFrame _ _ _
  case h_7 => exact decodesShort_test (fun _ => Nat.zero_le _) (decodesShort_error _)
  case h_8 => exact decodesShort_decodeResponse _ _ _
  case h_9 => exact decodesShort_decodeTransaction _ _ _
  case h_10 =>
    split
    case h_1 h => exact decodesShort_ok (rowLength_of_decodeLine h ▸ Nat.zero_le _)
    case h_2 => exact decodesShort_error _

/-- A decoded line receives a response of at most 127 bytes, or none (R21, R91). -/
theorem rowLength_of_decode {cfg : Cfg} {e : Encoded} {l : Line} (h : decode cfg e = .ok l) : Machine.rowLength l.instr ≤ 127 := by
  unfold decode at h
  split at h
  · exact rowLength_of_decodeLine h ▸ Nat.zero_le _
  · split at h
    case h_1 h' =>
      obtain rfl := Except.ok.inj h
      exact decodesShort_decodeBytes _ _ _ _ _ h'
    case h_2 => cases h

end Sys2Proof

/-! The invariant of the machine: every instruction and every step keeps it. -/

namespace Sys2Proof.Machine

variable {s t : State} {i : Instr} {p : Proc Value} {op : HostOp} {n : Nat}

/-- The invariant but for the sequencer and the result, which a call in progress does not keep. -/
structure State.Sound (s : State) : Prop where
  uidSize  : s.uidSize ∈ [4, 7, 10]
  k        : s.k ≤ 32
  iter     : s.iter ≤ 32
  rsp      : s.rsp.n ≤ 127
  session  : s.uidValid = true → s.ready = true ∧ s.uidSize = s.level.uidSize ∧ cascadeBit s.sak = false
  cache    : s.lastAuthSector.isSome = true → s.uidValid = true
  trace    : ∀ e ∈ s.trace, e.wf s.cfg
  bindings : ∀ b ∈ s.bindings, b.2.ok s.gen

theorem State.Inv.sound (h : s.Inv) : s.Sound :=
  ⟨h.uidSize, h.k, h.iter, h.rsp, h.session, h.cache, h.trace, h.bindings⟩

theorem State.Sound.inv (h : s.Sound) (idle : s.faultMark = none → s.busy = false ∧ s.pos = .idle)
    (result : ∀ v, s.result = some (.value v) → v.ok s.gen) : s.Inv :=
  ⟨h.uidSize, h.k, h.iter, h.rsp, idle, h.session, h.cache, h.trace, h.bindings, result⟩

/-- A state that differs only in the reset line, the sequencer, the marks, the calls to come and the result. -/
theorem State.Sound.congr (h : s.Sound) (ht : t = { s with
    resetLine := t.resetLine, busy := t.busy, pos := t.pos, faultMark := t.faultMark, refuseMark := t.refuseMark,
    pending := t.pending, result := t.result }) :
    t.Sound := by
  rw [ht]
  exact ⟨h.uidSize, h.k, h.iter, h.rsp, h.session, h.cache, h.trace, h.bindings⟩

/-- A value held stays one of a later generation. -/
theorem Value.ok.mono {v : Value} {m n : Nat} (h : v.ok m) (hmn : m ≤ n) : v.ok n := by
  cases v with
  | store st => exact ⟨h.1.trans hmn, h.2⟩
  | _ => trivial

theorem ok_of_notStore {v : Value} (h : notStore v = true) (n : Nat) : v.ok n := by
  cases v with
  | store st => cases h
  | _ => trivial

theorem sound_rowMoves (h : s.Sound) (hm : RowMoves s.cfg n s t) (hn : n ≤ 127) : t.Sound := by
  obtain ⟨l, b, k, u, r, c, evs, rd, dr, q, hwf, hk, hr, rfl⟩ := hm
  have hk' : k ≤ 32 := by
    rcases hk with rfl | rfl
    · exact h.k
    · exact le_rfl
  have hr' : r.n ≤ 127 := by
    rcases hr with rfl | hr | hr
    · exact h.rsp
    · exact hr
    · exact hr.trans hn
  exact ⟨h.uidSize, hk', h.iter, hr', h.session, h.cache, List.forall_mem_append.2 ⟨h.trace, hwf⟩, h.bindings⟩

theorem sound_hostMoves (h : s.Sound) (hm : HostMoves s.cfg s t) : t.Sound :=
  sound_rowMoves h (hm.rowMoves 0 fun _ he => he.1) (Nat.zero_le _)

theorem sound_endSessionForInit (h : s.Sound) : s.endSessionForInit.Sound :=
  ⟨h.uidSize, h.k, h.iter, h.rsp, nofun, nofun, h.trace, fun b hb => (h.bindings b hb).mono (Nat.le_succ _)⟩

theorem sound_endSessionForSelect (h : s.Sound) : s.endSessionForSelect.Sound :=
  ⟨h.uidSize, h.k, h.iter, h.rsp, nofun, nofun, h.trace, fun b hb => (h.bindings b hb).mono (Nat.le_succ _)⟩

theorem sound_ready (h : s.Sound) : State.Sound { s with ready := true } :=
  ⟨h.uidSize, h.k, h.iter, h.rsp, fun hv => ⟨rfl, (h.session hv).2⟩, h.cache, h.trace, h.bindings⟩

theorem selMoves_ready {cfg : Cfg} (hm : SelMoves cfg s t) : t.ready = s.ready := by
  obtain ⟨_, _, _, _, _, _, _, _, _, _, _, _, _, _, rfl⟩ := hm
  rfl

/-- select's passes, made in no session. -/
theorem sound_selMoves (h : s.Sound) (hu : s.uidValid = false) (hm : SelMoves s.cfg s t) (hi : t.iter ≤ 32) : t.Sound := by
  obtain ⟨buf, l, k, it, u, hk, hm⟩ := hm
  have hit : it ≤ 32 := by obtain ⟨_, _, _, _, _, _, _, _, rfl⟩ := hm; exact hi
  have hk' : k ≤ 32 := by
    rcases hk with rfl | hk
    · exact h.k
    · exact hk
  have hs : State.Sound { s with selBuf := buf, level := l, k := k, iter := it, uid := u } :=
    ⟨h.uidSize, hk', hit, h.rsp, fun hv => (Bool.false_ne_true (hu.symm.trans hv)).elim, h.cache, h.trace, h.bindings⟩
  exact sound_hostMoves hs hm

theorem uidSize_mem (l : CascadeLevel) : l.uidSize ∈ [4, 7, 10] := by cases l <;> decide

theorem sound_completeSelect (h : s.Sound) (hr : s.ready = true) {sak : Byte} (hs : cascadeBit sak = false) :
    (s.completeSelect sak).Sound :=
  ⟨uidSize_mem _, h.k, h.iter, h.rsp, fun _ => ⟨hr, rfl, hs⟩, fun _ => rfl, h.trace, h.bindings⟩

/-- A call that is not refused has the init it needs (R22). -/
theorem ready_of_refusalOf {own : Option RefuseReason} (h : refusalOf s true own = none) : s.ready = true := by
  cases hr : s.ready
  · cases hb : s.busy <;> simp [refusalOf, hb, hr] at h
  · rfl

/-- The procedure of a call that is not refused keeps the invariant, but for the sequencer. -/
theorem call_sound (h : s.Sound) (hp : callProc s.cfg .registers s i = some (op, p))
    (hn : refusalOf s i.needsReady (ownReason s i) = none) : (p.exec (s.startCall op)).2.Sound := by
  have h0 : (s.startCall op).Sound := h.congr rfl
  obtain ⟨-, t, hm, hx⟩ | ⟨rfl, t, hm, hi, hx⟩ | ⟨-, -, c, hc, hm⟩ := call_state hp (s.startCall op)
  · have hs : State.Sound { (s.startCall op).endSessionForInit with resetLine := .high } := (sound_endSessionForInit h0).congr rfl
    have ht : t.Sound := sound_hostMoves hs hm
    rcases hx with hx | hx <;> rw [hx]
    · exact ht
    · exact sound_ready ht
  · have ht : t.Sound := sound_selMoves (sound_endSessionForSelect h0) rfl hm hi
    obtain ⟨e, -, hx⟩ | ⟨sak, hs, hx⟩ := hx <;> rw [hx]
    · exact ht
    · have hr : s.ready = true := ready_of_refusalOf hn
      exact sound_completeSelect ht ((selMoves_ready hm).trans hr) hs
  · have hc' : c.isSome = true → s.uidValid = true := by
      rcases hc with rfl | ⟨-, ha⟩
      · exact h.cache
      · exact fun _ => storeAccess_session hp ha hn
    have hs : State.Sound { s.startCall op with lastAuthSector := c } :=
      ⟨h.uidSize, h.k, h.iter, h.rsp, h.session, hc', h.trace, h.bindings⟩
    exact sound_hostMoves hs hm

/-- The store makeStore gives is one of the current session (R226). -/
theorem newStore_ok (h : s.uidSize ∈ [4, 7, 10]) :
    Store.ok s.gen { gen := s.gen, uid := s.uidBytes, uidSize := s.uidSize, capacity := Config.capacity } := by
  have hlen : s.uidSize ≤ 10 := by
    simp only [List.mem_cons, List.not_mem_nil, or_false] at h
    omega
  refine ⟨le_rfl, rfl, ?_, h⟩
  simp [State.uidBytes, slice, hlen]

/-- The value a call gives is as its operation makes it, in the generation the call leaves. -/
theorem call_value_ok {v : Value} {s0 : State} (h : s0.uidSize ∈ [4, 7, 10]) (hp : callProc s.cfg .registers s i = some (op, p))
    (hx : p.exec s0 = (.ok v, t)) : v.ok t.gen := by
  by_cases hi : i = .makeStore
  · subst hi
    obtain ⟨rfl, rfl⟩ := Prod.mk.inj (Option.some.inj hp)
    have hm := call_host hp nofun nofun rfl s0
    rw [hx] at hm
    have hg : t.gen = s0.gen := by obtain ⟨_, _, _, _, _, _, _, _, rfl⟩ := hm; rfl
    rcases hst : (newStore s.cfg).exec s0 with ⟨_ | st, u⟩
    · rw [Proc.exec_bind_error hst] at hx
      cases hx
    · rw [Proc.exec_bind_ok hst] at hx
      obtain ⟨rfl, -⟩ := newStore_gives s0 st u hst
      cases hx
      exact hg ▸ newStore_ok h
  · exact ok_of_notStore (call_gives hp hi s0 v t hx) _

theorem inv_finishCall {x : Except Stop Value × State} (h : x.2.Sound) (hr : x.2.result = none)
    (hv : ∀ v, x.1 = .ok v → v.ok x.2.gen) : (finishCall x).Inv := by
  obtain ⟨(e | r) | v, u⟩ := x
  · exact State.Sound.inv (h.congr rfl) (fun _ => ⟨rfl, rfl⟩) nofun
  · exact State.Sound.inv (h.congr rfl) nofun fun v hv => by cases hr.symm.trans hv
  · exact State.Sound.inv (h.congr rfl) (fun _ => ⟨rfl, rfl⟩) fun w hw => by cases hw; exact hv v rfl

theorem inv_finishRow {x : Except Stop Value × State} (h : x.2.Sound) (hidle : x.2.busy = false ∧ x.2.pos = .idle)
    (he : ∀ e, x.1 = .error e → IsError e) (hv : ∀ v, x.1 = .ok v → v.ok x.2.gen) : (finishRow x).Inv := by
  obtain ⟨(e | r) | v, u⟩ := x
  · exact State.Sound.inv (h.congr rfl) (fun _ => ⟨rfl, rfl⟩) nofun
  · obtain ⟨_, he⟩ := he _ rfl
    cases he
  · exact State.Sound.inv (h.congr rfl) (fun _ => hidle) fun w hw => by cases hw; exact hv v rfl

theorem inv_refuse (h : s.Inv) (m : RefuseReason) : (s.refuse m).Inv :=
  State.Sound.inv (h.sound.congr rfl) h.idle nofun

/-- The invariant is kept by every instruction whose response, if it receives one, has at most 127 bytes. -/
theorem inv_exec (h : s.Inv) (hx : exec i s = .next t) (hl : rowLength i ≤ 127) : t.Inv := by
  obtain ⟨hf, ⟨p, hp, rfl⟩ | ⟨op, p, hp, ⟨m, -, rfl⟩ | ⟨hn, rfl⟩⟩⟩ := exec_next hx
  · have hm := row_moves hp s
    have hbusy : (p.exec s).2.busy = s.busy := by
      obtain ⟨_, _, _, _, _, _, _, _, _, _, _, _, _, ht⟩ := hm
      rw [ht]
    exact inv_finishRow (sound_rowMoves h.sound hm hl) ⟨hbusy.trans (h.idle hf).1, row_idle hp s (h.idle hf).2⟩
      (fun e he => row_stops hp s e _ (Prod.ext he rfl))
      fun v hv => ok_of_notStore (row_gives hp s v _ (Prod.ext hv rfl)) _
  · exact inv_refuse h m
  · exact inv_finishCall (call_sound h.sound hp hn) ((call_kept hp _).result)
      fun v hv => call_value_ok (s0 := s.startCall op) h.uidSize hp (Prod.ext hv rfl)

theorem inv_bindResult (h : s.Inv) (bind : Option Name) : (s.bindResult bind).Inv := by
  unfold State.bindResult
  split
  · rename_i n v hv
    exact ⟨h.uidSize, h.k, h.iter, h.rsp, h.idle, h.session, h.cache, h.trace,
      List.forall_mem_cons.2 ⟨h.result v hv, h.bindings⟩, h.result⟩
  · exact h

theorem inv_pending (h : s.Inv) (calls : List Encoded) : State.Inv { s with pending := calls } :=
  State.Sound.inv (h.sound.congr rfl) h.idle h.result

theorem inv_afterLine (h : s.Inv) (bind : Option Name) : (s.afterLine bind).Inv := by
  unfold State.afterLine State.endOnError
  split
  · exact inv_pending (inv_bindResult h bind) []
  · exact inv_bindResult h bind

theorem inv_runFetched {e : Encoded} (h : s.Inv) (hx : runFetched e s = .next t) : t.Inv := by
  unfold runFetched at hx
  split at hx
  · cases hx
  · rename_i line hd
    split at hx
    · rename_i u hu
      cases hx
      exact inv_afterLine (inv_exec h hu (rowLength_of_decode hd)) _
    · cases hx
    · cases hx

/-- Settles O58: a step is the next call run, and every instruction keeps the invariant, a session over while select or init runs. -/
theorem stepKeepsTheInvariant : Obligations.StepKeepsTheInvariant := by
  intro s t h hx
  unfold step at hx
  split at hx
  · cases hx
  · split at hx
    · cases hx
      exact h
    · exact inv_runFetched (inv_pending h _) hx

end Sys2Proof.Machine

/-! What host calls may change: the trace, the generation and the fields of R21, each with its writers. -/

namespace Sys2Proof.Machine

variable {s t : State} {i : Instr} {p : Proc Value} {op : HostOp} {cfg : Cfg}

/-! ### The trace of a host call -/

theorem hostMoves_trace (h : HostMoves cfg s t) : ∃ evs, t.trace = s.trace ++ evs ∧ ∀ e ∈ evs, hostMove cfg e := by
  obtain ⟨evs, _, _, _, _, _, he, _, rfl⟩ := h
  exact ⟨evs, rfl, he⟩

/-- A call's procedure appends host events to the trace, whatever the chip answers. -/
theorem call_trace (hp : callProc cfg .registers s i = some (op, p)) (s0 : State) :
    ∃ evs, (p.exec s0).2.trace = s0.trace ++ evs ∧ ∀ e ∈ evs, hostMove cfg e := by
  obtain ⟨-, t, hm, hx⟩ | ⟨-, t, ⟨_, _, _, _, _, _, hm⟩, -, hx⟩ | ⟨-, -, c, -, hm⟩ := call_state hp s0
  · have ht := hostMoves_trace hm
    rcases hx with hx | hx <;> rw [hx] <;> exact ht
  · have ht := hostMoves_trace hm
    obtain ⟨e, -, hx⟩ | ⟨sak, -, hx⟩ := hx <;> rw [hx] <;> exact ht
  · have ht := hostMoves_trace hm
    exact ht

/-- Settles O57: a refused call appends nothing, every other one what its procedure does. -/
theorem hostCallsKeepTheRegisterRules : Obligations.HostCallsKeepTheRegisterRules := by
  intro i s t hi hx
  obtain ⟨-, op, p, hp, ⟨m, -, rfl⟩ | ⟨-, rfl⟩⟩ := hostCall_next hi hx
  · exact ⟨[], (List.append_nil _).symm, nofun⟩
  · rw [finishCall_trace]
    exact call_trace hp (s.startCall op)

/-! ### The generation -/

@[simp] theorem finishCall_gen (x : Except Stop Value × State) : (finishCall x).gen = x.2.gen := by
  rcases x with ⟨(_ | _) | _, _⟩ <;> rfl

theorem hostMoves_gen (h : HostMoves cfg s t) : t.gen = s.gen := by
  obtain ⟨_, _, _, _, _, _, _, _, rfl⟩ := h
  rfl

/-- init and select count the generation up, no other call does (R25). -/
theorem call_gen (hp : callProc cfg .registers s i = some (op, p)) (s0 : State) :
    (p.exec s0).2.gen = if i = .init ∨ i = .select then s0.gen + 1 else s0.gen := by
  obtain ⟨rfl, t, hm, hx⟩ | ⟨rfl, t, ⟨_, _, _, _, _, _, hm⟩, -, hx⟩ | ⟨hi, hs, c, -, hm⟩ := call_state hp s0
  · have ht := hostMoves_gen hm
    rcases hx with hx | hx <;> rw [hx] <;> exact ht
  · have ht := hostMoves_gen hm
    obtain ⟨e, -, hx⟩ | ⟨sak, -, hx⟩ := hx <;> rw [hx] <;> exact ht
  · rw [if_neg (not_or.2 ⟨hi, hs⟩)]
    have ht := hostMoves_gen hm
    exact ht

/-- A store of an earlier generation is stale (R238). -/
theorem stale_of_gen_lt {n : Name} {st : Store} (h : storeOf s n = some st) (hg : st.gen < s.gen) : stale s n :=
  ⟨st, h, fun hc => hg.ne hc.2⟩

/-- Settles O55: the procedure counts the generation, and an older store is stale. -/
theorem generationsCount : Obligations.GenerationsCount := by
  intro i s t hi hx hn
  obtain ⟨-, op, p, hp, ⟨m, hm, -⟩ | ⟨-, rfl⟩⟩ := hostCall_next hi hx
  · exact (hn m hm).elim
  · have hg := call_gen hp (s.startCall op)
    rw [State.startCall_gen] at hg
    simp only [finishCall_gen]
    refine ⟨fun h => ?_, fun h1 h2 => by rw [hg, if_neg (not_or.2 ⟨h1, h2⟩)]⟩
    rw [hg, if_pos h]
    exact ⟨rfl, fun name st u hu hst hle => stale_of_gen_lt hu (by omega)⟩

/-! ### Who writes the response and the CRC result -/

/-- A part of the state that the transport, init and the authentication cache leave alone. -/
structure Aside {γ : Type} (f : State → γ) : Prop where
  apart   : Apart f
  line    : ∀ s l, f { s with resetLine := l } = f s
  session : ∀ s, f (State.endSessionForInit s) = f s
  ready   : ∀ s b, f { s with ready := b } = f s
  cache   : ∀ s c, f { s with lastAuthSector := c } = f s

theorem aside_rsp : Aside State.rsp :=
  ⟨fun _ _ _ _ _ => rfl, fun _ _ => rfl, fun _ => rfl, fun _ _ => rfl, fun _ _ => rfl⟩

theorem aside_crcOut : Aside State.crcOut :=
  ⟨fun _ _ _ _ _ => rfl, fun _ _ => rfl, fun _ => rfl, fun _ _ => rfl, fun _ _ => rfl⟩

section Same

variable {γ : Type} {f : State → γ}

theorem same_then {α β : Type} {q : Proc α} (h : q.Keeps (Same f)) (g : α → β) : (do let a ← q; pure (g a) : Proc β).Keeps (Same f) :=
  samePath.bind h fun _ => samePath.pure _

theorem same_cardPresent (hf : Apart f) (hr : ∀ s r, f { s with rsp := r } = f s) : (cardPresent cfg .registers).Keeps (Same f) := by
  refine samePath.bind (same_transceive hf (fun _ => hr) _ _ _ _) fun o => ?_
  cases o
  · exact samePath.bind (samePath.look _) fun _ => samePath.pure _
  all_goals exact samePath.pure _

theorem same_authBlock (hf : Apart f) (key : Key) (a : Byte) : (authBlock cfg .registers key a).Keeps (Same f) := by
  have hx := fun u => same_transceive (cfg := cfg) hf (fun h => (Bool.false_ne_true h).elim) .mfAuthent
    (authBytes cfg key.kind a key.bytes.toList u) 0 0
  refine samePath.bind (samePath.look _) fun u => samePath.bind (hx u) fun o => ?_
  cases o
  · exact samePath.pure _
  all_goals exact samePath.raise _

theorem same_authSector (hf : Aside f) (a : Byte) : (authSector cfg .registers a).Keeps (Same f) :=
  samePath.bind (samePath.look _) fun _ => Proc.keeps_ite (samePath.pure _) <|
    samePath.bind (same_authBlock hf.apart _ _) fun _ => same_update fun s => hf.cache s _

theorem same_typeOfSak (b : Byte) : (typeOfSak cfg b).Keeps (Same f) := by
  unfold typeOfSak
  split
  · exact samePath.pure _
  · exact samePath.raise _

theorem same_newStore : (newStore cfg).Keeps (Same f) :=
  samePath.bind (samePath.look _) fun _ => samePath.bind (same_typeOfSak _) fun _ =>
    Proc.keeps_ite (samePath.look _) (samePath.raise _)

/-- A call that neither selects nor accesses a block leaves what it does not write: `crcOut` is calculateCrc's, `rsp` isCardPresent's. -/
theorem same_call (hf : Aside f) (hp : callProc cfg .registers s i = some (op, p)) (hs : i ≠ .select) (hrd : ¬ i.reads)
    (hwr : ¬ i.writes) (hc : (∃ d, i = .calculateCrc d) → ∀ s c, f { s with crcOut := c } = f s)
    (hr : i = .isCardPresent → ∀ s r, f { s with rsp := r } = f s) : p.Keeps (Same f) := by
  cases i
  case init =>
    obtain ⟨rfl, rfl⟩ := Prod.mk.inj (Option.some.inj hp)
    exact same_then (same_bringUp hf.apart hf.line hf.session hf.ready) _
  case antennaOn | antennaOff =>
    obtain ⟨rfl, rfl⟩ := Prod.mk.inj (Option.some.inj hp)
    exact same_then (same_antennaSet hf.apart _) _
  case isCardPresent =>
    obtain ⟨rfl, rfl⟩ := Prod.mk.inj (Option.some.inj hp)
    exact same_then (same_cardPresent hf.apart (hr rfl)) _
  case mifareStopCrypto1 | endSession =>
    obtain ⟨rfl, rfl⟩ := Prod.mk.inj (Option.some.inj hp)
    exact same_then (same_clearBits hf.apart _ _) _
  case makeStore =>
    obtain ⟨rfl, rfl⟩ := Prod.mk.inj (Option.some.inj hp)
    exact same_then same_newStore _
  case select => exact (hs rfl).elim
  case setAntennaState =>
    obtain ⟨_, -, h⟩ := Option.map_eq_some_iff.1 hp
    obtain ⟨rfl, rfl⟩ := Prod.mk.inj h
    exact same_then (same_antennaSet hf.apart _) _
  case mifareAuth =>
    obtain ⟨_, -, h⟩ := Option.map_eq_some_iff.1 hp
    obtain ⟨rfl, rfl⟩ := Prod.mk.inj h
    exact same_then (same_authBlock hf.apart _ _) _
  case calculateCrc d =>
    obtain ⟨_, -, h⟩ := Option.map_eq_some_iff.1 hp
    obtain ⟨rfl, rfl⟩ := Prod.mk.inj h
    exact samePath.bind (same_crc hf.apart (hc ⟨d, rfl⟩) _) fun _ => samePath.pure _
  case cardType =>
    obtain ⟨_, -, h⟩ := Option.map_eq_some_iff.1 hp
    obtain ⟨rfl, rfl⟩ := Prod.mk.inj h
    exact same_then (same_typeOfSak _) _
  case getSak | getCapacity =>
    obtain ⟨_, -, h⟩ := Option.map_eq_some_iff.1 hp
    obtain ⟨rfl, rfl⟩ := Prod.mk.inj h
    exact samePath.pure _
  case authenticate =>
    obtain ⟨_, -, h'⟩ := Option.bind_eq_some_iff.1 hp
    obtain ⟨_, -, h⟩ := Option.map_eq_some_iff.1 h'
    obtain ⟨rfl, rfl⟩ := Prod.mk.inj h
    exact same_then (same_authSector hf _) _
  case mifareRead b => exact (hrd (.inl ⟨b, rfl⟩)).elim
  case readBlock st b => exact (hrd (.inr (.inl ⟨st, b, rfl⟩))).elim
  case readBytes st => exact (hrd (.inr (.inr ⟨st, rfl⟩))).elim
  case mifareWrite b d => exact (hwr (.inl ⟨b, d, rfl⟩)).elim
  case writeBlock st b d => exact (hwr (.inr (.inl ⟨st, b, d, rfl⟩))).elim
  case writeBytes st d => exact (hwr (.inr (.inr ⟨st, d, rfl⟩))).elim
  all_goals cases hp

end Same

/-- Only isCardPresent, select and the block accesses write the response. -/
theorem call_rsp (hp : callProc cfg .registers s i = some (op, p)) {s0 : State} (h : (p.exec s0).2.rsp ≠ s0.rsp) :
    i = .isCardPresent ∨ i = .select ∨ i.reads ∨ i.writes := by
  by_contra hn
  simp only [not_or] at hn
  obtain ⟨hcard, hsel, hrd, hwr⟩ := hn
  exact h (same_call aside_rsp hp hsel hrd hwr (fun _ _ _ => rfl) (fun h => (hcard h).elim) s0)

/-- Only calculateCrc, select and the block accesses write the CRC result. -/
theorem call_crcOut (hp : callProc cfg .registers s i = some (op, p)) {s0 : State} (h : (p.exec s0).2.crcOut ≠ s0.crcOut) :
    (∃ d, i = .calculateCrc d) ∨ i = .select ∨ i.reads ∨ i.writes := by
  by_contra hn
  simp only [not_or] at hn
  obtain ⟨hcrc, hsel, hrd, hwr⟩ := hn
  exact h (same_call aside_crcOut hp hsel hrd hwr (fun h => (hcrc h).elim) (fun _ _ _ => rfl) s0)

/-! ### Who writes the controller's other fields -/

/-- The fields that only select writes (R21). -/
structure SameSelection (s t : State) : Prop where
  uid     : t.uid = s.uid
  uidSize : t.uidSize = s.uidSize
  sak     : t.sak = s.sak
  selBuf  : t.selBuf = s.selBuf
  level   : t.level = s.level
  k       : t.k = s.k
  iter    : t.iter = s.iter

/-- The fields that the transport, a transaction and a store's access leave alone. -/
structure SameController (s t : State) : Prop extends SameSelection s t where
  ready     : t.ready = s.ready
  resetLine : t.resetLine = s.resetLine
  uidValid  : t.uidValid = s.uidValid

theorem hostMoves_controller (h : HostMoves cfg s t) : SameController s t := by
  obtain ⟨_, _, _, _, _, _, _, _, rfl⟩ := h
  exact ⟨⟨rfl, rfl, rfl, rfl, rfl, rfl, rfl⟩, rfl, rfl, rfl⟩

/-- A call other than init and select leaves the controller's fields but for what the transport and the cache hold. -/
theorem call_controller (hp : callProc cfg .registers s i = some (op, p)) (hi : i ≠ .init) (hs : i ≠ .select) (s0 : State) :
    SameController s0 (p.exec s0).2 := by
  obtain ⟨rfl, -⟩ | ⟨rfl, -⟩ | ⟨-, -, c, -, hm⟩ := call_state hp s0
  · exact (hi rfl).elim
  · exact (hs rfl).elim
  · obtain ⟨⟨h1, h2, h3, h4, h5, h6, h7⟩, h8, h9, h10⟩ := hostMoves_controller hm
    exact ⟨⟨h1, h2, h3, h4, h5, h6, h7⟩, h8, h9, h10⟩

/-- Only init writes `ready` and the reset line. -/
theorem call_ready_line (hp : callProc cfg .registers s i = some (op, p)) (hi : i ≠ .init) (s0 : State) :
    (p.exec s0).2.ready = s0.ready ∧ (p.exec s0).2.resetLine = s0.resetLine := by
  by_cases hs : i = .select
  · obtain ⟨rfl, -⟩ | ⟨-, t, ⟨_, _, _, _, _, _, hm⟩, -, hx⟩ | ⟨-, h, -⟩ := call_state hp s0
    · exact (hi rfl).elim
    · have ht := hostMoves_controller hm
      obtain ⟨e, -, hx⟩ | ⟨sak, -, hx⟩ := hx <;> rw [hx] <;> exact ⟨ht.ready, ht.resetLine⟩
    · exact (h hs).elim
  · have ht := call_controller hp hi hs s0
    exact ⟨ht.ready, ht.resetLine⟩

/-- Only select writes the UID, the SAK and its own working fields. -/
theorem call_selection (hp : callProc cfg .registers s i = some (op, p)) (hs : i ≠ .select) (s0 : State) :
    SameSelection s0 (p.exec s0).2 := by
  by_cases hi : i = .init
  · obtain ⟨-, t, hm, hx⟩ | ⟨rfl, -⟩ | ⟨h, -⟩ := call_state hp s0
    · obtain ⟨h1, h2, h3, h4, h5, h6, h7⟩ := (hostMoves_controller hm).toSameSelection
      rcases hx with hx | hx <;> rw [hx] <;> exact ⟨h1, h2, h3, h4, h5, h6, h7⟩
    · exact (hs rfl).elim
    · exact (h hi).elim
  · exact (call_controller hp hi hs s0).toSameSelection

/-- Settles O54: a refused call writes the refusal's mark only, and every other one what its procedure may write. -/
theorem fieldsHaveTheirWriters : Obligations.FieldsHaveTheirWriters := by
  intro i s t hi hx
  obtain ⟨-, op, p, hp, ⟨m, -, rfl⟩ | ⟨-, rfl⟩⟩ := hostCall_next hi hx
  · simp
  · obtain ⟨_, _, _, _, hfin⟩ := finish_fields (x := (p.exec (s.startCall op)).1) (u := (p.exec (s.startCall op)).2)
    rw [show p.exec (s.startCall op) = ((p.exec (s.startCall op)).1, (p.exec (s.startCall op)).2) from rfl, hfin]
    have line := fun h : i ≠ .init => call_ready_line hp h (s.startCall op)
    have sel := fun h : i ≠ .select => call_selection hp h (s.startCall op)
    have gen := call_gen hp (s.startCall op)
    have kept := call_kept hp (s.startCall op)
    refine ⟨not_imp_comm.1 fun h => (line h).1, not_imp_comm.1 fun h => (line h).2, not_imp_comm.1 fun h => ?_,
      not_imp_comm.1 fun h => (sel h).uid, not_imp_comm.1 fun h => (sel h).uidSize, not_imp_comm.1 fun h => (sel h).sak,
      not_imp_comm.1 fun h => ?_, not_imp_comm.1 fun h => (sel h).selBuf, not_imp_comm.1 fun h => (sel h).level,
      not_imp_comm.1 fun h => (sel h).k, not_imp_comm.1 fun h => (sel h).iter, call_rsp hp, call_crcOut hp,
      kept.pending, kept.bindings, kept.cfg⟩
    · exact (call_controller hp (not_or.1 h).2 (not_or.1 h).1 (s.startCall op)).uidValid
    · rwa [if_neg fun h' => h h'.symm] at gen

end Sys2Proof.Machine


/-! calculateCrc with a conforming chip (R49 (a), R202 to R205). -/

namespace Sys2Proof.Machine

variable {cfg : Cfg} {env : Env} {r : PiccResponse} {c : Byte × Byte}

/-! ### Whatever the chip answers -/

/-- How a CRC transaction ends: its deadline passes, or the two result bytes are read and kept (R203, R204). -/
inductive CrcEnd (cfg : Cfg) (d : List Byte) (c : Byte × Byte) : Except Stop (Byte × Byte) → List Event → Byte × Byte → Prop where
  | late (polls : List Event) : PollRun cfg .crc .divIrq (fun v => crcIrq cfg v = true) polls none →
      CrcEnd cfg d c (.error (.raise (.timeout .crc))) (crcStartSeen cfg d ++ polls) c
  | done (polls : List Event) (v lo hi : Byte) : PollRun cfg .crc .divIrq (fun v => crcIrq cfg v = true) polls (some v) →
      CrcEnd cfg d c (.ok (lo, hi)) (crcSeen cfg d polls lo hi) (lo, hi)

theorem shows_crcStart (d : List Byte) : (crcStart cfg d).Shows r c (Did (crcStartSeen cfg d) r c) := by
  refine (shows_regWrite _ _).then ((shows_regWrite _ _).then ((shows_regWrite _ _).then ((shows_regWriteN _ _).then
    ((shows_regWrite _ _).imp fun x e r' c' h => ?_))))
  obtain ⟨rfl, rfl, rfl, rfl⟩ := h
  exact ⟨rfl, by simp [crcStartSeen], rfl, rfl⟩

/-- What one test of DivIrqReg finds (R203). -/
def crcTest (cfg : Cfg) (v : Byte) : Option Unit := if crcIrq cfg v then some () else none

theorem crcTest_isSome (v : Byte) : ((crcTest cfg v).isSome = true) = (crcIrq cfg v = true) := by
  unfold crcTest
  cases crcIrq cfg v <;> rfl

/-- The poll of a CRC transaction ends by a reading with CRCIRq set, or by its deadline (R203). -/
theorem shows_pollCrc : (pollCrc cfg).Shows r c fun x e r' c' => r' = r ∧ c' = c ∧ ∃ last,
    PollRun cfg .crc .divIrq (fun v => crcIrq cfg v = true) e last ∧
      ((∃ v, last = some v ∧ x = .ok ()) ∨ (last = none ∧ x = .error (.raise (.timeout .crc)))) := by
  refine (shows_poll (test := crcTest cfg) (shows_raise ⟨rfl, rfl, rfl, rfl⟩)).imp fun x e r' c' h => ?_
  obtain ⟨h1, h2, last, hrun, hend⟩ := h
  simp only [crcTest_isSome] at hrun
  refine ⟨h1, h2, last, hrun, hend.imp_left fun h => ?_⟩
  obtain ⟨v, _, hv, -, hx⟩ := h
  exact ⟨v, hv, hx⟩

theorem shows_crc (d : List Byte) : (crcTransaction cfg d).Shows r c fun x e r' c' => r' = r ∧ CrcEnd cfg d c x e c' := by
  refine (shows_crcStart d).then (shows_pollCrc.bind ?_ ?_)
  · rintro _ polls r' c' ⟨rfl, rfl, last, hrun, ⟨v, rfl, -⟩ | ⟨-, h⟩⟩
    · refine (shows_regRead .crcResultL).bind ?_ fun _ _ _ _ ⟨_, _, _, h, _⟩ => by cases h
      rintro lo _ _ _ ⟨rfl, rfl, _, hlo, rfl⟩
      refine (shows_regRead .crcResultH).bind ?_ fun _ _ _ _ ⟨_, _, _, h, _⟩ => by cases h
      rintro hi _ _ _ ⟨rfl, rfl, _, hhi, rfl⟩
      cases hlo
      cases hhi
      intro s hr hc
      refine ⟨.ok (lo, hi), [], s.answers, s.draws, s.pos, s.rsp, (lo, hi), by
        rw [Proc.exec_bind_ok (Proc.exec_update _ _)]; simp [State.ran], hr, ?_⟩
      simpa [crcSeen] using CrcEnd.done polls v lo hi hrun
    · cases h
  · rintro z polls r' c' ⟨rfl, rfl, last, hrun, ⟨v, -, h⟩ | ⟨rfl, h⟩⟩
    · cases h
    · cases h
      exact ⟨rfl, .late polls hrun⟩

/-! ### In a conforming environment -/

/-- A poll loop leaves a command's results and pops nothing. -/
theorem PollRun.leaves {kind : WaitKind} {g : Reg} {ends : Byte → Prop} {es : List Event} {last : Option Byte}
    (h : PollRun cfg kind g ends es last) (hg : g ≠ .fifoData) : ∀ e ∈ es, e.leavesResults cfg = true ∧ e.pops cfg = 0 := fun e he => by
  obtain ⟨v, rfl⟩ | ⟨a, rfl⟩ := h.split.1 e he
  · simp [hg]
  · simp

/-- A trace that shows a query at its end ends with it. -/
theorem getLast_of_seen_ask {evs : List Event} {k : WaitKind} {a : Bool} (h : (evs.map Event.seen).getLast? = some (.ask k a)) :
    evs.getLast? = some (.ask k a) := by
  rw [List.getLast?_map] at h
  obtain ⟨e, he, hs⟩ := Option.map_eq_some_iff.1 h
  cases e with
  | ask => rw [he, ← hs]; rfl
  | _ => cases hs

/-- The events of a poll loop: the last one is the reading that ends it, or a query answered true. -/
theorem PollRun.last_event {kind : WaitKind} {g : Reg} {ends : Byte → Prop} {polls evs : List Event} {last : Option Byte}
    (h : PollRun cfg kind g ends polls last) (hs : evs.map Event.seen = polls) : ∃ fails e, evs = fails ++ [e] ∧
      (∀ v, last = some v → ends v ∧ e.seen = gave cfg g [v]) ∧ (last = none → e.seen = .ask kind true) := by
  obtain ⟨-, pre, hread, hlate⟩ := h.split
  cases last with
  | some v =>
    obtain ⟨hv, rfl⟩ := hread v rfl
    obtain ⟨fails, ends, rfl, -, hends⟩ := List.map_eq_append_iff.1 hs
    obtain ⟨e, rfl, he⟩ := List.map_eq_singleton_iff.1 hends
    exact ⟨fails, e, rfl, fun w hw => Option.some.inj hw ▸ ⟨hv, he⟩, nofun⟩
  | none =>
    obtain rfl := hlate rfl
    obtain ⟨fails, ends, rfl, -, hends⟩ := List.map_eq_append_iff.1 hs
    obtain ⟨e, rfl, he⟩ := List.map_eq_singleton_iff.1 hends
    exact ⟨fails, e, rfl, nofun, fun _ => he⟩

/-- A trace that shows the start of a CRC transaction has started CalcCRC on the data (R202). -/
theorem commanded_crc {d : List Byte} {past start since : List Event} (hs : start.map Event.seen = crcStartSeen cfg d)
    (hl : ∀ e ∈ since.map Event.seen, e.leavesResults cfg = true) : Commanded cfg .calcCrc d (past ++ start) since := by
  refine commanded (pre := [wrote cfg .command [cfg.byte .idle], wrote cfg .divIrq [crcIrqClear cfg]]) (upTo := []) ?_
    (started_now nofun) hl
  simp [hs, crcStartSeen]

/-- The result bytes of an answered CRC transaction are CRC_A of its data (R49 (a)). -/
theorem crc_of_answered (henv : ConformingEnv cfg env) {d : List Byte} {past evs polls : List Event} {v lo hi : Byte}
    (hrun : PollRun cfg .crc .divIrq (fun v => crcIrq cfg v = true) polls (some v)) (hs : evs.map Event.seen = crcSeen cfg d polls lo hi)
    (ha : env.answered cfg past evs = true) : lo = crcLow d ∧ hi = crcHigh d := by
  obtain ⟨start, behind, rfl, hstart, hbehind⟩ := List.map_eq_append_iff.1 hs
  obtain ⟨polled, results, rfl, hpolled, hresults⟩ := List.map_eq_append_iff.1 hbehind
  obtain ⟨fails, eV, rfl, hread, -⟩ := hrun.last_event hpolled
  obtain ⟨hv, hV⟩ := hread v rfl
  obtain ⟨eL, rest, rfl, hL, hrest⟩ := List.map_eq_cons_iff.1 hresults
  obtain ⟨eH, rfl, hH⟩ := List.map_eq_singleton_iff.1 hrest
  simp only [answered_append, Env.answered, Bool.and_eq_true, List.append_assoc, List.singleton_append] at ha
  obtain ⟨-, -, hgV, hgL, hgH, -⟩ := ha
  have quiet : ∀ more : List Event, (∀ e ∈ more.map Event.seen, e.leavesResults cfg = true) →
      Commanded cfg .calcCrc d (past ++ start) (fails ++ more) := fun more hmore => by
    refine commanded_crc hstart fun e he => ?_
    rcases List.mem_append.1 (List.map_append ▸ he) with he | he
    · exact (hrun.leaves nofun e (by rw [← hpolled, List.map_append]; exact List.mem_append_left _ he)).1
    · exact hmore e he
  have hirq : crcIrq cfg (env.value (past ++ start ++ fails) .divIrq) = true := by
    rw [List.append_assoc, gives_value hV hgV]
    exact hv
  have result := fun more hmore => henv.crc d (past ++ start) fails more (quiet more hmore) hirq
  have hlo := (result [eV] (by simp [hV])).1
  have hhi := (result [eV, eL] (by simp [hV, hL])).2
  rw [List.append_assoc, List.append_assoc, gives_value hL hgL] at hlo
  rw [List.append_assoc, List.append_assoc, gives_value hH hgH] at hhi
  exact ⟨hlo, hhi⟩

/-! ### The call -/

/-- A call that is accepted gives back an idle sequencer. -/
theorem giveBack_startCall {s : State} (hb : s.busy = false) (op : HostOp) (evs : List Event) (rest : List Answer) (dr : Nat) (q : Pos)
    (c : Byte × Byte) (v : CallResult) :
    (State.did { s.startCall op with crcOut := c } evs rest dr q).giveBack v = { s with crcOut := c }.after evs rest dr .idle v := by
  simp [State.did, State.giveBack, State.startCall, State.after, hb]

/-- An accepted calculateCrc runs its transaction (R205). -/
theorem exec_calculateCrc {s : State} {d : Arg (List Byte)} {bs : List Byte} (h : s.accepts) (hd : bytesOf s d = some bs)
    (hl : bs.length ≤ s.cfg.fifoSize) : exec (.calculateCrc d) s = hostCall .calculateCrc true none
      (do let (lo, hi) ← crcTransaction s.cfg bs; pure (.bytes [lo, hi])) s := by
  show execCalculateCrc d s = _
  rw [execCalculateCrc, withArg_some h.1 hd, if_neg (by omega)]

/-- Settles O10: a conforming script is one run, and a conforming environment gives CRC_A or lets the deadline pass. -/
theorem calculateCrcGivesCrcA : Obligations.CalculateCrcGivesCrcA := by
  intro s d bs h hd hl
  rw [exec_calculateCrc h hd hl]
  refine ⟨fun answers rest hans hs => ?_, fun env henv => ?_⟩
  · have hrun : (do let (lo, hi) ← crcTransaction s.cfg bs; pure (.bytes [lo, hi]) : Proc Value).Sends s.cfg (s.startCall .calculateCrc)
        (answers ++ rest) (.ok (.bytes (crcBytes bs))) { s.startCall .calculateCrc with crcOut := (crcLow bs, crcHigh bs) } [] rest :=
      (sends_crc bs hans).bind (sends_pure _)
    obtain ⟨evs, dr, hx, hf⟩ := hostCall_value h.1 (refusalOf_accepts h true) (hs ▸ hrun)
    exact ⟨evs, dr, by rw [hx, giveBack_startCall h.2.1], hf⟩
  · obtain ⟨x, evs, rd, dr, q, r', c', hx, -, hend⟩ := shows_crc (cfg := s.cfg) bs (s.startCall .calculateCrc) rfl rfl
    rw [hostCall_run h.1 (refusalOf_accepts h true)]
    generalize hshown : evs.map Event.seen = shown at hend
    cases hend with
    | late polls hrun =>
      rw [Proc.exec_bind_error hx]
      obtain ⟨pre, -, hlate⟩ := hrun.split.2
      exact ⟨_, evs, rfl, rfl, fun _ => .inr ⟨rfl, getLast_of_seen_ask (by rw [hshown, hlate rfl]; simp)⟩⟩
    | done polls v lo hi hrun =>
      rw [Proc.exec_bind_ok hx]
      refine ⟨_, evs, rfl, rfl, fun ha => .inl ?_⟩
      obtain ⟨rfl, rfl⟩ := crc_of_answered henv hrun hshown ha
      rfl

end Sys2Proof.Machine


/-! A transaction in a conforming environment (R49, R218): what its register accesses show, and the card's reply they agree with. -/

namespace Sys2Proof.Machine

variable {cfg : Cfg} {env : Env} {cmd : PiccCommand} {tx : List Byte} {tl al : BitVec 3} {want : Bool} {r : PiccResponse} {c : Byte × Byte}

/-! ### Whatever the chip answers -/

theorem shows_issueCommand (cmd : PiccCommand) : (issueCommand cfg cmd).Shows r c fun x e r' c' => ∃ start,
    Did (wrote cfg .command [cfg.byte cmd.pcd] :: startSeen cfg cmd start) r c x e r' c' := by
  refine (shows_regWrite _ _).then ?_
  cases cmd with
  | transceive =>
    refine (shows_setBits _ _).imp fun x e r' c' h => ?_
    obtain ⟨b, rfl, rfl, rfl, rfl⟩ := h
    exact ⟨b, rfl, rfl, rfl, rfl⟩
  | mfAuthent => exact shows_pure ⟨0, rfl, rfl, rfl, rfl⟩

/-- A reading of ComIrqReg that ends the poll tells whether it timed out (R211, R213). -/
theorem piccTest_eq {v : Byte} {b : Bool} (h : piccTest cfg cmd v = some b) : b = timedOut cfg cmd (some v) := by
  cases hd : commandDone cfg cmd v <;> simp [piccTest, timedOut, hd] at h ⊢
  · exact h.2
  · exact h

/-- The poll of a transaction, and whether it timed out (R211, R213). -/
theorem shows_pollPicc (cmd : PiccCommand) : (pollPicc cfg cmd).Shows r c fun x e r' c' => r' = r ∧ c' = c ∧ ∃ last,
    PollRun cfg .picc .comIrq (fun v => pollEnds cfg cmd v = true) e last ∧ x = .ok (timedOut cfg cmd last) := by
  refine (shows_poll (test := piccTest cfg cmd) (shows_pure ⟨rfl, rfl, rfl, rfl⟩)).imp fun x e r' c' h => ?_
  obtain ⟨h1, h2, last, hrun, hend⟩ := h
  simp only [piccTest_isSome] at hrun
  refine ⟨h1, h2, last, hrun, ?_⟩
  obtain ⟨v, b, rfl, hv, rfl⟩ | ⟨rfl, rfl⟩ := hend
  · rw [piccTest_eq hv]
  · rfl

/-- The head of a transaction: its poll ends it, and StartSend is cleared whatever it found (R207 to R212). -/
theorem shows_transceiveHead : (transceiveHead cfg cmd tx tl al).Shows r c fun x e r' c' => r' = r ∧ c' = c ∧
    ∃ start polls last framing, PollRun cfg .picc .comIrq (fun v => pollEnds cfg cmd v = true) polls last ∧
      x = .ok (timedOut cfg cmd last) ∧ e = headSeen cfg cmd tx tl al start polls framing := by
  refine (shows_regWrite _ _).then ((shows_regWrite _ _).then ((shows_regWrite _ _).then ((shows_regWrite _ _).then
    ((shows_regWriteN _ _).then ((shows_issueCommand cmd).bind ?_ fun _ _ _ _ ⟨_, h, _⟩ => by cases h)))))
  rintro _ _ _ _ ⟨start, -, rfl, rfl, rfl⟩
  refine (shows_pollPicc cmd).bind ?_ fun _ _ _ _ ⟨_, _, _, _, h⟩ => by cases h
  rintro b polls _ _ ⟨rfl, rfl, last, hrun, hb⟩
  cases hb
  refine (shows_clearBits _ _).bind ?_ fun _ _ _ _ ⟨_, h, _⟩ => by cases h
  rintro _ _ _ _ ⟨framing, -, rfl, rfl, rfl⟩
  exact shows_pure ⟨rfl, rfl, start, polls, last, framing, hrun, rfl, by simp [headSeen, xactStartSeen]⟩

/-- The response of a transaction: not wanted and not read, or read as FIFOLevel counts it (R215). -/
def Received (cfg : Cfg) (al : BitVec 3) (want : Bool) (r : PiccResponse) (shown : List Event) (r' : PiccResponse) : Prop :=
  if want then ∃ level bytes control, bytes.length = fifoCount cfg level ∧ shown = responseSeen cfg level bytes control ∧
    r' = ⟨alignFirst al bytes, rxLastBits cfg control⟩
  else shown = [] ∧ r' = r

/-- The tail of a transaction that did not time out: ErrorReg shows an early error, or the response is received (R214 to R216). -/
def TailEnd (cfg : Cfg) (al : BitVec 3) (want : Bool) (r : PiccResponse) (o : XactOutcome) (tail : List Event) (r' : PiccResponse) : Prop :=
  ∃ e rest, tail = gave cfg .error [e] :: rest ∧
    ((earlyError cfg e = true ∧ o = .comm e ∧ rest = [] ∧ r' = r) ∨
      (earlyError cfg e = false ∧ o = (if collError cfg e then .coll else .ok) ∧ Received cfg al want r rest r'))

theorem shows_readResponse : (readResponse cfg al).Shows r c fun x e r' c' => x = .ok () ∧ c' = c ∧ ∃ level bytes control,
    bytes.length = fifoCount cfg level ∧ e = responseSeen cfg level bytes control ∧ r' = ⟨alignFirst al bytes, rxLastBits cfg control⟩ := by
  refine (shows_regRead .fifoLevel).bind ?_ fun _ _ _ _ ⟨_, _, _, h, _⟩ => by cases h
  rintro level _ _ _ ⟨rfl, rfl, _, h1, rfl⟩
  refine (shows_regReadN .fifoData _ _).bind ?_ fun _ _ _ _ ⟨_, _, _, _, h, _⟩ => by cases h
  rintro _ _ _ _ ⟨rfl, rfl, bytes, hlen, h2, rfl⟩
  refine (shows_regRead .control).bind ?_ fun _ _ _ _ ⟨_, _, _, h, _⟩ => by cases h
  rintro control _ _ _ ⟨rfl, rfl, _, h3, rfl⟩
  cases h1
  cases h2
  cases h3
  intro s hr hc
  refine ⟨.ok (), [], s.answers, s.draws, s.pos, ⟨alignFirst al bytes, rxLastBits cfg control⟩, s.crcOut, by simp [State.ran], rfl, hc,
    level, bytes, control, hlen, by simp [responseSeen], rfl⟩

theorem shows_transceiveTail : (transceiveTail cfg al want false).Shows r c fun x e r' _ =>
    ∃ o, x = .ok o ∧ TailEnd cfg al want r o e r' := by
  refine (shows_regRead .error).bind ?_ fun _ _ _ _ ⟨_, _, _, h, _⟩ => by cases h
  rintro e _ _ _ ⟨rfl, rfl, _, he, rfl⟩
  cases he
  refine shows_ite (fun h => shows_pure ⟨_, rfl, e, [], rfl, .inl ⟨h, rfl, rfl, rfl⟩⟩) fun h => ?_
  have herr : earlyError cfg e = false := Bool.not_eq_true _ ▸ h
  cases want with
  | false => exact shows_pure ⟨_, rfl, e, [], rfl, .inr ⟨herr, rfl, rfl, rfl⟩⟩
  | true =>
    refine shows_readResponse.bind ?_ fun _ _ _ _ ⟨h, _⟩ => by cases h
    rintro _ _ _ _ ⟨-, rfl, response⟩
    exact shows_pure ⟨_, rfl, e, _, by rw [List.append_nil]; rfl, .inr ⟨herr, rfl, response⟩⟩

/-- What a transaction shows: its head, and its tail where it did not time out (R206). -/
inductive XactEnd (cfg : Cfg) (cmd : PiccCommand) (tx : List Byte) (tl al : BitVec 3) (want : Bool) (r : PiccResponse) :
    XactOutcome → List Event → PiccResponse → Prop where
  | late (start framing : Byte) (polls : List Event) (last : Option Byte) :
      PollRun cfg .picc .comIrq (fun v => pollEnds cfg cmd v = true) polls last → timedOut cfg cmd last = true →
      XactEnd cfg cmd tx tl al want r .timeout (headSeen cfg cmd tx tl al start polls framing) r
  | done (start framing : Byte) (polls : List Event) (v : Byte) (o : XactOutcome) (tail : List Event) (r' : PiccResponse) :
      PollRun cfg .picc .comIrq (fun v => pollEnds cfg cmd v = true) polls (some v) → commandDone cfg cmd v = true →
      TailEnd cfg al want r o tail r' →
      XactEnd cfg cmd tx tl al want r o (headSeen cfg cmd tx tl al start polls framing ++ tail) r'

theorem shows_transceive : (transceive cfg .registers cmd tx tl al want).Shows r c fun x e r' _ =>
    ∃ o, x = .ok o ∧ XactEnd cfg cmd tx tl al want r o e r' := by
  rw [transceive_eq]
  refine shows_transceiveHead.bind ?_ fun _ _ _ _ ⟨_, _, _, _, _, _, _, h, _⟩ => by cases h
  rintro b _ _ _ ⟨rfl, rfl, start, polls, last, framing, hrun, hb, rfl⟩
  obtain rfl := Except.ok.inj hb
  cases ht : timedOut cfg cmd last with
  | true => exact shows_pure ⟨_, rfl, by simpa using XactEnd.late start framing polls last hrun ht⟩
  | false =>
    obtain _ | v := last
    · cases ht
    · refine shows_transceiveTail.imp fun x e r' c' h => ?_
      obtain ⟨o, rfl, htail⟩ := h
      exact ⟨o, rfl, .done start framing polls v o e r' hrun (by simpa [timedOut] using ht) htail⟩

/-! ### In a conforming environment -/

/-- A trace that shows the start of a transaction has started its command on the frame (R207 to R210). -/
theorem commanded_xact {past start since : List Event} {b : Byte}
    (hs : start.map Event.seen = xactStartSeen cfg cmd tx tl al ++ startSeen cfg cmd b)
    (hl : ∀ e ∈ since.map Event.seen, e.leavesResults cfg = true) : Commanded cfg cmd.pcd tx (past ++ start) since := by
  refine commanded (pre := [wrote cfg .command [cfg.byte .idle], wrote cfg .comIrq [comIrqClear cfg],
    wrote cfg .bitFraming [bitFraming al tl]]) ?_ (started_seen cmd b) hl
  simp [hs, xactStartSeen]

theorem xactStart_length {start : List Event} {b : Byte}
    (hs : start.map Event.seen = xactStartSeen cfg cmd tx tl al ++ startSeen cfg cmd b) :
    start.length = (if tx = [] then 5 else 6) + (if cmd = .transceive then 2 else 0) := by
  rw [← List.length_map (f := Event.seen), hs]
  by_cases htx : tx = [] <;> cases cmd <;> simp [xactStartSeen, startSeen, htx]

@[simp] theorem wrote_ne_reset (g : Reg) (bs : List Byte) (level : LineLevel) : wrote cfg g bs ≠ .reset level := nofun

@[simp] theorem gave_ne_reset (g : Reg) (bs : List Byte) (level : LineLevel) : gave cfg g bs ≠ .reset level := nofun

/-- The start of a transaction leaves the antenna drivers. -/
theorem drivers_xactStart (henv : ConformingEnv cfg env) {past start : List Event} {b : Byte}
    (hs : start.map Event.seen = xactStartSeen cfg cmd tx tl al ++ startSeen cfg cmd b) :
    env.value (past ++ start) .txControl &&& txDrivers cfg = env.value past .txControl &&& txDrivers cfg := by
  refine drivers_keep henv ?_
  rw [hs]
  by_cases htx : tx = [] <;> cases cmd <;> simp [xactStartSeen, startSeen, htx, PiccCommand.pcd]

section

variable {start fails mid : List Event}

/-- A transaction whose poll timed out had no reply (R218). -/
theorem silent_of_timedOut (henv : ConformingEnv cfg env) {polls evs : List Event} {last : Option Byte}
    (hc : ∀ since : List Event, (∀ e ∈ since.map Event.seen, e.leavesResults cfg = true) → Commanded cfg cmd.pcd tx start since)
    (hrun : PollRun cfg .picc .comIrq (fun v => pollEnds cfg cmd v = true) polls last) (hs : evs.map Event.seen = polls)
    (ha : env.answered cfg start evs = true) (ht : timedOut cfg cmd last = true) : env.reply start = .silent := by
  by_contra hne
  obtain ⟨fails, e, rfl, hread, hlate⟩ := hrun.last_event hs
  obtain ⟨hdone, hpassed⟩ := henv.inTime cmd tx start fails (hc fails fun x hx =>
    (hrun.leaves nofun x (by rw [← hs, List.map_append]; exact List.mem_append_left _ hx)).1) hne
  simp only [answered_append, Env.answered, Bool.and_eq_true, and_true] at ha
  cases last with
  | some v =>
    obtain ⟨hv, he⟩ := hread v rfl
    have hnot : commandDone cfg cmd v = false := by simpa [timedOut] using ht
    rw [gives_value he ha.2] at hdone
    simp [pollEnds, hnot, hdone hnot] at hv
  | none =>
    rw [gives_ask (hlate rfl) ha.2] at hpassed
    cases hpassed

theorem sum_pops {evs : List Event} (h : ∀ e ∈ evs.map Event.seen, e.pops cfg = 0) : (evs.map (Event.pops cfg)).sum = 0 :=
  List.sum_eq_zero fun n hn => by
    obtain ⟨e, he, rfl⟩ := List.mem_map.1 hn
    rw [← pops_seen]
    exact h _ (List.mem_map_of_mem he)

/-- A transaction is done behind the polls `fails` that do not end it, and the events `mid` since leave its results unpopped. -/
structure Ended (cfg : Cfg) (env : Env) (cmd : PiccCommand) (tx : List Byte) (start fails mid : List Event) : Prop where
  done  : ∀ more : List Event, (∀ e ∈ more.map Event.seen, e.leavesResults cfg = true) → XactDone cfg env cmd tx start fails more
  quiet : ∀ e ∈ mid.map Event.seen, e.leavesResults cfg = true
  pops  : ((fails ++ mid).map (Event.pops cfg)).sum = 0

/-- The poll's last reading has a done bit, and StartSend is cleared behind it. -/
theorem ended_of_polls {past polls clear : List Event} {b framing v : Byte} {e : Event}
    (hstart : start.map Event.seen = xactStartSeen cfg cmd tx tl al ++ startSeen cfg cmd b)
    (hrun : PollRun cfg .picc .comIrq (fun v => pollEnds cfg cmd v = true) polls (some v))
    (hpolled : (fails ++ [e]).map Event.seen = polls) (he : e.seen = gave cfg .comIrq [v])
    (hclear : clear.map Event.seen = [gave cfg .bitFraming [framing], wrote cfg .bitFraming [framing &&& ~~~startSend cfg]])
    (hgiven : env.gives cfg (past ++ start ++ fails) e = true) (hv : commandDone cfg cmd v = true) :
    Ended cfg env cmd tx (past ++ start) fails ([e] ++ clear) := by
  have hfails : ∀ x ∈ fails.map Event.seen, x.leavesResults cfg = true ∧ x.pops cfg = 0 := fun x hx =>
    hrun.leaves nofun x (by rw [← hpolled, List.map_append]; exact List.mem_append_left _ hx)
  have hmid : ∀ x ∈ ([e] ++ clear).map Event.seen, x.leavesResults cfg = true ∧ x.pops cfg = 0 := by
    simp [he, hclear]
  refine ⟨fun more hmore => ⟨commanded_xact hstart ?_, ?_⟩, fun x hx => (hmid x hx).1, sum_pops ?_⟩
  · rw [List.map_append, List.forall_mem_append]
    exact ⟨fun x hx => (hfails x hx).1, hmore⟩
  · rw [gives_value he hgiven]
    exact hv
  · rw [List.map_append, List.forall_mem_append]
    exact ⟨fun x hx => (hfails x hx).2, fun x hx => (hmid x hx).2⟩

/-- A transaction that is done stays done behind an event that neither disturbs it nor pops. -/
theorem Ended.snoc {e : Event} (h : Ended cfg env cmd tx start fails mid) (hq : e.seen.leavesResults cfg = true)
    (hp : e.seen.pops cfg = 0) : Ended cfg env cmd tx start fails (mid ++ [e]) := by
  refine ⟨h.done, ?_, ?_⟩
  · rw [List.map_append, List.forall_mem_append]
    exact ⟨h.quiet, by simpa using hq⟩
  · rw [pops_seen] at hp
    rw [← List.append_assoc, List.map_append, List.sum_append, h.pops, List.map_singleton, List.sum_singleton, hp]

/-- A response read behind a transaction that is done is the reply's (R49 (b)). -/
theorem Ended.response (henv : ConformingEnv cfg env) {evs : List Event} {bytes got : List Byte} {vb : BitVec 3} {coll : Option Nat}
    {level control : Byte} (h : Ended cfg env cmd tx start fails mid) (hrep : env.reply start = .reply bytes vb coll)
    (hlen : got.length = fifoCount cfg level) (hs : evs.map Event.seen = responseSeen cfg level got control)
    (ha : env.answered cfg (start ++ fails ++ mid) evs = true) : got = bytes ∧ rxLastBits cfg control = vb := by
  obtain ⟨front, back, rfl, hfront, hback⟩ := List.map_eq_append_iff.1 hs
  obtain ⟨levels, reads, rfl, hlevels, hreads⟩ := List.map_eq_append_iff.1 hfront
  obtain ⟨eLevel, rfl, hLevel⟩ := List.map_eq_singleton_iff.1 hlevels
  obtain ⟨eControl, rfl, hControl⟩ := List.map_eq_singleton_iff.1 hback
  simp only [answered_append, Env.answered, Bool.and_eq_true, Bool.and_true] at ha
  obtain ⟨⟨hgLevel, hgReads⟩, hgControl⟩ := ha
  have fifo := fun more hmore => henv.fifo cmd tx start fails more bytes vb coll (h.done more hmore) hrep
  have hcounted : Ended cfg env cmd tx start fails (mid ++ [eLevel]) := h.snoc (by simp [hLevel]) (by simp [hLevel])
  have hgot : got = bytes := by
    have hcount := (fifo mid h.quiet).1
    rw [gives_value hLevel hgLevel, h.pops, List.drop_zero] at hcount
    cases got with
    | nil => exact (List.eq_nil_of_length_eq_zero (hcount.symm.trans hlen.symm)).symm
    | cons b bs =>
      obtain ⟨eFifo, rfl, hFifo⟩ := List.map_eq_singleton_iff.1 hreads
      have hpopped := (fifo (mid ++ [eLevel]) hcounted.quiet).2.1 (bs.length + 1) (Nat.le_add_left 1 _)
      simp only [hcounted.pops, List.drop_zero] at hpopped
      have hlen' : bs.length + 1 = bytes.length := hlen.trans hcount
      have hall := hpopped hlen'.le
      rw [hlen', List.take_length, ← hlen', ← List.append_assoc] at hall
      simp only [Env.answered, Bool.and_true] at hgReads
      exact (gives_read hFifo hgReads).symm.trans hall
  have hreadsQuiet : ∀ e ∈ reads.map Event.seen, e.leavesResults cfg = true := by
    rw [hreads]
    cases got <;> simp
  have hvb := (fifo (mid ++ ([eLevel] ++ reads)) (by
    rw [← List.append_assoc, List.map_append, List.forall_mem_append]
    exact ⟨hcounted.quiet, hreadsQuiet⟩)).2.2
  rw [← List.append_assoc, gives_value hControl hgControl] at hvb
  exact ⟨hgot, hvb⟩

/-- The tail of a transaction that is done ends as the reply says (R218). -/
theorem Ended.tail (henv : ConformingEnv cfg env) {evs tail : List Event} {o : XactOutcome} {r' : PiccResponse}
    (h : Ended cfg env cmd tx start fails mid) (htail : TailEnd cfg al want r o tail r') (hs : evs.map Event.seen = tail)
    (ha : env.answered cfg (start ++ fails ++ mid) evs = true) :
    o = (env.reply start).outcome ∧ r' = (env.reply start).rspAfter want al r := by
  obtain ⟨e, rest, rfl, hend⟩ := htail
  obtain ⟨ev, more, rfl, hev, hmore⟩ := List.map_eq_cons_iff.1 hs
  simp only [Env.answered, Bool.and_eq_true] at ha
  have hread := gives_value hev ha.1
  cases hrep : env.reply start with
  | silent =>
    obtain ⟨hc, hd⟩ := h.done [] nofun
    rw [List.append_nil] at hc
    cases hd.symm.trans (henv.silent cmd tx start fails hc hrep)
  | garbled g =>
    obtain ⟨hearly, herr⟩ := henv.garbled cmd tx start fails mid g (h.done mid h.quiet) hrep
    obtain rfl : e = g := hread.symm.trans herr
    obtain ⟨-, rfl, -, rfl⟩ | ⟨he, -⟩ := hend
    · exact ⟨rfl, rfl⟩
    · cases he.symm.trans hearly
  | reply bytes vb coll =>
    obtain ⟨hearly, hcoll⟩ := henv.error cmd tx start fails mid bytes vb coll (h.done mid h.quiet) hrep
    rw [hread] at hearly hcoll
    obtain ⟨he, -⟩ | ⟨-, rfl, hreceived⟩ := hend
    · cases hearly.symm.trans he
    refine ⟨by rw [hcoll]; cases coll <;> rfl, ?_⟩
    cases want with
    | false => exact hreceived.2
    | true =>
      obtain ⟨level, got, control, hlen, rfl, rfl⟩ := hreceived
      have hseen : Ended cfg env cmd tx start fails (mid ++ [ev]) := h.snoc (by simp [hev]) (by simp [hev])
      obtain ⟨rfl, rfl⟩ := hseen.response henv hrep hlen hmore (by rw [← List.append_assoc]; exact ha.2)
      rfl

theorem TailEnd.leaves {o : XactOutcome} {tail : List Event} {r' : PiccResponse} (h : TailEnd cfg al want r o tail r') :
    ∀ e ∈ tail, e.leavesResults cfg = true := by
  obtain ⟨e, rest, rfl, ⟨-, -, rfl, -⟩ | ⟨-, -, hreceived⟩⟩ := h
  · simp
  · cases want with
    | false =>
      obtain ⟨rfl, -⟩ := hreceived
      simp
    | true =>
      obtain ⟨level, bytes, control, -, rfl, -⟩ := hreceived
      cases bytes <;> simp [responseSeen]

end

/-- A transaction's outcome and response are its reply's, and CollReg behind it holds the reply's position: `start` the trace up to the
start of its command, `behind` the events behind that. -/
structure XactAgrees (cfg : Cfg) (env : Env) (al : BitVec 3) (want : Bool) (r : PiccResponse) (start behind : List Event)
    (o : XactOutcome) (r' : PiccResponse) : Prop where
  outcome : o = (env.reply start).outcome
  rsp     : r' = (env.reply start).rspAfter want al r
  coll    : ∀ bytes vb p, env.reply start = .reply bytes vb (some p) →
    collPosNotValid cfg (env.value (start ++ behind) .coll) = false ∧ collPos cfg (env.value (start ++ behind) .coll) = p

/-- An answered transaction agrees with the reply to its frame (R218). -/
theorem XactEnd.agrees (henv : ConformingEnv cfg env) {past evs shown : List Event} {o : XactOutcome} {r' : PiccResponse}
    (h : XactEnd cfg cmd tx tl al want r o shown r') (hs : evs.map Event.seen = shown) (ha : env.answered cfg past evs = true) :
    ∃ b start behind, evs = start ++ behind ∧ start.map Event.seen = xactStartSeen cfg cmd tx tl al ++ startSeen cfg cmd b ∧
      XactAgrees cfg env al want r (past ++ start) behind o r' := by
  cases h with
  | late b framing polls last hrun ht =>
    rw [headSeen, List.append_assoc, ← List.append_assoc] at hs
    obtain ⟨start, behind, rfl, hstart, hbehind⟩ := List.map_eq_append_iff.1 hs
    obtain ⟨polled, clear, rfl, hpolled, -⟩ := List.map_eq_append_iff.1 hbehind
    simp only [answered_append, Bool.and_eq_true] at ha
    have hsilent := silent_of_timedOut henv (fun _ hl => commanded_xact hstart hl) hrun hpolled ha.2.1 ht
    refine ⟨b, start, _, rfl, hstart, ?_, ?_, fun bytes vb p hp => ?_⟩
    · rw [hsilent]; rfl
    · rw [hsilent]; rfl
    · cases hsilent.symm.trans hp
  | done b framing polls v o tail r' hrun hv htail =>
    rw [headSeen, List.append_assoc, List.append_assoc, List.append_assoc, ← List.append_assoc] at hs
    obtain ⟨start, behind, rfl, hstart, hbehind⟩ := List.map_eq_append_iff.1 hs
    obtain ⟨polled, more, rfl, hpolled, hmore⟩ := List.map_eq_append_iff.1 hbehind
    obtain ⟨clear, tailed, rfl, hclear, htailed⟩ := List.map_eq_append_iff.1 hmore
    obtain ⟨fails, e, rfl, hread, -⟩ := hrun.last_event hpolled
    obtain ⟨-, he⟩ := hread v rfl
    simp only [answered_append, Env.answered, Bool.and_eq_true, Bool.and_true] at ha
    obtain ⟨-, ⟨-, hgiven⟩, -, htailGiven⟩ := ha
    have hended : Ended cfg env cmd tx (past ++ start) fails ([e] ++ clear) := ended_of_polls hstart hrun hpolled he hclear hgiven hv
    obtain ⟨ho, hr⟩ := hended.tail henv htail htailed (by simpa using htailGiven)
    refine ⟨b, start, _, rfl, hstart, ho, hr, fun bytes vb p hp => ?_⟩
    have hquiet : ∀ x ∈ (([e] ++ clear) ++ tailed).map Event.seen, x.leavesResults cfg = true := by
      rw [List.map_append, List.forall_mem_append, htailed]
      exact ⟨hended.quiet, htail.leaves⟩
    simpa using henv.coll cmd tx (past ++ start) fails (([e] ++ clear) ++ tailed) bytes vb p (hended.done _ hquiet) hp

/-! ### The one-step transaction (R218) -/

/-- A CollReg read behind a one-step transaction that ended with a collision gives its position. -/
theorem collReg_of_xact {s : State} {bytes : List Byte} {vb : BitVec 3} {p : Nat} (hp : s.nextReply = .reply bytes vb (some p))
    (h1 : 1 ≤ p) (h2 : p ≤ 32) : collPosNotValid cfg ((s.xact cmd tx tl al want).collReg cfg) = false ∧
      collPos cfg ((s.xact cmd tx tl al want).collReg cfg) = p := by
  have hlast : (s.xact cmd tx tl al want).trace.getLast? = some (.xact cmd tx tl al (.reply bytes vb (some p))) := by
    rw [State.xact_trace, List.getLast?_append, hp]
    rfl
  rw [State.collReg, hlast]
  exact collPos_collRegOf _ h1 h2

/-- With both driver bits clear before it a transaction has no reply (R140). -/
theorem silent_of_unpowered (henv : ConformingEnv cfg env) {past start : List Event} {b : Byte}
    (hs : start.map Event.seen = xactStartSeen cfg cmd tx tl al ++ startSeen cfg cmd b)
    (hoff : env.value past .txControl &&& txDrivers cfg = 0) : env.reply (past ++ start) = .silent :=
  henv.unpowered cmd tx (past ++ start) (commanded_xact hs nofun) ((drivers_xactStart henv hs).trans hoff)

/-- Settles O14: both grains agree with the reply the cards give once the transmission is started. -/
theorem transactionAbstraction : Obligations.TransactionAbstraction := by
  refine ⟨?_, fun old => ⟨⟨rfl, rfl⟩, fun _ => ⟨rfl, rfl⟩, fun b vb => ⟨rfl, ?_⟩, fun b vb p => ⟨rfl, ?_⟩, ?_⟩⟩
  · intro cmd tx tl al want s t o evs env henv hx htrace ha
    obtain ⟨x, evs', rd, d, q, r', c', hx', o', rfl, hend⟩ :=
      shows_transceive (cfg := s.cfg) (cmd := cmd) (tx := tx) (tl := tl) (al := al) (want := want) s rfl rfl
    rw [hx'] at hx
    obtain ⟨rfl, rfl⟩ : o' = o ∧ s.ran evs' rd d q r' c' = t := by simpa using hx
    obtain rfl : evs' = evs := List.append_cancel_left htrace
    obtain ⟨b, start, behind, rfl, hstart, hagrees⟩ := hend.agrees henv rfl ha
    rw [← xactStart_length hstart, List.take_left]
    intro reply
    refine ⟨hagrees.outcome, hagrees.rsp, fun hoff => ?_, fun rest => ?_⟩
    · have hsilent := silent_of_unpowered henv hstart hoff
      exact ⟨hagrees.outcome.trans (by rw [hsilent]; rfl), hagrees.rsp.trans (by rw [hsilent]; rfl)⟩
    · refine ⟨State.xact { s with answers := .reply reply :: rest } cmd tx tl al want, by rw [hagrees.outcome]; rfl, rfl,
        hagrees.rsp.symm, rfl, fun bytes vb p hp => ?_⟩
      obtain ⟨hvalid, hpos⟩ := hagrees.coll bytes vb p hp
      obtain ⟨h1, h2⟩ := collPos_le (cfg := s.cfg) (env.value (s.trace ++ start ++ behind) .coll)
      obtain ⟨hvalid', hpos'⟩ := collReg_of_xact (cfg := s.cfg) (cmd := cmd) (tx := tx) (tl := tl) (al := al) (want := want)
        (s := { s with answers := .reply reply :: rest }) hp (hpos ▸ h1) (hpos ▸ h2)
      refine ⟨_, _, rfl, hvalid', hpos', ?_⟩
      rw [htrace, ← List.append_assoc]
      exact ⟨hvalid, hpos⟩
  · simp [Reply.rspAfter]
  · simp [Reply.rspAfter]
  · intro r
    cases r <;> rfl

end Sys2Proof.Machine


/-! Address bytes and the CRC_A trailer, bit by bit (R86, R90, R200). -/

namespace Sys2Proof

variable (cfg : Cfg) (r : Reg)

/-! ### Address bytes (R86, R116) -/

theorem Cfg.wa_bit0 : (cfg.wa r).getLsbD 0 = false := by
  rw [Cfg.wa, BitVec.getLsbD_and, BitVec.getLsbD_shiftLeft]
  simp

theorem Cfg.ra_bit0 : (cfg.ra r).getLsbD 0 = false := by
  rw [Cfg.ra, BitVec.getLsbD_or, cfg.wa_bit0]
  rfl

/-- Bits 6 to 1 of a write address are the register's index. -/
theorem Cfg.wa_indexBit {i : Nat} (hi : i < 6) : (cfg.wa r).getLsbD (i + 1) = (cfg.index r).getLsbD i := by
  have key : ∀ x : BitVec 6, ∀ i < 6, ((x.setWidth 8 <<< 1) &&& 0x7E#8 : Byte).getLsbD (i + 1) = x.getLsbD i := by decide
  exact key _ i hi

/-- The read bit is above the index: a read address has the index bits of the write address. -/
theorem Cfg.ra_indexBit {i : Nat} (hi : i < 6) : (cfg.ra r).getLsbD (i + 1) = (cfg.index r).getLsbD i := by
  have key : ∀ i < 6, (0x80#8).getLsbD (i + 1) = false := by decide
  rw [Cfg.ra, BitVec.getLsbD_or, key i hi, Bool.or_false, cfg.wa_indexBit r hi]

/-- Settles O2: the address is the masked shift of the index by definition, and its bits follow one by one. -/
theorem registerAddressBits : Obligations.RegisterAddressBits := fun cfg r =>
  ⟨rfl, rfl, cfg.wa_bit7 r, cfg.ra_bit7 r, cfg.wa_bit0 r, cfg.ra_bit0 r, fun _ hi => ⟨cfg.wa_indexBit r hi, cfg.ra_indexBit r hi⟩⟩

end Sys2Proof

namespace Sys2Proof.Machine

/-! ### The residue of CRC_A (R90, R200) -/

/-- A clear low bit is shifted out without the reflected constant. -/
theorem crcShift_of_bit0_clear {c : BitVec 16} (h : c.getLsbD 0 = false) : crcShift c = c >>> 1 := by
  have hand : c &&& 1#16 = 0#16 := by
    rw [BitVec.and_one_eq_setWidth_ofBool_getLsbD, h]
    rfl
  rw [crcShift, hand]
  rfl

/-- `n` shifts of a register whose `n` low bits are clear only move the other bits down. -/
theorem iterate_crcShift_of_clear {c : BitVec 16} {n : Nat} (h : ∀ i < n, c.getLsbD i = false) : crcShift^[n] c = c >>> n := by
  induction n with
  | zero => simp
  | succ n ih =>
    rw [Function.iterate_succ_apply', ih fun i hi => h i (by omega), crcShift_of_bit0_clear (by simpa using h n (by omega)),
      ← BitVec.shiftRight_add]

theorem crcByte_eq_iterate (c : BitVec 16) (b : Byte) : crcByte c b = crcShift^[8] (c ^^^ b.setWidth 16) := rfl

/-- The register's own low byte clears its low half, so only its high byte is left, moved down. -/
theorem crcByte_own_low (c : BitVec 16) : crcByte c (c.setWidth 8) = c >>> 8 := by
  rw [crcByte_eq_iterate, iterate_crcShift_of_clear]
  · ext i hi
    simp
  · intro i hi
    simp [hi, Nat.lt_trans hi (by decide : 8 < 16)]

/-- A register byte that is fed to itself leaves 0. -/
theorem crcByte_self (b : Byte) : crcByte (b.setWidth 16) b = 0 := by
  rw [crcByte_eq_iterate, BitVec.xor_self, iterate_crcShift_of_clear (by simp)]
  rfl

/-- The high byte of a CRC, as the register holds it once the low byte is shifted out. -/
theorem setWidth_crcHigh (d : List Byte) : (crcHigh d).setWidth 16 = crcA d >>> 8 := by
  have hlt := (crcA d).isLt
  refine BitVec.eq_of_toNat_eq ?_
  simp only [crcHigh, BitVec.toNat_setWidth, BitVec.toNat_ushiftRight, Nat.shiftRight_eq_div_pow]
  omega

/-- Settles O8: the low trailer byte leaves the high byte of the body's CRC, and the high trailer byte cancels that. -/
theorem crcResidueIsZero : Obligations.CrcResidueIsZero := by
  intro d
  calc crcA (d ++ crcBytes d)
      = crcByte (crcByte (crcA d) (crcLow d)) (crcHigh d) := by
        simp only [crcA, crcBytes, List.foldl_append, List.foldl_cons, List.foldl_nil]
    _ = crcByte ((crcHigh d).setWidth 16) (crcHigh d) := by rw [crcLow, crcByte_own_low, setWidth_crcHigh]
    _ = 0 := crcByte_self _

end Sys2Proof.Machine


/-! The PCD command rows and the frame rows, run by themselves (R92, R94 to R103, R206; log entry 10). -/

namespace Sys2Proof.Machine

variable {i : Instr} {s : State}

/-- A row that only issues a command writes its code to CommandReg and goes on. -/
theorem exec_commandRow {c : PcdCommand} (hf : s.faultMark = none)
    (h : rowProc s.cfg .registers i = some (do regWrite s.cfg .command (s.cfg.byte c); pure .unit)) :
    ∃ evs d q, exec i s = .next (s.after evs s.answers d q (.value .unit)) ∧
      evs.map Event.seen = [wrote s.cfg .command [s.cfg.byte c]] := by
  rw [exec_row s h]
  exact runRow_goes hf ((goes_regWrite .command (s.cfg.byte c)).bind (goes_pure Value.unit))

/-- Settles O12: four rows are one write of CommandReg; Transceive is the write and the read-modify-write that sets StartSend. -/
theorem pcdCommandRowsRun : Obligations.PcdCommandRowsRun := by
  intro s hf
  refine ⟨fun i c hi => ?_, fun b rest hb => ?_⟩
  · have hrow : rowProc s.cfg .registers i = some (do regWrite s.cfg .command (s.cfg.byte c); pure .unit) := by
      simp only [List.mem_cons, Prod.mk.injEq, List.not_mem_nil, or_false] at hi
      obtain ⟨rfl, rfl⟩ | ⟨rfl, rfl⟩ | ⟨rfl, rfl⟩ | ⟨rfl, rfl⟩ := hi
      · rfl
      · rfl
      · rfl
      · rfl
    exact exec_commandRow hf hrow
  · have hrun : (do issueCommand s.cfg .transceive; pure .unit : Proc Value).Goes s s.answers (.ok Value.unit) s
        (wrote s.cfg .command [s.cfg.byte .transceive] :: startSeen s.cfg .transceive b) rest := by
      rw [hb]
      exact (goes_issueCommand .transceive b).bind (goes_pure Value.unit)
    exact runRow_goes hf hrun

/-- Settles O15: a frame row is its transaction, which on a conforming script ends with the reply's outcome and sends its one frame. -/
theorem frameRowsRun : Obligations.FrameRowsRun := by
  intro i cmd tx tl al want s reply answers rest hframe hf hx ha
  rw [exec_row s (rowProc_frame hframe)]
  have hrun : (do let o ← transceive s.cfg .registers cmd tx tl al want; pure (.outcome o) : Proc Value).Sends s.cfg s s.answers
      (.ok (.outcome reply.outcome)) { s with rsp := reply.rspAfter want al s.rsp } [(bitFraming al tl, tx)] rest := by
    rw [ha]
    exact (sends_transceive tx tl al hx).bind (sends_pure _)
  exact runRow_sends hf hrun

end Sys2Proof.Machine


/-! A selection that completes at CL1 (R146 to R168). -/

namespace Sys2Proof.Machine

variable {s : State} {rest : List Answer} {frames : List (Byte × List Byte)}

/-- An accepted select whose levels complete gives the UID and the SAK they leave (R166, R168). -/
theorem exec_select_completes {v : State} (h : s.accepts) (hl : ∀ head, (runLevels s.cfg .registers head [.cl1, .cl2, .cl3]).Sends s.cfg
      (s.startCall .select).endSessionForSelect s.answers (.ok ()) v frames rest) :
    ∃ evs d, exec .select s = .next ((v.did evs rest d .idle).giveBack (.value (.selected v.uidBytes v.sak))) ∧
      framesSent s.cfg evs = frames :=
  hostCall_value h.1 (refusalOf_accepts h true) (sends_selectCard hl)

theorem toList_fourBytes (u : Vector Byte 4) : u.toList = [u[0], u[1], u[2], u[3]] := by
  obtain ⟨a, b, c, d, rfl⟩ := field_cases u
  rfl

/-- A CL1 field that is no cascade tag fills the first four bytes of the UID register; the others keep what they held (R163; log
entry 21). -/
theorem levelDone_cl1_uid {cfg : Cfg} {u : Vector Byte 4} {sak : Byte} {it : Nat} (hu : u[0] ≠ 0x88) :
    (s.levelDone cfg .cl1 u sak it).uid =
      #v[u[0], u[1], u[2], u[3], s.uid[4], s.uid[5], s.uid[6], s.uid[7], s.uid[8], s.uid[9]] := by
  show writeAt s.uid 0 (contribution .cl1 u[0] u[1] u[2] u[3]) = _
  rw [contribution, if_neg fun hc => hu hc.2]
  ext j hj
  interval_cases j <;> simp [writeAt]

theorem cascadeBit_eq_false {sak : Byte} (h : sak &&& 0x04 = 0) : cascadeBit sak = false := by
  simpa [cascadeBit, anyBit] using h

/-- A selection whose CL1 ends without a cascade tag and without a cascade bit: the state it leaves (R163, R166, R168). -/
theorem exec_select_cl1 {u : Vector Byte 4} {sak : Byte} {it : Nat} (h : s.accepts) (hu : u[0] ≠ 0x88) (hsak : sak &&& 0x04 = 0)
    (hl : (runLevel s.cfg .registers .cl1).Sends s.cfg (s.startCall .select).endSessionForSelect s.answers (levelEnd .cl1 u sak)
      ((s.startCall .select).endSessionForSelect.levelDone s.cfg .cl1 u sak it) frames rest) :
    ∃ evs d, exec .select s = .next ({ s with
        uidValid := true, uidSize := 4, sak := sak, gen := s.gen + 1, lastAuthSector := none, level := .cl1, k := 32, iter := it,
        uid := #v[u[0], u[1], u[2], u[3], s.uid[4], s.uid[5], s.uid[6], s.uid[7], s.uid[8], s.uid[9]],
        selBuf := selectedBuf s.cfg .cl1 u[0] u[1] u[2] u[3], rsp := sakRsp sak,
        crcOut := (crcLow [sak], crcHigh [sak]) }.after evs rest d .idle (.value (.selected u.toList sak))) ∧
      framesSent s.cfg evs = frames := by
  have hbit := cascadeBit_eq_false hsak
  obtain ⟨evs, d, hx, hf⟩ := exec_select_completes h fun head =>
    runLevels_last [.cl2, .cl3] head hl (by simpa [hbit] using hu) hbit
  refine ⟨evs, d, ?_, hf⟩
  rw [hx, State.uidBytes, State.completeSelect_uid, levelDone_cl1_uid hu, toList_fourBytes u]
  simp only [State.did, State.giveBack, State.completeSelect, State.after, h.2.1]
  rw [levelDone_cl1_uid hu]
  rfl

/-- Settles O22: both a card alone and a card that collisions are resolved to make a CL1 that ends the selection. -/
theorem selectFourByteUid : Obligations.SelectFourByteUid := by
  intro s u sak answers rest h hu hsak ha body selects
  obtain ⟨a, b, c, e, rfl⟩ := field_cases u
  refine ⟨fun hl => ?_, fun cards ks hr => ?_⟩
  · exact exec_select_cl1 h hu hsak (ha ▸ sends_runLevel hl)
  · obtain ⟨frames, hk, hl⟩ := sends_resolvedLevel (s := (s.startCall .select).endSessionForSelect) hr
    exact ⟨frames, hk, exec_select_cl1 h hu hsak (ha ▸ hl rest)⟩

end Sys2Proof.Machine

/-! A PICC transaction whatever the chip answers: its register accesses in order, and its outcome (R206 to R217). -/

namespace Sys2Proof.Machine

variable {cfg : Cfg} {cmd : PiccCommand} {tx : List Byte} {tl al : BitVec 3} {want : Bool} {r r' : PiccResponse} {o : XactOutcome}
  {shown tail : List Event}

/-- Only the first received byte is masked (R120). -/
theorem alignFirst_eq_modifyHead (bs : List Byte) : alignFirst al bs = bs.modifyHead fun b => b &&& (0xFF#8 <<< al.toNat) := by
  cases bs <;> rfl

/-- A transaction ends with an outcome and changes nothing but the transport's fields and `rsp` (R206). -/
theorem transceive_exec (s : State) : ∃ evs rest dr q o r',
    (transceive cfg .registers cmd tx tl al want).exec s =
      (.ok o, { s with trace := s.trace ++ evs, answers := rest, draws := dr, pos := q, rsp := r' }) ∧
    XactEnd cfg cmd tx tl al want s.rsp o (evs.map Event.seen) r' := by
  obtain ⟨_, evs, rest, dr, q, r', c', hx, o, rfl, hend⟩ :=
    shows_transceive (cfg := cfg) (cmd := cmd) (tx := tx) (tl := tl) (al := al) (want := want) s rfl rfl
  have hcrc : Same State.crcOut s _ := same_transceive (cfg := cfg) aside_crcOut.apart (want := want) (fun _ _ _ => rfl) cmd tx tl al s
  rw [hx] at hcrc
  obtain rfl : c' = s.crcOut := hcrc
  exact ⟨evs, rest, dr, q, o, r', hx, hend⟩

/-- A transaction shows a head and a tail: none behind a poll that timed out, else what ErrorReg leads to (R213 to R217). -/
theorem XactEnd.parts (h : XactEnd cfg cmd tx tl al want r o shown r') : ∃ start framing polls last tail,
    shown = headSeen cfg cmd tx tl al start polls framing ++ tail ∧
    PollRun cfg .picc .comIrq (fun v => pollEnds cfg cmd v = true) polls last ∧
    (timedOut cfg cmd last = true → o = .timeout ∧ tail = [] ∧ r' = r) ∧
    (timedOut cfg cmd last = false → TailEnd cfg al want r o tail r') := by
  cases h with
  | late start framing polls last hrun ht =>
    exact ⟨start, framing, polls, last, [], (List.append_nil _).symm, hrun, fun _ => ⟨rfl, rfl, rfl⟩,
      fun hf => absurd ht (Bool.eq_false_iff.1 hf)⟩
  | done start framing polls v _ tail _ hrun hv htail =>
    exact ⟨start, framing, polls, some v, tail, rfl, hrun, fun ht => by simp [timedOut, hv] at ht, fun _ => htail⟩

/-- The reading of ErrorReg decides what the tail shows, its outcome and the response it leaves (R214 to R216). -/
theorem TailEnd.byError (h : TailEnd cfg al want r o tail r') : ∃ e more, tail = gave cfg .error [e] :: more ∧
    (earlyError cfg e = true → o = .comm e ∧ more = [] ∧ r' = r) ∧
    (earlyError cfg e = false → o = (if collError cfg e then .coll else .ok) ∧ Received cfg al want r more r') := by
  obtain ⟨e, more, rfl, ⟨he, houtcome⟩ | ⟨he, houtcome⟩⟩ := h
  · exact ⟨e, more, rfl, fun _ => houtcome, fun hf => absurd he (Bool.eq_false_iff.1 hf)⟩
  · exact ⟨e, more, rfl, fun ht => absurd ht (Bool.eq_false_iff.1 he), fun _ => houtcome⟩

/-- Settles O13: a transaction is a head, and behind a done bit a tail that ErrorReg decides. -/
theorem transactionProtocol : Obligations.TransactionProtocol := by
  intro cmd tx tl al want s
  obtain ⟨evs, rest, dr, q, o, r', hx, hend⟩ := transceive_exec (cfg := s.cfg) (cmd := cmd) (tx := tx) (tl := tl) (al := al) (want := want) s
  obtain ⟨b, framing, polls, last, tail, hshown, hrun, hlate, hdone⟩ := hend.parts
  simp only [pollEnds, Bool.or_eq_true] at hrun
  refine ⟨evs, rest, dr, q, o, r', wrote s.cfg .command [s.cfg.byte cmd.pcd] :: startSeen s.cfg cmd b, polls, last, framing, tail,
    hx, ?_, ?_, ?_, hrun, fun hnot => hlate ?_, fun v hlast hv => ?_⟩
  · rw [hshown]
    simp [headSeen, xactStartSeen, bitFraming]
  · rintro rfl
    exact ⟨b, rfl⟩
  · rintro rfl
    rfl
  · cases last with
    | none => rfl
    | some v => simp [timedOut, hnot v rfl]
  · obtain ⟨e, more, htail, hearly, hclean⟩ := (hdone (by simp [timedOut, hlast, hv])).byError
    refine ⟨e, more, htail, hearly, fun he => ?_⟩
    obtain ⟨ho, hreceived⟩ := hclean he
    refine ⟨ho, ?_, ?_⟩
    · rintro rfl
      exact hreceived
    · rintro rfl
      obtain ⟨level, bytes, control, hlen, hmore, hrsp⟩ := hreceived
      refine ⟨level, bytes, control, hlen, ?_, ?_⟩
      · rw [hmore]
        simp [responseSeen]
      · rw [hrsp, alignFirst_eq_modifyHead]

end Sys2Proof.Machine


/-! The register rows, run by themselves, and what a conforming chip makes of a write (R73, R117 to R123). -/

namespace Sys2Proof.Machine

variable {s : State}

/-! ### One frame -/

/-- A write frame moves only the transport (R117, R118). -/
theorem writeFrame_eq_did (s : State) (m : List Byte) :
    s.writeFrame m = s.did [.spi m (ignoredBytes s.draws m.length)] s.answers (s.draws + m.length) s.pos.advance := rfl

/-- A read frame moves only the transport, and its values are the next ones read (R119, R120). -/
theorem readFrame_eq_did (s : State) (m : List Byte) (n : Nat) : ∃ d,
    s.readFrame m n = s.did [.spi m (Config.freeIgnored s.draws :: s.nextReads n)] (takeValues n s.answers).2 d s.pos.advance := ⟨_, rfl⟩

/-- The values a script begins with are read, and the script goes on behind them (R42). -/
theorem reads_of_script {xs : List Byte} {ys : List Answer} {n : Nat} (h : s.answers = xs.map .value ++ ys) (hn : xs.length = n) :
    s.nextReads n = xs ∧ (takeValues n s.answers).2 = ys := by
  subst hn
  exact ⟨nextReads_of_script h, by rw [h, takeValues_map]⟩

/-- A row whose procedure gives a value made of another's is that other one's run with the value as its result (log entry 10). -/
theorem runRow_of_exec {α : Type} {p : Proc α} {f : α → Value} {a : α} {u : State} {evs : List Event} {rest : List Answer} {d : Nat}
    {q : Pos} (hf : s.faultMark = none) (h : p.exec s = (.ok a, u.did evs rest d q)) :
    runRow (do let x ← p; pure (f x)) s = .next (u.after evs rest d q (.value (f a))) := by
  rw [runRow, unlessStuck_none hf, Proc.exec_bind_ok h]
  rfl

/-! ### The rows -/

theorem exec_regWrite (hf : s.faultMark = none) (r : Reg) (v : Byte) : exec (.regWrite r v) s =
    .next (s.after [.spi [s.cfg.wa r, v] (ignoredBytes s.draws 2)] s.answers (s.draws + 2) s.pos.advance (.value .unit)) :=
  runRow_of_exec (f := fun _ => .unit) (a := ()) hf (congrArg (Prod.mk _) (writeFrame_eq_did s _))

theorem exec_regWriteN (hf : s.faultMark = none) (r : Reg) {bytes : List Byte} (hb : bytes ≠ []) : exec (.regWriteN r bytes) s =
    .next (s.after [.spi (s.cfg.wa r :: bytes) (ignoredBytes s.draws (bytes.length + 1))] s.answers (s.draws + (bytes.length + 1))
      s.pos.advance (.value .unit)) := by
  refine runRow_of_exec (f := fun _ => .unit) (a := ()) hf ?_
  rw [regWriteN, if_neg (by simpa using hb)]
  exact congrArg (Prod.mk _) (writeFrame_eq_did s _)

theorem exec_regWriteN_nil (hf : s.faultMark = none) (r : Reg) :
    exec (.regWriteN r []) s = .next (s.after [] s.answers s.draws s.pos (.value .unit)) :=
  runRow_of_exec (f := fun _ => .unit) (a := ()) hf (congrArg (Prod.mk _) (did_self s).symm)

theorem exec_regRead (hf : s.faultMark = none) (r : Reg) {b : Byte} (hb : s.nextReads 1 = [b]) : ∃ d, exec (.regRead r) s =
    .next (s.after [.spi [s.cfg.ra r, 0x00] [Config.freeIgnored s.draws, b]] (takeValues 1 s.answers).2 d s.pos.advance
      (.value (.byte b))) := by
  obtain ⟨d, hd⟩ := readFrame_eq_did s [s.cfg.ra r, 0x00] 1
  rw [hb] at hd
  refine ⟨d, runRow_of_exec (f := .byte) hf ?_⟩
  rw [regRead, Proc.exec_primitive, hb, hd]
  rfl

theorem exec_regReadN (hf : s.faultMark = none) (r : Reg) {n : Nat} (a : BitVec 3) (hn : n ≠ 0) : ∃ d, exec (.regReadN r n a) s =
    .next (s.after [.spi (List.replicate n (s.cfg.ra r) ++ [0x00]) (Config.freeIgnored s.draws :: s.nextReads n)]
      (takeValues n s.answers).2 d s.pos.advance (.value (.bytes (alignFirst a (s.nextReads n))))) := by
  obtain ⟨d, hd⟩ := readFrame_eq_did s (List.replicate n (s.cfg.ra r) ++ [0x00]) n
  refine ⟨d, runRow_of_exec (f := .bytes) hf ?_⟩
  rw [regReadN, if_neg hn, Proc.exec_primitive, hd]

theorem exec_regReadN_zero (hf : s.faultMark = none) (r : Reg) (a : BitVec 3) :
    exec (.regReadN r 0 a) s = .next (s.after [] s.answers s.draws s.pos (.value (.bytes []))) :=
  runRow_of_exec (f := .bytes) hf (congrArg (Prod.mk _) (did_self s).symm)

theorem exec_resetLine (hf : s.faultMark = none) (l : LineLevel) : exec (.resetLine l) s =
    .next ({ s with resetLine := l }.after [.reset l] s.answers s.draws s.pos.advance (.value .unit)) :=
  runRow_of_exec (f := fun _ => .unit) (a := ()) hf rfl

/-! ### A write in a conforming environment (R73) -/

section

variable {cfg : Cfg} {env : Env} {past : List Event} {v : Byte} {miso : List Byte}

@[simp] theorem sets_spi_write (g r : Reg) : (Event.spi [cfg.wa r, v] miso).sets cfg g = if r = g then some v else none := by
  rw [← sets_seen, seen_write, sets_wrote]

theorem comIrq_cleared (henv : ConformingEnv cfg env) (hv : anyBit v (bit cfg.fields.set1) = false) :
    env.value (past ++ [.spi [cfg.wa .comIrq, v] miso]) .comIrq &&& v = 0 :=
  (henv.flags past _ v).1 (by simp) hv

theorem divIrq_cleared (henv : ConformingEnv cfg env) (hv : anyBit v (bit cfg.fields.set2) = false) :
    env.value (past ++ [.spi [cfg.wa .divIrq, v] miso]) .divIrq &&& v = 0 :=
  (henv.flags past _ v).2 (by simp) hv

theorem crypto1_stopped (henv : ConformingEnv cfg env) (hv : v &&& crypto1On cfg = 0) :
    env.value (past ++ [.spi [cfg.wa .status2, v] miso]) .status2 &&& crypto1On cfg = 0 :=
  henv.crypto past _ v (by simp) hv

theorem drivers_written (henv : ConformingEnv cfg env) (hp : powerDown cfg (env.value past .command) = false) :
    env.value (past ++ [.spi [cfg.wa .txControl, v] miso]) .txControl &&& txDrivers cfg = v &&& txDrivers cfg := by
  have hreset : (Event.spi [cfg.wa .txControl, v] miso).resetsChip cfg = false := by
    rw [← resetsChip_seen, seen_write, resetsChip_wrote]
    rfl
  exact (henv.drivers past _ hreset nofun).2 v (by simp) hp

end

/-- Settles O11: each row is its one frame or none, and a conforming chip obeys the four writes. -/
theorem transportRowsRun : Obligations.TransportRowsRun := by
  intro s hf
  refine ⟨fun r v => ?_, fun r bytes hb => ?_, exec_regWriteN_nil hf, fun r => ?_, fun r n a hn => ?_, exec_regReadN_zero hf,
    fun r v env t henv hx => ?_, exec_resetLine hf⟩
  · exact ⟨_, _, ignoredBytes_length _ _, exec_regWrite hf r v⟩
  · exact ⟨_, _, ignoredBytes_length _ _, exec_regWriteN hf r hb⟩
  · obtain ⟨b, hb⟩ := List.length_eq_one_iff.1 (nextReads_length s 1)
    obtain ⟨d, hx⟩ := exec_regRead hf r hb
    refine ⟨_, b, _, d, hx, fun x xs hs => ?_⟩
    obtain ⟨hread, hrest⟩ := reads_of_script (xs := [x]) hs rfl
    exact ⟨(List.cons.inj (hb.symm.trans hread)).1, hrest⟩
  · obtain ⟨d, hx⟩ := exec_regReadN hf r a (Nat.one_le_iff_ne_zero.1 hn)
    rw [alignFirst_eq_modifyHead] at hx
    exact ⟨_, _, _, d, nextReads_length s n, hx, fun xs ys hs hlen => reads_of_script hs hlen⟩
  · rw [exec_regWrite hf] at hx
    cases hx
    refine ⟨?_, ?_, ?_, ?_⟩
    · rintro rfl
      exact comIrq_cleared henv
    · rintro rfl
      exact divIrq_cleared henv
    · rintro rfl
      exact crypto1_stopped henv
    · rintro rfl
      exact drivers_written henv

end Sys2Proof.Machine


/-! init: with a script it completes, or its power-down poll gives up; whatever the chip answers it ends in one of these two ways, and with
a conforming chip only the deadline makes it give up (R130 to R143, R276, R277, R49 (f)). -/

namespace Sys2Proof.Machine

variable {cfg : Cfg} {env : Env} {s : State} {r : PiccResponse} {c : Byte × Byte} {evs : List Event} {rest : List Answer} {d : Nat} {q : Pos}

/-! ### What init leaves -/

/-- The controller behind an init: the session over, the reset line high, ready where it completed (R137, R276, R277). -/
def State.initEnd (s : State) (ready : Bool) : State :=
  { s with ready := ready, resetLine := .high, uidValid := false, lastAuthSector := none, gen := s.gen + 1 }

/-- An init that gives back leaves an idle sequencer. -/
theorem giveBack_initEnd (hb : s.busy = false) (b : Bool) (v : CallResult) :
    (((s.startCall .init).initEnd b).did evs rest d q).giveBack v = (s.initEnd b).after evs rest d .idle v := by
  simp [State.did, State.giveBack, State.startCall, State.initEnd, State.after, hb]

/-- An init that is not refused is its bring-up. -/
theorem exec_init (hf : s.faultMark = none) (hb : s.busy = false) :
    exec .init s = .next (finishCall ((do bringUp s.cfg; pure .unit : Proc Value).exec (s.startCall .init))) :=
  hostCall_run hf (refusalOf_none hb nofun rfl)

/-- An init whose bring-up completes gives unit. -/
theorem exec_init_of_ok (hf : s.faultMark = none) (hb : s.busy = false)
    (h : (bringUp s.cfg).exec (s.startCall .init) = (.ok (), ((s.startCall .init).initEnd true).did evs rest d q)) :
    exec .init s = .next ((s.initEnd true).after evs rest d .idle (.value .unit)) := by
  rw [exec_init hf hb, Proc.exec_bind_ok h, ← giveBack_initEnd hb]
  rfl

/-- An init whose bring-up raises an error gives it. -/
theorem exec_init_of_raise (hf : s.faultMark = none) (hb : s.busy = false) {e : Err}
    (h : (bringUp s.cfg).exec (s.startCall .init) = (.error (.raise e), ((s.startCall .init).initEnd false).did evs rest d q)) :
    exec .init s = .next ((s.initEnd false).after evs rest d .idle (.error e)) := by
  rw [exec_init hf hb, Proc.exec_bind_error h, ← giveBack_initEnd hb]
  rfl

/-! ### With a script -/

theorem resetSeen_eq (cfg : Cfg) (l : LineLevel) :
    resetSeen cfg l = if l = .low then .reset .high else wrote cfg .command [cfg.byte .softReset] := by cases l <;> rfl

/-- Settles O16: the script of a reset that is over in time makes bring-up complete. -/
theorem initSucceeds : Obligations.InitSucceeds := by
  intro s fails v w t answers rest hf hb ha hs
  obtain ⟨evs, d, q, hx, hseen⟩ := (goes_bringUp (s := s.startCall .init) ha).run hs
  refine ⟨evs, d, exec_init_of_ok hf hb hx, hseen.trans ?_⟩
  simp [resetSeen_eq, failedPolls, setupSeen, antennaSeen]

/-- A script of polls begins with that of the polls before the last, and the last reading. -/
theorem polled_snoc (budget : Nat) (fails : List Byte) (v : Byte) :
    ∃ more, polled budget (fails ++ [v]) = polled budget fails ++ .value v :: more := by
  cases fails with
  | nil => exact ⟨[.deadline budget], rfl⟩
  | cons x xs => exact ⟨[], by simp [polled]⟩

theorem deadlinePolls_snoc (g : Reg) (kind : WaitKind) (fails : List Byte) (v : Byte) :
    deadlinePolls cfg g kind (fails ++ [v]) = failedPolls cfg g kind fails ++ [gave cfg g [v], .ask kind true] := by
  simp [deadlinePolls]

/-- Settles O17: the poll raises at the limit's last reading, or at its deadline, and bring-up ends there. -/
theorem initGivesUp : Obligations.InitGivesUp := by
  intro s fails v budget rest hf hb hdown hs
  refine ⟨fun hl hle => ?_, fun hl hle => ?_⟩
  · obtain ⟨more, hmore⟩ := polled_snoc budget fails v
    rw [hmore, List.append_assoc] at hs
    obtain ⟨evs, d, q, hx, hseen⟩ := (goes_bringUp_error (s := s.startCall .init)
      (goes_pollPowerDown_limit (fun x hx => hdown x (by simp [hx])) hl hle (hdown v (by simp)))).run hs
    exact ⟨evs, d, _, exec_init_of_raise hf hb hx, by simpa [resetSeen_eq, failedPolls] using hseen⟩
  · obtain ⟨evs, d, q, hx, hseen⟩ := (goes_bringUp_error (s := s.startCall .init)
      (goes_pollPowerDown_deadline (r := rest) (budget := budget) hdown (by simpa using hl) (by simpa using hle))).run hs
    rw [deadlinePolls_snoc] at hseen
    exact ⟨evs, d, exec_init_of_raise hf hb hx, by simpa [resetSeen_eq, failedPolls] using hseen⟩

/-! ### The power-down poll whatever the chip answers (R132, R138) -/

/-- How the power-down poll ends and what it shows from reading `i` on. -/
inductive PowerDownRun (cfg : Cfg) : Nat → Except Stop Unit → List Event → Prop where
  | up (i : Nat) (v : Byte) : powerDown cfg v = false → PowerDownRun cfg i (.ok ()) [gave cfg .command [v]]
  | limit (i : Nat) (v : Byte) : powerDown cfg v = true → cfg.resetPollLimit ≤ i + 1 →
      PowerDownRun cfg i (.error (.raise (.timeout .reset))) [gave cfg .command [v]]
  | deadline (i : Nat) (v : Byte) : powerDown cfg v = true →
      PowerDownRun cfg i (.error (.raise (.timeout .reset))) [gave cfg .command [v], .ask .reset true]
  | again (i : Nat) (v : Byte) {x : Except Stop Unit} {es : List Event} : powerDown cfg v = true → PowerDownRun cfg (i + 1) x es →
      PowerDownRun cfg i x (gave cfg .command [v] :: .ask .reset false :: es)

/-- A poll that stopped ends with a query answered true, or at the limit with a reading that still has PowerDown set. -/
theorem PowerDownRun.gaveUp {i : Nat} {z : Stop} {es : List Event} (h : PowerDownRun cfg i (.error z) es) :
    es.getLast? = some (.ask .reset true) ∨ ∃ fails v, es = failedPolls cfg .command .reset fails ++ [gave cfg .command [v]] ∧
      powerDown cfg v = true ∧ cfg.resetPollLimit ≤ i + fails.length + 1 := by
  generalize hx : (.error z : Except Stop Unit) = x at h
  induction h with
  | up => cases hx
  | limit i v hv hl => exact .inr ⟨[], v, rfl, hv, hl⟩
  | deadline => exact .inl rfl
  | again i v hv _ ih =>
    obtain hlast | ⟨fails, w, rfl, hw, hl⟩ := ih hx
    · exact .inl (by simp [List.getLast?_cons, hlast])
    · exact .inr ⟨v :: fails, w, rfl, hw, by rw [List.length_cons]; omega⟩

/-- A look at the state shows nothing. -/
theorem shows_look {α : Type} (f : State → α) :
    (Proc.look f).Shows r c fun x e r' c' => (∃ a, x = .ok a) ∧ e = [] ∧ r' = r ∧ c' = c := fun s hr hc =>
  ⟨.ok (f s), [], s.answers, s.draws, s.pos, r, c, by simp [State.ran, ← hr, ← hc], ⟨_, rfl⟩, rfl, rfl, rfl⟩

/-- Nothing runs behind an error (R251). -/
theorem shows_raise_bind {α β : Type} {e : Err} {f : α → Proc β} {Q : Except Stop β → List Event → PiccResponse → Byte × Byte → Prop}
    (h : Q (.error (.raise e)) [] r c) : (Proc.raise e >>= f).Shows r c Q := fun s hr hc =>
  ⟨_, [], s.answers, s.draws, s.pos, r, c, by rw [Proc.exec_bind_error (Proc.exec_raise _ _)]; simp [State.ran, ← hr, ← hc], h⟩

/-- A test of the power-down poll in front of what the loop does with its finding: `f none` runs behind a failed poll. -/
theorem shows_powerDownCheck {i : Nat} {f : Option Unit → Proc Unit} (hup : f (some ()) = pure ())
    (hdown : ∀ v, powerDown cfg v = true → (f none).Shows r c fun x e r' c' =>
      PowerDownRun cfg i x (gave cfg .command [v] :: e) ∧ r' = r ∧ c' = c) :
    (powerDownCheck cfg i >>= f).Shows r c fun x e r' c' => PowerDownRun cfg i x e ∧ r' = r ∧ c' = c := by
  rw [powerDownCheck, bind_assoc]
  refine (shows_regRead .command).bind ?_ fun _ _ _ _ ⟨_, _, _, h, _⟩ => by cases h
  rintro v _ _ _ ⟨rfl, rfl, _, h, rfl⟩
  cases h
  by_cases hv : powerDown cfg v = true
  · by_cases hl : cfg.resetPollLimit ≤ i + 1
    · rw [if_pos hv, if_pos hl]
      exact shows_raise_bind ⟨.limit i v hv hl, rfl, rfl⟩
    · rw [if_pos hv, if_neg hl, pure_bind]
      exact hdown v hv
  · rw [if_neg hv, pure_bind, hup]
    exact shows_pure ⟨.up i v (Bool.eq_false_iff.2 hv), rfl, rfl⟩

theorem shows_pollPowerDownAgain {head : Pos} {i : Nat} {v : Byte} (hv : powerDown cfg v = true) (budget : Nat) :
    (pollAgain .reset head (powerDownCheck cfg) (Proc.raise (.timeout .reset)) budget (i + 1)).Shows r c fun x e r' c' =>
      PowerDownRun cfg i x (gave cfg .command [v] :: e) ∧ r' = r ∧ c' = c := by
  induction budget generalizing i v with
  | zero => exact (shows_ask _ _).then (shows_raise ⟨.deadline i v hv, rfl, rfl⟩)
  | succ budget ih =>
    refine (shows_ask _ _).then ((shows_jump _).then ((shows_powerDownCheck rfl fun w hw => ih hw).imp ?_))
    exact fun _ _ _ _ ⟨hrun, hr, hc⟩ => ⟨.again i v hv hrun, hr, hc⟩

theorem shows_pollPowerDown : (pollPowerDown cfg).Shows r c fun x e r' c' => PowerDownRun cfg 0 x e ∧ r' = r ∧ c' = c := by
  refine (shows_look State.pos).bind ?_ fun _ _ _ _ ⟨⟨_, h⟩, _⟩ => by cases h
  rintro head _ _ _ ⟨-, rfl, rfl, rfl⟩
  refine shows_powerDownCheck rfl fun v hv => shows_drawBudget.bind ?_ fun _ _ _ _ ⟨⟨_, h⟩, _⟩ => by cases h
  rintro budget _ _ _ ⟨-, rfl, rfl, rfl⟩
  exact shows_pollPowerDownAgain hv budget

/-! ### init whatever the chip answers -/

/-- Bring-up completes, or it gives up, and moves only the transport beside what init writes (R137, R276, R277). -/
theorem bringUp_exec (cfg : Cfg) (s : State) : ∃ evs rest d q,
    (bringUp cfg).exec s = (.ok (), (s.initEnd true).did evs rest d q) ∨
      (bringUp cfg).exec s = (.error (.raise (.timeout .reset)), (s.initEnd false).did evs rest d q) := by
  have hrsp := same_bringUp (cfg := cfg) aside_rsp.apart aside_rsp.line aside_rsp.session aside_rsp.ready s
  have hcrc := same_bringUp (cfg := cfg) aside_crcOut.apart aside_crcOut.line aside_crcOut.session aside_crcOut.ready s
  obtain ⟨_, ⟨evs, rest, d, q, r', c', -, -, rfl⟩, hx | hx⟩ := bringUp_ends (cfg := cfg) s
  all_goals
    rw [hx] at hrsp hcrc
    obtain rfl : r' = s.rsp := hrsp
    obtain rfl : c' = s.crcOut := hcrc
  · exact ⟨evs, rest, d, q, .inr hx⟩
  · exact ⟨evs, rest, d, q, .inl hx⟩

/-- init behind its poll never stops. -/
theorem stops_setup {Q : Stop → Prop} : (setup cfg).Stops Q :=
  stops_bind (stops_clearBits _ _) fun _ => stops_bind (stops_regWrite _ _) fun _ => stops_bind (stops_regWrite _ _) fun _ =>
    stops_bind (stops_regWrite _ _) fun _ => stops_bind (stops_regWrite _ _) fun _ => stops_bind (stops_regWrite _ _) fun _ =>
    stops_bind (stops_regWrite _ _) fun _ => stops_bind (stops_antennaSet true) fun _ => stops_update _

/-- The reset is one event, which resets the chip (R131). -/
theorem chipReset_exec (cfg : Cfg) (s : State) :
    ∃ u e, (chipReset cfg).exec s = (.ok (), u) ∧ u.trace = s.trace ++ [e] ∧ e.resetsChip cfg = true := by
  obtain ⟨reset, d, q, hx, hseen⟩ := (goes_chipReset (cfg := cfg) (s := s)).run rfl
  obtain ⟨e, rfl, he⟩ := List.map_eq_singleton_iff.1 hseen
  refine ⟨_, e, hx, rfl, ?_⟩
  rw [← resetsChip_seen, he]
  cases s.resetLine with
  | low => rfl
  | high => simp [resetSeen]

/-- A bring-up that stopped did nothing behind its power-down poll (R132, R138). -/
theorem bringUp_stopped {z : Stop} {t : State} (h : (bringUp cfg).exec s = (.error z, t)) :
    ∃ e polls, t.trace = s.trace ++ e :: polls ∧ e.resetsChip cfg = true ∧ PowerDownRun cfg 0 (.error z) (polls.map Event.seen) := by
  obtain ⟨u, e, hreset, htrace, he⟩ := chipReset_exec cfg s.endSessionForInit
  obtain ⟨x, polls, _, _, _, _, _, hpoll, hrun, -⟩ := shows_pollPowerDown (cfg := cfg) u rfl rfl
  rw [bringUp_eq, Proc.exec_bind_ok (Proc.exec_update _ _), Proc.exec_bind_ok hreset] at h
  cases x with
  | ok =>
    rw [Proc.exec_bind_ok hpoll] at h
    exact (stops_setup (Q := fun _ => False) _ _ _ h).elim
  | error z' =>
    rw [Proc.exec_bind_error hpoll] at h
    cases h
    exact ⟨e, polls, by simp [State.ran, htrace], he, hrun⟩

/-! ### In a conforming environment (R49 (f)) -/

theorem countP_isAsk_failedPolls (g : Reg) (kind : WaitKind) (xs : List Byte) :
    (failedPolls cfg g kind xs).countP Event.isAsk = xs.length := by
  induction xs with
  | nil => rfl
  | cons x xs ih =>
    show (gave cfg g [x] :: Event.ask kind false :: failedPolls cfg g kind xs).countP Event.isAsk = _
    rw [List.countP_cons_of_neg Bool.false_ne_true, List.countP_cons_of_pos rfl, ih, List.length_cons]

/-- The last poll the limit allows reads PowerDown clear (R49 (f)). -/
theorem powerDown_clear_at_limit (henv : ConformingEnv cfg env) {past polls : List Event} {e : Event} {fails : List Byte} {v : Byte}
    (he : e.resetsChip cfg = true) (hs : polls.map Event.seen = failedPolls cfg .command .reset fails ++ [gave cfg .command [v]])
    (hl : cfg.resetPollLimit ≤ fails.length + 1) (ha : env.answered cfg (past ++ [e]) polls = true) : powerDown cfg v = false := by
  obtain ⟨failed, last, rfl, hfailed, hlast⟩ := List.map_eq_append_iff.1 hs
  obtain ⟨eV, rfl, hV⟩ := List.map_eq_singleton_iff.1 hlast
  simp only [answered_append, Env.answered, Bool.and_eq_true, List.append_assoc, List.singleton_append] at ha
  obtain ⟨-, hgives, -⟩ := ha
  rw [← gives_value hV hgives]
  refine henv.powerUp past e failed he (fun x hx => ?_) ?_
  · have hx' : x.seen ∈ failedPolls cfg .command .reset fails := hfailed ▸ List.mem_map_of_mem hx
    rw [← isAsk_seen, ← reads_seen]
    obtain ⟨y, -, hy⟩ := List.mem_flatMap.1 hx'
    obtain h | h := List.mem_pair.1 hy
    · exact .inr (by simp [h])
    · exact .inl (by rw [h]; rfl)
  · have hcount : failed.countP Event.isAsk = fails.length := by
      rw [← countP_isAsk_failedPolls (cfg := cfg) .command .reset, ← hfailed, List.countP_map]
      exact List.countP_congr fun x _ => by simp
    rwa [hcount]

/-- A conforming chip lets a bring-up stop only by a deadline query that answered true (R49 (f)). -/
theorem bringUp_stopped_by_deadline (henv : ConformingEnv cfg env) {z : Stop} {t : State} (h : (bringUp cfg).exec s = (.error z, t))
    (ht : t.trace = s.trace ++ evs) (ha : env.answered cfg s.trace evs = true) : evs.getLast? = some (.ask .reset true) := by
  obtain ⟨e, polls, htrace, he, hrun⟩ := bringUp_stopped h
  obtain rfl : evs = e :: polls := List.append_cancel_left (ht.symm.trans htrace)
  obtain hlast | ⟨fails, v, hs, hv, hl⟩ := hrun.gaveUp
  · rw [List.getLast?_cons, getLast_of_seen_ask hlast]
    rfl
  · rw [Env.answered, Bool.and_eq_true] at ha
    rw [powerDown_clear_at_limit henv he hs (by omega) ha.2] at hv
    cases hv

/-- Settles O18: bring-up completes or gives up; where it gives up a conforming chip had its deadline pass. -/
theorem initOutcomes : Obligations.InitOutcomes := by
  intro s hf hb
  obtain ⟨evs, rest, d, q, hx | hx⟩ := bringUp_exec s.cfg (s.startCall .init)
  · exact ⟨_, exec_init_of_ok hf hb hx, rfl, rfl, rfl, rfl, hb, rfl, .inl ⟨rfl, rfl⟩, rfl, rfl, rfl, rfl, rfl, rfl, rfl, rfl, rfl, hf, rfl,
      rfl, rfl, rfl, nofun⟩
  · refine ⟨_, exec_init_of_raise hf hb hx, rfl, rfl, rfl, rfl, hb, rfl, .inr ⟨rfl, rfl⟩, rfl, rfl, rfl, rfl, rfl, rfl, rfl, rfl, rfl, hf,
      rfl, rfl, rfl, rfl, fun env evs' henv ht ha _ => bringUp_stopped_by_deadline henv hx ht ha⟩

end Sys2Proof.Machine

/-! The antenna operations: with a script, and in a conforming environment (R139, R110, R140). -/

namespace Sys2Proof.Machine

variable {cfg : Cfg} {env : Env} {s : State} {r : PiccResponse} {c : Byte × Byte} {i : Instr} {on : Bool}

/-- Either spelling of an antenna operation is `antennaSet` (R110). -/
theorem exec_antenna (h : s.accepts)
    (hi : i = (if on then Instr.antennaOn else .antennaOff) ∨ ∃ a, i = .setAntennaState a ∧ boolOf s a = some on) :
    exec i s = .next (finishCall ((do antennaSet s.cfg on; pure .unit : Proc Value).exec (s.startCall .setAntennaState))) := by
  rw [← hostCall_run (op := .setAntennaState) h.1 (refusalOf_accepts h true)]
  obtain rfl | ⟨a, rfl, ha⟩ := hi
  · cases on <;> rfl
  · exact withArg_some h.1 ha _

/-- An antenna operation with a script (R139). -/
theorem exec_antenna_reads {v : Byte} {rest : List Answer} (h : s.accepts) (hs : s.answers = .value v :: rest)
    (hi : i = (if on then Instr.antennaOn else .antennaOff) ∨ ∃ a, i = .setAntennaState a ∧ boolOf s a = some on) :
    ∃ evs d, exec i s = .next (s.after evs rest d .idle (.value .unit)) ∧ evs.map Event.seen = antennaSeen s.cfg on v := by
  obtain ⟨evs, d, q, hx, hseen⟩ := (goes_antennaSet (s := s.startCall .setAntennaState) on v).run hs
  refine ⟨evs, d, ?_, hseen⟩
  rw [exec_antenna h hi, Proc.exec_bind_ok hx]
  simp [finishCall, State.did, State.giveBack, State.startCall, State.after, h.2.1]

/-- What the driver bits of TxControlReg are to be (R139). -/
def wantedDrivers (cfg : Cfg) (on : Bool) : Byte := if on then txDrivers cfg else 0

/-- What an antenna operation shows: a reading with the drivers as wanted, or another one and a write of them (R139). -/
def DriversSet (cfg : Cfg) (on : Bool) (shown : List Event) : Prop :=
  ∃ t, (shown = [gave cfg .txControl [t]] ∧ t &&& txDrivers cfg = wantedDrivers cfg on) ∨
    ∃ v, shown = [gave cfg .txControl [t], wrote cfg .txControl [v]] ∧ v &&& txDrivers cfg = wantedDrivers cfg on

/-- `antennaSet` whatever the chip answers. -/
theorem shows_antennaSet (on : Bool) : (antennaSet cfg on).Shows r c fun x e _ _ => x = .ok () ∧ DriversSet cfg on e := by
  refine (shows_regRead .txControl).bind ?_ fun _ _ _ _ ⟨_, _, _, h, _⟩ => by cases h
  rintro t _ r c ⟨-, -, _, h, rfl⟩
  cases h
  have keep (h : t &&& txDrivers cfg = wantedDrivers cfg on) : (pure () : Proc Unit).Shows r c fun x e _ _ =>
      x = .ok () ∧ DriversSet cfg on ([gave cfg .txControl [t]] ++ e) := shows_pure ⟨rfl, t, .inl ⟨rfl, h⟩⟩
  have write (v : Byte) (h : v &&& txDrivers cfg = wantedDrivers cfg on) : (regWrite cfg .txControl v).Shows r c fun x e _ _ =>
      x = .ok () ∧ DriversSet cfg on ([gave cfg .txControl [t]] ++ e) :=
    (shows_regWrite _ _).imp fun _ _ _ _ ⟨hx, he, _⟩ => ⟨hx, t, .inr ⟨v, by rw [he]; rfl, h⟩⟩
  refine shows_ite (fun hon => ?_) fun hoff => ?_
  · subst hon
    exact shows_ite (fun _ => write _ (or_and t _)) fun h => keep (by simpa [wantedDrivers] using h)
  · obtain rfl := Bool.eq_false_iff.2 hoff
    exact shows_ite (fun _ => write _ (andn_and t _)) fun h => keep (by simpa [wantedDrivers] using h)

/-- An event that shows a write is that frame (R122). -/
theorem write_of_seen {e : Event} {g : Reg} {bs : List Byte} (h : e.seen = wrote cfg g bs) : ∃ miso, e = .spi (cfg.wa g :: bs) miso := by
  cases e with
  | spi mosi miso => exact ⟨miso, by rw [(Event.spi.inj h).1]⟩
  | _ => cases h

/-- A conforming chip that is not starting up has its drivers as wanted behind an answered antenna operation (R40, R73). -/
theorem drivers_of_answered (henv : ConformingEnv cfg env) {past evs : List Event} (hs : DriversSet cfg on (evs.map Event.seen))
    (hp : powerDown cfg (env.value past .command) = false) (ha : env.answered cfg past evs = true) :
    env.value (past ++ evs) .txControl &&& txDrivers cfg = wantedDrivers cfg on := by
  obtain ⟨t, ⟨hs, ht⟩ | ⟨v, hs, hv⟩⟩ := hs
  · obtain ⟨e, rfl, he⟩ := List.map_eq_singleton_iff.1 hs
    rw [drivers_keep henv (by simp [he])]
    rw [Env.answered, Bool.and_eq_true] at ha
    rw [gives_value he ha.1, ht]
  · obtain ⟨e, rest, rfl, he, hrest⟩ := List.map_eq_cons_iff.1 hs
    obtain ⟨w, rfl, hw⟩ := List.map_eq_singleton_iff.1 hrest
    obtain ⟨miso, rfl⟩ := write_of_seen hw
    have hread := (henv.reads past e [] .txControl nofun (by rw [← reads_seen, he]; simp)).1
    rw [← List.singleton_append, ← List.append_assoc, drivers_written henv, hv]
    rw [Env.value, hread, List.append_nil]
    exact hp

/-- Settles O19: the operation reads, and writes where the drivers are not as wanted, which a conforming chip keeps. -/
theorem antennaRuns : Obligations.AntennaRuns := by
  refine ⟨fun s i on env h hi henv hp => ?_, fun s v rest h hs => ⟨fun i hi => ?_, fun i hi => ?_⟩⟩
  · obtain ⟨x, evs, _, _, _, _, _, hx, rfl, hseen⟩ := shows_antennaSet (cfg := s.cfg) on (s.startCall .setAntennaState) rfl rfl
    rw [exec_antenna h hi, Proc.exec_bind_ok hx]
    exact ⟨_, evs, rfl, rfl, rfl, rfl, rfl, rfl, fun ha => drivers_of_answered henv hseen hp ha⟩
  · exact exec_antenna_reads (on := true) h hs hi
  · exact exec_antenna_reads (on := false) h hs hi

end Sys2Proof.Machine


/-! The arithmetic of a level's bits, what a collision does, and the merge of a response (R150, R151, R153 to R156, R171). -/

namespace Sys2Proof.Machine

/-! ### Index arithmetic (R171) -/

/-- The byte of a field bit, by the rule's other form and range by range. -/
theorem bitByte_forms {p : Nat} (h1 : 1 ≤ p) : bitByte p = 1 + p / 8 + (if p % 8 ≠ 0 then 1 else 0) ∧ bitPlace p = (p - 1) % 8 ∧
    (p ≤ 8 → bitByte p = 2) ∧ (9 ≤ p → p ≤ 16 → bitByte p = 3) ∧ (17 ≤ p → p ≤ 24 → bitByte p = 4) ∧
    (25 ≤ p → p ≤ 32 → bitByte p = 5) := by
  unfold bitByte bitPlace
  split <;> omega

theorem usedBytes_eq (k : Nat) : usedBytes k = 2 + k / 8 + (if k % 8 ≠ 0 then 1 else 0) := by
  unfold usedBytes fieldIndex
  split <;> simp_all

theorem tailBits_toNat (k : Nat) : (tailBits k).toNat = k % 8 := by simp [tailBits]

/-- Settles O27: both forms of the byte index agree by division, and the frame bytes are those of `nvb_eq` and `bitFraming_tailBits`. -/
theorem indexArithmetic : Obligations.IndexArithmetic := by
  refine ⟨fun p h1 h32 => ?_, fun k hk => ⟨rfl, usedBytes_eq k, ?_, tailBits_toNat k, bitFraming_tailBits k⟩⟩
  · obtain ⟨hform, hplace, hcl2, hcl3, hcl4, hcl5⟩ := bitByte_forms h1
    exact ⟨hform, hplace, hcl2, hcl3, hcl4, fun h => hcl5 h h32⟩
  · rw [nvb_eq hk, BitVec.toNat_ofNat]
    omega

/-! ### A collision (R153 to R156) -/

/-- Setting a field bit leaves the buffer's bytes outside the UID field. -/
theorem byteAt_setFieldBit_outside (buf : Vector Byte 9) {p j : Nat} (h32 : p ≤ 32) (hj : j < 2 ∨ 5 < j) :
    byteAt (setFieldBit buf p) j = byteAt buf j := by
  unfold setFieldBit bitByte
  rw [byteAt_set, if_neg (by omega)]

/-- What a collision does once CollReg is read (R154 to R156). -/
theorem resolveCollision_exec {cfg : Cfg} {s t : State} {c : Byte} (h : (regRead cfg .coll).exec s = (.ok c, t)) :
    (resolveCollision cfg .registers).exec s =
      if collPosNotValid cfg c then (.error (.raise (.protocolFailure .collisionPositionNotValid)), t)
      else if collPos cfg c ≤ t.k then (.error (.raise (.protocolFailure .noProgress)), t)
      else (.ok (), t.resolveBit (collPos cfg c)) := by
  rw [resolveCollision, readColl, Proc.exec_bind_ok h, Proc.exec_ite, Proc.exec_bind_ok (Proc.exec_look _ _), Proc.exec_ite]
  rfl

/-- Settles O25: the reading of CollReg decides, and only the resolved bit is written. -/
theorem collisionResolution : Obligations.CollisionResolution := by
  intro s c rest ha
  obtain ⟨evs, d, q, hread, hseen⟩ := (goes_regRead (cfg := s.cfg) (s := s) (r := rest) .coll c).run ha
  have hx := resolveCollision_exec hread
  refine ⟨evs, d, q, hseen, fun hv => ?_, fun hv hp => ?_, fun hv hp => ⟨setFieldBit s.selBuf (collPos s.cfg c), ?_, fun x h1 h32 => ?_,
    fun j hj => ?_⟩⟩
  · exact hx.trans (if_pos hv)
  · exact hx.trans ((if_neg (Bool.eq_false_iff.1 hv)).trans (if_pos hp))
  · exact hx.trans ((if_neg (Bool.eq_false_iff.1 hv)).trans (if_neg (Nat.not_le.2 hp)))
  · exact fieldBit_setFieldBit _ (collPos_le c).1 ⟨h1, h32⟩
  · refine byteAt_setFieldBit_outside _ (collPos_le c).2 ?_
    simp only [List.mem_cons, List.not_mem_nil, or_false] at hj
    omega

/-! ### The merge (R151) -/

/-- Byte `j` after a merge: below the index and behind the response it stays; its first byte keeps the known low bits. -/
theorem byteAt_mergeBytes_outside (buf : Vector Byte 9) (idx : Nat) (tb : BitVec 3) (bs : List Byte) {j : Nat}
    (hj : j < idx ∨ idx + bs.length ≤ j) : byteAt (mergeBytes buf idx tb bs) j = byteAt buf j := by
  cases bs with
  | nil => rfl
  | cons r rs =>
    rw [List.length_cons] at hj
    rw [mergeBytes, byteAt_writeAt, if_neg (by rw [List.length_cons]; omega)]

/-- A bit of a merged response behind the known ones is the response's. -/
theorem getLsbD_mergeBytes (buf : Vector Byte 9) {idx : Nat} {tb : BitVec 3} {bs : List Byte} {j y : Nat} {b : Byte}
    (hb : bs[j]? = some b) (hl : idx + bs.length ≤ 9) (hy : y < 8) (hj : j = 0 → tb.toNat ≤ y) :
    (byteAt (mergeBytes buf idx tb bs) (idx + j)).getLsbD y = b.getLsbD y := by
  obtain ⟨hlt, rfl⟩ := List.getElem?_eq_some_iff.1 hb
  cases bs with
  | nil => simp at hlt
  | cons r rs =>
    rw [mergeBytes, byteAt_writeAt, if_pos ⟨Nat.le_add_right _ _, Nat.add_lt_add_left hlt idx, by omega⟩, Nat.add_sub_cancel_left]
    cases j with
    | zero => rw [List.getD_cons_zero, getLsbD_masked _ _ _ hy, if_neg (Nat.not_lt.2 (hj rfl)), List.getElem_cons_zero]
    | succ j => rw [List.getD_cons_succ, List.getD_eq_getElem _ _ (by simpa using hlt), List.getElem_cons_succ]

/-- What the merge of a response that fits leaves in the buffer (R151). -/
theorem mergeBytes_spec (buf : Vector Byte 9) {k : Nat} (hk : k ≤ 31) {bs : List Byte} (hl : bs.length ≤ 9 - (2 + k / 8)) :
    (∀ x, 1 ≤ x → x ≤ k → fieldBit (mergeBytes buf (2 + k / 8) (tailBits k) bs) x = fieldBit buf x) ∧
    (∀ j b, bs[j]? = some b → ∀ y < 8, (j = 0 → k % 8 ≤ y) →
      ((mergeBytes buf (2 + k / 8) (tailBits k) bs).toList.getD (2 + k / 8 + j) 0).getLsbD y = b.getLsbD y) ∧
    ∀ j, j < 2 + k / 8 ∨ 2 + k / 8 + bs.length ≤ j →
      (mergeBytes buf (2 + k / 8) (tailBits k) bs).toList.getD j 0 = buf.toList.getD j 0 := by
  refine ⟨fun x h1 hx => ?_, fun j b hb y hy hj => ?_, fun j hj => byteAt_mergeBytes_outside _ _ _ _ hj⟩
  · rw [fieldBit_mergeBytes _ _ _ (by omega) h1 (by omega), if_pos (Or.inl hx)]
  · exact getLsbD_mergeBytes _ hb (by omega) hy (by rwa [tailBits_toNat])

/-- The merge of a response, too long or fitting (R151). -/
theorem merge_exec (idx : Nat) (tb : BitVec 3) (s : State) : (merge idx tb).exec s =
    if 9 - idx < s.rsp.n then (.error (.raise (.communication .responseTooLong)), s)
    else (.ok (), { s with selBuf := mergeBytes s.selBuf idx tb s.rsp.bytes }) := by
  rw [merge, Proc.exec_bind_ok (Proc.exec_look _ _), Proc.exec_ite]
  rfl

/-- Settles O26: the room check decides, and `mergeBytes_spec` says what is written. -/
theorem mergeKeepsKnownBits : Obligations.MergeKeepsKnownBits := by
  intro s k hk
  refine ⟨fun hlong => ?_, fun hfits => ⟨_, ?_, mergeBytes_spec s.selBuf hk hfits⟩⟩
  · exact (merge_exec _ _ s).trans (if_pos hlong)
  · exact (merge_exec _ _ s).trans (if_neg (Nat.not_lt.2 hfits))

end Sys2Proof.Machine


/-! Selections over two and three levels with a script: the UID they assemble, and how a cascade tag and a SAK that disagree stop them
(R163 to R168). -/

namespace Sys2Proof.Machine

variable {cfg : Cfg} {s : State} {l : CascadeLevel} {frames : List (Byte × List Byte)} {rest : List Answer}

/-! ### How a level ends (R164, R167) -/

theorem cascadeBit_eq_true {sak : Byte} (h : sak &&& 0x04 ≠ 0) : cascadeBit sak = true := by
  simpa [cascadeBit, anyBit] using h

/-- The cascade bit is as the level's field says where either both show a cascade or neither does. -/
theorem cascadeBit_agrees_iff {f : Vector Byte 4} {sak : Byte} (hl : l ≠ .cl3) :
    cascadeBit sak = (decide (l ≠ .cl3) && f[0] == 0x88) ↔ (f[0] = 0x88 ↔ sak &&& 0x04 ≠ 0) := by
  have hbit : cascadeBit sak = true ↔ sak &&& 0x04 ≠ 0 := by simp [cascadeBit, anyBit]
  rw [Bool.eq_iff_iff, hbit, Bool.and_eq_true, decide_eq_true_eq, beq_iff_eq, and_iff_right hl]
  exact Iff.comm

/-- A cascade tag and a cascade bit agree. -/
theorem cascadeBit_agrees_of_tag {f : Vector Byte 4} {sak : Byte} (hl : l ≠ .cl3) (hf : f[0] = 0x88) (hs : sak &&& 0x04 ≠ 0) :
    cascadeBit sak = (decide (l ≠ .cl3) && f[0] == 0x88) := (cascadeBit_agrees_iff hl).2 ⟨fun _ => hs, fun _ => hf⟩

/-- A tag that disagrees with the cascade bit at CL1 or CL2 is the model's fault (R164). -/
theorem levelEnd_mismatch {f : Vector Byte 4} {sak : Byte} (hl : l ≠ .cl3) (h : ¬ (f[0] = 0x88 ↔ sak &&& 0x04 ≠ 0)) :
    levelEnd l f sak = .error (.unmodelled .cascadeTagMismatch) := by
  have hne := mt (cascadeBit_agrees_iff hl).1 h
  rw [levelEnd, if_neg (by simp [hl]), if_pos (bne_iff_ne.2 fun he => hne he.symm)]

/-- A cascade bit at CL3 is a ProtocolFailure (R167). -/
theorem levelEnd_cl3_cascade {f : Vector Byte 4} {sak : Byte} (h : cascadeBit sak = true) :
    levelEnd .cl3 f sak = .error (.raise (.protocolFailure .cascadeBitAtCL3)) := by
  rw [levelEnd, if_pos (by simp [h])]

/-! ### A selection that completes (R163, R166) -/

/-- The state a completed selection leaves, whatever the level it completes at: `w` the UID register the levels before left, `x` the one
with the last level's bytes. -/
theorem exec_select_completes_at {f : Vector Byte 4} {sak : Byte} {it : Nat} {w x : Vector Byte 10} {ids : List Byte} (h : s.accepts)
    (hl : ∀ head, (runLevels s.cfg .registers head [.cl1, .cl2, .cl3]).Sends s.cfg (s.startCall .select).endSessionForSelect s.answers
      (.ok ()) ((State.levelDone { (s.startCall .select).endSessionForSelect with uid := w } s.cfg l f sak it).completeSelect sak)
      frames rest)
    (hx : writeAt w l.offset (contribution l f[0] f[1] f[2] f[3]) = x) (hids : slice x 0 l.uidSize = ids) :
    ∃ evs d, exec .select s = .next ({ s with
        uidValid := true, uidSize := l.uidSize, sak := sak, gen := s.gen + 1, lastAuthSector := none, level := l, k := 32, iter := it,
        uid := x, selBuf := selectedBuf s.cfg l f[0] f[1] f[2] f[3], rsp := sakRsp sak,
        crcOut := (crcLow [sak], crcHigh [sak]) }.after evs rest d .idle (.value (.selected ids sak))) ∧
      framesSent s.cfg evs = frames := by
  obtain ⟨evs, d, hexec, hf⟩ := exec_select_completes h hl
  refine ⟨evs, d, ?_, hf⟩
  subst hx
  subst hids
  rw [hexec]
  simp only [State.did, State.giveBack, State.completeSelect, State.after, State.uidBytes, h.2.1]
  rfl

theorem vec7_eq (u : Vector Byte 7) : u = #v[u[0], u[1], u[2], u[3], u[4], u[5], u[6]] := by
  ext i hi
  interval_cases i <;> rfl

theorem vec10_eq (u : Vector Byte 10) : u = #v[u[0], u[1], u[2], u[3], u[4], u[5], u[6], u[7], u[8], u[9]] := by
  ext i hi
  interval_cases i <;> rfl

/-- A level behind a cascade tag gives three bytes (R163). -/
theorem contribution_tag (hl : l ≠ .cl3) (b c d : Byte) : contribution l 0x88 b c d = [b, c, d] := by
  rw [contribution, if_pos ⟨hl, rfl⟩]

/-- A level without a tag, or CL3, gives its four bytes (R163). -/
theorem contribution_whole {a : Byte} (h : l = .cl3 ∨ a ≠ 0x88) (b c d : Byte) : contribution l a b c d = [a, b, c, d] := by
  rw [contribution, if_neg fun hc => h.elim hc.1 fun ha => ha hc.2]

/-- Settles O23: CL1 stores three bytes behind its tag, CL2 four behind those, and completes. -/
theorem selectSevenByteUid : Obligations.SelectSevenByteUid := by
  intro s u sak1 sak cards1 cards2 ks1 ks2 a1 a2 rest h hu hsak1 hsak h1 h2 ha tag body
  have hbit1 := cascadeBit_eq_true hsak1
  have hbit := cascadeBit_eq_false hsak
  have hct1 := cascadeBit_agrees_of_tag (l := .cl1) (f := #v[0x88, u[0], u[1], u[2]]) nofun rfl hsak1
  have hct2 : cascadeBit sak = (decide (CascadeLevel.cl2 ≠ .cl3) && (#v[u[3], u[4], u[5], u[6]])[0] == 0x88) := by
    simpa [hbit] using hu
  obtain ⟨frames1, hk1, hl1⟩ := sends_resolvedLevel (s := (s.startCall .select).endSessionForSelect) h1
  obtain ⟨frames2, hk2, hl2⟩ := sends_resolvedLevel
    (s := (s.startCall .select).endSessionForSelect.levelDone s.cfg .cl1 #v[0x88, u[0], u[1], u[2]] sak1 (ks1.length + 1)) h2
  rw [List.append_assoc] at ha
  obtain ⟨evs, d, hexec, hf⟩ := exec_select_completes_at (w := writeAt s.uid 0 [u[0], u[1], u[2]])
    (x := #v[u[0], u[1], u[2], u[3], u[4], u[5], u[6], s.uid[7], s.uid[8], s.uid[9]]) (ids := u.toList) h
    (fun head => runLevels_next (ha ▸ hl1 (a2 ++ rest)) hct1 hbit1
      (runLevels_last [.cl3] head (hl2 rest) hct2 hbit))
    (by
      show writeAt _ 3 (contribution .cl2 u[3] u[4] u[5] u[6]) = _
      rw [contribution_whole (.inr hu)]
      ext j hj
      interval_cases j <;> simp [writeAt])
    (by conv_rhs => rw [vec7_eq u]
        rfl)
  exact ⟨evs, d, frames1, frames2, hexec, hf.trans (List.append_assoc _ _ _).symm, hk1, hk2⟩

/-- Settles O24: CL1 and CL2 store three bytes each, and CL3 four, whatever its first byte. -/
theorem selectTenByteUid : Obligations.SelectTenByteUid := by
  intro s u sak1 sak2 sak cards1 cards2 cards3 ks1 ks2 ks3 a1 a2 a3 rest h hsak1 hsak2 hsak h1 h2 h3 ha tag1 tag2 body
  have hbit1 := cascadeBit_eq_true hsak1
  have hbit2 := cascadeBit_eq_true hsak2
  have hbit := cascadeBit_eq_false hsak
  have hct1 := cascadeBit_agrees_of_tag (l := .cl1) (f := #v[0x88, u[0], u[1], u[2]]) nofun rfl hsak1
  have hct2 := cascadeBit_agrees_of_tag (l := .cl2) (f := #v[0x88, u[3], u[4], u[5]]) nofun rfl hsak2
  obtain ⟨frames1, hk1, hl1⟩ := sends_resolvedLevel (s := (s.startCall .select).endSessionForSelect) h1
  obtain ⟨frames2, hk2, hl2⟩ := sends_resolvedLevel
    (s := (s.startCall .select).endSessionForSelect.levelDone s.cfg .cl1 #v[0x88, u[0], u[1], u[2]] sak1 (ks1.length + 1)) h2
  obtain ⟨frames3, hk3, hl3⟩ := sends_resolvedLevel
    (s := ((s.startCall .select).endSessionForSelect.levelDone s.cfg .cl1 #v[0x88, u[0], u[1], u[2]] sak1 (ks1.length + 1)).levelDone
      s.cfg .cl2 #v[0x88, u[3], u[4], u[5]] sak2 (ks2.length + 1)) h3
  rw [List.append_assoc, List.append_assoc] at ha
  obtain ⟨evs, d, hexec, hf⟩ := exec_select_completes_at
    (w := writeAt (writeAt s.uid 0 [u[0], u[1], u[2]]) 3 [u[3], u[4], u[5]]) (x := u) (ids := u.toList) h
    (fun head => runLevels_next (ha ▸ hl1 (a2 ++ (a3 ++ rest))) hct1 hbit1
      (runLevels_next (hl2 (a3 ++ rest)) hct2 hbit2 (runLevels_last [] head (hl3 rest) hbit hbit)))
    (by
      show writeAt _ 6 (contribution .cl3 u[6] u[7] u[8] u[9]) = _
      rw [contribution_whole (.inl rfl)]
      ext j hj
      interval_cases j <;> simp [writeAt])
    (by rw [vec10_eq u]; rfl)
  exact ⟨evs, d, frames1, frames2, frames3, hexec, by rw [hf]; simp only [List.append_assoc]; rfl, hk1, hk2, hk3⟩

/-! ### A selection that stops (R164, R167, R262) -/

/-- An accepted select whose levels stop ends with that stop. -/
theorem exec_select_stops {v : State} {e : Stop} (h : s.accepts) (hl : ∀ head, (runLevels s.cfg .registers head [.cl1, .cl2, .cl3]).Sends
      s.cfg (s.startCall .select).endSessionForSelect s.answers (.error e) v frames rest) :
    ∃ evs d q, exec .select s = .next (finishCall (.error e, v.did evs rest d q)) := by
  obtain ⟨evs, d, q, hx, -⟩ := (sends_selectCard_stop hl).run rfl
  exact ⟨evs, d, q, (hostCall_run h.1 (refusalOf_accepts h true)).trans (by rw [hx])⟩

/-- A selection that the model's fault stops leaves no result and no session, and the machine is stuck (R262). -/
theorem exec_select_faults {v : State} (h : s.accepts) (hv : v.uidValid = false) (hr : v.result = none)
    (hl : ∀ head, (runLevels s.cfg .registers head [.cl1, .cl2, .cl3]).Sends
      s.cfg (s.startCall .select).endSessionForSelect s.answers (.error (.unmodelled .cascadeTagMismatch)) v frames rest) :
    ∃ t, exec .select s = .next t ∧ t.faultMark = some .cascadeTagMismatch ∧ t.uidValid = false ∧ t.result = none ∧
      step t = .fault (.stuck .cascadeTagMismatch) ∧ ∀ i, exec i t = .fault (.stuck .cascadeTagMismatch) := by
  obtain ⟨evs, d, q, hx⟩ := exec_select_stops h hl
  exact ⟨_, hx, rfl, hv, hr, rfl, fun i => exec_stuck rfl⟩

/-- Settles O30: a level ends by `levelEnd`, the levels in front of it by a tag and a cascade bit that agree. -/
theorem cascadeMismatchFaults : Obligations.CascadeMismatchFaults := by
  intro s h faults
  have first {cards u sak ks answers} (hr : ResolvedAnswers s.cfg .cl1 cards u sak ks answers) :=
    sends_resolvedLevel (s := (s.startCall .select).endSessionForSelect) hr
  refine ⟨fun cards u sak ks answers rest hr ha hne => ?_, fun cards1 u sak1 ks1 a1 h1 hu hsak1 cards2 v sak2 ks2 a2 h2 => ?_⟩
  · obtain ⟨frames, -, hl⟩ := first hr
    rw [levelEnd_mismatch (l := .cl1) nofun hne] at hl
    exact exec_select_faults h rfl rfl fun head => runLevels_stop (ha ▸ hl rest)
  obtain ⟨frames1, -, hl1⟩ := first h1
  obtain ⟨frames2, -, hl2⟩ := sends_resolvedLevel
    (s := (s.startCall .select).endSessionForSelect.levelDone s.cfg .cl1 u sak1 (ks1.length + 1)) h2
  refine ⟨fun rest ha hne => ?_, fun cards3 w sak3 ks3 a3 rest hv hsak2 h3 ha hsak3 => ?_⟩
  · rw [levelEnd_mismatch (l := .cl2) nofun hne] at hl2
    rw [List.append_assoc] at ha
    exact exec_select_faults h rfl rfl fun head => runLevels_next (ha ▸ hl1 (a2 ++ rest)) (cascadeBit_agrees_of_tag nofun hu hsak1)
      (cascadeBit_eq_true hsak1) (runLevels_stop (hl2 rest))
  · obtain ⟨frames3, -, hl3⟩ := sends_resolvedLevel (s := ((s.startCall .select).endSessionForSelect.levelDone s.cfg .cl1 u sak1
      (ks1.length + 1)).levelDone s.cfg .cl2 v sak2 (ks2.length + 1)) h3
    rw [levelEnd_cl3_cascade (cascadeBit_eq_true hsak3)] at hl3
    rw [List.append_assoc, List.append_assoc] at ha
    obtain ⟨evs, d, q, hx⟩ := exec_select_stops h fun head => runLevels_next (ha ▸ hl1 (a2 ++ (a3 ++ rest))) (cascadeBit_agrees_of_tag nofun hu hsak1)
      (cascadeBit_eq_true hsak1) (runLevels_next (hl2 (a3 ++ rest)) (cascadeBit_agrees_of_tag nofun hv hsak2) (cascadeBit_eq_true hsak2)
      (runLevels_stop (hl3 rest)))
    exact ⟨_, hx, rfl, rfl, h.1, rfl, rfl⟩

end Sys2Proof.Machine


/-! The bounds of select (R149, R160, R172), and isCardPresent with a script and with the antenna off (R140, R145). -/

namespace Sys2Proof.Machine

variable {cfg : Cfg} {s : State}

/-! ### The bounds of select (R149, R160, R172) -/

/-- An accepted select runs its procedure (R146). -/
theorem exec_select (h : s.accepts) : exec .select s = .next (finishCall ((selectCard s.cfg .registers).exec (s.startCall .select))) :=
  hostCall_run h.1 (refusalOf_accepts h true)

@[simp] theorem finishCall_iter (x : Except Stop Value × State) : (finishCall x).iter = x.2.iter := by
  rcases x with ⟨(_ | _) | _, _⟩ <;> rfl

@[simp] theorem finishCall_k (x : Except Stop Value × State) : (finishCall x).k = x.2.k := by
  rcases x with ⟨(_ | _) | _, _⟩ <;> rfl

theorem SelMoves.k_le {s t : State} (h : SelMoves cfg s t) (hk : s.k ≤ 32) : t.k ≤ 32 := by
  obtain ⟨_, _, k, _, _, hk', _, _, _, _, _, _, _, _, rfl⟩ := h
  exact hk'.elim (fun e => e ▸ hk) id

/-- Whatever the chip answers, select counts at most 32 passes at its last level and knows at most 32 bits. -/
theorem selectCard_bounds (s : State) : ((selectCard cfg .registers).exec s).2.iter ≤ 32 ∧
    (s.k ≤ 32 → ((selectCard cfg .registers).exec s).2.k ≤ 32) := by
  obtain ⟨t, hm, hi, ⟨e, -, hx⟩ | ⟨sak, -, hx⟩⟩ := selectCard_ends (cfg := cfg) s
  · rw [hx]
    exact ⟨hi, hm.k_le⟩
  · rw [hx]
    exact ⟨hi, hm.k_le⟩

/-- Settles O29: each level starts at most one transmission a pass, and there are three. -/
theorem selectIsBounded : Obligations.SelectIsBounded := by
  intro s h
  obtain ⟨evs, htrace, hcount⟩ := starts_selectCard (cfg := s.cfg) (s.startCall .select)
  obtain ⟨hiter, hk⟩ := selectCard_bounds (cfg := s.cfg) (s.startCall .select)
  exact ⟨_, evs, exec_select h, by rw [finishCall_trace, htrace]; rfl, hcount, by rwa [finishCall_iter],
    fun hs => by rw [finishCall_k]; exact hk hs⟩

/-! ### isCardPresent (R145) -/

/-- What isCardPresent makes of the outcome of REQA (R145). -/
def showsCard (o : XactOutcome) (r : PiccResponse) : Bool :=
  match o with
  | .ok   => cleanAtqa r
  | .coll => true
  | .timeout | .comm _ => false

/-- isCardPresent is its REQA, and reads the answer off the outcome and the response. -/
theorem exec_isCardPresent {o : XactOutcome} {t : State} (h : s.accepts)
    (hx : (sendReqa s.cfg .registers).exec (s.startCall .isCardPresent) = (.ok o, t)) :
    exec .isCardPresent s = .next (t.giveBack (.value (.bool (showsCard o t.rsp)))) := by
  have hcard : (cardPresent s.cfg .registers).exec (s.startCall .isCardPresent) = (.ok (showsCard o t.rsp), t) := by
    rw [cardPresent, Proc.exec_bind_ok hx]
    cases o <;> rfl
  refine (hostCall_run h.1 (refusalOf_accepts h true)).trans ?_
  rw [Proc.exec_bind_ok hcard]
  rfl

/-- A reply shows a card where it is a clean ATQA or a collision (R100, R145). -/
theorem showsCard_reply_iff (reply : Reply) (old : PiccResponse) : showsCard reply.outcome (reply.rspAfter true 0 old) = true ↔
    (∃ bytes, bytes.length = 2 ∧ reply = .reply bytes 0 none) ∨ ∃ bytes vb p, reply = .reply bytes vb (some p) := by
  cases reply with
  | silent => simp [Reply.outcome, showsCard]
  | garbled e => simp [Reply.outcome, showsCard]
  | reply bytes vb coll =>
    cases coll with
    | some p => simp [Reply.outcome, showsCard]
    | none => simp [Reply.outcome, showsCard, Reply.rspAfter, cleanAtqa, PiccResponse.n]

/-- An answered transaction with the antenna off times out (R140). -/
theorem timeout_of_unpowered {env : Env} {cmd : PiccCommand} {tx : List Byte} {tl al : BitVec 3} {want : Bool} {r r' : PiccResponse}
    {o : XactOutcome} {past evs : List Event} (henv : ConformingEnv cfg env) (hoff : env.value past .txControl &&& txDrivers cfg = 0)
    (h : XactEnd cfg cmd tx tl al want r o (evs.map Event.seen) r') (ha : env.answered cfg past evs = true) : o = .timeout := by
  obtain ⟨b, start, behind, rfl, hstart, hagrees⟩ := h.agrees henv rfl ha
  rw [hagrees.outcome, silent_of_unpowered henv hstart hoff]
  rfl

/-- Settles O21: the outcome of REQA decides, by the reply the script holds or by the silence of unpowered cards. -/
theorem cardPresenceRuns : Obligations.CardPresenceRuns := by
  refine ⟨fun s env h henv hoff => ?_, fun s reply answers rest h hx ha => ?_⟩
  · obtain ⟨evs, rest, d, q, o, r', hrun, hend⟩ := transceive_exec (cfg := s.cfg) (cmd := .transceive) (tx := [s.cfg.picc.reqa])
      (tl := 7) (al := 0) (want := true) (s.startCall .isCardPresent)
    refine ⟨_, evs, exec_isCardPresent h hrun, rfl, fun hans => ?_⟩
    rw [timeout_of_unpowered henv hoff hend hans]
    rfl
  · obtain ⟨evs, d, q, hrun, hframes⟩ := (sends_transceive (s := s.startCall .isCardPresent) (r := rest) [s.cfg.picc.reqa] 7 0 hx).run ha
    refine ⟨evs, d, _, (exec_isCardPresent h hrun).trans ?_, hframes, showsCard_reply_iff reply s.rsp⟩
    simp [State.did, State.giveBack, State.startCall, State.after, h.2.1]

end Sys2Proof.Machine


/-! The response rows, run by themselves (R145, R151, R152, R158, R162, R163, R184, R188; log entry 10). -/

namespace Sys2Proof.Machine

variable {cfg : Cfg} {s t : State} {p : Proc Value} {v : Value} {rsp : PiccResponse}

/-! ### How a row ends -/

theorem runRow_ok (hf : s.faultMark = none) (h : p.exec s = (.ok v, t)) : runRow p s = .next { t with result := some (.value v) } := by
  rw [runRow, unlessStuck_none hf, h]
  rfl

theorem runRow_raises {e : Err} (hf : s.faultMark = none) (h : p.exec s = (.error (.raise e), t)) :
    runRow p s = .next (t.giveBack (.error e)) := by
  rw [runRow, unlessStuck_none hf, h]
  rfl

/-- A row without transport leaves trace, script, draws and position. -/
theorem after_still (s : State) (r : CallResult) : s.after [] s.answers s.draws s.pos r = { s with result := some r } := by
  simp [State.after]

/-- An error without transport. -/
theorem after_still_error (s : State) (e : Err) :
    { s with busy := false }.after [] s.answers s.draws .idle (.error e) = s.giveBack (.error e) := by
  simp [State.after, State.giveBack]

/-! ### A response with a CRC trailer (R162, R184, R203) -/

/-- Two received bytes compared with a fresh checksum of the data: the value where they match, else the error. -/
def crcCompare {α : Type} (cfg : Cfg) (d : List Byte) (lo hi : Byte) (a : α) (e : Err) : Proc α := do
  let (x, y) ← crcTransaction cfg d
  if x = lo ∧ y = hi then pure a else Proc.raise e

theorem crcCompare_exec {α : Type} {d : List Byte} {x y : Byte} (lo hi : Byte) (a : α) (e : Err)
    (h : (crcTransaction cfg d).exec s = (.ok (x, y), t)) :
    (crcCompare cfg d lo hi a e).exec s = if x = lo ∧ y = hi then (.ok a, t) else (.error (.raise e), t) :=
  (Proc.exec_bind_ok h).trans (Proc.exec_ite _ _ _ _)

/-- The check of a SAK's CRC bytes (R162). -/
theorem checkSakCrc_eq_compare {sak lo hi : Byte} (h : s.rsp = ⟨[sak, lo, hi], 0⟩) :
    (checkSakCrc cfg).exec s = (crcCompare cfg [sak] lo hi sak (.checksum .sak)).exec s := by
  rw [checkSakCrc, Proc.exec_bind_ok (Proc.exec_look _ _), h]
  rfl

/-- The check of a READ response's CRC bytes, its shape being right (R184). -/
theorem checkRead_eq_compare {data : Vector Byte 16} {lo hi : Byte} (h : s.rsp = ⟨data.toList ++ [lo, hi], 0⟩) :
    (checkRead cfg).exec s = (crcCompare cfg data.toList lo hi data.toList (.checksum .read)).exec s := by
  have hshape : readShape ⟨data.toList ++ [lo, hi], 0⟩ = true := by simp [readShape, PiccResponse.n]
  have hdata : (data.toList ++ [lo, hi]).take 16 = data.toList := by simp
  have hlo : (data.toList ++ [lo, hi]).getD 16 0 = lo := by simp [List.getD]
  have hhi : (data.toList ++ [lo, hi]).getD 17 0 = hi := by simp [List.getD]
  rw [checkRead, Proc.exec_bind_ok (Proc.exec_look _ _), h, if_pos hshape]
  simp only [hdata, hlo, hhi, crcCompare]

theorem Proc.exec_bind_congr {α β : Type} {x y : Proc α} (f : α → Proc β) (h : x.exec s = y.exec s) : (x >>= f).exec s = (y >>= f).exec s := by
  rw [Proc.exec_bind, Proc.exec_bind, h]

/-- A row that receives a response and compares its CRC bytes: they are right, wrong, or the chip's checksum is late. -/
theorem crcRow_runs {α : Type} {d : List Byte} {lo hi : Byte} {a : α} {e : Err} {g : α → Value} (hf : s.faultMark = none)
    (hp : p.exec s = (crcCompare s.cfg d lo hi a e >>= fun a => pure (g a)).exec { s with rsp := rsp }) :
    (∀ w polls x y rest, PollAnswers (crcIrq s.cfg) (some w) polls → s.answers = polls ++ .value x :: .value y :: rest →
      ∃ evs dr q, framesSent s.cfg evs = [] ∧
        (lo = x → hi = y → runRow p s = .next ({ s with rsp := rsp, crcOut := (x, y) }.after evs rest dr q (.value (g a)))) ∧
        (¬ (lo = x ∧ hi = y) → runRow p s =
          .next ({ s with rsp := rsp, crcOut := (x, y), busy := false }.after evs rest dr .idle (.error e)))) ∧
    ∀ polls rest, PollAnswers (crcIrq s.cfg) none polls → s.answers = polls ++ rest →
      ∃ evs dr, framesSent s.cfg evs = [] ∧
        runRow p s = .next ({ s with rsp := rsp, busy := false }.after evs rest dr .idle (.error (.timeout .crc))) := by
  refine ⟨fun w polls x y rest hpolls ha => ?_, fun polls rest hpolls ha => ?_⟩
  · obtain ⟨shown, hrun, hgoes⟩ := goes_crc (s := { s with rsp := rsp }) (r := rest) (lo := x) (hi := y) d hpolls
    obtain ⟨evs, dr, q, hx, hframes⟩ := (hgoes.sends_nothing (quiet_crcSeen d hrun.quiet x y)).run ha
    have hcompare := crcCompare_exec lo hi a e hx
    refine ⟨evs, dr, q, hframes, fun h1 h2 => ?_, fun hne => ?_⟩
    · rw [if_pos ⟨h1.symm, h2.symm⟩] at hcompare
      exact runRow_ok hf (hp.trans (Proc.exec_bind_ok hcompare))
    · rw [if_neg fun hc => hne ⟨hc.1.symm, hc.2.symm⟩] at hcompare
      exact runRow_raises hf (hp.trans (Proc.exec_bind_error hcompare))
  · obtain ⟨evs, dr, q, hx, hframes⟩ := (sends_crc_late (s := { s with rsp := rsp }) (r := rest) d hpolls).run ha
    have hlate : (crcCompare s.cfg d lo hi a e).exec { s with rsp := rsp } = _ := Proc.exec_bind_error hx
    exact ⟨evs, dr, hframes, runRow_raises hf (hp.trans (Proc.exec_bind_error hlate))⟩

/-- The SAK row: its shape is right, and its CRC bytes are compared (R158, R162). -/
theorem sakRow_exec (s : State) (sak lo hi : Byte) :
    (do receive [sak, lo, hi] 0; checkSakShape; let v ← checkSakCrc cfg; pure (.byte v) : Proc Value).exec s =
      (crcCompare cfg [sak] lo hi sak (.checksum .sak) >>= fun v => pure (.byte v)).exec { s with rsp := ⟨[sak, lo, hi], 0⟩ } := by
  have hshape : checkSakShape.exec { s with rsp := ⟨[sak, lo, hi], 0⟩ } = (.ok (), { s with rsp := ⟨[sak, lo, hi], 0⟩ }) := rfl
  rw [receive, Proc.exec_bind_ok (Proc.exec_update _ _), Proc.exec_bind_ok hshape]
  exact Proc.exec_bind_congr _ (checkSakCrc_eq_compare rfl)

/-- The READ response row (R184). -/
theorem readRow_exec (s : State) (data : Vector Byte 16) (lo hi : Byte) :
    (do receive (data.toList ++ [lo, hi]) 0; let x ← checkRead cfg; pure (.bytes x) : Proc Value).exec s =
      (crcCompare cfg data.toList lo hi data.toList (.checksum .read) >>= fun x => pure (.bytes x)).exec
        { s with rsp := ⟨data.toList ++ [lo, hi], 0⟩ } := by
  rw [receive, Proc.exec_bind_ok (Proc.exec_update _ _)]
  exact Proc.exec_bind_congr _ (checkRead_eq_compare rfl)

/-! ### Rows without transport -/

/-- An anti-collision response row is the merge at the known bits, and where it fits all bits are then known (R151, R152). -/
theorem anticollRow_exec (s : State) (bytes : List Byte) (vb : BitVec 3) :
    (do receive bytes vb; let k ← Proc.look State.k; merge (fieldIndex k) (tailBits k); allBitsKnown; pure .unit : Proc Value).exec s =
      if 9 - (2 + s.k / 8) < bytes.length then (.error (.raise (.communication .responseTooLong)), { s with rsp := ⟨bytes, vb⟩ })
      else (.ok .unit, { s with
        rsp := ⟨bytes, vb⟩, selBuf := mergeBytes s.selBuf (2 + s.k / 8) (tailBits s.k) bytes, k := 32 }) := by
  rw [receive, Proc.exec_bind_ok (Proc.exec_update _ _), Proc.exec_bind_ok (Proc.exec_look _ _)]
  have hmerge := merge_exec (fieldIndex s.k) (tailBits s.k) { s with rsp := ⟨bytes, vb⟩ }
  by_cases hl : 9 - (2 + s.k / 8) < bytes.length
  · rw [if_pos hl]
    exact Proc.exec_bind_error (hmerge.trans (if_pos hl))
  · rw [if_neg hl]
    exact (Proc.exec_bind_ok (hmerge.trans (if_neg hl))).trans rfl

/-- A cascade tag counts at CL1 and CL2, whatever the buffer held (R163). -/
theorem hasCascadeTag_of_tag (s : State) (h : byteAt s.selBuf 2 = Config.cascadeTag) : s.hasCascadeTag = (s.level != CascadeLevel.cl3) := by
  rw [State.hasCascadeTag, h]
  cases s.level <;> rfl

/-- The bytes a level adds stand at its offset, the others stay (R163). -/
theorem takeUidBytes_toList (s : State) : s.takeUidBytes.uid.toList = s.uid.toList.take s.level.offset ++
    (if s.hasCascadeTag then slice s.selBuf 3 3 else slice s.selBuf 2 4) ++
    s.uid.toList.drop (s.level.offset + if s.hasCascadeTag then 3 else 4) := by
  have hlen : (if s.hasCascadeTag then slice s.selBuf 3 3 else slice s.selBuf 2 4).length = if s.hasCascadeTag then 3 else 4 := by
    split <;> simp [slice]
  have hfit : s.level.offset + (if s.hasCascadeTag then 3 else 4) ≤ 10 := by
    cases s.level <;> split <;> simp [CascadeLevel.offset]
  rw [State.takeUidBytes]
  simp only
  rw [writeAt_toList _ _ _ (by rwa [hlen]), hlen]

theorem slice_field (v : Vector Byte 9) : slice v 3 3 = [v[3], v[4], v[5]] ∧ slice v 2 4 = [v[2], v[3], v[4], v[5]] := by
  obtain ⟨⟨xs⟩, hx⟩ := v
  rcases xs with _ | ⟨a, _ | ⟨b, _ | ⟨c, _ | ⟨d, _ | ⟨e, _ | ⟨f, xs⟩⟩⟩⟩⟩⟩ <;> simp at hx
  exact ⟨rfl, rfl⟩

/-- The state with a cascade tag put at the start of the level's UID field. -/
def State.withTag (s : State) : State := { s with selBuf := s.selBuf.set 2 Config.cascadeTag }

theorem State.withTag_byte (s : State) : byteAt s.withTag.selBuf 2 = Config.cascadeTag := by simp [State.withTag, byteAt]

/-- What a cascade tag contributes: the three bytes behind it, at CL3 the four with it (R163). -/
theorem withTag_takeUidBytes (s : State) : s.withTag.takeUidBytes.uid.toList = s.uid.toList.take s.level.offset ++
      (if s.level = .cl3 then [0x88#8, s.selBuf[3], s.selBuf[4], s.selBuf[5]] else [s.selBuf[3], s.selBuf[4], s.selBuf[5]]) ++
      s.uid.toList.drop (if s.level = .cl3 then 10 else s.level.offset + 3) := by
  have h3 : slice s.withTag.selBuf 3 3 = [s.selBuf[3], s.selBuf[4], s.selBuf[5]] := by
    rw [(slice_field _).1]
    simp [State.withTag]
  have h4 : slice s.withTag.selBuf 2 4 = [0x88#8, s.selBuf[3], s.selBuf[4], s.selBuf[5]] := by
    rw [(slice_field _).2]
    simp [State.withTag, Config.cascadeTag]
  rw [takeUidBytes_toList, hasCascadeTag_of_tag _ s.withTag_byte, h3, h4, show s.withTag.level = s.level from rfl,
    show s.withTag.uid = s.uid from rfl]
  cases s.level <;> rfl

/-- A cascade tag row puts the tag into the buffer and takes the level's bytes (R163). -/
theorem cascadeTagRow_exec (s : State) :
    (do
      Proc.update fun s => { s with selBuf := s.selBuf.setIfInBounds 2 Config.cascadeTag }
      let ct ← Proc.look State.hasCascadeTag
      Proc.update State.takeUidBytes
      pure (.bool ct) : Proc Value).exec s = (.ok (.bool (s.level != CascadeLevel.cl3)), s.withTag.takeUidBytes) := by
  have hset : { s with selBuf := s.selBuf.setIfInBounds 2 Config.cascadeTag } = s.withTag := by
    rw [State.withTag]
    congr 1
    exact Vector.ext fun i hi => by rw [Vector.getElem_setIfInBounds hi, Vector.getElem_set]
  rw [Proc.exec_bind_ok (Proc.exec_update _ _), hset, Proc.exec_bind_ok (Proc.exec_look _ _), hasCascadeTag_of_tag _ s.withTag_byte]
  rfl

/-- An ACK row is accepted whatever its high bits (R188). -/
theorem mfAckRow_exec (s : State) (high : BitVec 4) :
    (do receive [high ++ Config.mfAck] 4; ackCheck; pure .unit : Proc Value).exec s =
      (.ok .unit, { s with rsp := ⟨[high ++ Config.mfAck], 4⟩ }) := by
  rw [receive, Proc.exec_bind_ok (Proc.exec_update _ _), ackCheck, bind_assoc, Proc.exec_bind_ok (Proc.exec_look _ _),
    if_pos (acked_ack high)]
  rfl

/-- Settles O48: each row receives its response and makes the one check that parses it. -/
theorem responseRowsRun : Obligations.ResponseRowsRun := by
  intro s hf
  refine ⟨fun b0 b1 => ?_, fun bytes vb hk hfits => ?_, fun bytes vb hk hlong => ?_, fun sak lo hi => ?_, fun sak lo hi => ?_,
    ⟨_, ?_, withTag_takeUidBytes s⟩, fun data lo hi => ?_, fun data lo hi => ?_, fun high => ?_⟩
  · exact (runRow_ok hf rfl).trans (congrArg _ (after_still { s with rsp := ⟨[b0, b1], 0⟩ } _).symm)
  · have hx := anticollRow_exec s bytes vb
    rw [if_neg (Nat.not_lt.2 hfits)] at hx
    exact ⟨_, (runRow_ok hf hx).trans (congrArg _ (after_still _ _).symm), mergeBytes_spec s.selBuf hk hfits⟩
  · have hx := anticollRow_exec s bytes vb
    rw [if_pos hlong] at hx
    exact (runRow_raises hf hx).trans (congrArg _ (after_still_error { s with rsp := ⟨bytes, vb⟩ } _).symm)
  · exact (crcRow_runs hf (sakRow_exec s sak lo hi)).1
  · exact (crcRow_runs hf (sakRow_exec s sak lo hi)).2
  · exact (runRow_ok hf (cascadeTagRow_exec s)).trans (congrArg _ (after_still s.withTag.takeUidBytes _).symm)
  · exact (crcRow_runs hf (readRow_exec s data lo hi)).1
  · exact (crcRow_runs hf (readRow_exec s data lo hi)).2
  · exact (runRow_ok hf (mfAckRow_exec s high)).trans (congrArg _ (after_still { s with rsp := ⟨[high ++ Config.mfAck], 4⟩ } _).symm)

end Sys2Proof.Machine


/-! How select ends: whatever the chip answers, and in a conforming environment (R98, R99, R152, R164, R168). -/

namespace Sys2Proof.Machine

variable {α β : Type} {cfg : Cfg} {env : Env}

/-! ### A run that an environment answers -/

/-- The trace is only appended to. -/
def Grows (s t : State) : Prop := ∃ evs, t.trace = s.trace ++ evs

theorem growsPath : Path Grows where
  refl s := ⟨[], (List.append_nil _).symm⟩
  trans := by
    rintro s t u ⟨e1, h1⟩ ⟨e2, h2⟩
    exact ⟨e1 ++ e2, by rw [h2, h1, List.append_assoc]⟩

/-- The stops of select that a conforming environment shuts out: a response too long, a SAK of a wrong shape or with a wrong CRC, and a
cascade tag that disagrees with the SAK. -/
def shutOut : List Stop :=
  [.raise (.communication .responseTooLong), .raise (.communication .sakShape), .raise (.checksum .sak), .unmodelled .cascadeTagMismatch]

/-- A run ended with a value and a state as `Q` says, or with a stop that is not shut out. -/
def Ends (Q : α → State → Prop) : Except Stop α × State → Prop
  | (.ok a, t)    => Q a t
  | (.error e, _) => e ∉ shutOut

/-- From every state of `P` the procedure, where the environment gives its answers, ends as `Q` says. -/
structure Proc.Conforms (cfg : Cfg) (env : Env) (p : Proc α) (P : State → Prop) (Q : α → State → Prop) : Prop where
  grows : p.Keeps Grows
  ends  : ∀ s evs, P s → (p.exec s).2.trace = s.trace ++ evs → env.answered cfg s.trace evs = true → Ends Q (p.exec s)

section Conforms

variable {P : State → Prop} {Q : α → State → Prop}

theorem Proc.Conforms.bind {R : β → State → Prop} {x : Proc α} {f : α → Proc β} (hx : x.Conforms cfg env P Q)
    (hf : ∀ a, (f a).Conforms cfg env (Q a) R) : (x >>= f).Conforms cfg env P R := by
  refine ⟨growsPath.bind hx.grows fun a => (hf a).grows, fun s evs hp ht ha => ?_⟩
  obtain ⟨e1, h1⟩ := hx.grows s
  have hend := hx.ends s e1 hp h1
  rw [Proc.exec_bind] at ht ⊢
  rcases hs : x.exec s with ⟨e | a, t⟩ <;> rw [hs] at ht h1 hend
  · obtain rfl : e1 = evs := List.append_cancel_left (h1.symm.trans ht)
    exact hend ha
  · obtain ⟨e2, h2⟩ := (hf a).grows t
    have ht' : t.trace = s.trace ++ e1 := h1
    obtain rfl : e1 ++ e2 = evs := List.append_cancel_left (as := s.trace) (by rw [← List.append_assoc, ← ht', ← h2]; exact ht)
    rw [answered_append, Bool.and_eq_true, ← ht'] at ha
    exact (hf a).ends t e2 (hend ha.1) h2 ha.2

theorem conforms_pure {a : α} (h : ∀ s, P s → Q a s) : (pure a : Proc α).Conforms cfg env P Q :=
  ⟨growsPath.pure a, fun s _ hp _ _ => h s hp⟩

theorem conforms_look {f : State → α} (h : ∀ s, P s → Q (f s) s) : (Proc.look f).Conforms cfg env P Q :=
  ⟨growsPath.look f, fun s _ hp _ _ => h s hp⟩

theorem conforms_update {f : State → State} {Q : Unit → State → Prop} (h : ∀ s, P s → Q () (f s))
    (ht : ∀ s, (f s).trace = s.trace := by intro s; rfl) :
    (Proc.update f).Conforms cfg env P Q := ⟨fun s => ⟨[], by rw [List.append_nil]; exact ht s⟩, fun s _ hp _ _ => h s hp⟩

theorem conforms_raise {e : Err} (h : ∀ s, P s → Stop.raise e ∉ shutOut) : (Proc.raise e : Proc α).Conforms cfg env P Q :=
  ⟨growsPath.raise e, fun s _ hp _ _ => h s hp⟩

/-- A fault in a branch that no state of the precondition takes. -/
theorem conforms_unmodelled {r : UnmodelledReason} (h : ∀ s, ¬ P s) : (Proc.unmodelled r : Proc α).Conforms cfg env P Q :=
  ⟨growsPath.unmodelled r, fun s _ hp _ _ => absurd hp (h s)⟩

theorem conforms_ite {c : Prop} [Decidable c] {x y : Proc α} (hx : c → x.Conforms cfg env P Q) (hy : ¬ c → y.Conforms cfg env P Q) :
    (if c then x else y).Conforms cfg env P Q := by
  split
  · exact hx ‹_›
  · exact hy ‹_›

theorem Proc.Conforms.weaken {p : Proc α} {P' : State → Prop} {Q' : α → State → Prop} (h : p.Conforms cfg env P Q)
    (hp : ∀ s, P' s → P s) (hq : ∀ a s, Q a s → Q' a s) : p.Conforms cfg env P' Q' := by
  refine ⟨h.grows, fun s evs hs ht ha => ?_⟩
  have hend := h.ends s evs (hp s hs) ht ha
  rcases hx : p.exec s with ⟨e | a, t⟩ <;> rw [hx] at hend
  · exact hend
  · exact hq a t hend

end Conforms

/-! ### The transport -/

/-- A transaction whose answer is read: some cards replied to its frame, and the outcome and the response are that reply's (R49, R218). -/
theorem conforms_transceive (henv : ConformingEnv cfg env) (I : CascadeLevel → Vector Byte 9 → Prop) (tx : List Byte) (tl al : BitVec 3) :
    (transceive cfg .registers .transceive tx tl al true).Conforms cfg env (fun s => I s.level s.selBuf) fun o t =>
      I t.level t.selBuf ∧ ∃ cards reply old, CardReply cfg cards .transceive tx reply ∧ o = reply.outcome ∧
        t.rsp = reply.rspAfter true al old := by
  have run (s : State) := transceive_exec (cfg := cfg) (cmd := .transceive) (tx := tx) (tl := tl) (al := al) (want := true) s
  refine ⟨fun s => ?_, fun s evs hI ht ha => ?_⟩
  · obtain ⟨evs, _, _, _, _, _, hx, -⟩ := run s
    exact ⟨evs, by rw [hx]⟩
  · obtain ⟨evs', _, _, _, o, r', hx, hend⟩ := run s
    rw [hx] at ht ⊢
    obtain rfl : evs' = evs := List.append_cancel_left ht
    obtain ⟨b, start, behind, rfl, hstart, hagrees⟩ := hend.agrees henv rfl ha
    exact ⟨hI, _, _, _, henv.card .transceive tx (s.trace ++ start) (commanded_xact hstart nofun), hagrees.outcome, hagrees.rsp⟩

/-- A CRC transaction gives CRC_A of its data (R49 (a)). -/
theorem conforms_crc (henv : ConformingEnv cfg env) (I : CascadeLevel → Vector Byte 9 → PiccResponse → Prop) (d : List Byte) :
    (crcTransaction cfg d).Conforms cfg env (fun s => I s.level s.selBuf s.rsp) fun c t =>
      I t.level t.selBuf t.rsp ∧ c = (crcLow d, crcHigh d) := by
  refine ⟨fun s => ?_, fun s evs hI ht ha => ?_⟩
  · obtain ⟨x, evs, _, _, _, _, _, hx, -⟩ := shows_crc (cfg := cfg) d s rfl rfl
    exact ⟨evs, by rw [hx]; rfl⟩
  · obtain ⟨x, evs', _, _, _, r', c', hx, rfl, hend⟩ := shows_crc (cfg := cfg) d s rfl rfl
    rw [hx] at ht ⊢
    obtain rfl : evs' = evs := List.append_cancel_left ht
    generalize hshown : evs'.map Event.seen = shown at hend
    cases hend with
    | late polls hrun => exact (by decide : Stop.raise (.timeout .crc) ∉ shutOut)
    | done polls v lo hi hrun =>
      obtain ⟨rfl, rfl⟩ := crc_of_answered henv hrun hshown ha
      exact ⟨hI, rfl⟩

theorem conforms_regRead (I : CascadeLevel → Vector Byte 9 → Prop) (g : Reg) :
    (regRead cfg g).Conforms cfg env (fun s => I s.level s.selBuf) fun _ t => I t.level t.selBuf :=
  ⟨fun _ => ⟨_, rfl⟩, fun _ _ hI _ _ => hI⟩

/-! ### Anti-collision (R150 to R156) -/

/-- The working registers are at this level, and the buffer starts with its SEL byte. -/
def AtLevel (cfg : Cfg) (l : CascadeLevel) (level : CascadeLevel) (buf : Vector Byte 9) : Prop := level = l ∧ byteAt buf 0 = cfg.sel l

/-- The working registers of a state are at this level. -/
def State.at (s : State) (cfg : Cfg) (l : CascadeLevel) : Prop := AtLevel cfg l s.level s.selBuf

variable {l : CascadeLevel} {k : Nat}

/-- A reply that is received is no longer than the rest of the level's field (R98). -/
theorem rsp_fits {cards : List (Vector Byte 4)} {bits tx : List Byte} {reply : Reply} {al : BitVec 3} {old : PiccResponse}
    (h : CardReply cfg cards .transceive tx reply) (htx : IsAnticoll cfg l k bits tx) (ho : reply.outcome = .ok ∨ reply.outcome = .coll) :
    (reply.rspAfter true al old).n ≤ 5 - k / 8 := by
  cases reply with
  | silent => simp [Reply.outcome] at ho
  | garbled e => simp [Reply.outcome] at ho
  | reply bytes vb coll =>
    rw [Reply.rspAfter, if_pos rfl, PiccResponse.n, alignFirst_length]
    exact (h.anticoll bytes vb coll l k bits rfl rfl htx).1

/-- The anti-collision frame of a pass; a response to it fits (R98, R150). -/
theorem conforms_sendKnownBits (henv : ConformingEnv cfg env) (hk : k ≤ 31) : (sendKnownBits cfg .registers k).Conforms cfg env
    (·.at cfg l) fun o t => t.at cfg l ∧ (o = .ok ∨ o = .coll → t.rsp.n ≤ 5 - k / 8) := by
  refine .bind (conforms_update (Q := fun _ t => t.at cfg l ∧ ∃ bits, IsAnticoll cfg l k bits (slice t.selBuf 0 (usedBytes k)))
    fun s hs => ⟨⟨hs.1, ?_⟩, _, isAnticoll_slice hs.2 hk⟩) fun _ => ?_
  · rw [byteAt_set, if_neg (by omega)]
    exact hs.2
  refine .bind (conforms_look (Q := fun frame t => AtLevel cfg l t.level t.selBuf ∧ ∃ bits, IsAnticoll cfg l k bits frame)
    fun s hs => hs) fun frame => ?_
  refine (conforms_transceive henv (fun level buf => AtLevel cfg l level buf ∧ ∃ bits, IsAnticoll cfg l k bits frame) frame _ _).weaken
    (fun _ h => h) ?_
  rintro o t ⟨⟨hat, bits, htx⟩, cards, reply, old, hcard, rfl, hrsp⟩
  exact ⟨hat, fun ho => hrsp ▸ rsp_fits hcard htx ho⟩

/-- A response that fits is merged (R151). -/
theorem conforms_merge : (merge (fieldIndex k) (tailBits k)).Conforms cfg env (fun s => s.at cfg l ∧ s.rsp.n ≤ 5 - k / 8)
    fun _ t => t.at cfg l := by
  refine .bind (conforms_look (Q := fun r t => t.at cfg l ∧ r.n ≤ 5 - k / 8) fun s hs => hs) fun r => ?_
  refine conforms_ite (fun hlong => conforms_raise fun s hs => ?_) fun _ => conforms_update fun s hs => ⟨hs.1.1, ?_⟩
  · have hfits := hs.2
    unfold fieldIndex at hlong
    omega
  · rw [byteAt_mergeBytes _ _ _ _ (by unfold fieldIndex; omega)]
    exact hs.1.2

theorem conforms_resolveCollision : (resolveCollision cfg .registers).Conforms cfg env (·.at cfg l) fun _ t => t.at cfg l := by
  refine .bind (conforms_regRead (AtLevel cfg l) .coll) fun c => conforms_ite (fun _ => conforms_raise fun _ _ => by decide) fun _ => ?_
  refine .bind (conforms_look (Q := fun _ t => t.at cfg l) fun _ h => h) fun k => conforms_ite
    (fun _ => conforms_raise fun _ _ => by decide) fun _ => conforms_update fun s hs => ⟨hs.1, ?_⟩
  rw [State.resolveBit_selBuf, byteAt_setFieldBit _ (by omega)]
  exact hs.2

theorem conforms_afterFailedPass (o : XactOutcome) : (afterFailedPass cfg .registers o).Conforms cfg env (·.at cfg l)
    fun _ t => t.at cfg l := by
  cases o with
  | ok => exact conforms_pure fun _ h => h
  | timeout => exact conforms_raise fun _ _ => by decide
  | comm e => exact conforms_raise fun _ _ => by simp [shutOut]
  | coll => exact conforms_resolveCollision

/-- An anti-collision pass has no response too long (R98, R152). -/
theorem conforms_anticollPass (henv : ConformingEnv cfg env) (hk : k ≤ 31) : (anticollPass cfg .registers k).Conforms cfg env
    (·.at cfg l) fun _ t => t.at cfg l := by
  refine .bind (conforms_sendKnownBits henv hk) fun o => ?_
  cases o with
  | ok => exact .bind (conforms_merge.weaken (fun s hs => ⟨hs.1, hs.2 (.inl rfl)⟩) fun _ _ h => h) fun _ =>
      conforms_update fun _ h => h
  | coll => exact .bind (conforms_merge.weaken (fun s hs => ⟨hs.1, hs.2 (.inr rfl)⟩) fun _ _ h => h) fun _ => conforms_afterFailedPass .coll
  | timeout => exact (conforms_afterFailedPass .timeout).weaken (fun _ hs => hs.1) fun _ _ h => h
  | comm e => exact (conforms_afterFailedPass (.comm e)).weaken (fun _ hs => hs.1) fun _ _ h => h

/-! ### SELECT (R157, R158) -/

/-- The response is a SAK with its CRC_A, whose cascade bit at CL1 and CL2 says whether the buffer's UID field starts with a cascade tag
(R99, R164). -/
def SakAgrees (l : CascadeLevel) (buf : Vector Byte 9) (rsp : PiccResponse) : Prop :=
  ∃ sak, rsp = sakRsp sak ∧ (l ≠ .cl3 → (byteAt buf 2 = Config.cascadeTag ↔ cascadeBit sak = true))

/-- The buffer starts with the head, the UID field and the BCC of a SELECT frame. -/
def Headed (cfg : Cfg) (l : CascadeLevel) (buf : Vector Byte 9) : Prop :=
  byteAt buf 0 = cfg.sel l ∧ byteAt buf 1 = Config.nvbSelect ∧
    byteAt buf 6 = bcc (byteAt buf 2) (byteAt buf 3) (byteAt buf 4) (byteAt buf 5)

theorem headed_writeSelectHead {s : State} (h : byteAt s.selBuf 0 = cfg.sel l) : Headed cfg l s.writeSelectHead.selBuf := by
  simp [Headed, State.writeSelectHead, byteAt_set, h]

theorem Headed.writeCrc {buf : Vector Byte 9} (h : Headed cfg l buf) (bs : List Byte) : Headed cfg l (writeAt buf 7 bs) := by
  have hbyte : ∀ j < 7, byteAt (writeAt buf 7 bs) j = byteAt buf j := fun j hj => by rw [byteAt_writeAt, if_neg (by omega)]
  rw [Headed, hbyte 0 (by omega), hbyte 1 (by omega), hbyte 2 (by omega), hbyte 3 (by omega), hbyte 4 (by omega), hbyte 5 (by omega),
    hbyte 6 (by omega)]
  exact h

theorem slice_whole (buf : Vector Byte 9) : slice buf 0 9 = [byteAt buf 0, byteAt buf 1, byteAt buf 2, byteAt buf 3, byteAt buf 4,
    byteAt buf 5, byteAt buf 6, byteAt buf 7, byteAt buf 8] := by
  apply List.ext_getElem
  · simp [slice]
  · intro j h1 h2
    have hj : j < 9 := by simpa using h2
    interval_cases j <;> simp [slice, byteAt]

/-- Such a buffer holds a SELECT frame (R97). -/
theorem Headed.frame {buf : Vector Byte 9} (h : Headed cfg l buf) :
    slice buf 0 9 = selectBytes cfg l #v[byteAt buf 2, byteAt buf 3, byteAt buf 4, byteAt buf 5] (byteAt buf 7) (byteAt buf 8) := by
  obtain ⟨hsel, hnvb, hbcc⟩ := h
  rw [slice_whole, hsel, hnvb, hbcc]
  rfl

/-- A clean response to SELECT is a SAK that agrees with the field sent (R99, R164). -/
theorem sakAgrees_of_reply {cards : List (Vector Byte 4)} {buf : Vector Byte 9} {reply : Reply} {old : PiccResponse}
    (h : CardReply cfg cards .transceive (slice buf 0 9) reply) (hb : Headed cfg l buf) (ho : reply.outcome = .ok) :
    SakAgrees l buf (reply.rspAfter true 0 old) := by
  cases reply with
  | silent => simp [Reply.outcome] at ho
  | garbled e => simp [Reply.outcome] at ho
  | reply bytes vb coll =>
    cases coll with
    | some p => simp [Reply.outcome] at ho
    | none =>
      obtain ⟨sak, rfl, rfl, hagree⟩ := h.sak bytes vb l _ _ _ rfl rfl hb.frame
      exact ⟨sak, by simp [Reply.rspAfter, crcBytes], hagree⟩

theorem conforms_sendSelect (henv : ConformingEnv cfg env) : (sendSelectFromBuffer cfg .registers).Conforms cfg env (·.at cfg l)
    fun o t => t.at cfg l ∧ (o = .ok → SakAgrees l t.selBuf t.rsp) := by
  refine .bind (conforms_update (Q := fun _ t => t.level = l ∧ Headed cfg l t.selBuf)
    fun s hs => ⟨hs.1, headed_writeSelectHead hs.2⟩) fun _ => ?_
  refine .bind (conforms_look (Q := fun _ t => t.level = l ∧ Headed cfg l t.selBuf) fun _ h => h) fun body => ?_
  refine .bind (conforms_crc henv (fun level buf _ => level = l ∧ Headed cfg l buf) body) fun c => ?_
  refine .bind (conforms_update (Q := fun _ t => t.level = l ∧ Headed cfg l t.selBuf)
    fun s hs => ⟨hs.1.1, hs.1.2.writeCrc _⟩) fun _ => ?_
  refine .bind (conforms_look (Q := fun frame t => t.level = l ∧ Headed cfg l t.selBuf ∧ frame = slice t.selBuf 0 9)
    fun s hs => ⟨hs.1, hs.2, rfl⟩) fun frame => ?_
  refine (conforms_transceive henv (fun level buf => level = l ∧ Headed cfg l buf ∧ frame = slice buf 0 9) frame 0 0).weaken
    (fun _ h => h) ?_
  rintro o t ⟨⟨hl, hb, rfl⟩, cards, reply, old, hcard, rfl, hrsp⟩
  exact ⟨⟨hl, hb.1⟩, fun ho => hrsp ▸ sakAgrees_of_reply hcard hb ho⟩

theorem conforms_checkSakShape : checkSakShape.Conforms cfg env (fun s => s.at cfg l ∧ SakAgrees l s.selBuf s.rsp)
    fun _ t => t.at cfg l ∧ SakAgrees l t.selBuf t.rsp := by
  refine .bind (conforms_look (Q := fun r t => (t.at cfg l ∧ SakAgrees l t.selBuf t.rsp) ∧ sakShape r = true) fun s hs => ⟨hs, ?_⟩)
    fun r => conforms_ite (fun _ => conforms_pure fun _ h => h.1) fun hr => conforms_raise fun _ hs => absurd hs.2 hr
  obtain ⟨sak, hrsp, -⟩ := hs.2
  rw [hrsp]
  rfl

/-- A SELECT pass that completes the level leaves a SAK that agrees (R99, R158, R164). -/
theorem conforms_selectPass (henv : ConformingEnv cfg env) : (selectPass cfg .registers).Conforms cfg env (·.at cfg l)
    fun complete t => t.at cfg l ∧ (complete = true → SakAgrees l t.selBuf t.rsp) := by
  have failed (o : XactOutcome) : (do afterFailedPass cfg .registers o; pure false : Proc Bool).Conforms cfg env
      (fun t => t.at cfg l ∧ (o = .ok → SakAgrees l t.selBuf t.rsp))
      fun complete t => t.at cfg l ∧ (complete = true → SakAgrees l t.selBuf t.rsp) :=
    .bind ((conforms_afterFailedPass o).weaken (fun _ hs => hs.1) fun _ _ h => h) fun _ => conforms_pure fun _ h => ⟨h, nofun⟩
  refine .bind (conforms_sendSelect henv) fun o => ?_
  cases o with
  | ok => exact .bind (conforms_checkSakShape.weaken (fun s hs => ⟨hs.1, hs.2 rfl⟩) fun _ _ h => h) fun _ =>
      conforms_pure fun _ hs => ⟨hs.1, fun _ => hs.2⟩
  | timeout => exact failed .timeout
  | comm e => exact failed (.comm e)
  | coll => exact failed .coll

/-! ### A level (R149, R160 to R167) -/

theorem conforms_pass (henv : ConformingEnv cfg env) : (pass cfg .registers).Conforms cfg env (·.at cfg l)
    fun complete t => t.at cfg l ∧ (complete = true → SakAgrees l t.selBuf t.rsp) := by
  refine .bind (conforms_update (Q := fun _ t => t.at cfg l) fun _ h => h) fun _ =>
    .bind (conforms_look (Q := fun _ t => t.at cfg l) fun _ h => h) fun k => conforms_ite (fun _ => conforms_selectPass henv) fun hk => ?_
  exact .bind (conforms_anticollPass henv (by omega)) fun _ => conforms_pure fun _ h => ⟨h, nofun⟩

theorem conforms_levelLoop (henv : ConformingEnv cfg env) (head : Pos) (n : Nat) : (levelLoop cfg .registers head n).Conforms cfg env
    (·.at cfg l) fun _ t => t.at cfg l ∧ SakAgrees l t.selBuf t.rsp := by
  induction n with
  | zero => exact conforms_raise fun _ _ => by decide
  | succ n ih =>
    refine .bind (conforms_update (Q := fun _ t => t.at cfg l) fun _ h => h) fun _ => .bind (conforms_pass henv) fun complete => ?_
    exact conforms_ite (fun hc => conforms_pure fun _ h => ⟨h.1, h.2 hc⟩) fun _ => ih.weaken (fun _ h => h.1) fun _ _ h => h

/-- The SAK's CRC is right, so the level ends with that SAK (R162). -/
theorem conforms_checkSakCrc (henv : ConformingEnv cfg env) : (checkSakCrc cfg).Conforms cfg env
    (fun s => s.level = l ∧ SakAgrees l s.selBuf s.rsp)
    fun sak t => t.level = l ∧ (l ≠ .cl3 → (byteAt t.selBuf 2 = Config.cascadeTag ↔ cascadeBit sak = true)) := by
  refine .bind (conforms_look (Q := fun r t => t.level = l ∧ SakAgrees l t.selBuf r) fun _ h => h) fun r => ?_
  refine .bind (conforms_crc henv (fun level buf _ => level = l ∧ SakAgrees l buf r) [sakOf r]) fun c => ?_
  refine conforms_ite (fun _ => conforms_pure ?_) fun hne => conforms_raise ?_
  · rintro t ⟨⟨hl, sak, rfl, hagree⟩, -⟩
    exact ⟨hl, hagree⟩
  · rintro t ⟨⟨-, sak, rfl, -⟩, rfl⟩
    exact absurd ⟨rfl, rfl⟩ hne

/-- The level's tag and the SAK's cascade bit agree, so a level never ends in the fault (R164). -/
theorem conforms_finishLevel (henv : ConformingEnv cfg env) : (finishLevel cfg).Conforms cfg env
    (fun s => s.at cfg l ∧ SakAgrees l s.selBuf s.rsp) fun _ _ => True := by
  refine .bind ((conforms_checkSakCrc henv).weaken (fun s hs => ⟨hs.1.1, hs.2⟩) fun _ _ h => h) fun sak => ?_
  refine .bind (conforms_look (Q := fun ct t => t.level = l ∧ ((l == .cl3) = false → ct = cascadeBit sak) ∧ (l = .cl3 → ct = false))
    fun s hs => ⟨hs.1, fun hl => ?_, fun hl => ?_⟩) fun ct => ?_
  · have hne : l ≠ .cl3 := by simpa using hl
    rw [State.hasCascadeTag, hs.1, Bool.eq_iff_iff]
    simpa [hne] using hs.2 hne
  · rw [State.hasCascadeTag, hs.1, hl]
    rfl
  refine .bind (conforms_update (Q := fun _ t => t.level = l ∧ ((l == .cl3) = false → ct = cascadeBit sak) ∧ (l = .cl3 → ct = false))
    fun _ h => h) fun _ => ?_
  refine .bind (conforms_look (Q := fun l' _ => l' = l ∧ ((l == .cl3) = false → ct = cascadeBit sak) ∧ (l = .cl3 → ct = false))
    fun _ h => h) fun l' => ?_
  refine conforms_ite (fun _ => conforms_raise fun _ _ => by decide) fun hbit => conforms_ite (fun hne => conforms_unmodelled ?_)
    fun _ => conforms_pure fun _ _ => trivial
  rintro t ⟨rfl, hother, hcl3⟩
  cases l' with
  | cl1 | cl2 => exact bne_iff_ne.1 hne (hother rfl)
  | cl3 =>
    have hsak : cascadeBit sak = false := by simpa using hbit
    exact bne_iff_ne.1 hne ((hcl3 rfl).trans hsak.symm)

theorem conforms_runLevel (henv : ConformingEnv cfg env) (l : CascadeLevel) :
    (runLevel cfg .registers l).Conforms cfg env (fun _ => True) fun _ _ => True := by
  refine .bind (conforms_update (Q := fun _ t => t.at cfg l) fun s _ => ⟨rfl, ?_⟩) fun _ => ?_
  · rw [State.enterLevel_selBuf, byteAt_set, if_pos ⟨rfl, by omega⟩]
  exact .bind (conforms_look (Q := fun _ t => t.at cfg l) fun _ h => h) fun head =>
    .bind (conforms_levelLoop henv head _) fun _ => conforms_finishLevel henv

theorem conforms_runLevels (henv : ConformingEnv cfg env) (head : Pos) (ls : List CascadeLevel) :
    (runLevels cfg .registers head ls).Conforms cfg env (fun _ => True) fun _ _ => True := by
  induction ls with
  | nil => exact conforms_raise fun _ _ => by decide
  | cons l ls ih =>
    exact .bind (conforms_update (Q := fun _ _ => True) fun _ _ => trivial) fun _ => .bind (conforms_runLevel henv l) fun _ =>
      conforms_ite (fun _ => ih) fun _ => conforms_update fun _ _ => trivial

/-- A conforming environment shuts four stops of select out (R98, R99, R152, R164). -/
theorem conforms_selectCard (henv : ConformingEnv cfg env) :
    (selectCard cfg .registers).Conforms cfg env (fun _ => True) fun _ _ => True :=
  .bind (conforms_update (Q := fun _ _ => True) fun _ _ => trivial) fun _ =>
    .bind (conforms_look (Q := fun _ _ => True) fun _ _ => trivial) fun head =>
    .bind (conforms_runLevels henv head _) fun _ => conforms_look fun _ _ => trivial

/-! ### The call (R168) -/

variable {s t : State}

/-- What the host sees of a select that has ended (R146, R166, R168). -/
structure SelectEnd (s t : State) : Prop where
  gen   : t.gen = s.gen + 1
  cache : t.lastAuthSector = none
  ends  : (t.uidValid = true ∧ t.uidSize = 3 * t.level.number + 1 ∧ t.sak &&& 0x04 = 0 ∧ t.busy = false ∧ t.pos = .idle ∧
      t.faultMark = none ∧ t.result = some (.value (.selected (t.uid.toList.take t.uidSize) t.sak))) ∨
    (t.uidValid = false ∧ t.busy = false ∧ t.pos = .idle ∧ t.faultMark = none ∧ t.uidSize = s.uidSize ∧ t.sak = s.sak ∧
      ∃ e, t.result = some (.error e) ∧
        (e = .timeout .picc ∨ e = .timeout .crc ∨ (∃ x, e = .communication (.errorReg x)) ∨
          e = .communication .responseTooLong ∨ e = .communication .sakShape ∨ e = .checksum .sak ∨ ∃ p, e = .protocolFailure p)) ∨
    (t.uidValid = false ∧ t.faultMark = some .cascadeTagMismatch ∧ t.result = none)
  kept  : t.ready = s.ready ∧ t.resetLine = s.resetLine ∧ t.refuseMark = s.refuseMark ∧ t.pending = s.pending ∧
    t.bindings = s.bindings ∧ t.cfg = s.cfg

/-- A stop of select leaves no session (R167, R168). -/
theorem selectEnd_stop {e : Stop} (hf : s.faultMark = none) (hm : SelMoves cfg (s.startCall .select).endSessionForSelect t)
    (he : SelectStop e) : SelectEnd s (finishCall (.error e, t)) := by
  obtain ⟨buf, l, k, it, u, -, evs, rd, dr, q, r, c, -, -, rfl⟩ := hm
  cases he <;> refine ⟨rfl, rfl, .inr ?_, rfl, rfl, rfl, rfl, rfl, rfl⟩
  case fault => exact .inr ⟨rfl, rfl, rfl⟩
  all_goals exact .inl ⟨rfl, rfl, rfl, hf, rfl, rfl, _, rfl, by simp⟩

/-- A completed select leaves a session (R165, R166). -/
theorem selectEnd_complete {sak : Byte} (hf : s.faultMark = none) (hm : SelMoves cfg (s.startCall .select).endSessionForSelect t)
    (hbit : cascadeBit sak = false) :
    SelectEnd s (finishCall (.ok (.selected (t.completeSelect sak).uidBytes sak), t.completeSelect sak)) := by
  obtain ⟨buf, l, k, it, u, -, evs, rd, dr, q, r, c, -, -, rfl⟩ := hm
  have hsak : sak &&& 0x04 = 0 := by simpa [cascadeBit, anyBit] using hbit
  exact ⟨rfl, rfl, .inl ⟨rfl, rfl, hsak, rfl, rfl, hf, rfl⟩, rfl, rfl, rfl, rfl, rfl, rfl⟩

/-- No fault, and none of the errors that a conforming environment shuts out (R98, R99, R152). -/
def Clean (t : State) : Prop :=
  t.faultMark = none ∧ t.result ≠ some (.error (.communication .responseTooLong)) ∧
    t.result ≠ some (.error (.communication .sakShape)) ∧ t.result ≠ some (.error (.checksum .sak))

/-- A stop of select that is not shut out is none of the four. -/
theorem clean_stop {e : Stop} (hf : t.faultMark = none) (he : SelectStop e) (hout : e ∉ shutOut) : Clean (finishCall (.error e, t)) := by
  cases he
  case fault | tooLong | shape | checksum => simp [shutOut] at hout
  all_goals exact ⟨hf, by simp [finishCall, State.raiseError, State.giveBack], by simp [finishCall, State.raiseError, State.giveBack],
    by simp [finishCall, State.raiseError, State.giveBack]⟩

theorem clean_value (v : Value) (hf : t.faultMark = none) : Clean (finishCall (.ok v, t)) := ⟨hf, nofun, nofun, nofun⟩

/-- How a select ends, whatever the chip answers. -/
theorem selectEnd_selectCard (hf : s.faultMark = none) :
    SelectEnd s (finishCall ((selectCard cfg .registers).exec (s.startCall .select))) := by
  obtain ⟨t, hm, -, ⟨e, hstop, hx⟩ | ⟨sak, hbit, hx⟩⟩ := selectCard_ends (cfg := cfg) (s.startCall .select)
  · rw [hx]
    exact selectEnd_stop hf hm hstop
  · rw [hx]
    exact selectEnd_complete hf hm hbit

/-- How a select ends in a conforming environment. -/
theorem clean_selectCard (hf : s.faultMark = none)
    (hend : Ends (fun _ _ => True) ((selectCard cfg .registers).exec (s.startCall .select))) :
    Clean (finishCall ((selectCard cfg .registers).exec (s.startCall .select))) := by
  obtain ⟨t, hm, -, hx⟩ := selectCard_ends (cfg := cfg) (s.startCall .select)
  have hmark : t.faultMark = none := by
    obtain ⟨_, _, _, _, _, -, _, _, _, _, _, _, -, -, rfl⟩ := hm
    exact hf
  rcases hx with ⟨e, hstop, hx⟩ | ⟨sak, -, hx⟩ <;> rw [hx] at hend ⊢
  · exact clean_stop hmark hstop hend
  · exact clean_value _ hmark

/-- Settles O28: the endings of the procedure of select, and those that a conforming environment leaves. -/
theorem selectOutcomes : Obligations.SelectOutcomes := by
  intro s h
  obtain ⟨hgen, hcache, hends, hready, hreset, hrefuse, hpending, hbindings, hcfg⟩ := selectEnd_selectCard (cfg := s.cfg) h.1
  refine ⟨_, exec_select h, hgen, hcache, hends, hready, hreset, hrefuse, hpending, hbindings, hcfg, fun env evs henv htrace ha => ?_⟩
  rw [finishCall_trace] at htrace
  exact clean_selectCard h.1 ((conforms_selectCard henv).ends _ evs trivial htrace ha)

end Sys2Proof.Machine


/-! mifareStopCrypto1 and endSession: with a script, and in a conforming environment (R183, R110). -/

namespace Sys2Proof.Machine

variable {s : State} {i : Instr}

/-- Either spelling of the end of a crypto session runs `stopCrypto1` (R110). -/
theorem exec_endCrypto (hi : i = .mifareStopCrypto1 ∨ i = .endSession) :
    exec i s = hostCall .mifareStopCrypto1 true none (do stopCrypto1 s.cfg; pure .unit) s := by
  obtain rfl | rfl := hi
  · rfl
  · rfl

/-- `stopCrypto1` whatever the chip answers: some value is read and written back with MFCrypto1On clear, behind the read (R183). -/
theorem stopCrypto1_exec (cfg : Cfg) (s : State) : ∃ (v : Byte) (miso : List Byte) (t : State) (past : List Event),
    (stopCrypto1 cfg).exec s = (.ok (), t) ∧ t.trace = past ++ [.spi [cfg.wa .status2, v &&& ~~~crypto1On cfg] miso] := by
  refine ⟨(s.nextReads 1).getD 0 0, _, _, (s.readFrame [cfg.ra .status2, 0x00] 1).trace, ?_, State.writeFrame_trace _ _⟩
  rw [stopCrypto1, clearBits, regRead, Proc.exec_bind_ok (Proc.exec_primitive _ _)]
  rfl

/-- Settles O20: the read and the write of Status2Reg, which a conforming chip obeys. -/
theorem stopCryptoRuns : Obligations.StopCryptoRuns := by
  refine ⟨fun i s env hi h henv => ?_, fun i s v rest hi h hs => ?_⟩
  · obtain ⟨v, miso, t, past, hx, htrace⟩ := stopCrypto1_exec s.cfg (s.startCall .mifareStopCrypto1)
    refine ⟨t.giveBack (.value .unit), ?_, rfl, ?_⟩
    · rw [exec_endCrypto hi, hostCall_run h.1 (refusalOf_accepts h true), Proc.exec_bind_ok hx]
      rfl
    · rw [State.giveBack_trace, htrace]
      exact crypto1_stopped henv (andn_and v _)
  · have hrun : (do stopCrypto1 s.cfg; pure .unit : Proc Value).Goes (s.startCall .mifareStopCrypto1) s.answers (.ok .unit)
        (s.startCall .mifareStopCrypto1) [gave s.cfg .status2 [v], wrote s.cfg .status2 [v &&& ~~~crypto1On s.cfg]] rest := by
      rw [hs]
      exact (goes_stopCrypto1 v).bind (goes_pure Value.unit)
    rw [exec_endCrypto hi]
    obtain ⟨evs, d, hx, hseen⟩ := hostCall_goes h.1 (refusalOf_accepts h true) hrun
    exact ⟨evs, d, hx.trans (congrArg _ (giveBack_startCall h.2.1 _ _ _ _ _ s.crcOut _)), hseen⟩

end Sys2Proof.Machine


/-! MIFARE authentication, block read and block write with a script: the frames sent, and how each call ends (R180 to R192, R255). -/

namespace Sys2Proof.Machine

variable {α : Type} {cfg : Cfg} {s u : State} {op : HostOp} {rsp : PiccResponse} {crc : Byte × Byte} {res : CallResult}
  {frames : List (Byte × List Byte)} {r r1 rest x : List Answer} {reply : Reply} {e : Err}

/-! ### How a call ends -/

/-- A procedure and a value made of what it gives; a stop goes through. -/
theorem Proc.Sends.value {p : Proc α} {y : Except Stop α} (h : p.Sends cfg s r y u frames r1) (g : α → Value) :
    (do let a ← p; pure (g a)).Sends cfg s r (y.map g) u frames r1 := by
  cases y with
  | error z => exact h.bind_error
  | ok a =>
    have hpure := h.bind (f := fun a => pure (g a)) (sends_pure (g a))
    rwa [List.append_nil] at hpure

/-- An accepted call whose procedure changes at most the response and the CRC result. -/
theorem hostCall_after {p : Proc α} {g : α → Value} {y : Except Stop α} {own : Option RefuseReason} (h : s.accepts) (hown : own = none)
    (hend : ∀ t, finishCall (y.map g, t) = t.giveBack res)
    (hrun : p.Sends s.cfg (s.startCall op) s.answers y { s.startCall op with rsp := rsp, crcOut := crc } frames rest) :
    ∃ evs d, hostCall op true own (do let a ← p; pure (g a)) s =
        .next ({ s with rsp := rsp, crcOut := crc }.after evs rest d .idle res) ∧ framesSent s.cfg evs = frames := by
  subst hown
  obtain ⟨evs, d, q, hx, hframes⟩ := (hrun.value g).run rfl
  refine ⟨evs, d, ?_, hframes⟩
  rw [hostCall_run h.1 (refusalOf_accepts h true), hx, hend]
  exact congrArg Host.Outcome.next (giveBack_startCall (s := { s with rsp := rsp }) h.2.1 op evs rest d q crc res)

theorem finishCall_raise (g : α → Value) (e : Err) (t : State) :
    finishCall ((.error (.raise e) : Except Stop α).map g, t) = t.giveBack (.error e) := rfl

theorem finishCall_value (g : α → Value) (a : α) (t : State) :
    finishCall ((.ok a : Except Stop α).map g, t) = t.giveBack (.value (g a)) := rfl

/-! ### The outcome of a transaction (R255) -/

/-- What an outcome makes of the procedure: nothing for a clean reply, else its error (R255). -/
def XactOutcome.raised : XactOutcome → Except Stop Unit
  | .timeout => .error (.raise (.timeout .picc))
  | .comm e  => .error (.raise (.communication (.errorReg e)))
  | .coll    => .error (.raise .collision)
  | .ok      => .ok ()

theorem sends_raiseOn (o : XactOutcome) : (raiseOn o).Sends cfg s r o.raised s [] r := by
  cases o with
  | ok => exact sends_pure ()
  | timeout => exact sends_raise _
  | comm e => exact sends_raise _
  | coll => exact sends_raise _

/-- A frame whose answer is read, its outcome raised, and behind it a check of the response. -/
def exchange (cfg : Cfg) (frame : List Byte) (check : Proc α) : Proc α := do
  let o ← sendFrame cfg .registers frame
  raiseOn o
  check

/-- An exchange whose reply is clean goes on with its check. -/
theorem sends_exchange {frame bytes : List Byte} {vb : BitVec 3} {check : Proc α} {y : Except Stop α}
    (hx : XactAnswers cfg .transceive true (.reply bytes vb none) x)
    (hcheck : check.Sends cfg { s with rsp := ⟨bytes, vb⟩ } r y u frames r1) :
    (exchange cfg frame check).Sends cfg s (x ++ r) y u ((0x00, frame) :: frames) r1 :=
  (sends_reply frame 0 hx).bind ((sends_raiseOn .ok).bind hcheck)

/-- An exchange whose reply is not clean ends with the error of its outcome. -/
theorem sends_exchange_raises {frame : List Byte} {check : Proc α} (hx : XactAnswers cfg .transceive true reply x)
    (he : reply.outcome.raised = .error (.raise e)) :
    (exchange cfg frame check).Sends cfg s (x ++ r) (.error (.raise e)) { s with rsp := reply.rspAfter true 0 s.rsp } [(0x00, frame)] r := by
  have hraise := sends_raiseOn (cfg := cfg) (s := { s with rsp := reply.rspAfter true 0 s.rsp }) (r := r) reply.outcome
  rw [he] at hraise
  exact (sends_transceive frame 0 0 hx).bind hraise.bind_error

/-- How a reply makes an exchange fail whose check rejects some responses: silence, an early error, a collision, a rejected response
(R192, R188, R255). -/
def Reply.FailsWith (rejected : PiccResponse → Err → Prop) (reply : Reply) (e : Err) : Prop :=
  (reply = .silent ∧ e = .timeout .picc) ∨ (∃ b, reply = .garbled b ∧ e = .communication (.errorReg b)) ∨
    (∃ bytes vb p, reply = .reply bytes vb (some p) ∧ e = .collision) ∨ ∃ bytes vb, reply = .reply bytes vb none ∧ rejected ⟨bytes, vb⟩ e

/-- An exchange with such a reply ends with its error; the frame is sent, and the response is the reply's. -/
theorem sends_exchange_fails {frame : List Byte} {check : Proc α} {rejected : PiccResponse → Err → Prop}
    (hcheck : ∀ {s : State} {r : List Answer}, rejected s.rsp e → check.Sends cfg s r (.error (.raise e)) s [] r)
    (hfails : reply.FailsWith rejected e) (hx : XactAnswers cfg .transceive true reply x) :
    (exchange cfg frame check).Sends cfg s (x ++ r) (.error (.raise e)) { s with rsp := reply.rspAfter true 0 s.rsp } [(0x00, frame)] r := by
  obtain ⟨rfl, rfl⟩ | ⟨b, rfl, rfl⟩ | ⟨bytes, vb, p, rfl, rfl⟩ | ⟨bytes, vb, rfl, hrejected⟩ := hfails
  · exact sends_exchange_raises hx rfl
  · exact sends_exchange_raises hx rfl
  · exact sends_exchange_raises hx rfl
  · simpa [Reply.rspAfter] using sends_exchange (frame := frame) hx (hcheck hrejected)

/-! ### Authentication (R180, R181) -/

/-- Where no response is read, a reply leaves the response as it was (R218). -/
theorem Reply.rspAfter_false (al : BitVec 3) (old : PiccResponse) (reply : Reply) : reply.rspAfter false al old = old := by
  cases reply with
  | silent => rfl
  | garbled e => rfl
  | reply bytes vb coll => rfl

/-- Authentication sends its frame and ends with the outcome of the reply. -/
theorem sends_authBlock (key : Key) (a : Byte) (hx : XactAnswers cfg .mfAuthent false reply x) :
    (authBlock cfg .registers key a).Sends cfg s (x ++ r) reply.outcome.raised s
      [(0x00, authBytes cfg key.kind a key.bytes.toList s.uidLast4)] r := by
  have hsend := sends_transceive (s := s) (r := r) (authBytes cfg key.kind a key.bytes.toList s.uidLast4) 0 0 hx
  rw [Reply.rspAfter_false] at hsend
  exact (sends_look fun _ _ _ => rfl).bind (hsend.bind (f2 := []) (sends_raiseOn _))

theorem authCmd_eq (cfg : Cfg) (k : KeyType) : cfg.authCmd k = if k = .a then cfg.picc.authA else cfg.picc.authB := by
  cases k with
  | a => rfl
  | b => rfl

/-- Settles O31: the one frame of authBlock, and the outcome raised. -/
theorem mifareAuthRuns : Obligations.MifareAuthRuns := by
  intro s key block a reply answers rest h hu hb hx ha
  have hcall : exec (.mifareAuth key block) s = hostCall .mifareAuth true (if s.uidValid then none else some .noSession)
      (do authBlock s.cfg .registers key a; pure .unit) s := withArg_some h.1 hb _
  have hrun := sends_authBlock (s := s.startCall .mifareAuth) (r := rest) key a hx
  rw [authBytes, authCmd_eq, ← ha] at hrun
  rw [hcall]
  refine hostCall_after (g := fun _ => .unit) (rsp := s.rsp) (crc := s.crcOut) h (if_pos hu) (fun t => ?_) hrun
  cases reply with
  | silent => exact finishCall_raise _ _ t
  | garbled e => exact finishCall_raise _ _ t
  | reply bytes vb coll =>
    cases coll with
    | none => exact finishCall_value _ _ t
    | some p => exact finishCall_raise _ _ t

/-! ### Block read (R184, R192) -/

/-- An accepted mifareRead ends as its procedure does. -/
theorem exec_mifareRead {block : Arg Byte} {a : Byte} {y : Except Stop (List Byte)} (h : s.accepts) (hb : byteOf s block = some a)
    (hend : ∀ t, finishCall (y.map .bytes, t) = t.giveBack res)
    (hrun : (readCardBlock s.cfg .registers a).Sends s.cfg (s.startCall .mifareRead) s.answers y
      { s.startCall .mifareRead with rsp := rsp, crcOut := crc } frames rest) :
    ∃ evs d, exec (.mifareRead block) s = .next ({ s with rsp := rsp, crcOut := crc }.after evs rest d .idle res) ∧
      framesSent s.cfg evs = frames := by
  have hcall : exec (.mifareRead block) s = hostCall .mifareRead true none
      (do let d ← readCardBlock s.cfg .registers a; pure (.bytes d)) s := withArg_some h.1 hb _
  rw [hcall]
  exact hostCall_after h rfl hend hrun

/-- Settles O32: the read of a conforming card, and the end of its call. -/
theorem mifareReadRuns : Obligations.MifareReadRuns := by
  intro s block a data answers rest h hb hanswers ha
  refine exec_mifareRead h hb (finishCall_value _ data.toList) ?_
  rw [ha]
  exact sends_readCardBlock (by simp) hanswers

theorem readCardBlock_eq (cfg : Cfg) (a : Byte) : readCardBlock cfg .registers a = (do
    let (lo, hi) ← crcTransaction cfg [cfg.picc.read, a]
    exchange cfg [cfg.picc.read, a, lo, hi] (checkRead cfg)) := rfl

/-- A block read is the CRC of its request, and an exchange of the request and its CRC. -/
theorem sends_readCardBlock_request {a : Byte} {c1 : List Answer} {y : Except Stop (List Byte)}
    (hc : CrcAnswers cfg [cfg.picc.read, a] c1)
    (hx : (exchange cfg ([cfg.picc.read, a] ++ crcBytes [cfg.picc.read, a]) (checkRead cfg)).Sends cfg
      { s with crcOut := (crcLow [cfg.picc.read, a], crcHigh [cfg.picc.read, a]) } r y u frames r1) :
    (readCardBlock cfg .registers a).Sends cfg s (c1 ++ r) y u frames r1 := by
  rw [readCardBlock_eq]
  exact (sends_crc _ hc).bind hx

/-- A CRC transaction whose result bytes may be any (R204). -/
theorem sends_crc_reads (d : List Byte) {v lo hi : Byte} {polls : List Answer} (hp : PollAnswers (crcIrq cfg) (some v) polls) :
    (crcTransaction cfg d).Sends cfg s (polls ++ .value lo :: .value hi :: r) (.ok (lo, hi)) { s with crcOut := (lo, hi) } [] r := by
  obtain ⟨shown, hrun, hgoes⟩ := goes_crc (s := s) (r := r) (lo := lo) (hi := hi) d hp
  exact hgoes.sends_nothing (quiet_crcSeen d hrun.quiet lo hi)

/-- A response of the wrong shape is rejected before its CRC is computed (R192). -/
theorem sends_checkRead_misshapen (h : ¬ (s.rsp.bytes.length = 18 ∧ s.rsp.validBits = 0)) :
    (checkRead cfg).Sends cfg s r (.error (.raise (.communication .readShape))) s [] r := by
  have hshape : ¬ readShape s.rsp = true := by simpa [readShape, PiccResponse.n] using h
  refine (sends_look (a := s.rsp) fun _ _ _ => rfl).bind (f1 := []) ?_
  rw [if_neg hshape]
  exact sends_raise _

/-- A response of the right shape has its two last bytes compared with a fresh checksum of the others (R184). -/
theorem sends_checkRead_shaped {bytes : List Byte} {y : Except Stop (List Byte)} (hs : s.rsp = ⟨bytes, 0⟩) (hl : bytes.length = 18)
    (hcrc : (crcCompare cfg (bytes.take 16) (bytes.getD 16 0) (bytes.getD 17 0) (bytes.take 16) (.checksum .read)).Sends
      cfg s r y u frames r1) : (checkRead cfg).Sends cfg s r y u frames r1 := by
  have hshape : readShape ⟨bytes, 0⟩ = true := by simp [readShape, PiccResponse.n, hl]
  refine (sends_look (a := ⟨bytes, 0⟩) fun _ _ _ => hs).bind (f1 := []) ?_
  rw [if_pos hshape]
  exact hcrc

/-- The check's CRC may be late (R203). -/
theorem sends_checkRead_late {bytes : List Byte} {polls : List Answer} (hs : s.rsp = ⟨bytes, 0⟩) (hl : bytes.length = 18)
    (hp : PollAnswers (crcIrq cfg) none polls) :
    (checkRead cfg).Sends cfg s (polls ++ r) (.error (.raise (.timeout .crc))) s [] r :=
  sends_checkRead_shaped hs hl (sends_crc_late _ hp).bind_error

/-- A comparison with a checksum that the chip gives as two other bytes. -/
theorem sends_crcCompare_wrong {d : List Byte} {v lo hi lo' hi' : Byte} {a : α} {polls : List Answer}
    (hp : PollAnswers (crcIrq cfg) (some v) polls) (hne : ¬ (lo = lo' ∧ hi = hi')) :
    (crcCompare cfg d lo' hi' a e).Sends cfg s (polls ++ .value lo :: .value hi :: r) (.error (.raise e))
      { s with crcOut := (lo, hi) } [] r := by
  refine (sends_crc_reads d hp).bind (f1 := []) ?_
  simp only [if_neg hne]
  exact sends_raise e

theorem drop_sixteen_of_length {bytes : List Byte} (hl : bytes.length = 18) :
    bytes.drop 16 = [bytes.getD 16 0, bytes.getD 17 0] := by
  rw [List.drop_eq_getElem_cons (by omega), List.drop_eq_getElem_cons (by omega), List.drop_eq_nil_of_le (by omega),
    List.getD_eq_getElem _ _ (by omega), List.getD_eq_getElem _ _ (by omega)]

/-- A response whose two last bytes are not the checksum that the chip gives (R184). -/
theorem sends_checkRead_wrong {bytes : List Byte} {v lo hi : Byte} {polls : List Answer} (hs : s.rsp = ⟨bytes, 0⟩)
    (hl : bytes.length = 18) (hp : PollAnswers (crcIrq cfg) (some v) polls) (hne : bytes.drop 16 ≠ [lo, hi]) :
    (checkRead cfg).Sends cfg s (polls ++ .value lo :: .value hi :: r) (.error (.raise (.checksum .read)))
      { s with crcOut := (lo, hi) } [] r := by
  refine sends_checkRead_shaped hs hl (sends_crcCompare_wrong hp fun hc => hne ?_)
  rw [drop_sixteen_of_length hl, hc.1, hc.2]

/-- Settles O33: the request's CRC late; then the exchange, by its outcome or by the check of its response. -/
theorem mifareReadFails : Obligations.MifareReadFails := by
  refine ⟨fun s block a polls rest h hb hp ha => ?_, fun s block a reply c1 x h hb hc hx => ⟨?_, ?_, ?_⟩⟩
  · refine exec_mifareRead (rsp := s.rsp) (crc := s.crcOut) h hb (finishCall_raise _ _) ?_
    rw [ha]
    exact (sends_crc_late _ hp).bind_error
  · rintro rest bytes polls rfl hl hp ha
    refine exec_mifareRead h hb (finishCall_raise _ _) ?_
    rw [ha, List.append_assoc, List.append_assoc]
    exact sends_readCardBlock_request hc (sends_exchange hx (sends_checkRead_late rfl hl hp))
  · intro rest e ha hfails
    refine exec_mifareRead h hb (finishCall_raise _ _) ?_
    rw [ha, List.append_assoc]
    refine sends_readCardBlock_request hc (sends_exchange_fails
      (rejected := fun r e => ¬ (r.bytes.length = 18 ∧ r.validBits = 0) ∧ e = .communication .readShape) ?_ hfails hx)
    rintro s r ⟨hshape, rfl⟩
    exact sends_checkRead_misshapen hshape
  · rintro rest bytes v polls lo hi rfl hl hp hne ha
    refine exec_mifareRead h hb (finishCall_raise _ _) ?_
    rw [ha, List.append_assoc, List.append_assoc]
    exact sends_readCardBlock_request hc (sends_exchange hx (sends_checkRead_wrong rfl hl hp hne))

/-! ### Block write (R186 to R188) -/

/-- An accepted mifareWrite ends as its procedure does. -/
theorem exec_mifareWrite {block : Arg Byte} {data : Arg (List Byte)} {a : Byte} {bs : List Byte} {y : Except Stop Unit} (h : s.accepts)
    (hb : byteOf s block = some a) (hd : bytesOf s data = some bs) (hl : bs.length ≤ 16)
    (hend : ∀ t, finishCall (y.map fun _ => .unit, t) = t.giveBack res)
    (hrun : (writeCardBlock s.cfg .registers a bs).Sends s.cfg (s.startCall .mifareWrite) s.answers y
      { s.startCall .mifareWrite with rsp := rsp, crcOut := crc } frames rest) :
    ∃ evs d, exec (.mifareWrite block data) s = .next ({ s with rsp := rsp, crcOut := crc }.after evs rest d .idle res) ∧
      framesSent s.cfg evs = frames := by
  have hcall : exec (.mifareWrite block data) s = hostCall .mifareWrite true (payloadRefusal bs)
      (do writeCardBlock s.cfg .registers a bs; pure .unit) s := (withArg_some h.1 hb _).trans (withArg_some h.1 hd _)
  rw [hcall]
  exact hostCall_after (g := fun _ => .unit) h (if_neg (Nat.not_lt.2 hl)) hend hrun

/-- Settles O34: the two phases on an accepting card, and the end of their call. -/
theorem mifareWriteRuns : Obligations.MifareWriteRuns := by
  intro s block data a bs answers rest h hb hd hl hanswers ha
  obtain ⟨high, hrun⟩ := sends_writeCardBlock (s := s.startCall .mifareWrite) (r := rest) hanswers
  rw [← ha] at hrun
  obtain ⟨evs, d, hexec, hframes⟩ := exec_mifareWrite h hb hd hl (finishCall_value _ _) hrun
  exact ⟨evs, d, high, hexec, hframes⟩

/-- The low nibble of a byte, by a mask and by truncation. -/
theorem and_low_nibble_iff (b : Byte) : b &&& 0x0F = 0x0A ↔ b.setWidth 4 = Config.mfAck := by
  revert b
  decide

/-- An accepting ACK is one byte of 4 valid bits with low nibble 0xA (R188). -/
theorem acked_iff (rsp : PiccResponse) : acked rsp = true ↔ rsp.validBits = 4 ∧ ∃ b, rsp.bytes = [b] ∧ b &&& 0x0F = 0x0A := by
  simp only [acked, PiccResponse.n, Bool.and_eq_true, beq_iff_eq, List.length_eq_one_iff, and_low_nibble_iff]
  constructor
  · rintro ⟨⟨⟨b, hb⟩, hv⟩, hn⟩
    exact ⟨hv, b, hb, by simpa [hb] using hn⟩
  · rintro ⟨hv, b, hb, hn⟩
    exact ⟨⟨⟨b, hb⟩, hv⟩, by simpa [hb] using hn⟩

/-- What an ACK check makes of a response it rejects (R188). -/
def Unaccepted (rsp : PiccResponse) (e : Err) : Prop :=
  ¬ (rsp.validBits = 4 ∧ ∃ b, rsp.bytes = [b] ∧ b &&& 0x0F = 0x0A) ∧ e = .writeRejected rsp

theorem sends_ackCheck_rejects (h : Unaccepted s.rsp e) : ackCheck.Sends cfg s r (.error (.raise e)) s [] r := by
  obtain ⟨hack, rfl⟩ := h
  refine (sends_look (a := s.rsp) fun _ _ _ => rfl).bind (f1 := []) ?_
  rw [if_neg fun hc => hack ((acked_iff _).1 hc)]
  exact sends_raise _

theorem writePhase_eq (cfg : Cfg) (frame : List Byte) : writePhase cfg .registers frame = exchange cfg frame ackCheck := rfl

/-- A phase fails by its outcome or by its ACK (R186, R188). -/
theorem sends_writePhase_fails {frame : List Byte} (hfails : reply.FailsWith Unaccepted e) (hx : XactAnswers cfg .transceive true reply x) :
    (writePhase cfg .registers frame).Sends cfg s (x ++ r) (.error (.raise e)) { s with rsp := reply.rspAfter true 0 s.rsp }
      [(0x00, frame)] r := by
  rw [writePhase_eq]
  exact sends_exchange_fails sends_ackCheck_rejects hfails hx

/-- Phase 2 of a block write: the CRC of the padded payload, and its frame (R187). -/
def payloadPhase (cfg : Cfg) (payload : List Byte) : Proc Unit := do
  let (lo, hi) ← crcTransaction cfg payload
  writePhase cfg .registers (payload ++ [lo, hi])

theorem writeCardBlock_eq (cfg : Cfg) (a : Byte) (data : List Byte) : writeCardBlock cfg .registers a data = (do
    let (lo, hi) ← crcTransaction cfg [cfg.picc.write, a]
    writePhase cfg .registers [cfg.picc.write, a, lo, hi]
    payloadPhase cfg (padBlock data)) := rfl

/-- A block write whose phase 1 fails ends with it. -/
theorem sends_writeCardBlock_stops {a : Byte} {data : List Byte} {c1 : List Answer} (hc : CrcAnswers cfg [cfg.picc.write, a] c1)
    (hphase : (writePhase cfg .registers ([cfg.picc.write, a] ++ crcBytes [cfg.picc.write, a])).Sends cfg
      { s with crcOut := (crcLow [cfg.picc.write, a], crcHigh [cfg.picc.write, a]) } r (.error (.raise e)) u frames r1) :
    (writeCardBlock cfg .registers a data).Sends cfg s (c1 ++ r) (.error (.raise e)) u frames r1 := by
  rw [writeCardBlock_eq]
  exact (sends_crc _ hc).bind hphase.bind_error

/-- A block write whose phase 1 is accepted goes on with phase 2. -/
theorem sends_writeCardBlock_accepted {a : Byte} {data : List Byte} {c1 x1 : List Answer} {high : BitVec 4} {y : Except Stop Unit}
    (hc : CrcAnswers cfg [cfg.picc.write, a] c1) (hx : XactAnswers cfg .transceive true (ackReply high) x1)
    (hphase : (payloadPhase cfg (padBlock data)).Sends cfg
      { s with rsp := ⟨[high ++ Config.mfAck], 4⟩, crcOut := (crcLow [cfg.picc.write, a], crcHigh [cfg.picc.write, a]) } r y u frames r1) :
    (writeCardBlock cfg .registers a data).Sends cfg s (c1 ++ (x1 ++ r)) y u
      ((0x00, [cfg.picc.write, a] ++ crcBytes [cfg.picc.write, a]) :: frames) r1 := by
  rw [writeCardBlock_eq]
  exact (sends_crc _ hc).bind ((sends_writePhase hx).bind hphase)

/-- Settles O35: a late CRC or a failed exchange in either phase. -/
theorem writeRejected : Obligations.WriteRejected := by
  refine ⟨fun s block data a bs polls rest h hb hd hl hp ha => ?_, fun s block data a bs c1 h hb hd hl hc => ⟨?_, ?_, ?_⟩⟩
  · refine exec_mifareWrite (rsp := s.rsp) (crc := s.crcOut) h hb hd hl (finishCall_raise _ _) ?_
    rw [ha]
    exact (sends_crc_late _ hp).bind_error
  · intro reply e x rest hfails hx ha
    refine exec_mifareWrite h hb hd hl (finishCall_raise _ _) ?_
    rw [ha, List.append_assoc]
    exact sends_writeCardBlock_stops hc (sends_writePhase_fails hfails hx)
  · intro high x1 polls rest hx hp ha
    refine exec_mifareWrite h hb hd hl (finishCall_raise _ _) ?_
    rw [ha, List.append_assoc, List.append_assoc]
    exact sends_writeCardBlock_accepted hc hx (sends_crc_late _ hp).bind_error
  · intro high x1 c2 reply e x2 rest hx1 hc2 hfails hx2 ha
    refine exec_mifareWrite h hb hd hl (finishCall_raise _ _) ?_
    rw [ha, List.append_assoc, List.append_assoc, List.append_assoc]
    exact sends_writeCardBlock_accepted hc hx1 ((sends_crc _ hc2).bind (sends_writePhase_fails hfails hx2))

end Sys2Proof.Machine


/-! The CRC_A function (R200), and calculateCrc whatever the chip answers (R202 to R205). -/

namespace Sys2Proof.Machine

/-! ### CRC_A (R200) -/

/-- A 1 that is moved out is the register's bit 0. -/
theorem crcShift_eq : crcShift = fun c => if c.getLsbD 0 then (c >>> 1) ^^^ 0x8408 else c >>> 1 := by
  funext c
  have hbit : (c &&& 1#16 != 0#16) = c.getLsbD 0 := by
    rw [BitVec.and_one_eq_setWidth_ofBool_getLsbD]
    cases c.getLsbD 0 <;> rfl
  rw [crcShift, hbit]
  rfl

/-- CRC_A takes its bytes one by one. -/
theorem crcA_concat (d : List Byte) (b : Byte) : crcA (d ++ [b]) = crcByte (crcA d) b := by
  simp only [crcA, List.foldl_append, List.foldl_cons, List.foldl_nil]

/-- Settles O7: a byte is eight shifts by definition, and the vectors are evaluated. -/
theorem crcAFunction : Obligations.CrcAFunction := by
  refine ⟨rfl, fun d b => ?_, fun _ => rfl, by decide, by decide +kernel, by decide +kernel, by decide⟩
  rw [crcA_concat, crcByte_eq_iterate, crcShift_eq]

/-! ### The CRC transaction whatever the chip answers (R202 to R205) -/

/-- Settles O9: the transaction ends late or with its two result bytes, and the call gives back what it ended with. -/
theorem calculateCrcProtocol : Obligations.CalculateCrcProtocol := by
  intro s d bs h hd hl
  obtain ⟨x, evs, rest, dr, q, r', crc, hx, rfl, hend⟩ := shows_crc (cfg := s.cfg) bs (s.startCall .calculateCrc) rfl rfl
  rw [exec_calculateCrc h hd hl, hostCall_run h.1 (refusalOf_accepts h true)]
  have hback := giveBack_startCall h.2.1 .calculateCrc evs rest dr q crc
  generalize hshown : evs.map Event.seen = shown at hend
  cases hend with
  | late polls hrun =>
    rw [Proc.exec_bind_error hx]
    refine ⟨evs, rest, dr, polls, none, [], s.crcOut, .error (.timeout .crc), congrArg _ (hback _), ?_, hrun,
      fun _ => ⟨rfl, rfl, rfl⟩, nofun⟩
    simp [hshown, crcStartSeen]
  | done polls v lo hi hrun =>
    rw [Proc.exec_bind_ok hx]
    refine ⟨evs, rest, dr, polls, some v, [gave s.cfg .crcResultL [lo], gave s.cfg .crcResultH [hi]], (lo, hi),
      .value (.bytes [lo, hi]), congrArg _ (hback _), ?_, hrun, nofun, fun _ => ⟨lo, hi, rfl, rfl, rfl⟩⟩
    simp [hshown, crcSeen, crcStartSeen]

end Sys2Proof.Machine

/-! The card-type table, the store object, and the accesses of one block through the authentication cache (R225 to R232, R237). -/

namespace Sys2Proof.Machine

variable {α : Type} {cfg : Cfg} {s : State} {op : HostOp} {rsp : PiccResponse} {crc : Byte × Byte} {res : CallResult}
  {last : Option (Fin 16)} {frames : List (Byte × List Byte)} {rest answers : List Answer} {name : Name} {a : Byte}

/-! ### How a call ends -/

/-- A call whose procedure changes nothing changes nothing. -/
theorem hostCall_still {nr : Bool} {own : Option RefuseReason} {p : Proc Value} {y : Except Stop Value} (hf : s.faultMark = none)
    (hb : s.busy = false) (hr : refusalOf s nr own = none) (hend : ∀ t, finishCall (y, t) = t.giveBack res)
    (hx : p.exec (s.startCall op) = (y, s.startCall op)) :
    hostCall op nr own p s = .next (s.after [] s.answers s.draws .idle res) := by
  rw [hostCall_run hf hr, hx, hend]
  simp [State.giveBack, State.startCall, State.after, hb]

/-- An accepted call whose procedure changes at most the cache, the response and the CRC result. -/
theorem hostCall_stored {p : Proc α} {g : α → Value} {y : Except Stop α} (h : s.accepts)
    (hend : ∀ t, finishCall (y.map g, t) = t.giveBack res)
    (hrun : p.Sends s.cfg (s.startCall op) s.answers y
      { s.startCall op with lastAuthSector := last, rsp := rsp, crcOut := crc } frames rest) :
    ∃ evs d, hostCall op true none (do let a ← p; pure (g a)) s =
        .next ({ s with lastAuthSector := last, rsp := rsp, crcOut := crc }.after evs rest d .idle res) ∧
      framesSent s.cfg evs = frames := by
  obtain ⟨evs, d, q, hx, hframes⟩ := (hrun.value g).run rfl
  refine ⟨evs, d, ?_, hframes⟩
  rw [hostCall_run h.1 (refusalOf_accepts h true), hx, hend]
  exact congrArg Host.Outcome.next
    (giveBack_startCall (s := { s with lastAuthSector := last, rsp := rsp }) h.2.1 op evs rest d q crc res)

/-! ### Card types (R225) -/

theorem typeOfSak_exec (b : Byte) : (typeOfSak cfg b).exec s = match cfg.typeOf b with
    | some t => (.ok t, s)
    | none => (.error (.raise (.unsupportedCard b)), s) := by
  unfold typeOfSak
  cases cfg.typeOf b <;> rfl

/-- Settles O36: both calls look the table up, whose two directions agree. -/
theorem cardTypesRun : Obligations.CardTypesRun := by
  refine ⟨fun cfg t b => cfg.typeOf_sakOf.symm, fun cfg => cfg.typeOf_classic, fun s hf hb => ?_⟩
  have hr : refusalOf s false none = none := refusalOf_none hb nofun rfl
  refine ⟨fun arg b t harg ht => ?_, fun arg b harg ht => ?_, fun arg t b harg hb' => ?_, fun arg t harg hn => ?_⟩
  · refine (withArg_some hf harg _).trans (hostCall_still (y := .ok _) hf hb hr (fun _ => rfl) ?_)
    rw [Proc.exec_bind, typeOfSak_exec, ht]
    rfl
  · refine (withArg_some hf harg _).trans (hostCall_still (y := .error (.raise _)) hf hb hr (fun _ => rfl) ?_)
    rw [Proc.exec_bind, typeOfSak_exec, ht]
  · have hsak : typeSakOf s arg = some b := by rw [typeSakOf, harg]; exact hb'
    exact (withArg_some hf hsak _).trans (hostCall_still hf hb hr (fun _ => rfl) rfl)
  · have hsak : typeSakOf s arg = none := by rw [typeSakOf, harg]; exact hn
    exact withArg_missing hf hsak

/-! ### The store object (R226, R227) -/

/-- What makeStore gives a session whose card is a MIFARE Classic 1K, and the error for every other card. -/
theorem newStore_exec : (newStore cfg).exec s = if s.sak = 0x08 then
      (.ok { gen := s.gen, uid := s.uidBytes, uidSize := s.uidSize, capacity := Config.capacity }, s)
    else (.error (.raise (.unsupportedCard s.sak)), s) := by
  unfold newStore
  rw [Proc.exec_bind_ok (Proc.exec_look _ _), Proc.exec_bind, typeOfSak_exec]
  rcases ht : cfg.typeOf s.sak with _ | t
  · have hsak : s.sak ≠ 0x08 := fun h => by
      rw [h] at ht
      exact Option.some_ne_none _ (cfg.typeOf_classic.symm.trans ht)
    rw [if_neg hsak]
  · have hiff : t = .mifareClassic1K ↔ s.sak = 0x08 := by
      rw [← Option.some_inj, ← ht]
      exact cfg.typeOf_classic_iff
    simp only [Proc.exec_ite, hiff]
    rfl

/-- Settles O37: the SAK decides, and nothing is touched. -/
theorem makeStoreRuns : Obligations.MakeStoreRuns := by
  intro s h hu
  have hr : refusalOf s true (if s.uidValid then none else some .noSession) = none := by
    rw [if_pos hu]
    exact refusalOf_accepts h true
  refine ⟨fun hsak => ?_, fun hsak => ?_⟩
  · refine hostCall_still (y := .ok _) h.1 h.2.1 hr (fun _ => rfl) ?_
    rw [Proc.exec_bind, newStore_exec, if_pos (show (s.startCall .makeStore).sak = 0x08 from hsak)]
    rfl
  · refine hostCall_still (y := .error (.raise _)) h.1 h.2.1 hr (fun _ => rfl) ?_
    rw [Proc.exec_bind, newStore_exec, if_neg (show (s.startCall .makeStore).sak ≠ 0x08 from hsak)]
    rfl

/-- A store that a name is bound to in a state of the invariant is one that makeStore made. -/
theorem store_ok_of_inv {st : Store} (h : s.Inv) (hst : storeOf s name = some st) : st.ok s.gen := by
  obtain ⟨v, hv, hs⟩ := Option.bind_eq_some_iff.1 hst
  obtain ⟨l1, l2, hl, -⟩ := List.lookup_eq_some_iff.1 hv
  have hok : v.ok s.gen := h.bindings (name, v) (by rw [hl]; simp)
  cases v with
  | store o =>
    obtain rfl := Option.some.inj hs
    exact hok
  | _ => cases hs

/-- Settles O38: the capacity is that of makeStore. -/
theorem getCapacityRuns : Obligations.GetCapacityRuns := by
  intro s name st hinv hf hst
  obtain ⟨hb, -⟩ := hinv.idle hf
  obtain ⟨-, hcap, -⟩ := store_ok_of_inv hinv hst
  refine (withArg_some hf hst _).trans ?_
  rw [hcap]
  exact hostCall_still hf hb (refusalOf_none hb nofun rfl) (fun _ => rfl) rfl

/-! ### Store calls that are not refused -/

/-- A store of the current session is no stale one (R238). -/
theorem store_of_inSession (h : inSession s name) : ∃ o, storeOf s name = some o ∧ staleRefusal s o = none := by
  obtain ⟨o, ho, hgen, hu⟩ := h
  exact ⟨o, ho, (staleRefusal_none ho).2 fun ⟨o', ho', hn⟩ => hn ⟨hu, by rw [ho] at ho'; cases ho'; exact hgen⟩⟩

/-- A block below 64 that is not forbidden is one the store touches (R228). -/
theorem blockRefusal_none (h64 : a.toNat < 64) (hforb : a ∉ cfg.forbidden) : blockRefusal cfg a = none :=
  if_neg fun h => (((offLimits_iff cfg a).1 h).elim hforb fun h => absurd h (by omega))

theorem exec_authenticate {block : Arg Byte} (hf : s.faultMark = none) (hs : inSession s name) (hb : byteOf s block = some a)
    (h64 : a.toNat < 64) (hforb : a ∉ s.cfg.forbidden) : exec (.authenticate name block) s =
      hostCall .authenticate true none (do authSector s.cfg .registers a; pure .unit) s := by
  obtain ⟨o, ho, hstale⟩ := store_of_inSession hs
  refine (withArg_some hf ho _).trans ((withArg_some hf hb _).trans ?_)
  rw [hstale, blockRefusal_none h64 hforb]
  rfl

theorem exec_readBlock {block : Arg Byte} (hf : s.faultMark = none) (hs : inSession s name) (hb : byteOf s block = some a)
    (h64 : a.toNat < 64) (hforb : a ∉ s.cfg.forbidden) : exec (.readBlock name block) s =
      hostCall .readBlock true none (do let d ← readThrough s.cfg .registers a; pure (.bytes d)) s := by
  obtain ⟨o, ho, hstale⟩ := store_of_inSession hs
  refine (withArg_some hf ho _).trans ((withArg_some hf hb _).trans ?_)
  rw [hstale, blockRefusal_none h64 hforb]
  rfl

theorem exec_writeBlock {block : Arg Byte} {data : Arg (List Byte)} {bs : List Byte} (hf : s.faultMark = none) (hs : inSession s name)
    (hb : byteOf s block = some a) (hd : bytesOf s data = some bs) (hl : bs.length ≤ 16) (h64 : a.toNat < 64)
    (hforb : a ∉ s.cfg.forbidden) : exec (.writeBlock name block data) s =
      hostCall .writeBlock true none (do writeThrough s.cfg .registers a bs; pure .unit) s := by
  obtain ⟨o, ho, hstale⟩ := store_of_inSession hs
  refine (withArg_some hf ho _).trans ((withArg_some hf hb _).trans ((withArg_some hf hd _).trans ?_))
  rw [hstale, blockRefusal_none h64 hforb, show payloadRefusal bs = none from if_neg (Nat.not_lt.2 hl)]
  rfl

/-! ### Authentication through the cache (R230) -/

/-- Nothing is done for the cached sector. -/
theorem authSector_exec_cached (h : s.lastAuthSector = some (sectorOf a)) : (authSector cfg .registers a).exec s = (.ok (), s) := by
  unfold authSector
  rw [Proc.exec_bind_ok (Proc.exec_look _ _), if_pos h]
  rfl

/-- Settles O39: the cached sector needs nothing, and any other one frame with the store's key. -/
theorem authenticateRuns : Obligations.AuthenticateRuns := by
  intro s name block a rest answers h hs hb h64 hforb ha
  rw [exec_authenticate h.1 hs hb h64 hforb]
  refine ⟨fun hcached hnil => ?_, fun hother hauth => ?_⟩
  · subst hnil
    rw [← show s.answers = rest from ha]
    refine hostCall_still (y := .ok _) h.1 h.2.1 (refusalOf_accepts h true) (fun _ => rfl) ?_
    rw [Proc.exec_bind_ok (authSector_exec_cached (s := s.startCall .authenticate) hcached)]
    rfl
  · have hsector : SectorAnswers s.cfg s.lastAuthSector a answers := (if_neg hother).mpr hauth
    have hrun := sends_authSector (s := s.startCall .authenticate) (r := rest) hsector
    rw [← ha] at hrun
    obtain ⟨evs, d, hexec, hframes⟩ := hostCall_stored (g := fun _ => .unit) (rsp := s.rsp) (crc := s.crcOut) h (fun _ => rfl) hrun
    exact ⟨evs, d, hexec, hframes.trans (if_neg hother)⟩

/-- An authentication that fails leaves the cache (R237). -/
theorem sends_authSector_fails {reply : Reply} {e : Err} (hother : s.lastAuthSector ≠ some (sectorOf a))
    (hx : XactAnswers cfg .mfAuthent false reply answers) (he : reply.outcome.raised = .error (.raise e)) :
    (authSector cfg .registers a).Sends cfg s (answers ++ rest) (.error (.raise e)) s
      [(0x00, authBytes cfg .b a Config.storeKey.bytes.toList s.uidLast4)] rest := by
  have hauth := sends_authBlock (s := s) (r := rest) Config.storeKey a hx
  rw [he] at hauth
  refine (sends_look (a := s.lastAuthSector) fun _ _ _ => rfl).bind (f1 := []) ?_
  rw [if_neg hother]
  exact hauth.bind_error

/-- Settles O40: the error of the outcome comes before the cache is written. -/
theorem failedAuthKeepsTheCache : Obligations.FailedAuthKeepsTheCache := by
  intro s name block a reply e rest answers h hs hb h64 hforb hother hx ha hfails
  have hraised : reply.outcome.raised = .error (.raise e) := by
    obtain ⟨rfl, rfl⟩ | ⟨b, rfl, rfl⟩ | ⟨bytes, vb, p, rfl, rfl⟩ := hfails <;> rfl
  have hrun := sends_authSector_fails (s := s.startCall .authenticate) (rest := rest) hother hx hraised
  rw [← ha] at hrun
  rw [exec_authenticate h.1 hs hb h64 hforb]
  obtain ⟨evs, d, hexec, -⟩ := hostCall_stored (g := fun _ => .unit) (last := s.lastAuthSector) (rsp := s.rsp) (crc := s.crcOut) h
    (finishCall_raise _ e) hrun
  exact ⟨evs, d, hexec⟩

/-! ### A call made inside another (R253) -/

/-- The state behind a call: it accepts the next one, in the same configuration and with the same stores of the session. -/
structure Follows (s t : State) : Prop where
  accepts : t.accepts
  cfg     : t.cfg = s.cfg
  session : ∀ name, inSession s name → inSession t name

/-- What a store access leaves accepts the next call once control is given back. -/
theorem follows_giveBack (h : s.accepts) {u : State} (hm : CacheMoves cfg (s.startCall op) u) (q : Pos) (r : CallResult) :
    Follows s ({ u with pos := q }.giveBack r) := by
  obtain ⟨c, -, evs, rd, dr, q', rs, cr, -, -, rfl⟩ := hm
  exact ⟨⟨h.1, rfl, h.2.2⟩, rfl, fun _ h => h⟩

theorem CacheMoves.busy {s t : State} (h : CacheMoves cfg s t) : t.busy = s.busy := by
  obtain ⟨_, -, _, _, _, _, _, _, -, -, rfl⟩ := h
  rfl

theorem CacheMoves.result {s t : State} (h : CacheMoves cfg s t) : t.result = s.result := by
  obtain ⟨_, -, _, _, _, _, _, _, -, -, rfl⟩ := h
  rfl

/-- A call begun behind one that has ended stands where the first one stood, but for the position. -/
theorem startCall_giveBack {u : State} (hb : u.busy = true) (hr : u.result = none) (v : CallResult) (op : HostOp) (q : Pos) :
    { (u.giveBack v).startCall op with pos := q } = { u with pos := q } := by
  simp [State.startCall, State.giveBack, hb, hr]

/-- A store access `p` run inside a call, at any position, and the call that is `p` alone: both end with the same error, or the procedure
goes on from what the call leaves as a call from there does, but for the position. -/
theorem inner_call {p : Proc α} (h : s.accepts) (halike : p.Alike p) (hstops : p.Stops IsError) (hkeeps : p.Keeps (CacheMoves cfg))
    (op' : HostOp) (g : α → Value) (op : HostOp) (q : Pos) :
    ∃ t, hostCall op' true none (do let a ← p; pure (g a)) s = .next t ∧
      ((∃ e, t.result = some (.error e) ∧ ∀ f : α → Proc Value, finishCall ((p >>= f).exec { s.startCall op with pos := q }) = t) ∨
        ∃ a, t.result = some (.value (g a)) ∧ Follows s t ∧ ∃ q', ∀ f : α → Proc Value,
          (p >>= f).exec { s.startCall op with pos := q } = (f a).exec { t.startCall op with pos := q' }) := by
  obtain ⟨y, u, q1, q2, hcall, hinner⟩ := halike (s.startCall op) (.running op' 0) q
  have hcall' : p.exec (s.startCall op') = (y, { u with pos := q1 }) := hcall
  have hmoves := hkeeps (s.startCall op')
  rw [hcall'] at hmoves
  refine ⟨finishCall (y.map g, { u with pos := q1 }), ?_, ?_⟩
  · rw [hostCall_run h.1 (refusalOf_accepts h true), Proc.exec_bind, hcall']
    cases y <;> rfl
  · cases y with
    | error z =>
      obtain ⟨e, rfl⟩ := hstops _ _ _ hcall'
      exact .inl ⟨e, rfl, fun f => by rw [Proc.exec_bind_error hinner]; rfl⟩
    | ok a =>
      refine .inr ⟨a, rfl, follows_giveBack h hmoves q1 _, q2, fun f => ?_⟩
      rw [Proc.exec_bind_ok hinner]
      rw [show finishCall (Except.map g (.ok a), { u with pos := q1 }) = { u with pos := q1 }.giveBack (.value (g a)) from rfl,
        startCall_giveBack hmoves.busy hmoves.result]

/-! ### Blocks (R231, R232) -/

/-- The position a call's procedure starts at does not matter to what the call gives back. -/
theorem finishCall_alike {p : Proc Value} (halike : p.Alike p) (hstops : p.Stops IsError) (s : State) (q q' : Pos) :
    finishCall (p.exec { s with pos := q }) = finishCall (p.exec { s with pos := q' }) := by
  obtain ⟨y, u, q1, q2, hq, hq'⟩ := halike s q q'
  rw [hq, hq']
  cases y with
  | ok v => rfl
  | error z =>
    obtain ⟨e, rfl⟩ := hstops _ _ _ hq
    rfl

/-- A call that authenticates through the cache, then does `p`: it ends as authenticate does where that is an error, and else does what a
call of `p` does from what authenticate leaves (R253). -/
theorem authenticate_then {p : Proc Value} (h : s.accepts) (halike : p.Alike p) (hstops : p.Stops IsError) (op op' : HostOp) :
    ∃ t, hostCall .authenticate true none (do authSector cfg .registers a; pure .unit) s = .next t ∧
      ((∃ e, t.result = some (.error e) ∧ hostCall op true none (do authSector cfg .registers a; p) s = .next t) ∨
        (t.result = some (.value .unit) ∧ Follows s t ∧
          hostCall op true none (do authSector cfg .registers a; p) s = hostCall op' true none p t)) := by
  have hcall := hostCall_run (op := op) (p := do authSector cfg .registers a; p) h.1 (refusalOf_accepts h true)
  obtain ⟨t, ht, ⟨e, he, hstop⟩ | ⟨_, hv, hfollows, q, hgo⟩⟩ := inner_call (g := fun _ => .unit) h (alike_authSector a)
    (err_authSector a) (cache_authSector a) .authenticate op (.running op 0)
  · exact ⟨t, ht, .inl ⟨e, he, hcall.trans (congrArg Host.Outcome.next (hstop fun _ => p))⟩⟩
  · refine ⟨t, ht, .inr ⟨hv, hfollows, hcall.trans ?_⟩⟩
    rw [hostCall_run hfollows.accepts.1 (refusalOf_accepts hfollows.accepts true)]
    exact congrArg Host.Outcome.next ((congrArg finishCall (hgo fun _ => p)).trans
      (finishCall_alike halike hstops (t.startCall op) q (.running op' 0)))

theorem mifareRead_call {block : Arg Byte} (hf : s.faultMark = none) (hb : byteOf s block = some a) : exec (.mifareRead block) s =
    hostCall .mifareRead true none (do let d ← readCardBlock s.cfg .registers a; pure (.bytes d)) s := withArg_some hf hb _

theorem mifareWrite_call {block : Arg Byte} {data : Arg (List Byte)} {bs : List Byte} (hf : s.faultMark = none)
    (hb : byteOf s block = some a) (hd : bytesOf s data = some bs) (hl : bs.length ≤ 16) : exec (.mifareWrite block data) s =
      hostCall .mifareWrite true none (do writeCardBlock s.cfg .registers a bs; pure .unit) s := by
  refine (withArg_some hf hb _).trans ((withArg_some hf hd _).trans ?_)
  rw [show payloadRefusal bs = none from if_neg (Nat.not_lt.2 hl)]

/-- Settles O41: authenticate in front of mifareRead, and both on an accepting card. -/
theorem readBlockRuns : Obligations.ReadBlockRuns := by
  refine ⟨fun s name block a h hs hb h64 hforb => ?_, fun s name block a data x y rest h hs hb h64 hforb hx hy ha => ?_⟩
  · have hthen : (do let d ← readThrough s.cfg .registers a; pure (.bytes d) : Proc Value) =
        (do authSector s.cfg .registers a; let d ← readCardBlock s.cfg .registers a; pure (.bytes d)) := bind_assoc _ _ _
    rw [exec_authenticate h.1 hs hb h64 hforb, exec_readBlock h.1 hs hb h64 hforb, hthen]
    obtain ⟨t, ht, hstop | ⟨hv, hfollows, hgo⟩⟩ := authenticate_then (cfg := s.cfg) (a := a) h
      ((alike_readCardBlock a).bind fun d => alike_pure (Value.bytes d)) (stops_then (err_readCardBlock a) Value.bytes) .readBlock .mifareRead
    · exact ⟨t, ht, .inl hstop⟩
    · refine ⟨t, ht, .inr ⟨hv, hgo.trans ?_⟩⟩
      rw [← hfollows.cfg]
      exact (mifareRead_call hfollows.accepts.1 rfl).symm
  · have hrun := sends_readThrough (s := s.startCall .readBlock) (r := rest) (by simp) hx hy
    rw [← List.append_assoc, ← ha] at hrun
    rw [exec_readBlock h.1 hs hb h64 hforb]
    exact hostCall_stored h (finishCall_value _ _) hrun

/-- Settles O42: authenticate in front of mifareWrite, and both on an accepting card. -/
theorem writeBlockRuns : Obligations.WriteBlockRuns := by
  refine ⟨fun s name block data a bs h hs hb hd hl h64 hforb => ?_,
    fun s name block data a bs x y rest h hs hb hd hl h64 hforb hx hy ha => ?_⟩
  · have hthen : (do writeThrough s.cfg .registers a bs; pure .unit : Proc Value) =
        (do authSector s.cfg .registers a; writeCardBlock s.cfg .registers a bs; pure .unit) := bind_assoc _ _ _
    rw [exec_authenticate h.1 hs hb h64 hforb, exec_writeBlock h.1 hs hb hd hl h64 hforb, hthen]
    obtain ⟨t, ht, hstop | ⟨hv, hfollows, hgo⟩⟩ := authenticate_then (cfg := s.cfg) (a := a) h
      ((alike_writeCardBlock a bs).bind fun _ => alike_pure Value.unit) (stops_then (err_writeCardBlock a bs) fun _ => Value.unit)
      .writeBlock .mifareWrite
    · exact ⟨t, ht, .inl hstop⟩
    · refine ⟨t, ht, .inr ⟨hv, hgo.trans ?_⟩⟩
      rw [← hfollows.cfg]
      exact (mifareWrite_call hfollows.accepts.1 rfl rfl hl).symm
  · obtain ⟨high, hrun⟩ := sends_writeThrough (s := s.startCall .writeBlock) (r := rest) hx hy
    rw [← List.append_assoc, ← ha] at hrun
    rw [exec_writeBlock h.1 hs hb hd hl h64 hforb]
    obtain ⟨evs, d, hexec, hframes⟩ := hostCall_stored h (finishCall_value (fun _ => .unit) _) hrun
    exact ⟨evs, d, high, hexec, hframes⟩

end Sys2Proof.Machine

/-! The sector store's bytes: the usable blocks, one access after another, and a write read back (R229, R233 to R236, R253). -/

namespace Sys2Proof.Machine

variable {α : Type} {cfg : Cfg} {s : State} {op : HostOp} {rest answers : List Answer} {name : Name} {a b : Byte}

/-! ### The usable sequence (R229) -/

theorem mem_allBlocks : a ∈ allBlocks ↔ a.toNat < 64 := by
  simp only [allBlocks, Config.blocks, List.mem_map, List.mem_range]
  constructor
  · rintro ⟨n, hn, rfl⟩
    rw [BitVec.toNat_ofNat]
    omega
  · exact fun h => ⟨a.toNat, h, by simp⟩

theorem forbidden_iff : forbidden cfg a = true ↔ a ∈ cfg.forbidden := List.contains_iff_mem

theorem mem_usableBlocks : a ∈ usableBlocks cfg ↔ a.toNat < 64 ∧ a ∉ cfg.forbidden := by
  rw [usableBlocks, List.mem_filter, mem_allBlocks, Bool.not_eq_true', ← Bool.not_eq_true, forbidden_iff]

theorem usableBlocks_sorted (cfg : Cfg) : (usableBlocks cfg).Pairwise (· < ·) :=
  List.Pairwise.filter _ (by decide +kernel)

/-- The usable blocks are those of any configuration with the same forbidden ones. -/
theorem usableBlocks_congr {cfg' : Cfg} (h : cfg.forbidden = cfg'.forbidden) : usableBlocks cfg = usableBlocks cfg' := by
  simp only [usableBlocks, forbidden, h]

/-- Settles O43: the sequence is a sublist of the blocks in order, and the reference one is evaluated. -/
theorem usableSequence : Obligations.UsableSequence :=
  ⟨fun _ _ => mem_usableBlocks, usableBlocks_sorted, by decide +kernel, by decide +kernel, by decide +kernel, by decide +kernel⟩

/-! ### Calls of many blocks -/

theorem exec_readBytes (hf : s.faultMark = none) (hs : inSession s name) : exec (.readBytes name) s =
    hostCall .readBytes true none (do let d ← readStore s.cfg .registers; pure (.bytes d)) s := by
  obtain ⟨o, ho, hstale⟩ := store_of_inSession hs
  refine (withArg_some hf ho _).trans ?_
  rw [hstale]

theorem exec_writeBytes {data : Arg (List Byte)} {bs : List Byte} (hf : s.faultMark = none) (hs : inSession s name)
    (hd : bytesOf s data = some bs) : exec (.writeBytes name data) s =
      hostCall .writeBytes true none (do writeStore s.cfg .registers bs; pure .unit) s := by
  obtain ⟨o, ho, hstale⟩ := store_of_inSession hs
  refine (withArg_some hf ho _).trans ((withArg_some hf hd _).trans ?_)
  rw [hstale]

theorem writeAll_nil (cfg : Cfg) (head : Pos) (bs : List Byte) : writeAll cfg .registers head bs [] = pure () := by cases bs <;> rfl

/-- Data within the capacity is written chunk by chunk (R234). -/
theorem writeStore_fits {data : List Byte} (h : data.length ≤ 704) : writeStore cfg .registers data = (do
    let head ← Proc.look State.pos
    writeAll cfg .registers head allBlocks (chunksOf data)) := if_neg (Nat.not_lt.2 h)

/-- Settles O46: too much data raises before any I/O, and no data makes no chunk. -/
theorem writeBytesLimits : Obligations.WriteBytesLimits := by
  intro s name data bs h hs hd
  rw [exec_writeBytes h.1 hs hd]
  refine ⟨fun hl => ?_, fun hnil => ?_⟩
  · refine hostCall_still (y := .error (.raise _)) h.1 h.2.1 (refusalOf_accepts h true) (fun _ => rfl) ?_
    rw [writeStore, if_pos (show Config.capacity < bs.length from hl)]
    rfl
  · subst hnil
    refine hostCall_still (y := .ok _) h.1 h.2.1 (refusalOf_accepts h true) (fun _ => rfl) ?_
    rw [writeStore_fits (Nat.zero_le _), show chunksOf [] = [] from rfl]
    simp only [writeAll_nil]
    rfl

/-! ### Reading, whatever the chip answers (R253) -/

/-- The rounds of a read, at any position of a call, are calls of readBlock for the blocks that are not forbidden. -/
theorem readAll_each (op : HostOp) (head : Pos) (bs : List Byte) (hbs : ∀ b ∈ bs, b.toNat < 64) {s : State} (h : s.accepts)
    (hs : inSession s name) (got : List Byte) (q : Pos) :
    Host.Outcome.next (finishCall ((do let d ← readAll s.cfg .registers head bs; pure (.bytes (got ++ d)) : Proc Value).exec
      { s.startCall op with pos := q })) = readEach name (bs.filter fun b => !forbidden s.cfg b) got s := by
  induction bs generalizing s got q with
  | nil =>
    rw [readAll, pure_bind, List.append_nil]
    rfl
  | cons b bs ih =>
    obtain ⟨hb, hbs⟩ := List.forall_mem_cons.1 hbs
    by_cases hforb : forbidden s.cfg b = true
    · simp only [readAll, hforb, if_true, bind_assoc, List.filter_cons, Bool.not_true, Bool.false_eq_true, if_false]
      exact ih hbs h hs got head
    · simp only [readAll, hforb, if_false, bind_assoc, pure_bind, List.filter_cons, Bool.not_false, if_true, Bool.false_eq_true]
      obtain ⟨t, ht, hend⟩ := inner_call (g := .bytes) h (alike_readThrough b)
        (stops_bind (err_authSector b) fun _ => err_readCardBlock b) (cache_readThrough b) .readBlock op head
      rw [readEach, exec_readBlock h.1 hs (a := b) rfl hb (mt forbidden_iff.2 hforb), ht]
      obtain ⟨e, he, hstop⟩ | ⟨d, hd, hfollows, q', hgo⟩ := hend
      · simp only [he]
        exact congrArg Host.Outcome.next (hstop _)
      · simp only [hd]
        have hrest := ih hbs hfollows.accepts (hfollows.session _ hs) (got ++ d) q'
        rw [hfollows.cfg] at hrest
        rw [← hrest]
        refine congrArg (fun x => Host.Outcome.next (finishCall x)) ((hgo _).trans ?_)
        simp only [List.append_assoc]

/-! ### Writing, whatever the chip answers (R240, R253) -/

/-- The rounds of a write, at any position of a call, are calls of writeBlock, a chunk for each block that is not forbidden. -/
theorem writeAll_each (op : HostOp) (head : Pos) (bs : List Byte) (hbs : ∀ b ∈ bs, b.toNat < 64) {chunks : List (List Byte)}
    (hchunks : ∀ c ∈ chunks, c.length ≤ 16) {s : State} (h : s.accepts) (hs : inSession s name) (q : Pos) :
    Host.Outcome.next (finishCall ((do writeAll s.cfg .registers head bs chunks; pure .unit : Proc Value).exec
      { s.startCall op with pos := q })) = writeEach name (bs.filter fun b => !forbidden s.cfg b) chunks s := by
  induction bs generalizing chunks s q with
  | nil => cases chunks <;> rfl
  | cons b bs ih =>
    obtain ⟨hb, hbs⟩ := List.forall_mem_cons.1 hbs
    cases chunks with
    | nil =>
      rw [writeAll_nil, writeEach]
      rfl
    | cons c cs =>
      obtain ⟨hc, hcs⟩ := List.forall_mem_cons.1 hchunks
      by_cases hforb : forbidden s.cfg b = true
      · simp only [writeAll, hforb, if_true, bind_assoc, List.filter_cons, Bool.not_true, Bool.false_eq_true, if_false]
        exact ih hbs hchunks h hs head
      · simp only [writeAll, hforb, if_false, bind_assoc, List.filter_cons, Bool.not_false, if_true, Bool.false_eq_true]
        obtain ⟨t, ht, hend⟩ := inner_call (g := fun _ => .unit) h (alike_writeThrough b c)
          (stops_bind (err_authSector b) fun _ => err_writeCardBlock b c) (cache_writeThrough b c) .writeBlock op head
        rw [writeEach, exec_writeBlock h.1 hs (a := b) rfl rfl hc hb (mt forbidden_iff.2 hforb), ht]
        obtain ⟨e, he, hstop⟩ | ⟨_, hd, hfollows, q', hgo⟩ := hend
        · simp only [he]
          exact congrArg Host.Outcome.next (hstop _)
        · simp only [hd, if_true]
          have hrest := ih hbs hcs hfollows.accepts (hfollows.session _ hs) q'
          rw [hfollows.cfg] at hrest
          rw [← hrest]
          exact congrArg (fun x => Host.Outcome.next (finishCall x)) (hgo _)

/-! ### The chunks of a write (R234) -/

/-- Chunk `i` of the data, zero-padded. -/
def chunkAt (data : List Byte) (i : Nat) : List Byte := (List.range 16).map fun j => data.getD (16 * i + j) 0

/-- How many chunks the data has. -/
def chunkCount (data : List Byte) : Nat := (data.length + 15) / 16

@[simp] theorem chunkAt_length (data : List Byte) (i : Nat) : (chunkAt data i).length = 16 := by simp [chunkAt]

theorem getElem?_chunkAt (data : List Byte) (i : Nat) {j : Nat} (hj : j < 16) : (chunkAt data i)[j]? = some (data.getD (16 * i + j) 0) := by
  simp [chunkAt, hj]

/-- A padded payload holds a zero where the payload has no byte (R71). -/
theorem padBlock_eq {data : List Byte} (h : data.length ≤ 16) : padBlock data = (List.range 16).map fun j => data.getD j 0 := by
  refine List.ext_getElem (by rw [padBlock_length h]; simp) fun j h1 h2 => ?_
  rw [List.length_map, List.length_range] at h2
  simp only [padBlock, Config.blockLen, List.getElem_append, List.getElem_replicate, List.getElem_map, List.getElem_range]
  split
  · exact (List.getD_eq_getElem _ _ ‹_›).symm
  · exact (List.getD_eq_default _ _ (Nat.le_of_not_lt ‹_›)).symm

/-- A whole block needs no padding. -/
theorem padBlock_whole {data : List Byte} (h : data.length = 16) : padBlock data = data := by
  simp [padBlock, Config.blockLen, h]

theorem chunksOf_eq (data : List Byte) : chunksOf data = (List.range (chunkCount data)).map (chunkAt data) := by
  refine List.map_congr_left fun i _ => ?_
  refine (padBlock_eq (List.length_take_le Config.blockLen _)).trans (List.map_congr_left fun j hj => ?_)
  have hj : j < Config.blockLen := List.mem_range.1 hj
  simp only [List.getD_eq_getElem?_getD, List.getElem?_take_of_lt hj, List.getElem?_drop]
  rfl

theorem chunksOf_length (data : List Byte) : (chunksOf data).length = chunkCount data := by
  rw [chunksOf_eq, List.length_map, List.length_range]

theorem chunksOf_whole {data c : List Byte} (h : c ∈ chunksOf data) : c.length = 16 := by
  rw [chunksOf_eq] at h
  obtain ⟨i, -, rfl⟩ := List.mem_map.1 h
  exact chunkAt_length data i

theorem getD_chunksOf (data old : List Byte) {i : Nat} (hi : i < chunkCount data) : (chunksOf data).getD i old = chunkAt data i := by
  simp [chunksOf_eq, List.getD_eq_getElem?_getD, hi]

/-! ### The cache and the frames of accesses to many blocks -/

/-- The sector of the last block, where there is one, also with a block in front. -/
theorem lastSector_cons (c : Option (Fin 16)) (b : Byte) (bs : List Byte) :
    ((b :: bs).getLast?.map sectorOf).or c = (bs.getLast?.map sectorOf).or (some (sectorOf b)) := by
  rw [List.getLast?_cons, Option.or_some]
  cases bs.getLast? <;> rfl

/-- Behind accesses to some blocks the sector of the last one that is not forbidden is cached (R237). -/
theorem cachedAfter_eq (cfg : Cfg) (c : Option (Fin 16)) (bs : List Byte) :
    cachedAfter cfg c bs = ((bs.filter fun b => !forbidden cfg b).getLast?.map sectorOf).or c := by
  induction bs generalizing c with
  | nil => rfl
  | cons b bs ih =>
    rw [cachedAfter, List.foldl_cons]
    by_cases hforb : forbidden cfg b = true
    · rw [if_pos hforb, List.filter_cons_of_neg (by simpa using hforb)]
      exact ih c
    · rw [if_neg hforb, List.filter_cons_of_pos (by simpa using hforb), lastSector_cons]
      exact ih _

theorem cachedAfterWrite_eq (cfg : Cfg) (c : Option (Fin 16)) (bs : List Byte) (chunks : List (List Byte)) :
    cachedAfterWrite cfg c bs chunks =
      (((bs.filter fun b => !forbidden cfg b).take chunks.length).getLast?.map sectorOf).or c := by
  induction bs generalizing c chunks with
  | nil => cases chunks <;> rfl
  | cons b bs ih =>
    cases chunks with
    | nil => rfl
    | cons ch cs =>
      rw [cachedAfterWrite]
      by_cases hforb : forbidden cfg b = true
      · rw [if_pos hforb, List.filter_cons_of_neg (by simpa using hforb)]
        exact ih c (ch :: cs)
      · rw [if_neg hforb, List.filter_cons_of_pos (by simpa using hforb), List.length_cons, List.take_succ_cons, lastSector_cons]
        exact ih _ cs

/-- The frames of accesses to the blocks of a list in order, `body i` those of the `i`-th behind its authentication. -/
def accessFrames (cfg : Cfg) (u : List Byte) : Option (Fin 16) → List Byte → (Nat → List (Byte × List Byte)) → List (Byte × List Byte)
  | _, [], _ => []
  | c, b :: bs, body => storeAuth cfg u c b ++ body 0 ++ accessFrames cfg u (some (sectorOf b)) bs fun i => body (i + 1)

theorem getD_take {l : List Byte} {n i : Nat} (h : i < n) : (l.take n).getD i 0 = l.getD i 0 := by
  simp only [List.getD_eq_getElem?_getD, List.getElem?_take_of_lt h]

/-- Each access authenticates unless the access before it, or the cache in front of the first, left its sector cached (R230). -/
theorem accessFrames_eq_flatMap (cfg : Cfg) (u : List Byte) (c : Option (Fin 16)) (bs : List Byte) (body : Nat → List (Byte × List Byte)) :
    accessFrames cfg u c bs body = (List.range bs.length).flatMap fun i =>
      storeAuth cfg u (if i = 0 then c else some (sectorOf (bs.getD (i - 1) 0))) (bs.getD i 0) ++ body i := by
  induction bs generalizing c body with
  | nil => rfl
  | cons b bs ih =>
    rw [accessFrames, ih, List.length_cons, List.range_succ_eq_map, List.flatMap_cons, List.flatMap_map]
    refine congrArg₂ _ rfl (List.flatMap_congr fun i _ => ?_)
    cases i <;> rfl

theorem readAllFrames_eq (cfg : Cfg) (u : List Byte) (c : Option (Fin 16)) (bs : List Byte) :
    readAllFrames cfg u c bs = accessFrames cfg u c (bs.filter fun b => !forbidden cfg b)
      fun i => [readFrameOf cfg ((bs.filter fun b => !forbidden cfg b).getD i 0)] := by
  induction bs generalizing c with
  | nil => rfl
  | cons b bs ih =>
    rw [readAllFrames]
    by_cases hforb : forbidden cfg b = true
    · rw [if_pos hforb, List.filter_cons_of_neg (by simpa using hforb)]
      exact ih c
    · rw [if_neg hforb, List.filter_cons_of_pos (by simpa using hforb), ih]
      rfl

theorem writeAllFrames_eq (cfg : Cfg) (u : List Byte) (c : Option (Fin 16)) (bs : List Byte) (chunks : List (List Byte)) :
    writeAllFrames cfg u c bs chunks = accessFrames cfg u c ((bs.filter fun b => !forbidden cfg b).take chunks.length)
      fun i => writeFramesOf cfg ((bs.filter fun b => !forbidden cfg b).getD i 0) (chunks.getD i []) := by
  induction bs generalizing c chunks with
  | nil => cases chunks <;> rfl
  | cons b bs ih =>
    cases chunks with
    | nil => rfl
    | cons ch cs =>
      rw [writeAllFrames]
      by_cases hforb : forbidden cfg b = true
      · rw [if_pos hforb, List.filter_cons_of_neg (by simpa using hforb)]
        exact ih c (ch :: cs)
      · rw [if_neg hforb, List.filter_cons_of_pos (by simpa using hforb), ih, List.length_cons, List.take_succ_cons]
        rfl

/-- A script for writing chunks into blocks has a block for each chunk. -/
theorem WriteAllAnswers.length_le {c : Option (Fin 16)} {bs : List Byte} {chunks : List (List Byte)}
    (h : WriteAllAnswers cfg c bs chunks answers) : chunks.length ≤ (bs.filter fun b => !forbidden cfg b).length := by
  induction bs generalizing c chunks answers with
  | nil =>
    cases chunks with
    | nil => exact le_rfl
    | cons ch cs => exact h.elim
  | cons b bs ih =>
    cases chunks with
    | nil => exact Nat.zero_le _
    | cons ch cs =>
      rw [WriteAllAnswers] at h
      by_cases hforb : forbidden cfg b = true
      · rw [if_pos hforb] at h
        simpa [hforb] using ih h
      · rw [if_neg hforb] at h
        obtain ⟨_, _, _, -, -, hrest, -⟩ := h
        simpa [hforb] using ih hrest

/-! ### readBytes and writeBytes -/

/-- The 16-byte blocks of a list, one after another, byte by byte. -/
theorem getElem?_flatMap_blocks (content : Byte → Vector Byte 16) (bs : List Byte) (o : Nat) :
    (bs.flatMap fun b => (content b).toList)[o]? = bs[o / 16]?.bind fun b => (content b).toList[o % 16]? := by
  induction bs generalizing o with
  | nil => simp
  | cons b bs ih =>
    rw [List.flatMap_cons, List.getElem?_append, Vector.length_toList]
    split
    · rw [Nat.div_eq_of_lt ‹_›, Nat.mod_eq_of_lt ‹_›]
      rfl
    · obtain ⟨k, rfl⟩ : ∃ k, o = k + 16 := ⟨o - 16, by omega⟩
      rw [Nat.add_sub_cancel, ih, Nat.add_mod_right, Nat.add_div_right _ (by decide)]
      rfl

theorem length_flatMap_blocks (content : Byte → Vector Byte 16) (bs : List Byte) :
    (bs.flatMap fun b => (content b).toList).length = 16 * bs.length := by
  simp [List.length_flatMap, Nat.mul_comm]

/-- Settles O44: the rounds one by one, and on a card that answers every READ. -/
theorem readBytesRuns : Obligations.ReadBytesRuns := by
  refine ⟨fun s name h hs => ?_, fun s name content answers rest h hs hanswers ha => ?_⟩
  · rw [exec_readBytes h.1 hs, hostCall_run h.1 (refusalOf_accepts h true)]
    rw [readStore, bind_assoc, Proc.exec_bind_ok (Proc.exec_look _ _)]
    exact readAll_each .readBytes _ allBlocks (fun _ => mem_allBlocks.1) h hs [] (.running .readBytes 0)
  · obtain ⟨rsp, crc, hrun⟩ := sends_readStore (s := s.startCall .readBytes) (r := rest) hanswers
    rw [← ha] at hrun
    obtain ⟨evs, d, hexec, hframes⟩ := hostCall_stored h (finishCall_value .bytes _) hrun
    rw [← exec_readBytes h.1 hs] at hexec
    refine ⟨evs, d, rsp, crc, _, _, hexec, rfl, cachedAfter_eq _ _ _, fun href => ?_, ?_⟩
    · rw [length_flatMap_blocks, cachedAfter_eq]
      change 16 * (usableBlocks s.cfg).length = 752 ∧ ((usableBlocks s.cfg).getLast?.map sectorOf).or s.lastAuthSector = some 15
      rw [usableBlocks_congr href]
      exact ⟨by decide +kernel, by rw [show (usableBlocks .reference).getLast? = some 62 by decide +kernel]; rfl⟩
    · rw [hframes, readAllFrames_eq, accessFrames_eq_flatMap]
      rfl

/-- writeBytes on a card that accepts every write. -/
theorem exec_writeBytes_accepted {data : Arg (List Byte)} {bs : List Byte} (h : s.accepts) (hs : inSession s name)
    (hd : bytesOf s data = some bs) (hl : bs.length ≤ 704)
    (hanswers : WriteAllAnswers s.cfg s.lastAuthSector allBlocks (chunksOf bs) answers) (ha : s.answers = answers ++ rest) :
    ∃ evs d rsp crc, exec (.writeBytes name data) s =
        .next ({ s with lastAuthSector := cachedAfterWrite s.cfg s.lastAuthSector allBlocks (chunksOf bs), rsp := rsp, crcOut := crc
          }.after evs rest d .idle (.value .unit)) ∧
      framesSent s.cfg evs = writeAllFrames s.cfg s.uidLast4 s.lastAuthSector allBlocks (chunksOf bs) := by
  obtain ⟨rsp, crc, hrun⟩ := sends_writeStore (s := s.startCall .writeBytes) (r := rest) hl hanswers
  rw [← ha] at hrun
  obtain ⟨evs, d, hexec⟩ := hostCall_stored h (finishCall_value (fun _ => .unit) _) hrun
  rw [exec_writeBytes h.1 hs hd]
  exact ⟨evs, d, rsp, crc, hexec⟩

/-- Settles O45: the rounds one by one, and on a card that accepts every write. -/
theorem writeBytesRuns : Obligations.WriteBytesRuns := by
  refine ⟨fun s name data bs h hs hd hl => ?_, fun s name data bs answers rest h hs hd hl hanswers ha => ?_⟩
  · rw [exec_writeBytes h.1 hs hd, hostCall_run h.1 (refusalOf_accepts h true), writeStore_fits hl, bind_assoc]
    refine (writeAll_each .writeBytes _ allBlocks (fun _ => mem_allBlocks.1) (fun c hc => (chunksOf_whole hc).le) h hs _).trans ?_
    rw [chunksOf_eq]
    rfl
  · obtain ⟨evs, d, rsp, crc, hexec, hframes⟩ := exec_writeBytes_accepted h hs hd hl hanswers ha
    have hcount : (chunksOf bs).length = (bs.length + 15) / 16 := chunksOf_length bs
    have hle : (bs.length + 15) / 16 ≤ (usableBlocks s.cfg).length := hcount ▸ hanswers.length_le
    rw [cachedAfterWrite_eq, hcount] at hexec
    refine ⟨evs, d, rsp, crc, hexec, ?_⟩
    have husable : allBlocks.filter (fun b => !forbidden s.cfg b) = usableBlocks s.cfg := rfl
    rw [hframes, writeAllFrames_eq, accessFrames_eq_flatMap, hcount, husable, List.length_take_of_le hle]
    refine List.flatMap_congr fun i hi => ?_
    have hi : i < (bs.length + 15) / 16 := List.mem_range.1 hi
    rw [getD_take hi, getD_take (Nat.lt_of_le_of_lt (Nat.sub_le i 1) hi), getD_chunksOf bs [] hi, writeFramesOf,
      padBlock_whole (chunkAt_length bs i)]
    rfl

/-! ### A write read back (R236) -/

/-- An access to a block for writing leaves every other block as it was (R103). -/
theorem holds_access (u : List Byte) (c : Option (Fin 16)) {chunk : List Byte} (hc : chunk.length = 16) (held : List Byte)
    (frames : List (Byte × List Byte)) : holds cfg b (storeAuth cfg u c a ++ writeFramesOf cfg a chunk ++ frames) held =
      holds cfg b frames (if a = b then chunk else held) := by
  have hauth : holds cfg b (storeAuth cfg u c a ++ (writeFramesOf cfg a chunk ++ frames)) held =
      holds cfg b (writeFramesOf cfg a chunk ++ frames) held := by
    rw [storeAuth]
    split
    · rfl
    · simp [holds]
  rw [List.append_assoc, hauth, writeFramesOf, padBlock_whole hc]
  simp [holds, crcBytes, hc, List.take_left' hc]

/-- A block that is none of the usable ones of a write holds what it held. -/
theorem holds_writeAllFrames_other (u : List Byte) (c : Option (Fin 16)) (bs : List Byte) {chunks : List (List Byte)}
    (hchunks : ∀ ch ∈ chunks, ch.length = 16) (hb : b ∉ bs.filter fun b => !forbidden cfg b) (held : List Byte) :
    holds cfg b (writeAllFrames cfg u c bs chunks) held = held := by
  induction bs generalizing c chunks with
  | nil => cases chunks <;> rfl
  | cons x xs ih =>
    cases chunks with
    | nil => rfl
    | cons ch cs =>
      obtain ⟨hch, hcs⟩ := List.forall_mem_cons.1 hchunks
      rw [writeAllFrames]
      by_cases hforb : forbidden cfg x = true
      · rw [List.filter_cons_of_neg (by simpa using hforb)] at hb
        rw [if_pos hforb]
        exact ih c hchunks hb
      · rw [List.filter_cons_of_pos (by simpa using hforb), List.mem_cons, not_or] at hb
        rw [if_neg hforb, holds_access u c hch, if_neg (Ne.symm hb.1)]
        exact ih _ hcs hb.2

/-- Behind a write usable block `i` holds chunk `i`, and what it held where there is none. -/
theorem holds_writeAllFrames (u : List Byte) (c : Option (Fin 16)) (bs : List Byte) {chunks : List (List Byte)}
    (hchunks : ∀ ch ∈ chunks, ch.length = 16) (hnodup : (bs.filter fun b => !forbidden cfg b).Nodup) {i : Nat}
    (hb : (bs.filter fun b => !forbidden cfg b)[i]? = some b) (held : List Byte) :
    holds cfg b (writeAllFrames cfg u c bs chunks) held = chunks.getD i held := by
  induction bs generalizing c chunks i with
  | nil => cases hb
  | cons x xs ih =>
    cases chunks with
    | nil => rfl
    | cons ch cs =>
      obtain ⟨hch, hcs⟩ := List.forall_mem_cons.1 hchunks
      rw [writeAllFrames]
      by_cases hforb : forbidden cfg x = true
      · rw [List.filter_cons_of_neg (by simpa using hforb)] at hb hnodup
        rw [if_pos hforb]
        exact ih c hchunks hnodup hb
      · rw [List.filter_cons_of_pos (by simpa using hforb)] at hb hnodup
        obtain ⟨hx, hnodup⟩ := List.nodup_cons.1 hnodup
        rw [if_neg hforb, holds_access u c hch]
        cases i with
        | zero =>
          obtain rfl : x = b := Option.some.inj hb
          rw [if_pos rfl, holds_writeAllFrames_other u _ xs hcs hx]
          rfl
        | succ i =>
          have hne : x ≠ b := fun h => hx (h ▸ List.mem_of_getElem? hb)
          rw [if_neg hne]
          exact ih _ hcs hnodup hb

/-- Byte `o` of all usable blocks behind a write: the data, zero up to the end of the last chunk, and then what the blocks held. -/
theorem getElem?_written {bs : List Byte} {old content : Byte → Vector Byte 16} {u : List Byte} {c : Option (Fin 16)}
    (hcontent : ∀ b, (content b).toList = holds cfg b (writeAllFrames cfg u c allBlocks (chunksOf bs)) (old b).toList) {o : Nat}
    (ho : o / 16 < (usableBlocks cfg).length) :
    ((usableBlocks cfg).flatMap fun b => (content b).toList)[o]? =
      if o < 16 * chunkCount bs then some (bs.getD o 0) else (old ((usableBlocks cfg).getD (o / 16) 0)).toList[o % 16]? := by
  have hb : (usableBlocks cfg)[o / 16]? = some ((usableBlocks cfg).getD (o / 16) 0) := by
    rw [List.getD_eq_getElem _ _ ho, List.getElem?_eq_getElem ho]
  have hnodup : (usableBlocks cfg).Nodup := (usableBlocks_sorted cfg).imp fun h => BitVec.ne_of_lt h
  rw [getElem?_flatMap_blocks, hb, Option.bind_some, hcontent,
    holds_writeAllFrames u c allBlocks (fun _ => chunksOf_whole) hnodup hb]
  split
  · rw [getD_chunksOf _ _ (by omega), getElem?_chunkAt _ _ (Nat.mod_lt _ (by decide)), Nat.div_add_mod]
  · rw [List.getD_eq_default _ _ (by rw [chunksOf_length]; omega)]

/-- Settles O47: block `i` holds chunk `i` when it is read back, and the blocks behind the last chunk what they held. -/
theorem storeRoundTrip : Obligations.StoreRoundTrip := by
  intro s name data bs answers more h hs hd hl href hanswers ha
  obtain ⟨evs, d, rsp, crc, hexec, hframes⟩ := exec_writeBytes_accepted h hs hd hl hanswers ha
  generalize ht : State.after _ _ _ _ _ _ = t at hexec
  have hfollows : Follows s t := ht ▸ ⟨⟨h.1, h.2.1, h.2.2⟩, rfl, fun _ h => h⟩
  have hmore : t.answers = more := ht ▸ rfl
  refine ⟨t, evs, hexec, ht ▸ rfl, ht ▸ rfl, hmore, fun old content reads rest hcontent hreads hrest => ?_⟩
  rw [← hfollows.cfg] at href hreads
  obtain ⟨evs', d', rsp', crc', bytes, last, hread, rfl, -, hsize, -⟩ :=
    readBytesRuns.2 t name content reads rest hfollows.accepts (hfollows.session _ hs) hreads (hmore.trans hrest)
  have hlength : (usableBlocks s.cfg).length = 47 := by
    rw [← hfollows.cfg, usableBlocks_congr href]
    decide +kernel
  rw [hframes] at hcontent
  rw [hfollows.cfg] at hread hsize
  have hbyte := fun o (ho : o < 752) => getElem?_written hcontent (o := o) (by omega)
  have hcount : chunkCount bs = (bs.length + 15) / 16 := rfl
  refine ⟨_, _, hread, rfl, (hsize (hfollows.cfg ▸ href)).1, List.ext_getElem? fun o => ?_, fun o h1 h2 => ?_, fun o h1 h2 => ?_⟩
  · rw [List.getElem?_take]
    split
    · rw [hbyte o (by omega), if_pos (by omega), List.getD_eq_getElem _ _ ‹_›, List.getElem?_eq_getElem]
    · exact (List.getElem?_eq_none (Nat.le_of_not_lt ‹_›)).symm
  · rw [hbyte o (by omega), if_pos (show o < 16 * chunkCount bs by omega), List.getD_eq_default _ _ h1]
  · exact (hbyte o h1).trans (if_neg (Nat.not_lt.2 h2))

end Sys2Proof.Machine

/-! Who writes the authentication cache, whatever the chip answers (R237). -/

namespace Sys2Proof.Machine

variable {cfg : Cfg} {s t : State} {op : HostOp} {p : Proc Value} {i : Instr} {a : Byte} {P : Byte → Prop}

@[simp] theorem finishCall_lastAuthSector (x : Except Stop Value × State) : (finishCall x).lastAuthSector = x.2.lastAuthSector := by
  rcases x with ⟨(_ | _) | _, _⟩ <;> rfl

theorem HostMoves.lastAuthSector (h : HostMoves cfg s t) : t.lastAuthSector = s.lastAuthSector := by
  obtain ⟨_, _, _, _, _, _, _, _, rfl⟩ := h
  rfl

/-! ### The session's end clears it -/

/-- init and select end with an empty cache, with a session or without one. -/
theorem call_clears_cache (hp : callProc cfg .registers s i = some (op, p)) (hi : i = .init ∨ i = .select) (s0 : State) :
    (p.exec s0).2.lastAuthSector = none := by
  obtain ⟨-, t, hm, hx⟩ | ⟨-, t, ⟨_, _, _, _, _, _, hm⟩, -, hx⟩ | ⟨h1, h2, -⟩ := call_state hp s0
  · have ht := hm.lastAuthSector
    rcases hx with hx | hx <;> rw [hx] <;> exact ht
  · have ht := hm.lastAuthSector
    obtain ⟨e, -, hx⟩ | ⟨sak, -, hx⟩ := hx <;> rw [hx] <;> exact ht
  · exact (hi.elim h1 h2).elim

/-! ### Every other call leaves it or caches the sector of one of its blocks -/

/-- The cache is left, or holds the sector of a block of `P`. -/
def CachesIn (P : Byte → Prop) (s t : State) : Prop :=
  t.lastAuthSector = s.lastAuthSector ∨ ∃ a, t.lastAuthSector = some (sectorOf a) ∧ P a

theorem cachesPath (P : Byte → Prop) : Path (CachesIn P) where
  refl _ := .inl rfl
  trans := by
    rintro s t u (h | h) (h' | h')
    · exact .inl (h'.trans h)
    · exact .inr h'
    · exact .inr (h'.symm ▸ h)
    · exact .inr h'

theorem HostMoves.cachesIn (h : HostMoves cfg s t) : CachesIn P s t := .inl h.lastAuthSector

theorem Proc.Keeps.cachesIn {α : Type} {p : Proc α} (h : p.Keeps (HostMoves cfg)) : p.Keeps (CachesIn P) :=
  h.imp fun _ _ => HostMoves.cachesIn

theorem caches_authSector (ha : P a) : (authSector cfg .registers a).Keeps (CachesIn P) :=
  (cachesPath P).bind ((cachesPath P).look _) fun _ => Proc.keeps_ite ((cachesPath P).pure _) <|
    (cachesPath P).bind (host_authBlock _ _).cachesIn fun _ => Proc.keeps_update fun _ => .inr ⟨a, rfl, ha⟩

theorem caches_readThrough (ha : P a) : (readThrough cfg .registers a).Keeps (CachesIn P) :=
  (cachesPath P).bind (caches_authSector ha) fun _ => (host_readCardBlock a).cachesIn

theorem caches_writeThrough (ha : P a) (data : List Byte) : (writeThrough cfg .registers a data).Keeps (CachesIn P) :=
  (cachesPath P).bind (caches_authSector ha) fun _ => (host_writeCardBlock a data).cachesIn

theorem caches_readAll (head : Pos) {bs : List Byte} (h : ∀ b ∈ bs, ¬ forbidden cfg b = true → P b) :
    (readAll cfg .registers head bs).Keeps (CachesIn P) := by
  induction bs with
  | nil => exact (cachesPath P).pure _
  | cons b bs ih =>
    obtain ⟨hb, hbs⟩ := List.forall_mem_cons.1 h
    refine (cachesPath P).bind (keeps_jump (E := hostMove cfg) head).cachesIn fun _ => ?_
    split
    · exact ih hbs
    · exact (cachesPath P).bind (caches_readThrough (hb ‹_›)) fun _ => (cachesPath P).bind (ih hbs) fun _ => (cachesPath P).pure _

theorem caches_writeAll (head : Pos) {bs : List Byte} (h : ∀ b ∈ bs, ¬ forbidden cfg b = true → P b) (chunks : List (List Byte)) :
    (writeAll cfg .registers head bs chunks).Keeps (CachesIn P) := by
  induction bs generalizing chunks with
  | nil =>
    cases chunks with
    | nil => exact (cachesPath P).pure _
    | cons => exact (cachesPath P).raise _
  | cons b bs ih =>
    cases chunks with
    | nil => exact (cachesPath P).pure _
    | cons ch cs =>
      obtain ⟨hb, hbs⟩ := List.forall_mem_cons.1 h
      refine (cachesPath P).bind (keeps_jump (E := hostMove cfg) head).cachesIn fun _ => ?_
      split
      · exact ih hbs _
      · exact (cachesPath P).bind (caches_writeThrough (hb ‹_›) _) fun _ => ih hbs _

theorem mem_usable (hb : a ∈ allBlocks) (hf : ¬ forbidden cfg a = true) : a ∈ usableBlocks cfg :=
  List.mem_filter.2 ⟨hb, by simpa using hf⟩

theorem caches_readStore (h : ∀ b ∈ usableBlocks cfg, P b) : (readStore cfg .registers).Keeps (CachesIn P) :=
  (cachesPath P).bind ((cachesPath P).look _) fun head => caches_readAll head fun b hb hf =>
    h b (mem_usable hb hf)

theorem caches_writeStore (h : ∀ b ∈ usableBlocks cfg, P b) (data : List Byte) : (writeStore cfg .registers data).Keeps (CachesIn P) :=
  Proc.keeps_ite ((cachesPath P).raise _) ((cachesPath P).bind ((cachesPath P).look _) fun head => caches_writeAll head
    (fun b hb hf => h b (mem_usable hb hf)) _)

theorem caches_then {α β : Type} {p : Proc α} (h : p.Keeps (CachesIn P)) (f : α → β) :
    (do let a ← p; pure (f a) : Proc β).Keeps (CachesIn P) :=
  (cachesPath P).bind h fun _ => (cachesPath P).pure _

/-- The blocks a store access works on: its block, or every usable one. -/
def BlockOf (s : State) (i : Instr) (a : Byte) : Prop :=
  (∃ st b, (i = .authenticate st b ∨ i = .readBlock st b ∨ ∃ d, i = .writeBlock st b d) ∧ byteOf s b = some a) ∨
    (((∃ st, i = .readBytes st) ∨ ∃ st d, i = .writeBytes st d) ∧ a ∈ usableBlocks s.cfg)

/-- Every host call but init and select leaves the cache, or caches the sector of a block it works on. -/
theorem call_cachesIn (hp : callProc s.cfg .registers s i = some (op, p)) (hi : i ≠ .init) (hs : i ≠ .select) :
    p.Keeps (CachesIn (BlockOf s i)) := by
  by_cases ha : storeAccess i = true
  · cases i
    case authenticate st b =>
      obtain ⟨_, -, h⟩ := Option.bind_eq_some_iff.1 hp
      obtain ⟨a, hb, h⟩ := Option.map_eq_some_iff.1 h
      obtain ⟨-, rfl⟩ := Prod.mk.inj h
      exact caches_then (caches_authSector (.inl ⟨st, b, .inl rfl, hb⟩)) _
    case readBlock st b =>
      obtain ⟨_, -, h⟩ := Option.bind_eq_some_iff.1 hp
      obtain ⟨a, hb, h⟩ := Option.map_eq_some_iff.1 h
      obtain ⟨-, rfl⟩ := Prod.mk.inj h
      exact caches_then (caches_readThrough (.inl ⟨st, b, .inr (.inl rfl), hb⟩)) _
    case writeBlock st b d =>
      obtain ⟨_, -, h⟩ := Option.bind_eq_some_iff.1 hp
      obtain ⟨a, hb, h⟩ := Option.bind_eq_some_iff.1 h
      obtain ⟨bs, -, h⟩ := Option.map_eq_some_iff.1 h
      obtain ⟨-, rfl⟩ := Prod.mk.inj h
      exact caches_then (caches_writeThrough (.inl ⟨st, b, .inr (.inr ⟨d, rfl⟩), hb⟩) bs) _
    case readBytes st =>
      obtain ⟨_, -, h⟩ := Option.map_eq_some_iff.1 hp
      obtain ⟨-, rfl⟩ := Prod.mk.inj h
      exact caches_then (caches_readStore fun _ hb => .inr ⟨.inl ⟨st, rfl⟩, hb⟩) _
    case writeBytes st d =>
      obtain ⟨_, -, h⟩ := Option.bind_eq_some_iff.1 hp
      obtain ⟨bs, -, h⟩ := Option.map_eq_some_iff.1 h
      obtain ⟨-, rfl⟩ := Prod.mk.inj h
      exact caches_then (caches_writeStore (fun _ hb => .inr ⟨.inr ⟨st, d, rfl⟩, hb⟩) bs) _
    all_goals cases ha
  · exact (call_host hp hi hs (Bool.eq_false_iff.2 ha)).cachesIn

/-! ### authenticate caches exactly when it succeeds -/

/-- An authentication caches the block's sector, or fails with an error and leaves the cache. -/
theorem authSector_ends (a : Byte) (s : State) :
    (∃ t, (authSector cfg .registers a).exec s = (.ok (), t) ∧ t.lastAuthSector = some (sectorOf a)) ∨
      ∃ e t, (authSector cfg .registers a).exec s = (.error (.raise e), t) ∧ t.lastAuthSector = s.lastAuthSector := by
  by_cases hcached : s.lastAuthSector = some (sectorOf a)
  · exact .inl ⟨s, authSector_exec_cached hcached, hcached⟩
  · have hm := host_authBlock (cfg := cfg) Config.storeKey a s
    unfold authSector
    rw [Proc.exec_bind_ok (Proc.exec_look _ _), if_neg hcached]
    rcases hx : (authBlock cfg .registers Config.storeKey a).exec s with ⟨e | v, t⟩
    · obtain ⟨e, rfl⟩ := err_authBlock _ _ s _ t hx
      rw [hx] at hm
      exact .inr ⟨e, t, Proc.exec_bind_error hx, hm.lastAuthSector⟩
    · exact .inl ⟨_, Proc.exec_bind_ok hx, rfl⟩

/-- A call of authenticate caches the block's sector with a value, and leaves the cache with an error. -/
theorem authenticate_ends (a : Byte) (s : State) :
    let t := finishCall ((do authSector cfg .registers a; pure .unit : Proc Value).exec s)
    (∀ v, t.result = some (.value v) → t.lastAuthSector = some (sectorOf a)) ∧
      ∀ e, t.result = some (.error e) → t.lastAuthSector = s.lastAuthSector := by
  obtain ⟨t, hx, ht⟩ | ⟨e, t, hx, ht⟩ := authSector_ends (cfg := cfg) a s
  · rw [Proc.exec_bind_ok hx]
    exact ⟨fun _ _ => ht, fun _ h => (nomatch h)⟩
  · rw [Proc.exec_bind_error hx]
    exact ⟨fun _ h => (nomatch h), fun _ _ => ht⟩

/-- Settles O56: a refused call changes nothing else, and each procedure's own writers are known. -/
theorem cacheHasItsWriters : Obligations.CacheHasItsWriters := by
  intro i s t hi hx
  obtain ⟨-, op, p, hp, ⟨m, hm, rfl⟩ | ⟨hn, rfl⟩⟩ := hostCall_next hi hx
  · exact ⟨fun _ => rfl, fun hn => absurd hm (hn m), fun _ _ _ _ _ => ⟨fun _ h => (nomatch h), fun _ _ => rfl⟩, fun _ _ => .inl rfl⟩
  · refine ⟨fun ⟨m, hm⟩ => absurd hm (hn m), fun _ h => ?_, fun st b a h hb => ?_, fun h1 h2 => ?_⟩
    · rw [finishCall_lastAuthSector, call_clears_cache hp h]
    · subst h
      obtain ⟨_, -, h⟩ := Option.bind_eq_some_iff.1 hp
      obtain ⟨a', hb', h⟩ := Option.map_eq_some_iff.1 h
      obtain rfl : a' = a := Option.some.inj (hb'.symm.trans hb)
      obtain ⟨-, rfl⟩ := Prod.mk.inj h
      exact authenticate_ends a' (s.startCall op)
    · rw [finishCall_lastAuthSector]
      exact call_cachesIn hp h1 h2 (s.startCall op)

end Sys2Proof.Machine

/-! How an instruction ends: every call that can be made answers a next state, refused for a reason of the table alone, and only select
faults (R251, R257, R262, R263). -/

namespace Sys2Proof.Machine

variable {s t : State} {i : Instr} {p : Proc Value} {op : HostOp} {cfg : Cfg} {m : RefuseReason}

/-! ### The answer of an instruction -/

theorem exec_row_next (hf : s.faultMark = none) (hp : rowProc s.cfg .registers i = some p) :
    exec i s = .next (finishRow (p.exec s)) :=
  (exec_row s hp).trans (unlessStuck_none hf _)

theorem exec_call_next (hf : s.faultMark = none) (hp : callProc s.cfg .registers s i = some (op, p)) : ∃ t, exec i s = .next t :=
  ⟨_, (exec_call hf hp).trans (unlessStuck_none hf _)⟩

/-- An instruction answers a next state, or has an operand without a value. -/
theorem exec_answers (hf : s.faultMark = none) (i : Instr) : (∃ t, exec i s = .next t) ∨ exec i s = .refused .badOperand := by
  rcases hr : rowProc s.cfg .registers i with _ | p
  · rcases hc : callProc s.cfg .registers s i with _ | ⟨op, p⟩
    · exact .inr (exec_neither hf hr hc)
    · exact .inl (exec_call_next hf hc)
  · exact .inl ⟨_, exec_row_next hf hr⟩

/-- Settles O49: a call whose operands have values runs a procedure, and every procedure ends. -/
theorem everyCallEnds : Obligations.EveryCallEnds := by
  intro i s hf hcall
  obtain ⟨p, hp⟩ | ⟨op, p, hp⟩ := row_or_call_of_callable (cfg := s.cfg) hcall
  · exact ⟨_, exec_row_next hf hp⟩
  · exact exec_call_next hf hp

/-! ### The ends of a row and of a call -/

theorem rowMoves_kept {n : Nat} (h : RowMoves cfg n s t) : Kept s t := by
  obtain ⟨_, _, _, _, _, _, _, _, _, _, _, _, _, rfl⟩ := h
  exact ⟨rfl, rfl, rfl, rfl, rfl, rfl⟩

/-- An internal row ends with a value or an error. -/
theorem row_ends (hp : rowProc cfg .registers i = some p) (s : State) :
    ∃ u, Kept s u ∧ ((∃ v, finishRow (p.exec s) = { u with result := some (.value v) }) ∨
      ∃ e, finishRow (p.exec s) = u.giveBack (.error e)) := by
  refine ⟨(p.exec s).2, rowMoves_kept (row_moves hp s), ?_⟩
  rcases hx : p.exec s with ⟨x | v, u⟩
  · obtain ⟨e, rfl⟩ := row_stops hp s x u hx
    exact .inr ⟨e, rfl⟩
  · exact .inl ⟨v, rfl⟩

/-- select's procedure faults by R164's mismatch alone, and no other call's faults. -/
theorem call_fault (hp : callProc cfg .registers s i = some (op, p)) {s0 u : State} {r : UnmodelledReason}
    (hx : p.exec s0 = (.error (.unmodelled r), u)) : i = .select ∧ r = .cascadeTagMismatch := by
  by_cases hi : i = .select
  · subst hi
    obtain ⟨-, rfl⟩ := Prod.mk.inj (Option.some.inj hp)
    obtain ⟨_, -, -, ⟨_, hstop, hx'⟩ | ⟨_, -, hx'⟩⟩ := selectCard_ends (cfg := cfg) s0
    · obtain rfl := Except.error.inj (Prod.mk.inj (hx'.symm.trans hx)).1
      cases hstop
      exact ⟨rfl, rfl⟩
    · cases hx'.symm.trans hx
  · obtain ⟨_, he⟩ := call_stops hp hi s0 _ u hx
    cases he

/-- A call that runs ends with a value, an error, or select's fault. -/
theorem call_ends (hp : callProc cfg .registers s i = some (op, p)) (s0 : State) :
    ∃ u, Kept s0 u ∧ ((∃ v, finishCall (p.exec s0) = u.giveBack (.value v)) ∨ (∃ e, finishCall (p.exec s0) = u.giveBack (.error e)) ∨
      i = .select ∧ finishCall (p.exec s0) = u.markFault .cascadeTagMismatch) := by
  refine ⟨(p.exec s0).2, call_kept hp s0, ?_⟩
  rcases hx : p.exec s0 with ⟨(e | r) | v, u⟩
  · exact .inr (.inl ⟨e, rfl⟩)
  · obtain ⟨hi, rfl⟩ := call_fault hp hx
    exact .inr (.inr ⟨hi, rfl⟩)
  · exact .inl ⟨v, rfl⟩

/-! ### Faults (R164, R262) -/

theorem step_stuck {r : UnmodelledReason} (h : s.faultMark = some r) : step s = .fault (.stuck r) := by simp [step, h]

/-- A next state with a fault mark is select's. -/
theorem exec_marks_fault (hx : exec i s = .next t) (ht : t.faultMark ≠ none) :
    i = .select ∧ t.faultMark = some .cascadeTagMismatch := by
  obtain ⟨hf, ⟨p, hp, rfl⟩ | ⟨op, p, hp, ⟨m, -, rfl⟩ | ⟨-, rfl⟩⟩⟩ := exec_next hx
  · obtain ⟨u, hkept, ⟨v, hu⟩ | ⟨e, hu⟩⟩ := row_ends hp s <;> rw [hu] at ht <;> exact absurd (hkept.faultMark.trans hf) ht
  · exact absurd hf ht
  · obtain ⟨u, hkept, ⟨v, hu⟩ | ⟨e, hu⟩ | ⟨hi, hu⟩⟩ := call_ends hp (s.startCall op) <;> rw [hu] at ht ⊢
    · exact absurd (hkept.faultMark.trans hf) ht
    · exact absurd (hkept.faultMark.trans hf) ht
    · exact ⟨hi, rfl⟩

/-- Settles O50: the mark is looked at first, every procedure ends without a fault of exec, and select's alone sets the mark. -/
theorem faultsAreStuck : Obligations.FaultsAreStuck := by
  refine ⟨fun s r h => ⟨step_stuck h, fun i => exec_stuck h⟩, fun s i r hf hx => ?_, fun s t i => exec_marks_fault⟩
  obtain ⟨t, ht⟩ | ht := exec_answers hf i <;> cases ht.symm.trans hx

/-! ### Refusals (R263) -/

/-- The table refuses host calls only. -/
theorem hostCall_of_refusal (h : i.Refusal s m) : i.hostCall = true := by
  cases h with
  | busy hi _ => exact hi
  | notReady hi _ _ _ => exact hi
  | own _ _ _ hown => cases hown <;> rfl

/-- Settles O51: exec looks the table's reason up before the call starts. -/
theorem refusalsTakeNoStep : Obligations.RefusalsTakeNoStep := by
  intro i s m hf hcall hm
  obtain ⟨p, hp⟩ | ⟨op, p, hp⟩ := row_or_call_of_callable (cfg := s.cfg) hcall
  · cases (hostCall_of_row hp).symm.trans (hostCall_of_refusal hm)
  · have hr := (refusalOf_some hp m).2 hm
    exact ⟨(exec_call hf hp).trans (hostCall_refused hf hr), passes_of_refused hp hr⟩

/-- Settles O52: a row and a call that runs give a value, an error or, at a fault, nothing, and leave the mark. -/
theorem onlyTheTableRefuses : Obligations.OnlyTheTableRefuses := by
  intro i s t hx
  obtain ⟨-, ⟨p, hp, rfl⟩ | ⟨op, p, hp, ⟨m, hm, rfl⟩ | ⟨-, rfl⟩⟩⟩ := exec_next hx
  · obtain ⟨u, hkept, ⟨v, hu⟩ | ⟨e, hu⟩⟩ := row_ends hp s <;> rw [hu] <;> exact ⟨nofun, fun _ => hkept.refuseMark⟩
  · have hm := (refusalOf_some hp m).1 hm
    exact ⟨fun m' h => by cases h; exact hm, fun hn => absurd hm (hn m)⟩
  · obtain ⟨u, hkept, ⟨v, hu⟩ | ⟨e, hu⟩ | ⟨-, hu⟩⟩ := call_ends hp (s.startCall op) <;> rw [hu]
    · exact ⟨nofun, fun _ => hkept.refuseMark⟩
    · exact ⟨nofun, fun _ => hkept.refuseMark⟩
    · exact ⟨fun _ h => (nomatch hkept.result.symm.trans h), fun _ => hkept.refuseMark⟩

/-! ### Control given back (R251, R252, R257) -/

/-- Settles O53: a call that runs to a value or an error gives control back. -/
theorem callsGiveBackControl : Obligations.CallsGiveBackControl := by
  intro i s t hi hx hn hf
  obtain ⟨-, op, p, hp, ⟨m, hm, -⟩ | ⟨-, rfl⟩⟩ := hostCall_next hi hx
  · exact absurd hm (hn m)
  · obtain ⟨u, -, ⟨v, hu⟩ | ⟨e, hu⟩ | ⟨-, hu⟩⟩ := call_ends hp (s.startCall op) <;> rw [hu] at hf ⊢
    · exact ⟨rfl, rfl, .inl ⟨v, rfl⟩⟩
    · exact ⟨rfl, rfl, .inr ⟨e, rfl⟩⟩
    · cases hf

end Sys2Proof.Machine

/-! The state at construction (R275). -/

namespace Sys2Proof.Machine

/-- The level of the reset line is a draw (D31), and either value of the draw is a level R275 allows. -/
theorem reset_resetLine : State.reset.resetLine = .low ∨ State.reset.resetLine = .high :=
  (ite_eq_or_eq (Config.resetLineHigh = true) LineLevel.high LineLevel.low).symm

/-- Settles O60: every field but the drawn level of the reset line is a constant of `State.reset`. -/
theorem constructionState : Obligations.ConstructionState :=
  ⟨rfl, reset_resetLine, rfl, rfl, rfl, rfl, rfl, rfl, rfl, rfl⟩

end Sys2Proof.Machine

/-! The decoder gives back what the encoder wrote: the frames of each space by their own decoder, and the program lines by their
tokens (R85 to R110). -/

namespace Sys2Proof

variable {cfg : Cfg} {i : Instr} {op : Operation} {os : List Operand} {bind : Option Name}

/-! ### Register frames (R86, R87, R117 to R120) -/

@[simp] theorem bitFraming_rxAlign (a t : BitVec 3) : (bitFraming a t >>> 4).setWidth 3 = a := by revert a t; decide

@[simp] theorem bitFraming_txLastBits (a t : BitVec 3) : (bitFraming a t).setWidth 3 = t := by revert a t; decide

theorem decodeSpiWrite_wa (r : Reg) {bs : List Byte} (h : 1 ≤ bs.length) :
    decodeSpiWrite cfg (cfg.wa r :: bs) = .ok (Instr.regWriteN r bs).canonical := by
  match bs with
  | [v] => simp [decodeSpiWrite, Instr.canonical]
  | v :: w :: vs => simp [decodeSpiWrite, Instr.canonical]

theorem decodeSpiRead_ra (r : Reg) {n : Nat} (a : BitVec 3) (h : 1 ≤ n) :
    decodeSpiRead cfg a (List.replicate n (cfg.ra r) ++ [0x00]) = .ok (Instr.regReadN r n a).canonical := by
  obtain ⟨m, rfl⟩ := Nat.exists_eq_add_of_le' h
  simp only [decodeSpiRead, List.dropLast_concat, List.getLast?_concat]
  simp [Instr.canonical, List.replicate_succ]

/-! ### Frames to the card (R93 to R103) -/

theorem Cfg.sel_ne {c : Byte} (hc : c ∈ [cfg.picc.hlta, cfg.picc.read, cfg.picc.write, cfg.picc.authA, cfg.picc.authB])
    (l : CascadeLevel) : cfg.sel l ≠ c := by
  have hn := cfg.picc_ne
  simp only [PiccBytes.list, List.nodup_cons, List.mem_cons, not_or] at hn
  rintro rfl
  cases l <;> simp_all [Cfg.sel]

/-- Command bytes the decoder tells apart (R93). -/
theorem Cfg.picc_apart : cfg.picc.wupa ≠ cfg.picc.reqa ∧ cfg.picc.read ≠ cfg.picc.hlta ∧ cfg.picc.write ≠ cfg.picc.hlta ∧
    cfg.picc.write ≠ cfg.picc.read ∧ cfg.picc.authB ≠ cfg.picc.authA := by
  have hn := cfg.picc_ne
  simp only [PiccBytes.list, List.nodup_cons, List.mem_cons, not_or] at hn
  grind

theorem sixteenAndCrc_none {bytes : List Byte} (h : bytes.length ≠ 18) : sixteenAndCrc bytes = none := by
  unfold sixteenAndCrc
  split
  · exact absurd rfl h
  · rfl

theorem decodeFrame_sel {l : CascadeLevel} {framing : Byte} {bytes : List Byte} (h : bytes.length ≠ 17) :
    decodeFrame cfg framing (cfg.sel l :: bytes) = decodeSel l framing bytes := by
  simp [decodeFrame, sixteenAndCrc_none (bytes := cfg.sel l :: bytes) (by simpa using h)]

theorem decodeFrame_command {c : Byte} {bytes : List Byte} (h : bytes.length ≠ 17) (hc : ∀ l, cfg.sel l ≠ c) :
    decodeFrame cfg 0x00 (c :: bytes) = decodeCommandFrame cfg (c :: bytes) := by
  simp [decodeFrame, sixteenAndCrc_none (bytes := c :: bytes) (by simpa using h), CascadeLevel.ofSel_none cfg hc]

theorem decodeFrame_anticoll (l : CascadeLevel) {n : Byte} {bits : List Byte} (h : wfAnticoll n bits = true) :
    decodeFrame cfg (bitFraming (nvbTail n) (nvbTail n)) (anticollBytes cfg l n bits) = .ok (anticollInstr l n bits) := by
  simp only [wfAnticoll, legalNvb, Bool.and_eq_true, decide_eq_true_eq, beq_iff_eq] at h
  obtain ⟨⟨⟨-, hfull⟩, -⟩, hlen⟩ := h
  have hn : n ≠ Config.nvbSelect := by rintro rfl; exact absurd hfull (by decide)
  have hshort : (n :: bits).length ≠ 17 := by rw [List.length_cons]; split at hlen <;> omega
  simp [anticollBytes, decodeFrame_sel hshort, decodeSel, hn]

theorem decodeFrame_select (l : CascadeLevel) (u : Vector Byte 4) (lo hi : Byte) :
    decodeFrame cfg 0x00 (selectBytes cfg l u lo hi) = .ok (selectInstr l u lo hi) := by
  rcases u with ⟨⟨bs⟩, hbs⟩
  match bs, hbs with
  | [_, _, _, _], _ => simp [selectBytes, bccOf, decodeFrame_sel, decodeSel]

/-- A frame of four bytes goes by its command byte (R95, R102, R103). -/
theorem decodeFrame_four {c : Byte} (h : c ∈ [cfg.picc.hlta, cfg.picc.read, cfg.picc.write]) (x lo hi : Byte) :
    decodeFrame cfg 0x00 [c, x, lo, hi] = decodeCommandFrame cfg [c, x, lo, hi] :=
  decodeFrame_command (by simp) (cfg.sel_ne (List.mem_append_left [cfg.picc.authA, cfg.picc.authB] h))

theorem decodeFrame_hlta (lo hi : Byte) : decodeFrame cfg 0x00 [cfg.picc.hlta, 0x00, lo, hi] = .ok (.hlta lo hi) := by
  rw [decodeFrame_four (by simp)]
  simp [decodeCommandFrame]

theorem decodeFrame_mfRead (b lo hi : Byte) : decodeFrame cfg 0x00 [cfg.picc.read, b, lo, hi] = .ok (.mfRead b lo hi) := by
  rw [decodeFrame_four (by simp)]
  simp [decodeCommandFrame, cfg.picc_apart]

theorem decodeFrame_mfWrite (b lo hi : Byte) : decodeFrame cfg 0x00 [cfg.picc.write, b, lo, hi] = .ok (.mfWrite b lo hi) := by
  rw [decodeFrame_four (by simp)]
  simp [decodeCommandFrame, cfg.picc_apart]

/-- The instruction of an authentication with a key of a kind. -/
def authInstr : KeyType → Byte → Vector Byte 6 → Vector Byte 4 → Instr
  | .a => .mfAuthA | .b => .mfAuthB

theorem decodeFrame_auth (k : KeyType) (b : Byte) (key : Vector Byte 6) (u : Vector Byte 4) :
    decodeFrame cfg 0x00 (authBytes cfg k b key.toList u.toList) = .ok (authInstr k b key u) := by
  have hsel : ∀ l, cfg.sel l ≠ cfg.authCmd k := cfg.sel_ne (by cases k <;> simp [Cfg.authCmd])
  rcases key with ⟨⟨ks⟩, hks⟩
  rcases u with ⟨⟨us⟩, hus⟩
  match ks, hks, us, hus with
  | [_, _, _, _, _, _], _, [_, _, _, _], _ =>
    show decodeFrame cfg 0x00 (cfg.authCmd k :: _) = _
    rw [decodeFrame_command (by simp) hsel]
    cases k <;> simp [decodeCommandFrame, Cfg.authCmd, authInstr, cfg.picc_apart]

theorem decodeFrame_mfWriteData (d : Vector Byte 16) (lo hi : Byte) :
    decodeFrame cfg 0x00 (d.toList ++ [lo, hi]) = .ok (.mfWriteData d lo hi) := by
  simp [decodeFrame, sixteenAndCrc_append]

/-! ### Responses and transactions (R91, R206) -/

theorem decodeResponse_anticoll {bytes : List Byte} (v : BitVec 3) (h : bytes.length ≤ 127) :
    decodeResponse .anticoll (v.setWidth 8) bytes = .ok (.anticollResponse bytes v) := by
  have hv : ∀ v : BitVec 3, (v.setWidth 8 : Byte).toNat ≤ 7 ∧ (v.setWidth 8 : Byte).setWidth 3 = v := by decide
  simp only [decodeResponse, hv, h, decide_true, Bool.and_self, if_true]

theorem decodeResponse_read (d : Vector Byte 16) (lo hi : Byte) :
    decodeResponse .read 0x00 (d.toList ++ [lo, hi]) = .ok (.mfReadResponse d lo hi) := by
  simp [decodeResponse, sixteenAndCrc_append]

theorem decodeResponse_ack (h : BitVec 4) : decodeResponse .write 0x04 [h ++ Config.mfAck] = .ok (.mfAck h) := by
  revert h; decide

theorem decodeTransaction_frame (c : PiccCommand) (tx : List Byte) (t a : BitVec 3) (want : Bool) :
    decodeTransaction cfg (bitFraming a t) ([cfg.byte c.pcd, if want then 0x01 else 0x00] ++ tx) =
      .ok (.transceivePicc c tx t a want) := by
  cases c <;> cases want <;> simp [decodeTransaction, PiccCommand.pcd]

@[simp] theorem decodeBytes_spiRead (a : BitVec 3) (bytes : List Byte) :
    decodeBytes cfg .spiRead (bitFraming a 0) bytes = decodeSpiRead cfg a bytes := by
  simp [decodeBytes]

/-! ### The encodings in a space of their own -/

theorem encode_format {l : Line} (hc : l.instr.call = none) : (encode cfg l).format ≠ .hostOp := by
  rcases l with ⟨_, i⟩
  intro h
  cases i
  case resetLine level => cases level <;> cases h
  all_goals cases h
  all_goals cases hc

theorem decode_of_decodeBytes {e : Encoded} (hf : e.format ≠ .hostOp) (h : decodeBytes cfg e.format e.framing e.bytes = .ok i) :
    decode cfg e = .ok ⟨none, i⟩ := by
  unfold decode
  split
  · exact absurd ‹_› hf
  · rw [h]

/-- Every row of a space of its own is read back by that space's decoder. -/
theorem decodeBytes_encode (hw : i.wf = true) (hc : i.call = none) :
    decodeBytes cfg (encode cfg ⟨none, i⟩).format (encode cfg ⟨none, i⟩).framing (encode cfg ⟨none, i⟩).bytes = .ok i.canonical := by
  cases i
  case regWrite r v => exact decodeSpiWrite_wa r (bs := [v]) le_rfl
  case regWriteN r bs => exact decodeSpiWrite_wa r (of_decide_eq_true hw)
  case regRead r => exact (decodeBytes_spiRead 0 _).trans (decodeSpiRead_ra r 0 le_rfl)
  case regReadN r n a => exact (decodeBytes_spiRead a _).trans (decodeSpiRead_ra r a (of_decide_eq_true hw))
  case resetLine level => cases level <;> rfl
  case pcdIdle | pcdCalcCrc | pcdTransceive | pcdMfAuthent | pcdSoftReset =>
    simp [encode, decodeBytes, decodePcd, Instr.canonical]
  case reqa => simp [encode, decodeBytes, Instr.canonical]
  case wupa => simp [encode, decodeBytes, Instr.canonical, cfg.picc_apart]
  case hlta lo hi => exact decodeFrame_hlta lo hi
  case anticollCL1 n bits => exact decodeFrame_anticoll .cl1 hw
  case anticollCL2 n bits => exact decodeFrame_anticoll .cl2 hw
  case anticollCL3 n bits => exact decodeFrame_anticoll .cl3 hw
  case selectCL1 u lo hi => exact decodeFrame_select .cl1 u lo hi
  case selectCL2 u lo hi => exact decodeFrame_select .cl2 u lo hi
  case selectCL3 u lo hi => exact decodeFrame_select .cl3 u lo hi
  case mfAuthA b key u => exact decodeFrame_auth .a b key u
  case mfAuthB b key u => exact decodeFrame_auth .b b key u
  case mfRead b lo hi => exact decodeFrame_mfRead b lo hi
  case mfWrite b lo hi => exact decodeFrame_mfWrite b lo hi
  case mfWriteData d lo hi => exact decodeFrame_mfWriteData d lo hi
  case atqa | sak | cascadeTag => rfl
  case anticollResponse bytes v => exact decodeResponse_anticoll v (of_decide_eq_true hw)
  case mfReadResponse d lo hi => exact decodeResponse_read d lo hi
  case mfAck h => exact decodeResponse_ack h
  case transceivePicc c tx t a want => exact decodeTransaction_frame c tx t a want
  all_goals cases hc

/-! ### Program lines (R109) -/

theorem encode_of_call {l : Line} (hc : l.instr.call = some (op, os)) : encode cfg l = ⟨.hostOp, 0, lineText l.bind op os⟩ := by
  rcases l with ⟨_, i⟩
  cases i <;> cases hc <;> rfl

theorem canonical_of_call (hc : i.call = some (op, os)) : i.canonical = i := by
  cases i <;> cases hc <;> rfl

theorem Arg.proper_operand {α : Type} {a : Arg α} {write : α → Operand} (h : a.wf = true) (hw : ∀ x, (write x).proper) :
    (a.operand write).proper := by
  cases a with
  | lit x => exact hw x
  | name n => exact (validName_parts h).1

theorem proper_name {n : Name} (h : validName n = true) : (Operand.word n).proper := (validName_parts h).1

theorem proper_byte {a : Arg Byte} (h : a.wf = true) : (a.operand fun x => .word (byteWord x)).proper :=
  Arg.proper_operand h isWord_byteWord

theorem proper_bytes {a : Arg (List Byte)} (h : a.wf = true) : (a.operand .bytes).proper := Arg.proper_operand h fun _ => trivial

theorem proper_bool {a : Arg Bool} (h : a.wf = true) : (a.operand fun x => .word (boolWord x)).proper :=
  Arg.proper_operand h isWord_bool

theorem proper_type {a : Arg CardType} (h : a.wf = true) : (a.operand fun x => .word x.word).proper :=
  Arg.proper_operand h isWord_cardType

theorem proper_key (k : Key) : (Operand.tagged k.kind.word k.bytes.toList).proper := isWord_keyType k.kind

/-- Each operation reads its operands back, by the lemma of each operand's kind. -/
theorem instrOf_call (hw : i.wf = true) (hc : i.call = some (op, os)) : instrOf op os = some i := by
  cases i <;> cases hc
  all_goals simp_all [Instr.wf, instrOf, nameOf, keyArg_operand]

/-- The words among a call's operands are words of a line. -/
theorem proper_of_call (hw : i.wf = true) (hc : i.call = some (op, os)) : ∀ o ∈ os, o.proper := by
  cases i <;> cases hc
  all_goals simp_all [Instr.wf, proper_name, proper_byte, proper_bytes, proper_bool, proper_type, proper_key]

/-- The tokens of a program line. -/
def lineTokens (bind : Option Name) (op : Operation) (os : List Operand) : List Token :=
  (match bind with | none => [] | some n => [.word n, .equals]) ++ .word op.word :: operandTokens os

theorem lexes_call (op : Operation) (h : ∀ o ∈ os, o.proper) : Lexes (lineText none op os) (lineTokens none op os) := by
  cases os with
  | nil => simpa [lineText, lineTokens, operandTokens] using lexes_word (isWord_operation op)
  | cons o os =>
    have := (lexes_word (isWord_operation op)).append (lexes_mark lex_space (lexes_operands h)) fun _ _ => breaks_cons (by decide) _
    simpa [lineText, lineTokens] using this

theorem lexes_lineText (op : Operation) (hb : ∀ n ∈ bind, validName n = true) (h : ∀ o ∈ os, o.proper) :
    Lexes (lineText bind op os) (lineTokens bind op os) := by
  cases bind with
  | none => exact lexes_call op h
  | some n =>
    have hn := (validName_parts (hb n rfl)).1
    have := (lexes_word hn).append (lexes_mark lex_space (lexes_mark lex_equals (lexes_mark lex_space (lexes_call op h))))
      fun _ _ => breaks_cons (by decide) _
    have e : ascii " = " = [0x20#8, 0x3D#8, 0x20#8] := by decide +kernel
    simpa [lineText, lineTokens, e] using this

/-- Behind an operation word stands no equals sign, so the word is not read as a name that is bound. -/
theorem splitBind_call (w : List Byte) (os : List Operand) :
    splitBind (.word w :: operandTokens os) = (none, .word w :: operandTokens os) := by
  rcases os with _ | ⟨o, _ | ⟨p, ps⟩⟩
  · rfl
  · cases o <;> rfl
  · cases o <;> rfl

theorem splitBind_lineTokens : splitBind (lineTokens bind op os) = (bind, .word op.word :: operandTokens os) := by
  cases bind with
  | none => exact splitBind_call op.word os
  | some n => rfl

theorem decodeLine_lineText (hb : ∀ n ∈ bind, validName n = true) (h : ∀ o ∈ os, o.proper) (hi : instrOf op os = some i) :
    decodeLine (lineText bind op os) = .ok ⟨bind, i⟩ := by
  simp only [decodeLine, (lexes_lineText op hb h).whole, splitBind_lineTokens, Operation.ofWord_word, operandsOf_operandTokens,
    Option.bind_some, hi]
  cases bind with
  | none => rfl
  | some n => exact if_pos (hb n rfl)

/-- Settles O4: a line of a space of its own is its instruction's bytes, and a program line its tokens. -/
theorem decodeOfEncode : Obligations.DecodeOfEncode := by
  rintro cfg ⟨bind, i⟩ hwf hbindable
  obtain ⟨hw, hb⟩ := Bool.and_eq_true_iff.1 hwf
  rcases hc : i.call with _ | ⟨op, os⟩
  · obtain rfl : bind = none := by simpa [Line.bindable, hc] using hbindable
    exact decode_of_decodeBytes (encode_format hc) (decodeBytes_encode hw hc)
  · have hbind : ∀ n ∈ bind, validName n = true := by rintro n rfl; exact hb
    rw [encode_of_call hc, canonical_of_call hc]
    exact decodeLine_lineText hbind (proper_of_call hw hc) (instrOf_call hw hc)

end Sys2Proof

namespace Sys2Proof.Machine

variable {s t : State} {e : Encoded} {rest : List Encoded} {l : Line} {bind : Option Name}

/-! ### What the host does with a line's result (R109) -/

theorem afterLine_bound {n : Name} {v : Value} (h : t.result = some (.value v)) :
    t.afterLine (some n) = { t with bindings := (n, v) :: t.bindings } := by
  simp [State.afterLine, State.bindResult, State.endOnError, h]

theorem afterLine_error {x : Err} (h : t.result = some (.error x)) : t.afterLine bind = { t with pending := [] } := by
  cases bind <;> simp [State.afterLine, State.bindResult, State.endOnError, h]

/-- Without a name or a value there is nothing to bind, and without an error nothing to end. -/
theorem afterLine_same (hv : bind = none ∨ ∀ v, t.result ≠ some (.value v)) (he : ∀ x, t.result ≠ some (.error x)) :
    t.afterLine bind = t := by
  have hbind : t.bindResult bind = t := by
    unfold State.bindResult
    split
    · obtain h | h := hv
      · cases h
      · exact absurd ‹_› (h _)
    · rfl
  rw [State.afterLine, hbind, State.endOnError]
  split
  · exact absurd ‹_› (he _)
  · rfl

/-! ### A step (R262, R267) -/

theorem step_idle (hf : s.faultMark = none) (hp : s.pending = []) : step s = .next s := by simp [step, hf, hp]

theorem step_fetch (hf : s.faultMark = none) (hp : s.pending = e :: rest) : step s = runFetched e { s with pending := rest } := by
  simp [step, hf, hp]

theorem runFetched_undecodable {err : DecodeError} (h : decode s.cfg e = .error err) :
    runFetched e s = .refused (.undecodable err) := by simp [runFetched, h]

theorem runFetched_refused {m : Refusal} (hd : decode s.cfg e = .ok l) (hx : exec l.instr s = .refused m) :
    runFetched e s = .refused m := by simp [runFetched, hd, hx]

theorem runFetched_next (hd : decode s.cfg e = .ok l) (hx : exec l.instr s = .next t) :
    runFetched e s = .next (t.afterLine l.bind) := by simp [runFetched, hd, hx]

/-- The only refusal of exec itself is an operand without a value (log entry 14). -/
theorem exec_refused {i : Instr} {m : Refusal} (hf : s.faultMark = none) (hx : exec i s = .refused m) : m = .badOperand := by
  obtain ⟨t, ht⟩ | ht := exec_answers hf i
  · cases ht.symm.trans hx
  · exact (Host.Outcome.refused.inj (ht.symm.trans hx)).symm

/-- Settles O5: a marked state and an idle one are looked at first; else the fetched line is run, and its result is the host's. -/
theorem stepRunsTheDecodedLine : Obligations.StepRunsTheDecodedLine := by
  intro s
  refine ⟨fun m => step_stuck, step_idle, fun e rest hf hp => ?_⟩
  rw [step_fetch hf hp]
  refine ⟨fun err hd => runFetched_undecodable hd, fun l hd => ⟨fun m hx => ?_, fun t hx => ?_⟩⟩
  · exact ⟨exec_refused (s := { s with pending := rest }) hf hx, runFetched_refused hd hx⟩
  · rw [runFetched_next (s := { s with pending := rest }) hd hx]
    refine ⟨fun v n hv hn => ?_, fun v hv hn => ?_, fun x hr => ?_, fun m hr => ?_, fun hr => ?_⟩
    · rw [hn, afterLine_bound hv]
    · rw [afterLine_same (.inl hn) (by simp [hv])]
    · rw [afterLine_error hr]
    · rw [afterLine_same (.inr (by simp [hr])) (by simp [hr])]
    · rw [afterLine_same (.inr (by simp [hr])) (by simp [hr])]

/-- Settles O59: at construction the sequencer is idle, no session is open, and nothing is recorded or held. -/
theorem resetHasTheInvariant : Obligations.ResetHasTheInvariant where
  uidSize  := List.mem_cons_self
  k        := Nat.zero_le _
  iter     := Nat.zero_le _
  rsp      := Nat.zero_le _
  idle     := fun _ => ⟨rfl, rfl⟩
  session  := nofun
  cache    := nofun
  trace    := nofun
  bindings := nofun
  result   := nofun

end Sys2Proof.Machine

namespace Sys2Proof

/-- A row that binds no name is read back (R85). -/
theorem decode_encode_unbound (cfg : Cfg) {i : Instr} (hw : i.wf = true) :
    decode cfg (encode cfg ⟨none, i⟩) = .ok ⟨none, i.canonical⟩ :=
  decodeOfEncode cfg ⟨none, i⟩ (by simpa [Line.wf] using hw) rfl

/-- Settles O3: eight of the words are the encodings of the instructions they stand for, so O4 reads them back; the line with a
comment, which the encoder does not write, is evaluated. -/
theorem workedExamplesDecode : Obligations.WorkedExamplesDecode :=
  ⟨decode_encode_unbound .reference (i := .regWrite .command 0x0F) rfl,
    decode_encode_unbound .reference (i := .regRead .comIrq) rfl,
    decode_encode_unbound .reference (i := .pcdMfAuthent) rfl,
    decode_encode_unbound .reference (i := .anticollCL1 0x41 [0x11, 0x22, 0x01]) rfl,
    decode_encode_unbound .reference (i := .selectCL1 #v[0x11, 0x22, 0x33, 0x44] 0x51 0x9C) rfl,
    decode_encode_unbound .reference (i := .mfAuthB 0x04 #v[0xFF, 0xFF, 0xFF, 0xFF, 0xFF, 0xFF] #v[0x11, 0x22, 0x33, 0x44]) rfl,
    decode_encode_unbound .reference (i := .mfRead 0x04 0x26 0xEE) rfl,
    decode_encode_unbound .reference (i := .mfWrite 0x01 0xD6 0xA0) rfl,
    by decide +kernel⟩

end Sys2Proof
